-- ==== Sys2Proof/Word.lean ====
section
/-!
DEFINITION. The number types of the TN-640 model: the word of the call store, the byte of the announcement store and
the number types of circuits, classes, plans, recordings, routes, channels and players (spec/00_scope.md 1.7, 1.10).
-/
namespace Sys2Proof

/-- A word of the call store (1.7: "A word is 16 bits"). -/
abbrev Word := BitVec 16
/-- A word address of the call store (1.1: 20-bit word address). -/
abbrev BusAddr := BitVec 20
/-- An offset within the supervised region of 4096 words (R158). -/
abbrev Offset := BitVec 12
/-- A byte of the announcement store, or a highway code (R76, R135). -/
abbrev Byte := BitVec 8
/-- A supervisory circuit, 0–63 (R1). -/
abbrev Circ := Fin 64
/-- A treatment class or a load grade, 0–3 (R2, R121). -/
abbrev Cls := Fin 4
/-- A tone plan number, 0–15 (R27). -/
abbrev PlanNo := Fin 16
/-- A recording number, 0–31 (R136). -/
abbrev RecNo := Fin 32
/-- A route number, 0–7 (R121). -/
abbrev Route := Fin 8
/-- A tone channel number, 0–15 (R45). -/
abbrev ChanNo := Fin 16
/-- An announcement player number, 0–3 (R98). -/
abbrev PlayNo := Fin 4
/-- A store segment number, 0–255 (R135). -/
abbrev SegNo := Fin 256
/-- An activation tag or a fetch generation, counted modulo 256 (R4, R98). -/
abbrev Tag := BitVec 8

end Sys2Proof
end

