-- ==== Sys2Proof/Syntax.lean ====
section
/-!
DEFINITION. The commands of the TN-640 model: one constructor per row of spec/opcode_table.json, with its operands.
A captured-word row names the word and carries the value; an internal event names the channel, player, circuit, block or
pool it concerns; a pin or store-device event carries the level or the answer (log 8).
-/
namespace Sys2Proof

/-- A pool that sends notices to the order unit (R48, R103). -/
inductive Pool where
  | channels
  | players
deriving DecidableEq, Repr

/-- A block that submits reports (R168). -/
inductive Block where
  | orderUnit
  | planTable
  | channelPool
  | playerPool
  | highwayPort
  | congestionUnit
  | storeController
  | captureUnit
deriving DecidableEq, Repr

/-- The commands, one per row of spec/opcode_table.json. -/
inductive Instr where
  /-- PROCESSOR_WRITE (R159): a processor write cycle of word `v` to address `a`. -/
  | processorWrite (a : BusAddr) (v : Word)
  /-- OTHER_REGION_WRITE (R158): a processor write cycle of word `v` to an address `a` that is not a captured word. -/
  | otherRegionWrite (a : BusAddr) (v : Word)
  /-- QUIET (R10): circuit `p`’s hearing word `w` with code QUIET is handed to the order unit. -/
  | quiet (p : Circ) (w : Word)
  /-- TONE_SHARED (R10): hearing word `w` of `p`, code TONE_SHARED. -/
  | toneShared (p : Circ) (w : Word)
  /-- TONE_PRIVATE (R10): hearing word `w` of `p`, code TONE_PRIVATE. -/
  | tonePrivate (p : Circ) (w : Word)
  /-- ANNOUNCE (R10): hearing word `w` of `p`, code ANNOUNCE. -/
  | announce (p : Circ) (w : Word)
  /-- CONGESTION (R10): hearing word `w` of `p`, code CONGESTION. -/
  | congestion (p : Circ) (w : Word)
  /-- CLEAR_ALL (R10): hearing word `w` of `p`, code CLEAR_ALL. -/
  | clearAll (p : Circ) (w : Word)
  /-- ORDER_INVALID_CODE (R9): hearing word `w` of `p`, code 6–15. -/
  | orderInvalidCode (p : Circ) (w : Word)
  /-- DETAIL_WORD_WRITE (R7): detail word `w` of `p` is handed over. -/
  | detailWordWrite (p : Circ) (w : Word)
  /-- SLOT_WORD_WRITE (R90): slot word `w` of `p` is handed over. -/
  | slotWordWrite (p : Circ) (w : Word)
  /-- PLAN_WORD_WRITE (R31): the plan word at region offset `off` is handed over with value `w`. -/
  | planWordWrite (off : Offset) (w : Word)
  /-- LIVE_BANK_WORD_WRITE (R33): the live-bank word is handed over. -/
  | liveBankWordWrite (w : Word)
  /-- CONGESTION_TABLE_WORD_WRITE (R124): congestion table word `k` (offset 300h + k) is handed over. -/
  | congestionTableWordWrite (k : Fin 8) (w : Word)
  /-- ROUTE_LEVEL_WORD_WRITE (R123): the route level word is handed over. -/
  | routeLevelWordWrite (w : Word)
  /-- THRESHOLD_WORD_WRITE (R125): the threshold word of grade `g + 1` is handed over. -/
  | thresholdWordWrite (g : Fin 3) (w : Word)
  /-- TIMING_WORD_1_WRITE (R161): timing word 1 is handed over. -/
  | timingWord1Write (w : Word)
  /-- TIMING_WORD_2_WRITE (R176): timing word 2 is handed over. -/
  | timingWord2Write (w : Word)
  /-- CONSUMER_INDEX_WORD_WRITE (R173): the consumer index word is handed over. -/
  | consumerIndexWordWrite (w : Word)
  /-- ACKNOWLEDGE_WORD_WRITE (R162): the acknowledge word is handed over. -/
  | acknowledgeWordWrite (w : Word)
  /-- SOFT_RESET_WORD_WRITE (R163): the soft-reset word is handed over. -/
  | softResetWordWrite (w : Word)
  /-- LOAD_BEGIN (R139): store command word `w` with code LOAD_BEGIN is handed to the store controller. -/
  | loadBegin (w : Word)
  /-- LOAD_CONFIRM (R140): store command word `w` with code LOAD_CONFIRM is handed to the store controller. -/
  | loadConfirm (w : Word)
  /-- CHUNK_READY (R141): store command word `w` with code CHUNK_READY is handed to the store controller. -/
  | chunkReady (w : Word)
  /-- LOAD_ABANDON (R144): store command word `w` with code LOAD_ABANDON is handed to the store controller. -/
  | loadAbandon (w : Word)
  /-- RETIRE_BEGIN (R139): store command word `w` with code RETIRE_BEGIN is handed to the store controller. -/
  | retireBegin (w : Word)
  /-- RETIRE_CONFIRM (R145): store command word `w` with code RETIRE_CONFIRM is handed to the store controller. -/
  | retireConfirm (w : Word)
  /-- CONFIG_BEGIN (R139): store command word `w` with code CONFIG_BEGIN is handed to the store controller. -/
  | configBegin (w : Word)
  /-- CONFIG_CONFIRM (R148): store command word `w` with code CONFIG_CONFIRM is handed to the store controller. -/
  | configConfirm (w : Word)
  /-- STORE_HOLD (R152): store command word `w` with code STORE_HOLD is handed to the store controller. -/
  | storeHold (w : Word)
  /-- STORE_RESUME (R152): store command word `w` with code STORE_RESUME is handed to the store controller. -/
  | storeResume (w : Word)
  /-- CLEAR_STORE_STATUS (R151): store command word `w` with code CLEAR_STORE_STATUS is handed to the store controller. -/
  | clearStoreStatus (w : Word)
  /-- INVALID_STORE_COMMAND (R138): a store command word whose code names no command is handed over. -/
  | invalidStoreCommand (w : Word)
  /-- STORE_PARAMETER_WRITE (R138): store parameter word `k` (0 length high, 1 length low, 2 flags and gap) is handed over. -/
  | storeParameterWrite (k : Fin 3) (w : Word)
  /-- LOAD_BUFFER_WRITE (R141): load buffer word `k` (offset 800h + k) is handed over. -/
  | loadBufferWrite (k : Fin 1024) (w : Word)
  /-- FRAME_PULSE (R87): a pulse on the frame-sync input. -/
  | framePulse
  /-- FRAME_LOSS (R94): the pulse interval timer passes 250 µs in RUNNING. -/
  | frameLoss
  /-- FRAME_COMPUTATION (R67): the sample path takes the frame start. -/
  | frameComputation
  /-- FRAME_START_CHANNELS (R53): the channel pool takes the frame start. -/
  | frameStartChannels
  /-- CADENCE_UNIT_END (R53): channel `k` ends a cadence unit. -/
  | cadenceUnitEnd (k : ChanNo)
  /-- SEGMENT_END (R53): channel `k` ends a segment. -/
  | segmentEnd (k : ChanNo)
  /-- CYCLE_END (R56): channel `k` ends a cycle. -/
  | cycleEnd (k : ChanNo)
  /-- DRAINING_NOTICE (R55): the channel pool takes the oldest draining notice. -/
  | drainingNotice
  /-- CADENCE_BOUNDARY (R18): the order unit takes a cadence boundary. -/
  | cadenceBoundary
  /-- GAP_END (R18): the changeover gap of circuit `p` ends. -/
  | gapEnd (p : Circ)
  /-- WAIT_BOUNDARY_ORDERS (R14): the order unit takes a wait boundary. -/
  | waitBoundaryOrders
  /-- WAIT_LIMIT_REACHED (R14): circuit `p`, found at the wait limit, has its expiry request sent. -/
  | waitLimitReached (p : Circ)
  /-- EXPIRY_REQUEST (R113): the player pool takes the oldest expiry request. -/
  | expiryRequest
  /-- EXPIRY_ANSWER (R14): the order unit takes the player pool’s oldest message, an expiry answer. -/
  | expiryAnswer
  /-- SERVED_NOTICE (R23): the order unit takes the oldest message of `pool`, a served notice. -/
  | servedNotice (pool : Pool)
  /-- DONE_NOTICE (R20): the order unit takes the channel pool’s oldest notice, a done notice. -/
  | doneNotice
  /-- WITHDRAWN_NOTICE (R20): the order unit takes the channel pool’s oldest notice, a withdrawn notice. -/
  | withdrawnNotice
  /-- REPEATS_EXHAUSTED_NOTICE (R22): the order unit takes the player pool’s oldest message, a repeats-exhausted notice. -/
  | repeatsExhaustedNotice
  /-- UNAVAILABLE_NOTICE (R21): the order unit takes the player pool’s oldest message, an unavailable notice. -/
  | unavailableNotice
  /-- FRAME_START_PLAYERS (R109): the player pool takes the frame start. -/
  | frameStartPlayers
  /-- ANN_CYCLE_END (R110): player `n` has reached its recording’s length. -/
  | annCycleEnd (n : PlayNo)
  /-- WAIT_BOUNDARY_PLAYERS (R111): the player pool takes a wait boundary. -/
  | waitBoundaryPlayers
  /-- PLAYER_GAP_END (R111): the inter-cycle gap of player `n` has reached 0. -/
  | playerGapEnd (n : PlayNo)
  /-- REFILL_DELIVERY (R107): the player pool takes the oldest refill delivery. -/
  | refillDelivery
  /-- FANOUT_LIMIT_CHANGE (R116): the player pool takes the oldest fan-out setting change. -/
  | fanoutLimitChange
  /-- RECORDING_WITHDRAWAL (R117): the player pool takes the store controller’s oldest notice, a withdrawal. -/
  | recordingWithdrawal
  /-- MADE_AVAILABLE_NOTICE (R118): the player pool takes the store controller’s oldest notice, made available. -/
  | madeAvailableNotice
  /-- SCAN_DONE_NOTICE (R118): the player pool takes the store controller’s oldest notice, scan done. -/
  | scanDoneNotice
  /-- LOAD_GRADE_EVALUATION (R126): the congestion unit takes a wait boundary. -/
  | loadGradeEvaluation
  /-- LOAD_LAMP_TIMER_EXPIRY (R133): the load lamp stretcher’s timer reaches 100 ms. -/
  | loadLampTimerExpiry
  /-- WITHDRAWN_ANSWER (R145): the store controller takes the pool’s oldest withdrawn answer. -/
  | withdrawnAnswer
  /-- REFILL_REQUEST (R153): the store controller takes the oldest refill request. -/
  | refillRequest
  /-- REFILL_READ_START (R153): the arbiter chooses a waiting refill. -/
  | refillReadStart
  /-- REFILL_READ_DONE (R153): the refill read in progress ends. -/
  | refillReadDone
  /-- ERASE_PULSE_START (R149): the engine comes to start an erase pulse, supply-good sampled as `good`. -/
  | erasePulseStart (good : Bool)
  /-- ERASE_PULSE_RESUME (R153): the suspended pulse comes to resume, supply-good sampled as `good`; `left` says what it leaves when it is not resumed. -/
  | erasePulseResume (good : Bool) (left : List (Nat × Byte))
  /-- ERASE_PULSE_DONE (R149): the erase pulse ends; `left` lists the bytes of the segment that do not read FFh after it. -/
  | erasePulseDone (left : List (Nat × Byte))
  /-- ERASE_VERIFY_DONE (R149): the erase verify ends. -/
  | eraseVerifyDone
  /-- PROGRAM_ATTEMPT_START (R150): the engine comes to start a program attempt, supply-good sampled as `good`. -/
  | programAttemptStart (good : Bool)
  /-- PROGRAM_ATTEMPT_DONE (R150): the attempt ends; `missed` holds, per named byte, the bits the device failed to turn to 0. -/
  | programAttemptDone (missed : List Byte)
  /-- STORE_SUPPLY_GOOD_FALL (R151): supply-good falls; `left` and `missed` say what a step cut short leaves. -/
  | storeSupplyGoodFall (left : List (Nat × Byte)) (missed : List Byte)
  /-- STORE_LOCK_CHANGE (R152): the store-lock input changes to `applied`. -/
  | storeLockChange (applied : Bool)
  /-- STORE_LAMP_TIMER_EXPIRY (R154): the store lamp stretcher’s timer reaches 100 ms. -/
  | storeLampTimerExpiry
  /-- STORE_SCAN_END (R181): the last segment of the scan has been judged. -/
  | storeScanEnd
  /-- REPORT_SUBMIT (R170): the report unit takes the oldest report submitted by block `b`. -/
  | reportSubmit (b : Block)
  /-- RING_WORD_POST (R172): a posting cycle of word 0 or word 1 of a ring entry starts. -/
  | ringWordPost
  /-- PRODUCER_INDEX_WORD_POST (R172): the third posting cycle of a ring entry starts. -/
  | producerIndexWordPost
  /-- STATUS_WORD_POST (R174): a posting cycle of a dirty status word starts. -/
  | statusWordPost
  /-- POSTING_CYCLE_END (R165): the posting cycle in progress ends. -/
  | postingCycleEnd
  /-- HOLDOFF_EXPIRY (R176): the attention holdoff timer reaches its setting. -/
  | holdoffExpiry
  /-- POWER_ON_RESET (R178): supply is applied; `left` and `missed` say what a store step cut off leaves. -/
  | powerOnReset (left : List (Nat × Byte)) (missed : List Byte)
  /-- PIN_RESET (R178): the reset input is asserted; `left` and `missed` as above. -/
  | pinReset (left : List (Nat × Byte)) (missed : List Byte)
  /-- RESET_RELEASE (R178): a power-on or pin reset ends, the straps reading `straps`. -/
  | resetRelease (straps : Fin 8)
  /-- HIGHWAY_CLOCK_BIT_TIME (R88): a highway clock. -/
  | highwayClockBitTime
deriving DecidableEq, Repr

end Sys2Proof
end

