-- ==== Sys2Proof/Decode.lean ====
section
/-!
DEFINITION. The command a word spells by the table's bits. spec/opcode_table.json gives bits for none of its rows, so no
word spells a command (log 24). The words the part itself decodes, the captured words of R167, are read by Operands.lean.
-/
namespace Sys2Proof

/-- The command that the `nbits` bits of `w` spell by the table: none, since no row gives bits. -/
def decodeTableWord (_nbits _w : Nat) : Option Instr := none

end Sys2Proof
end

