-- ==== Sys2Proof/Config.lean ====
section
/-!
DEFINITION. The fixed quantities of the part (spec/00_scope.md 1.10 and the rules named), and the values the model
names where the spec gives none. The spec leaves no result of a command open, so there is no free value here: what a
store device answers is an operand of the command (log 8).
-/
namespace Sys2Proof.Config

/-- Entries of the snoop queue (R159). -/
def snoopDepth : Nat := 32
/-- Entries of the internal report queue (R169). -/
def reportDepth : Nat := 16
/-- Codes of a player's FIFO (R98). -/
def fifoDepth : Nat := 1024
/-- Codes of one refill, and the FIFO level at or below which one is requested (R106). -/
def refillCodes : Nat := 512
/-- Codes of audio in one segment (R135). -/
def segmentCodes : Nat := 8176
/-- Bytes of one segment (R135). -/
def segmentBytes : Nat := 8192
/-- Bytes of one programming page (R135). -/
def pageBytes : Nat := 64
/-- Bytes of a segment's header (R135). -/
def headerBytes : Nat := 16
/-- Codes of one load chunk (R140). -/
def chunkCodes : Nat := 2048
/-- Codes of the longest recording (R135). -/
def longestRecording : Nat := 2084880
/-- Frames of one cadence unit of 10 ms (R53, R93). -/
def unitFrames : Nat := 80
/-- Frames of one wait unit of 100 ms (R93). -/
def waitFrames : Nat := 800
/-- Bit times of one frame (R88). -/
def frameBits : Nat := 512
/-- Erase pulses after which an erase fails (R149). -/
def pulseLimit : Nat := 100
/-- Program attempts after which a program step fails (R150). -/
def attemptLimit : Nat := 8
/-- The interval without a frame pulse past which loss is declared, in µs (R94). -/
def lossUs : Nat := 250
/-- The on time and the off time of a lamp stretcher, in µs (R133, R154). -/
def lampUs : Nat := 100000
/-- One unit of the attention holdoff, in µs (R169). -/
def holdoffUnitUs : Nat := 100
/-- Length of an erase pulse in µs (R135). -/
def erasePulseUs : Nat := 5000
/-- Length of an erase verify in µs (R135). -/
def eraseVerifyUs : Nat := 1000
/-- Length of a program attempt with its verify in µs (R135). -/
def programUs : Nat := 250
/-- Length of a refill read in µs (R135). -/
def refillUs : Nat := 40
/-- An erased byte of the store (R135); also what a store byte that nothing has written reads as
(DESIGN CHOICE, log 5, unsafe: the spec gives no contents of a new store). -/
def erasedByte : Byte := 0xFF#8
/-- What a call-store word that nothing has written reads as (DESIGN CHOICE, log 4, unsafe). -/
def callStoreFill : Word := 0#16
/-- The idle code (R81). -/
def idleCode : Byte := 0#8
/-- The value of the soft-reset word that causes a soft reset (R163). -/
def softResetKey : Word := 0xC3A5#16

end Sys2Proof.Config
end

