-- ==== Sys2Proof/Machine/State.lean ====
section
/-!
DEFINITION. The state of the TN-640, block by block as the spec's chapters own it, and `State.reset`. Plain data only.
Fields marked "model" are the model's names for a place in a procedure of the spec, not state the spec lists.
-/
namespace Sys2Proof.Machine

/-! ### Reports and posted words (chapter 10) -/

/-- The report kinds (R168). -/
inductive ReportKind where
  | orderInvalid | planInvalid | planClamped | livePlanWrite | bankBusy | bankSwitched | channelWait | privateDegraded
  | planWithdrawn | treatmentDone | annUnavailable | annWaitExpired | annDone | underrun | slotConflict | frameLost
  | frameRestored | gradeChanged | congestionUnserved | loadRefused | loadStep | loadBufferBusy | chunkOverrun | loadDone
  | loadAbandoned | retired | storeError | sequenceError | scanDone
deriving DecidableEq, Repr

/-- A report: kind, subject 0–63, 16-bit value (R168). -/
structure Report where
  kind : ReportKind
  subject : BitVec 6
  value : Word
deriving DecidableEq, Repr

/-- A report on its way from the block that submits it to the report unit (R170). -/
structure Submission where
  block : Block
  report : Report
deriving DecidableEq, Repr

/-- The posted words that carry a dirty mark (R174). -/
inductive PostedWord where
  | circuit (p : Circ)
  | global
  | producer
  | resetCause
  | storeStatus
  | player (n : PlayNo)
  | directory (r : RecNo)
deriving DecidableEq, Repr

/-- The dirty marks, one per posted word of R174. -/
structure DirtyMarks where
  circuits : Vector Bool 64
  global : Bool
  producer : Bool
  resetCause : Bool
  storeStatus : Bool
  players : Vector Bool 4
  directory : Vector Bool 32
deriving DecidableEq, Repr

/-- What every block hands to the report unit: submitted reports in flight and dirty marks. -/
structure Wire where
  submitted : List Submission
  dirty : DirtyMarks
deriving DecidableEq, Repr

/-- The entry in progress (R169): its report, and how many of its three posting cycles have ended. -/
structure RingEntry where
  report : Report
  cyclesEnded : Nat
deriving DecidableEq, Repr

/-- The report unit (R169). The holdoff timer is held in µs of the local clock. -/
structure ReportUnit where
  queue : List Report
  lost : Bool
  producer : Fin 128
  posted : Fin 128
  consumer : Fin 128
  entry : Option RingEntry
  holdoffRunning : Bool
  holdoffUs : Nat
  holdoffSetting : Nat
  attention : Bool
deriving DecidableEq, Repr

/-! ### Capture and posting unit (chapters 9 and 11) -/

/-- Whether a power-on or pin reset is in force (R178). -/
inductive ResetLine where
  | released | powerOn | pin
deriving DecidableEq, Repr

/-- An entry of the snoop queue (R159). -/
structure Capture where
  offset : Offset
  value : Word
deriving DecidableEq, Repr

/-- A processor write cycle on the bus. `uncaptured` is the model's own: the write was held or waiting as a power-on or pin
reset was asserted, or was requested under one, and goes to memory uncaptured whenever it passes (R159, R178, log 41). -/
structure BusWrite where
  addr : BusAddr
  value : Word
  uncaptured : Bool
deriving DecidableEq, Repr

/-- The posting cycle in progress (R164, R165). -/
inductive Posting where
  | ringWord0
  | ringWord1
  | producerIndex
  | status (w : PostedWord)
deriving DecidableEq, Repr

/-- The settings shadow (R161), one field per setting. -/
structure Settings where
  gap : Nat
  fanout : Nat
  waitLimit : Nat
  holdoff : Nat
  up : Vector Nat 3
  down : Vector Nat 3
  recording : Vector (Option RecNo) 4
  plan : Vector (Option PlanNo) 4
  repeats : Vector (Fin 16) 4
deriving DecidableEq, Repr

/-- The host-set marks of the settings shadow (R161), one per field. -/
structure SettingMarks where
  gap : Bool
  fanout : Bool
  waitLimit : Bool
  holdoff : Bool
  up : Vector Bool 3
  down : Vector Bool 3
  recording : Vector Bool 4
  plan : Vector Bool 4
  repeats : Vector Bool 4
deriving DecidableEq, Repr

/-- A fan-out setting change handed to the player pool (R116, R161), and whether a snoop entry carried it. -/
structure FanoutChange where
  limit : Nat
  fromEntry : Bool
deriving DecidableEq, Repr

/-- The capture and posting unit, with the call store it passes cycles to (R157–R165, R178). -/
structure Bus where
  resetLine : ResetLine
  straps : Fin 8
  callStore : List (Nat × Word)
  snoop : List Capture
  waiting : List BusWrite
  posting : Option Posting
  settings : Settings
  marks : SettingMarks
  causePower : Bool
  causePin : Bool
  causeSoft : Bool
  fanoutChanges : List FanoutChange
deriving DecidableEq, Repr

/-! ### Order unit (chapter 1) -/

/-- The kind of a treatment entry with its argument and, for ANNOUNCE, its remaining repeats (R2). -/
inductive Treatment where
  | toneShared (plan : PlanNo)
  | tonePrivate (plan : PlanNo)
  | announce (recording : RecNo) (repeats : Fin 16)
  | congestion (route : Route)
deriving DecidableEq, Repr

/-- "resolved from CONGESTION on route c at grade g" (R2). -/
structure Origin where
  route : Route
  grade : Cls
deriving DecidableEq, Repr

/-- A treatment entry (R2). -/
structure Entry where
  treat : Treatment
  followOn : Option PlanNo
  fallback : Option PlanNo
  origin : Option Origin
deriving DecidableEq, Repr

/-- A treatment set: at most one entry per class (R2). -/
abbrev TreatmentSet := Vector (Option Entry) 4

/-- The state of a circuit (R1). -/
inductive CircuitState where
  | quiet | gap | tone | channelWait | annWait | hear
deriving DecidableEq, Repr

/-- The binding of a circuit (R1, R3). -/
inductive Binding where
  | none
  | channel (k : ChanNo)
  | channelQueue
  | listener (n : PlayNo)
  | joinList (n : PlayNo)
  | waitList
deriving DecidableEq, Repr

/-- Where R14's count of an announcement wait stands: counting, found at the limit, or its expiry request sent (model). -/
inductive WaitLimitMark where
  | counting | reached | requested
deriving DecidableEq, Repr

/-- A circuit record (R1). -/
structure Circuit where
  set : TreatmentSet
  state : CircuitState
  binding : Binding
  tag : Tag
  gapLeft : Nat
  waited : Nat
  detailFollowOn : Option PlanNo
  detailFallback : Option PlanNo
  latched : Option Cls
  limit : WaitLimitMark
deriving DecidableEq, Repr

/-- An expiry request: a circuit and its tag (R14). -/
structure ExpiryReq where
  circ : Circ
  tag : Tag
deriving DecidableEq, Repr

/-- The order unit (R1, R5). -/
structure OrderUnit where
  circuits : Vector Circuit 64
  gapSetting : Nat
  waitLimit : Nat
  expiryReqs : List ExpiryReq
deriving DecidableEq, Repr

/-! ### Plan table (chapter 2) -/

/-- The two banks (R29). -/
inductive Bank where
  | A | B
deriving DecidableEq, Repr

/-- How an ON_BOTH segment combines the components (R27). -/
inductive PlanMode where
  | sum | product
deriving DecidableEq, Repr

/-- The kind of a segment as written (R27). -/
inductive SegKind where
  | off | onBoth | onFirst | invalid
deriving DecidableEq, Repr

/-- The final action as written (R27). -/
inductive FinalAction where
  | silence | holdLast | chain | invalid
deriving DecidableEq, Repr

/-- A cadence segment (R27). -/
structure Segment where
  kind : SegKind
  duration : BitVec 10
deriving DecidableEq, Repr

/-- The plan table's judgement of a plan (R29). -/
inductive PlanStatus where
  | valid | invalid | unvalidated
deriving DecidableEq, Repr

/-- A plan record (R27). -/
structure Plan where
  validFlag : Bool
  mode : PlanMode
  segCount : BitVec 3
  f1 : BitVec 13
  a1 : BitVec 6
  f2 : BitVec 13
  a2 : BitVec 6
  chainPlan : BitVec 5
  final : FinalAction
  repeats : BitVec 8
  segs : Vector Segment 6
  status : PlanStatus
deriving DecidableEq, Repr

/-- The state of a bank (R29). -/
inductive BankState where
  | idle | live | draining
deriving DecidableEq, Repr

/-- A bank: its plans, its state and its reference count (R27, R29). -/
structure BankRecord where
  plans : Vector Plan 16
  state : BankState
  refs : Nat
deriving DecidableEq, Repr

/-- The plan table (R29), with the draining notices it has sent and the channel pool has not taken (R36). -/
structure PlanTable where
  bankA : BankRecord
  bankB : BankRecord
  live : Option Bank
  drainNotices : List Bank
deriving DecidableEq, Repr

/-! ### Tone channel pool (chapter 3) -/

/-- A listener entry of a channel (R45). -/
structure ToneListener where
  circ : Circ
  tag : Tag
  isPrivate : Bool
deriving DecidableEq, Repr

/-- Which event of R53 a channel has reached and the pool has not yet taken (model). -/
inductive CadenceDue where
  | none | unitEnd | segmentEnd | cycleEnd
deriving DecidableEq, Repr

/-- The record of a channel that is not FREE (R45), with its channel value y (R66). `computed` is the model's own: the frame
computation has served the channel (R53 step 1) and the count of that frame (R53 step 3) is still to be taken (log 36). -/
structure Run where
  isPrivate : Bool
  bank : Bank
  plan : PlanNo
  listeners : List ToneListener
  segIndex : Fin 6
  segLeft : Nat
  unitFrames : Nat
  cycles : Nat
  phase1 : BitVec 16
  phase2 : BitVec 16
  movePending : Bool
  holding : Bool
  value : Option Int
  computed : Bool
  due : CadenceDue
deriving DecidableEq, Repr

/-- A channel: FREE, or running (R45). -/
abbrev Channel := Option Run

/-- A waiter of the channel wait queue (R46). -/
structure ToneWaiter where
  circ : Circ
  isPrivate : Bool
  plan : PlanNo
  tag : Tag
deriving DecidableEq, Repr

/-- How a served circuit came to its channel: allocated, joined, or joined after its private request was degraded (R48). -/
inductive ServedHow where
  | allocated | joined | degraded
deriving DecidableEq, Repr

/-- What a channel pool notice says (R48). -/
inductive ChannelMessage where
  | served (k : ChanNo) (how : ServedHow)
  | done
  | withdrawn
deriving DecidableEq, Repr

/-- A notice of the channel pool to the order unit (R48). -/
structure ChannelNotice where
  circ : Circ
  tag : Tag
  what : ChannelMessage
deriving DecidableEq, Repr

/-- The tone channel pool (R45, R46), with its notices in flight. -/
structure ChannelPool where
  chans : Vector Channel 16
  queue : List ToneWaiter
  notices : List ChannelNotice
deriving DecidableEq, Repr

/-! ### Player pool (chapter 6) -/

/-- The state of a player (R98). -/
inductive PlayerState where
  | idle | priming | playing | gap
deriving DecidableEq, Repr

/-- A listener entry of a player (R99). -/
structure AnnListener where
  circ : Circ
  tag : Tag
  repeats : Fin 16
  atStart : Bool
deriving DecidableEq, Repr

/-- A join entry of a player (R99). -/
structure JoinEntry where
  circ : Circ
  tag : Tag
  repeats : Fin 16
deriving DecidableEq, Repr

/-- A player record (R98). `handed` is the code handed over for the present frame (R109, model). -/
structure Player where
  state : PlayerState
  recording : Option RecNo
  pos : Nat
  fetch : Nat
  fifo : List Byte
  refillOut : Bool
  gen : Tag
  wrapped : Bool
  listeners : List AnnListener
  joins : List JoinEntry
  gapLeft : Nat
  underrun : Bool
  handed : Option Byte
deriving DecidableEq, Repr

/-- A waiter of the announcement wait list (R100). -/
structure AnnWaiter where
  circ : Circ
  recording : RecNo
  repeats : Fin 16
  tag : Tag
deriving DecidableEq, Repr

/-- What the recording view holds of an available recording (R101). -/
structure ViewRecord where
  length : Nat
  bargeIn : Bool
  gap : Nat
deriving DecidableEq, Repr

/-- What a player pool message to the order unit says (R103). -/
inductive PlayerMessage where
  | moved (n : PlayNo)
  | listener (n : PlayNo)
  | exhausted
  | unavailable
  | expired
  | listening (n : PlayNo)
  | notHeld
deriving DecidableEq, Repr

/-- A notice or expiry answer of the player pool to the order unit (R103). -/
structure PlayerNotice where
  circ : Circ
  tag : Tag
  what : PlayerMessage
deriving DecidableEq, Repr

/-- A refill request (R106). -/
structure RefillReq where
  player : PlayNo
  recording : RecNo
  start : Nat
  count : Nat
  gen : Tag
deriving DecidableEq, Repr

/-- The player pool (R98–R101), with what it has in flight to the order unit and the store controller. -/
structure PlayerPool where
  players : Vector Player 4
  waitList : List AnnWaiter
  fanout : Nat
  scanning : Bool
  view : Vector (Option ViewRecord) 32
  notices : List PlayerNotice
  refillReqs : List RefillReq
  withdrawnAnswers : List RecNo
deriving DecidableEq, Repr

/-! ### Congestion unit (chapter 7) -/

/-- The phase of a lamp stretcher (R133). -/
inductive LampPhase where
  | idle | lit | darkened
deriving DecidableEq, Repr

/-- A lamp stretcher with its timer in µs of the local clock (R121, R136). -/
structure Lamp where
  phase : LampPhase
  us : Nat
  pending : Bool
deriving DecidableEq, Repr

/-- An entry of the congestion treatment table (R121). -/
structure TableEntry where
  recording : Option RecNo
  plan : Option PlanNo
  repeats : Fin 16
deriving DecidableEq, Repr

/-- The congestion unit (R121). `up` and `down` are indexed by grade − 1. -/
structure CongestionUnit where
  levels : Vector Cls 8
  table : Vector TableEntry 4
  up : Vector Nat 3
  down : Vector Nat 3
  grade : Cls
  lamp : Lamp
deriving DecidableEq, Repr

/-! ### Highway port and sample path (chapters 4 and 5) -/

/-- A circuit's entry of a slot map (R86). -/
structure MapEntry where
  mapped : Bool
  slot : Fin 64
  trim : Fin 48
deriving DecidableEq, Repr

/-- The frame-sync monitor (R86). -/
inductive Monitor where
  | running | lost
deriving DecidableEq, Repr

/-- The highway data output (R88). -/
inductive HighwayPin where
  | highZ
  | driven (b : Bool)
deriving DecidableEq, Repr

/-- The highway port (R86), the frame-start and boundary deliveries not yet taken (R87, R93), and the frame in progress:
`sending` counts its bit times carried out (R88). -/
structure Highway where
  map : Vector MapEntry 64
  next : Vector MapEntry 64
  baseCount : Nat
  monitor : Monitor
  pulseUs : Nat
  lossMs : Nat
  lossUs : Nat
  sending : Option Nat
  pin : HighwayPin
  sampleDue : Bool
  channelsDue : Bool
  playersDue : Bool
  cadenceDue : Nat
  waitOrdersDue : Nat
  waitPlayersDue : Nat
  waitGradeDue : Nat
deriving DecidableEq, Repr

/-- The sample path's working state (R66); phases and channel values stand in the channel records. -/
structure SamplePath where
  playerValues : Vector (Option Int) 4
  outCodes : Vector Byte 64
deriving DecidableEq, Repr

/-! ### Store controller (chapter 8) and store scan (chapter 11) -/

/-- The state of a directory record (R136). -/
inductive DirState where
  | absent | loading | available | retiring
deriving DecidableEq, Repr

/-- A directory record (R136); the fields are 0 for an ABSENT one. -/
structure DirRecord where
  state : DirState
  firstSeg : SegNo
  segCount : Nat
  length : Nat
  permanent : Bool
  bargeIn : Bool
  gap : Nat
deriving DecidableEq, Repr

/-- The segment map's record of a segment (R136). -/
inductive SegState where
  | erased
  | dirty
  | used (r : RecNo) (index : Nat)
  | bad
  | configValid
  | configAbsent
deriving DecidableEq, Repr

/-- The engine states (R136). -/
inductive Engine where
  | scanning | idle | preparing | receiving | programming | finishing | retiring | configWriting
deriving DecidableEq, Repr

/-- An allocated segment of a load session: still to be erased, header programmed (R140), and touched: a pulse or attempt
has acted on it since allocation without a verified erase after it (R144). -/
structure SessionSeg where
  seg : SegNo
  toErase : Bool
  headerDone : Bool
  touched : Bool
deriving DecidableEq, Repr

/-- A load session (R140). `nextCode` is the next code to be programmed (model). -/
structure Session where
  recording : RecNo
  length : Nat
  chunks : Nat
  nextRecv : Nat
  nextProg : Nat
  segs : List SessionSeg
  busyReported : Bool
  nextCode : Nat
deriving DecidableEq, Repr

/-- The state of a chunk buffer (R136). -/
inductive BufState where
  | empty | filling | ready | programming
deriving DecidableEq, Repr

/-- A chunk buffer (R136): 2048 bytes, an unlisted byte reading FFh. -/
structure ChunkBuf where
  state : BufState
  bytes : List Host.Cell
  chunk : Nat
deriving DecidableEq, Repr

/-- The kinds of pending begin (R139). -/
inductive BeginKind where
  | load | retire | config
deriving DecidableEq, Repr

/-- A pending begin with the recording field of its word (R136). -/
structure PendingBegin where
  kind : BeginKind
  recording : RecNo
deriving DecidableEq, Repr

/-- The reasons of a refusal, coded 1–7 (R140). -/
inductive RefusalReason where
  | badLength | alreadyExists | statusNotClear | engineBusy | noSpace | lockProtected | notAvailable
deriving DecidableEq, Repr

/-- What a program step programs (R142, R143, R148). -/
inductive ProgramWhat where
  | header (index : Nat)
  | codes (upTo : Nat)
  | completionMark
  | configValues
  | configMark
deriving DecidableEq, Repr

/-- A program step: the named bytes of one page, as offsets within the segment (R135, R150). -/
structure ProgramStep where
  seg : SegNo
  what : ProgramWhat
  bytes : List Host.Cell
deriving DecidableEq, Repr

/-- A step in progress on the store port (R135, R153). A refill read a reset has cancelled is not delivered (R137). -/
inductive PortStep where
  | refill (q : RefillReq) (deliver : Bool)
  | erasePulse (seg : SegNo)
  | eraseVerify (seg : SegNo)
  | attempt (step : ProgramStep)
deriving DecidableEq, Repr

/-- The step in progress and its remaining time in µs of the local clock (R135). -/
structure Port where
  step : PortStep
  leftUs : Nat
deriving DecidableEq, Repr

/-- A suspended erase pulse and its remaining time (R153). -/
structure SuspendedPulse where
  seg : SegNo
  leftUs : Nat
deriving DecidableEq, Repr

/-- The retirement in progress (R145, R146): segments still to be erased, first one in hand. -/
structure RetireJob where
  recording : RecNo
  segCount : Nat
  remaining : List SegNo
  answered : Bool
deriving DecidableEq, Repr

/-- The phase of a configuration write (R148). -/
inductive ConfigPhase where
  | erase | values | mark
deriving DecidableEq, Repr

/-- The configuration write in progress: the thirteen words taken at the confirm (R148, R180). -/
structure ConfigJob where
  words : List Word
  phase : ConfigPhase
deriving DecidableEq, Repr

/-- A refill delivery to the player pool (R107). -/
structure Delivery where
  player : PlayNo
  gen : Tag
  codes : List Byte
deriving DecidableEq, Repr

/-- A notice of the store controller to the player pool (R117, R118). -/
inductive PoolNotice where
  | withdrawal (r : RecNo)
  | madeAvailable (r : RecNo) (v : ViewRecord)
  | scanDone (view : Vector (Option ViewRecord) 32)
deriving DecidableEq, Repr

/-- The store controller (R136), the announcement store (R135), and the store input levels (R151, R152). -/
structure StoreController where
  bytes : List Host.Cell
  dir : Vector DirRecord 32
  segMap : Vector SegState 256
  engine : Engine
  hold : Bool
  session : Option Session
  settling : Option Session
  retire : Option RetireJob
  config : Option ConfigJob
  pulses : Nat
  attempts : Nat
  bufA : ChunkBuf
  bufB : ChunkBuf
  eraseFail : Bool
  programFail : Bool
  supplyAbort : Bool
  pendingBegin : Option PendingBegin
  paramHigh : Word
  paramLow : Word
  paramFlags : Word
  lastRefusal : Option RefusalReason
  refillQ : List RefillReq
  lamp : Lamp
  port : Option Port
  suspended : Option SuspendedPulse
  deliveries : List Delivery
  poolNotices : List PoolNotice
  scanComplete : Bool
  lock : Bool
  supplyGood : Bool
deriving DecidableEq, Repr

/-! ### The machine -/

/-- The state of the part: the queue of commands waiting, first in first out, and the blocks. -/
structure State where
  pending : List Instr
  bus : Bus
  reports : ReportUnit
  wire : Wire
  orders : OrderUnit
  plans : PlanTable
  chans : ChannelPool
  sample : SamplePath
  highway : Highway
  players : PlayerPool
  cong : CongestionUnit
  store : StoreController
deriving DecidableEq, Repr

/-- The spec describes no stop of the part: every refused order or command is a report and the part goes on.
No command faults, so there is no reason here. -/
inductive Fault
deriving DecidableEq, Repr

/-- Why a command has no meaning. -/
inductive Refusal where
  /-- Raised by `exec` alone, for a command whose meaning is not written yet; safe. No arm raises it now. -/
  | notModelled (mnemonic : String)
deriving DecidableEq, Repr

/-! ### Reset values, block by block -/

/-- A circuit record after any reset (R5). -/
def Circuit.initial : Circuit where
  set := Vector.replicate 4 none
  state := .quiet
  binding := .none
  tag := 0
  gapLeft := 0
  waited := 0
  detailFollowOn := none
  detailFallback := none
  latched := none
  limit := .counting

/-- The order unit after a power-on or pin reset (R5). -/
def OrderUnit.initial : OrderUnit where
  circuits := Vector.replicate 64 Circuit.initial
  gapSetting := 4
  waitLimit := 100
  expiryReqs := []

/-- A plan record after a power-on or pin reset (R30). -/
def Plan.initial : Plan where
  validFlag := false
  mode := .sum
  segCount := 0
  f1 := 0
  a1 := 0
  f2 := 0
  a2 := 0
  chainPlan := 0
  final := .silence
  repeats := 0
  segs := Vector.replicate 6 ⟨.off, 0⟩
  status := .invalid

/-- A bank after a power-on or pin reset (R30). -/
def BankRecord.initial : BankRecord where
  plans := Vector.replicate 16 Plan.initial
  state := .idle
  refs := 0

/-- The plan table after a power-on or pin reset (R30). -/
def PlanTable.initial : PlanTable where
  bankA := BankRecord.initial
  bankB := BankRecord.initial
  live := none
  drainNotices := []

/-- The channel pool after any reset (R47). -/
def ChannelPool.initial : ChannelPool where
  chans := Vector.replicate 16 none
  queue := []
  notices := []

/-- An IDLE player with the fetch generation `gen` (R98). -/
def Player.idleWith (gen : Tag) : Player where
  state := .idle
  recording := none
  pos := 0
  fetch := 0
  fifo := []
  refillOut := false
  gen := gen
  wrapped := false
  listeners := []
  joins := []
  gapLeft := 0
  underrun := false
  handed := none

/-- The player pool after a power-on or pin reset (R102). -/
def PlayerPool.initial : PlayerPool where
  players := Vector.replicate 4 (Player.idleWith 0)
  waitList := []
  fanout := 32
  scanning := true
  view := Vector.replicate 32 none
  notices := []
  refillReqs := []
  withdrawnAnswers := []

/-- A lamp stretcher after any reset (R122, R137). -/
def Lamp.off : Lamp := ⟨.idle, 0, false⟩

/-- The congestion unit after a power-on or pin reset (R122). -/
def CongestionUnit.initial : CongestionUnit where
  levels := Vector.replicate 8 0
  table := Vector.replicate 4 ⟨none, none, 0⟩
  up := #v[8, 16, 32]
  down := #v[4, 12, 24]
  grade := 0
  lamp := Lamp.off

/-- The slot map after any reset: circuit p in slot p with trim 12 (R86). -/
def initialMap : Vector MapEntry 64 := Vector.ofFn fun p => ⟨true, p, 12⟩

/-- The highway port after a power-on or pin reset (R86). -/
def Highway.initial : Highway where
  map := initialMap
  next := initialMap
  baseCount := 0
  monitor := .lost
  pulseUs := 0
  lossMs := 0
  lossUs := 0
  sending := none
  pin := .highZ
  sampleDue := false
  channelsDue := false
  playersDue := false
  cadenceDue := 0
  waitOrdersDue := 0
  waitPlayersDue := 0
  waitGradeDue := 0

/-- The sample path after any reset (R66). -/
def SamplePath.initial : SamplePath where
  playerValues := Vector.replicate 4 none
  outCodes := Vector.replicate 64 Config.idleCode

/-- The settings shadow's defaults (R161). -/
def Settings.initial : Settings where
  gap := 4
  fanout := 32
  waitLimit := 100
  holdoff := 0
  up := #v[8, 16, 32]
  down := #v[4, 12, 24]
  recording := Vector.replicate 4 none
  plan := Vector.replicate 4 none
  repeats := Vector.replicate 4 0

/-- No host-set mark (R161). -/
def SettingMarks.initial : SettingMarks where
  gap := false
  fanout := false
  waitLimit := false
  holdoff := false
  up := Vector.replicate 3 false
  down := Vector.replicate 3 false
  recording := Vector.replicate 4 false
  plan := Vector.replicate 4 false
  repeats := Vector.replicate 4 false

/-- The report unit after a power-on or pin reset (R169). -/
def ReportUnit.initial : ReportUnit where
  queue := []
  lost := false
  producer := 0
  posted := 0
  consumer := 0
  entry := none
  holdoffRunning := false
  holdoffUs := 0
  holdoffSetting := 0
  attention := false

/-- Every dirty mark set to `b`. -/
def DirtyMarks.all (b : Bool) : DirtyMarks where
  circuits := Vector.replicate 64 b
  global := b
  producer := b
  resetCause := b
  storeStatus := b
  players := Vector.replicate 4 b
  directory := Vector.replicate 32 b

/-- An ABSENT directory record, its fields 0 (R136). -/
def DirRecord.absent : DirRecord := ⟨.absent, 0, 0, 0, false, false, 0⟩

/-- An EMPTY chunk buffer (R137); its bytes FFh and its chunk index 0 are DESIGN CHOICE (log 40). -/
def ChunkBuf.cleared : ChunkBuf := ⟨.empty, [], 0⟩

/-- The segment map before the scan has judged it (DESIGN CHOICE, log 18: R137 says only that the scan rebuilds it). -/
def unscannedMap : Vector SegState 256 := (Vector.replicate 256 SegState.dirty).set 0 .configAbsent

/-- The store controller after a power-on or pin reset (R137), over a store holding `bytes`, with the levels of the
store-lock and store-supply-good inputs. -/
def StoreController.initial (bytes : List Host.Cell) (lock supplyGood : Bool) : StoreController where
  bytes := bytes
  dir := Vector.replicate 32 DirRecord.absent
  segMap := unscannedMap
  engine := .scanning
  hold := false
  session := none
  settling := none
  retire := none
  config := none
  pulses := 0
  attempts := 0
  bufA := ChunkBuf.cleared
  bufB := ChunkBuf.cleared
  eraseFail := false
  programFail := false
  supplyAbort := false
  pendingBegin := none
  paramHigh := 0
  paramLow := 0
  paramFlags := 0
  lastRefusal := none
  refillQ := []
  lamp := Lamp.off
  port := none
  suspended := none
  deliveries := []
  poolNotices := []
  scanComplete := false
  lock := lock
  supplyGood := supplyGood

/-- The capture and posting unit at the release of a power-on reset, over a call store holding `mem` (R159, R161, R178). -/
def Bus.initial (mem : List (Nat × Word)) (straps : Fin 8) : Bus where
  resetLine := .released
  straps := straps
  callStore := mem
  snoop := []
  waiting := []
  posting := none
  settings := Settings.initial
  marks := SettingMarks.initial
  causePower := true
  causePin := false
  causeSoft := false
  fanoutChanges := []

/-- The machine right after the release of a power-on reset: every block at the value its rule gives (R179), capture and
posting begun, every posted word marked dirty, the scan begun (R178). Straps 0, store lock released, supply good, nothing
listed in the call store and the announcement store: DESIGN CHOICE (log 3, log 4, log 5; unsafe). -/
def State.reset : State where
  pending := []
  bus := Bus.initial [] 0
  reports := ReportUnit.initial
  wire := ⟨[], DirtyMarks.all true⟩
  orders := OrderUnit.initial
  plans := PlanTable.initial
  chans := ChannelPool.initial
  sample := SamplePath.initial
  highway := Highway.initial
  players := PlayerPool.initial
  cong := CongestionUnit.initial
  store := StoreController.initial [] false true

end Sys2Proof.Machine
end

