-- ==== Sys2Proof/Machine/Operands.lean ====
section
/-!
DEFINITION. The layouts of the captured words (R167) and the map of the supervised region (R158, R166): how a command
reads the fields of the word it carries. Bits a layout does not name are ignored.
-/
namespace Sys2Proof.Machine

/-- The number in the `len` bits of `w` from bit `lo` up. -/
def field (w : Word) (lo len : Nat) : Nat := w.toNat / 2 ^ lo % 2 ^ len

/-- Bit `i` of `w`. -/
def flag (w : Word) (i : Nat) : Bool := w.getLsbD i

/-! ### Hearing, detail and slot words -/

/-- Hearing word 15:12, the order code (R6). -/
def orderCode (w : Word) : Nat := field w 12 4
/-- Hearing word 11:10, the class (R6). -/
def orderClass (w : Word) : Cls := Fin.ofNat 4 (field w 10 2)
/-- Hearing word 9:4, the argument, 0–63 (R6). -/
def orderArg (w : Word) : Nat := field w 4 6
/-- Hearing word 3:0, the repeats (R6). -/
def orderRepeats (w : Word) : Fin 16 := Fin.ofNat 16 (field w 0 4)

/-- Detail word 12 and 11:8, the fallback plan (R7). -/
def detailFallback (w : Word) : Option PlanNo := if flag w 12 then some (Fin.ofNat 16 (field w 8 4)) else none
/-- Detail word 4 and 3:0, the follow-on plan (R7). -/
def detailFollowOn (w : Word) : Option PlanNo := if flag w 4 then some (Fin.ofNat 16 (field w 0 4)) else none

/-- Slot word: 15 mapped, 13:8 slot, 5:0 trim with 48–63 taken as 47 (R8). -/
def slotEntry (w : Word) : MapEntry :=
  ⟨flag w 15, Fin.ofNat 64 (field w 8 6), Fin.ofNat 48 (min (field w 0 6) 47)⟩

/-! ### Plan words -/

/-- A final action code (R167). -/
def finalActionOf (n : Nat) : FinalAction :=
  match n with
  | 0 => .silence
  | 1 => .holdLast
  | 2 => .chain
  | _ => .invalid

/-- A segment kind code (R167). -/
def segKindOf (n : Nat) : SegKind :=
  match n with
  | 0 => .off
  | 1 => .onBoth
  | 2 => .onFirst
  | _ => .invalid

/-- A segment word: 11:10 kind, 9:0 duration (R167). -/
def segmentOf (w : Word) : Segment := ⟨segKindOf (field w 10 2), BitVec.ofNat 10 (field w 0 10)⟩

/-- The plan record with the fields of plan word `k` replaced by those of `w`; words 12–15 carry none (R28, R31, R167).
The status is left as it is. -/
def planWithWord (k : Nat) (w : Word) (p : Plan) : Plan :=
  match k with
  | 0 => { p with validFlag := flag w 15, mode := if flag w 14 then .product else .sum, segCount := BitVec.ofNat 3 (field w 0 3) }
  | 1 => { p with f1 := BitVec.ofNat 13 (field w 0 13) }
  | 2 => { p with a1 := BitVec.ofNat 6 (field w 0 6) }
  | 3 => { p with f2 := BitVec.ofNat 13 (field w 0 13) }
  | 4 => { p with a2 := BitVec.ofNat 6 (field w 0 6) }
  | 5 => { p with chainPlan := BitVec.ofNat 5 (field w 10 5), final := finalActionOf (field w 8 2), repeats := BitVec.ofNat 8 (field w 0 8) }
  | 6 => { p with segs := p.segs.set 0 (segmentOf w) }
  | 7 => { p with segs := p.segs.set 1 (segmentOf w) }
  | 8 => { p with segs := p.segs.set 2 (segmentOf w) }
  | 9 => { p with segs := p.segs.set 3 (segmentOf w) }
  | 10 => { p with segs := p.segs.set 4 (segmentOf w) }
  | 11 => { p with segs := p.segs.set 5 (segmentOf w) }
  | _ => p

/-- The bank, plan and word of a plan offset 100h–2FFh (R166): bank A from 100h, bank B from 200h, plan q at 16q. -/
def planOffset (off : Offset) : Bank × PlanNo × Nat :=
  (if off.toNat < 0x200 then .A else .B, Fin.ofNat 16 (off.toNat % 256 / 16), off.toNat % 16)

/-- Live-bank word 0 (R33, R167). -/
def liveBankOf (w : Word) : Bank := if flag w 0 then .B else .A

/-! ### Settings, clamped as R161 gives -/

/-- Timing word 1, 4:0: changeover gap, above 20 taken as 20. -/
def timingGap (w : Word) : Nat := min (field w 0 5) 20
/-- Timing word 1, 14:8: fan-out limit, 0 taken as 1, above 64 as 64. -/
def timingFanout (w : Word) : Nat := min (max (field w 8 7) 1) 64
/-- Timing word 2, 7:0: wait limit, 0 taken as 1. -/
def timingWaitLimit (w : Word) : Nat := max (field w 0 8) 1
/-- Timing word 2, 15:8: attention holdoff. -/
def timingHoldoff (w : Word) : Nat := field w 8 8
/-- Threshold word, 14:8: up, above 64 taken as 64. -/
def thresholdUp (w : Word) : Nat := min (field w 8 7) 64
/-- Threshold word, 6:0: down, above 64 taken as 64. -/
def thresholdDown (w : Word) : Nat := min (field w 0 7) 64
/-- Table word 2g: 15 recording present, 4:0 recording. -/
def tableRecording (w : Word) : Option RecNo := if flag w 15 then some (Fin.ofNat 32 (field w 0 5)) else none
/-- Table word 2g + 1: 15 plan present, 11:8 plan. -/
def tablePlan (w : Word) : Option PlanNo := if flag w 15 then some (Fin.ofNat 16 (field w 8 4)) else none
/-- Table word 2g + 1, 3:0: announcement repeats. -/
def tableRepeats (w : Word) : Fin 16 := Fin.ofNat 16 (field w 0 4)
/-- Route level word: bits 2c + 1:2c are the level of route c (R123). -/
def routeLevels (w : Word) : Vector Cls 8 := Vector.ofFn fun c => Fin.ofNat 4 (field w (2 * c.val) 2)
/-- Consumer index word 6:0 (R173). -/
def consumerIndex (w : Word) : Fin 128 := Fin.ofNat 128 (field w 0 7)

/-! ### Store words -/

/-- Store command word 15:12 (R138). -/
def storeCode (w : Word) : Nat := field w 12 4
/-- Store command word 4:0, the recording field (R138). -/
def storeRecording (w : Word) : RecNo := Fin.ofNat 32 (field w 0 5)
/-- Flags-and-gap word 15: permanent. -/
def flagsPermanent (w : Word) : Bool := flag w 15
/-- Flags-and-gap word 14: barge-in. -/
def flagsBargeIn (w : Word) : Bool := flag w 14
/-- Flags-and-gap word 5:0: inter-cycle gap, above 50 taken as 50 (R140). -/
def flagsGap (w : Word) : Nat := min (field w 0 6) 50

/-! ### The supervised region -/

/-- The region base for latched straps n: F8000h + n × 1000h (R158). -/
def regionBase (straps : Fin 8) : Nat := 0xF8000 + straps.val * 0x1000

/-- The offset of an address within the region, if it lies there (R158). -/
def regionOffset (straps : Fin 8) (a : BusAddr) : Option Offset :=
  if regionBase straps ≤ a.toNat ∧ a.toNat < regionBase straps + 0x1000 then
    some (BitVec.ofNat 12 (a.toNat - regionBase straps))
  else none

/-- Whether the offset is a captured word (R166). -/
def isCaptured (off : Offset) : Bool :=
  let o := off.toNat
  o < 0x0C0 || (0x100 ≤ o && o ≤ 0x315) || (0x800 ≤ o && o < 0xC00)

/-- Whether the offset is a posted word, ring entries included (R166). -/
def isPosted (off : Offset) : Bool :=
  let o := off.toNat
  (0x0C0 ≤ o && o < 0x100) || (0x320 ≤ o && o < 0x328) || (0x340 ≤ o && o < 0x360) || (0x400 ≤ o && o < 0x500)

/-- The offset of a posted word that carries a dirty mark (R174). -/
def PostedWord.offset : PostedWord → Nat
  | .circuit p => 0x0C0 + p.val
  | .global => 0x320
  | .producer => 0x321
  | .resetCause => 0x322
  | .storeStatus => 0x323
  | .player n => 0x324 + n.val
  | .directory r => 0x340 + r.val

end Sys2Proof.Machine
end

