-- ==== Sys2Proof/Machine/Ops.lean ====
section
/-!
DEFINITION. Shared operations: sparse memories, reports and dirty marks, the bus side (snoop queue, processor writes,
posting), the local clock, the lamp stretcher.
-/
namespace Sys2Proof.Machine

/-! ### Sparse memories: addresses strictly rising, no entry equal to the fill -/

/-- What a memory reads at an address; an unlisted address reads as `fill`. -/
def memRead {w : Nat} (fill : BitVec w) : List (Nat × BitVec w) → Nat → BitVec w
  | [], _ => fill
  | (b, x) :: m, a => if b = a then x else memRead fill m a

/-- Put `v` at `a` in a rising list, dropping what stood there; the fill value is not listed. -/
def memWrite {w : Nat} (fill : BitVec w) : List (Nat × BitVec w) → Nat → BitVec w → List (Nat × BitVec w)
  | [], a, v => if v = fill then [] else [(a, v)]
  | (b, x) :: m, a, v =>
    if b < a then (b, x) :: memWrite fill m a v
    else
      let rest := if b = a then m else (b, x) :: m
      if v = fill then rest else (a, v) :: rest

/-- The canonical form: addresses strictly rising, no entry equal to the fill. -/
def memWf {w : Nat} (fill : BitVec w) : List (Nat × BitVec w) → Bool
  | [] => true
  | [(_, x)] => x != fill
  | (a, x) :: (b, y) :: m => decide (a < b) && x != fill && memWf fill ((b, y) :: m)

/-- A run of writes, first to last. -/
def memWriteAll {w : Nat} (fill : BitVec w) (m : List (Nat × BitVec w)) (cells : List (Nat × BitVec w)) : List (Nat × BitVec w) :=
  cells.foldl (fun m c => memWrite fill m c.1 c.2) m

/-! ### Lists ordered by arrival -/

/-- Take out of a list, oldest first, up to `n` members that satisfy `p`: those taken, and the others in their order. -/
def takeMatching {α : Type} (p : α → Bool) : Nat → List α → List α × List α
  | 0, l => ([], l)
  | _ + 1, [] => ([], [])
  | n + 1, x :: l =>
    if p x then
      let r := takeMatching p n l
      (x :: r.1, r.2)
    else
      let r := takeMatching p (n + 1) l
      (r.1, x :: r.2)

/-- Replace the newest member (nearest the tail) that satisfies `p`; none if there is none. -/
def replaceNewest {α : Type} (p : α → Bool) (f : α → α) : List α → Option (List α)
  | [] => none
  | x :: l =>
    match replaceNewest p f l with
    | some l' => some (x :: l')
    | none => if p x then some (f x :: l) else none

/-- The players in ascending number. -/
def allPlayers : List PlayNo := [0, 1, 2, 3]
/-- The channels in ascending number. -/
def allChannels : List ChanNo := List.finRange 16
/-- The circuits in ascending number. -/
def allCircuits : List Circ := List.finRange 64
/-- The recordings in ascending number. -/
def allRecordings : List RecNo := List.finRange 32
/-- The segments 0–255 in ascending number. -/
def allSegments : List SegNo := List.finRange 256
/-- The audio segments 1–255 in ascending number (R135). -/
def audioSegments : List SegNo := allSegments.tail

/-! ### Dirty marks and report submission -/

/-- Set or clear the mark of one posted word. -/
def DirtyMarks.put (d : DirtyMarks) (w : PostedWord) (b : Bool) : DirtyMarks :=
  match w with
  | .circuit p => { d with circuits := d.circuits.set p b }
  | .global => { d with global := b }
  | .producer => { d with producer := b }
  | .resetCause => { d with resetCause := b }
  | .storeStatus => { d with storeStatus := b }
  | .player n => { d with players := d.players.set n b }
  | .directory r => { d with directory := d.directory.set r b }

/-- The mark of one posted word. -/
def DirtyMarks.get (d : DirtyMarks) (w : PostedWord) : Bool :=
  match w with
  | .circuit p => d.circuits[p]
  | .global => d.global
  | .producer => d.producer
  | .resetCause => d.resetCause
  | .storeStatus => d.storeStatus
  | .player n => d.players[n]
  | .directory r => d.directory[r]

/-- The posted words of R174 in ascending offset. -/
def postedWords : List PostedWord :=
  allCircuits.map .circuit ++ [.global, .producer, .resetCause, .storeStatus] ++ allPlayers.map .player
    ++ allRecordings.map .directory

/-- The marked word of lowest offset (R174). -/
def DirtyMarks.lowest (d : DirtyMarks) : Option PostedWord := postedWords.find? d.get

/-- A block marks a posted word dirty (R174). -/
def Wire.mark (x : Wire) (w : PostedWord) : Wire := { x with dirty := x.dirty.put w true }

/-- A block submits a report (R168, R170); it is in flight until REPORT_SUBMIT takes it. -/
def Wire.submit (x : Wire) (b : Block) (k : ReportKind) (subject value : Nat) : Wire :=
  { x with submitted := x.submitted ++ [⟨b, ⟨k, BitVec.ofNat 6 subject, BitVec.ofNat 16 value⟩⟩] }

/-- A block submits a report whose value is a word as captured. -/
def Wire.submitWord (x : Wire) (b : Block) (k : ReportKind) (subject : Nat) (w : Word) : Wire :=
  x.submit b k subject w.toNat

def State.mark (s : State) (w : PostedWord) : State := { s with wire := s.wire.mark w }
def State.submit (s : State) (b : Block) (k : ReportKind) (subject value : Nat) : State :=
  { s with wire := s.wire.submit b k subject value }

/-! ### The exchange: what the treatment machinery works on -/

/-- The blocks a treatment passes through: order unit, plan table, channel pool, player pool, congestion unit, and what
they hand to the report unit. Commands of these blocks change nothing outside it. -/
structure Exchange where
  wire : Wire
  orders : OrderUnit
  plans : PlanTable
  chans : ChannelPool
  players : PlayerPool
  cong : CongestionUnit

/-- The exchange of a state. -/
def State.exchange (s : State) : Exchange := ⟨s.wire, s.orders, s.plans, s.chans, s.players, s.cong⟩

/-- The state with its exchange replaced. -/
def State.withExchange (s : State) (e : Exchange) : State :=
  { s with wire := e.wire, orders := e.orders, plans := e.plans, chans := e.chans, players := e.players, cong := e.cong }

/-- Work on the exchange of a state. -/
def State.onExchange (s : State) (f : Exchange → Exchange) : State := s.withExchange (f s.exchange)

def Exchange.mark (e : Exchange) (w : PostedWord) : Exchange := { e with wire := e.wire.mark w }
def Exchange.submit (e : Exchange) (b : Block) (k : ReportKind) (subject value : Nat) : Exchange :=
  { e with wire := e.wire.submit b k subject value }

/-! ### The store side: what the store controller works on -/

/-- The store controller and what it hands to the report unit. -/
structure StoreSide where
  wire : Wire
  store : StoreController

def State.storeSide (s : State) : StoreSide := ⟨s.wire, s.store⟩
def State.withStoreSide (s : State) (v : StoreSide) : State := { s with wire := v.wire, store := v.store }
def State.onStore (s : State) (f : StoreSide → StoreSide) : State := s.withStoreSide (f s.storeSide)
def StoreSide.mark (v : StoreSide) (w : PostedWord) : StoreSide := { v with wire := v.wire.mark w }
def StoreSide.submit (v : StoreSide) (k : ReportKind) (subject value : Nat) : StoreSide :=
  { v with wire := v.wire.submit .storeController k subject value }

/-! ### The bus: passthrough, snoop queue, processor writes -/

/-- Whether no power-on or pin reset is in force (R178). -/
def State.running (s : State) : Bool := s.bus.resetLine == .released

/-- What a processor read returns: the word of the call store; a read changes no state (R157). -/
def State.busRead (s : State) (a : BusAddr) : Word := memRead Config.callStoreFill s.bus.callStore a.toNat

/-- The part's own write of a posted word at an offset of the region (R164). -/
def Bus.post (b : Bus) (offset : Nat) (v : Word) : Bus :=
  { b with callStore := memWrite Config.callStoreFill b.callStore (regionBase b.straps + offset) v }

/-- The offset at which a processor write is captured: none outside the region, off the captured words, or while a
power-on or pin reset is in force (R158). -/
def Bus.captureOffset (b : Bus) (a : BusAddr) : Option Offset :=
  if b.resetLine = .released then
    match regionOffset b.straps a with
    | some off => if isCaptured off then some off else none
    | none => none
  else none

/-- The offset at which a write would be captured if it passed now: none for one that a reset has found waiting, or that was
made under one (R159, R178). -/
def Bus.capturedAt (b : Bus) (x : BusWrite) : Option Offset := if x.uncaptured then none else b.captureOffset x.addr

/-- A processor write passes to memory and, if captured, joins the snoop queue in the same event (R159). -/
def Bus.passWrite (b : Bus) (x : BusWrite) : Bus :=
  let b' := { b with callStore := memWrite Config.callStoreFill b.callStore x.addr.toNat x.value }
  match b.capturedAt x with
  | some off => { b' with snoop := b'.snoop ++ [⟨off, x.value⟩] }
  | none => b'

/-- Whether a processor write can pass now: no posting cycle is in progress (R165), and it is not a captured write with
the snoop queue full (R159). -/
def Bus.canPass (b : Bus) (x : BusWrite) : Bool :=
  b.posting == none && ((b.capturedAt x).isNone || b.snoop.length < Config.snoopDepth)

/-- Pass the waiting processor writes, oldest first, as far as they can pass (R159, R165). -/
def Bus.passWaiting : List BusWrite → Bus → Bus
  | [], b => { b with waiting := [] }
  | x :: l, b => if b.canPass x then Bus.passWaiting l (b.passWrite x) else { b with waiting := x :: l }

/-- Give way to the waiting processor writes after an event that may let them pass. -/
def Bus.giveWay (b : Bus) : Bus := Bus.passWaiting b.waiting b

/-- A processor write cycle is requested (R157, R159, R165); one that cannot pass waits behind those before it (log 14). One
made under a power-on or pin reset is never captured (R178). -/
def Bus.request (b : Bus) (a : BusAddr) (v : Word) : Bus :=
  Bus.giveWay { b with waiting := b.waiting ++ [⟨a, v, b.resetLine != .released⟩] }

/-- Whether every owner has taken what the entries handed over so far gave it: the player pool takes the fan-out change of a
timing word 1 as an event of its own, and the next entry is handed only after that (R116, R160). -/
def Bus.ownersTook (b : Bus) : Bool := b.fanoutChanges.all fun c => !c.fromEntry

/-- The state once the owner has taken the entry for offset `off` and value `w` from the head of the snoop queue (R160):
the entry leaves, and a write held behind a full queue passes in the same event. None when the head is not that entry, an
owner has yet to take the entry before it, or a power-on or pin reset is in force. -/
def State.takeEntry (s : State) (off : Nat) (w : Word) : Option State :=
  match s.bus.snoop with
  | [] => none
  | e :: rest =>
    if s.running ∧ s.bus.ownersTook = true ∧ e.offset.toNat = off ∧ e.value = w then
      some { s with bus := Bus.giveWay { s.bus with snoop := rest } }
    else none

/-- Hand the captured word at offset `off` with value `w` to its owner, whose event is `f`. A command whose entry cannot be
handed over now leaves the state as it is (log 1). -/
def handOver (off : Nat) (w : Word) (f : State → State) (s : State) : Host.Outcome State Fault Refusal :=
  match s.takeEntry off w with
  | some s' => .next (f s')
  | none => .next s

/-- An event of the part's own: it does not occur while a power-on or pin reset is in force (R178, log 1). -/
def event (f : State → State) (s : State) : Host.Outcome State Fault Refusal :=
  .next (if s.running then f s else s)

/-! ### Lamp stretchers (R133, R154) -/

/-- A pulse request reaches a stretcher (R133). -/
def Lamp.request (l : Lamp) : Lamp :=
  match l.phase with
  | .idle => ⟨.lit, 0, l.pending⟩
  | .lit => l
  | .darkened => { l with pending := true }

/-- The stretcher's timer reaches 100 ms (R133). -/
def Lamp.expire (l : Lamp) : Lamp :=
  match l.phase with
  | .idle => l
  | .lit => ⟨.darkened, 0, false⟩
  | .darkened => if l.pending then ⟨.lit, 0, false⟩ else Lamp.off

/-- The stretcher's timer runs `d` µs; it stands once it has reached 100 ms. -/
def Lamp.run (l : Lamp) (d : Nat) : Lamp :=
  match l.phase with
  | .idle => l
  | .lit => { l with us := min (l.us + d) Config.lampUs }
  | .darkened => { l with us := min (l.us + d) Config.lampUs }

/-! ### The local clock (log 2) -/

/-- The pulse interval timer and, in LOST, the loss duration count run `d` µs (R94). -/
def Highway.run (h : Highway) (d : Nat) : Highway :=
  match h.monitor with
  | .running => { h with pulseUs := h.pulseUs + d }
  | .lost =>
    { h with pulseUs := h.pulseUs + d, lossMs := min (h.lossMs + (h.lossUs + d) / 1000) 65535, lossUs := (h.lossUs + d) % 1000 }

/-- The holdoff timer runs `d` µs while a holdoff runs (R176). -/
def ReportUnit.run (r : ReportUnit) (d : Nat) : ReportUnit :=
  if r.holdoffRunning then { r with holdoffUs := min (r.holdoffUs + d) (r.holdoffSetting * Config.holdoffUnitUs) } else r

/-- The local clock runs `d` µs: every timer on it that runs advances by as much (R94, R133, R135, R154, R169). Timers are
started at reset release, so none runs during a power-on or pin reset (R86). -/
def State.runClock (s : State) (d : Nat) : State :=
  if s.running then
    { s with
      highway := s.highway.run d
      reports := s.reports.run d
      cong := { s.cong with lamp := s.cong.lamp.run d }
      store := { s.store with
        lamp := s.store.lamp.run d
        port := s.store.port.map fun q => { q with leftUs := q.leftUs - d } } }
  else s

end Sys2Proof.Machine
end

