-- ==== Sys2Proof/Machine/Flags.lean ====
section
/-!
DEFINITION. What the part shows: the value of every posted status word (R26, R44, R120, R155, R162, R167, R174), the
attention output (R175), the lamp outputs (R132, R154), and the words of a ring entry (R168).
-/
namespace Sys2Proof.Machine

/-- A bit as a number. -/
def bitNat (b : Bool) : Nat := if b then 1 else 0

/-- The code of a report kind (R168). -/
def ReportKind.code : ReportKind → Nat
  | .orderInvalid => 0x01
  | .planInvalid => 0x02
  | .planClamped => 0x03
  | .livePlanWrite => 0x04
  | .bankBusy => 0x05
  | .bankSwitched => 0x06
  | .channelWait => 0x07
  | .privateDegraded => 0x08
  | .planWithdrawn => 0x09
  | .treatmentDone => 0x0A
  | .annUnavailable => 0x0B
  | .annWaitExpired => 0x0C
  | .annDone => 0x0D
  | .underrun => 0x0E
  | .slotConflict => 0x0F
  | .frameLost => 0x10
  | .frameRestored => 0x11
  | .gradeChanged => 0x12
  | .congestionUnserved => 0x13
  | .loadRefused => 0x14
  | .loadStep => 0x15
  | .loadBufferBusy => 0x16
  | .chunkOverrun => 0x17
  | .loadDone => 0x18
  | .loadAbandoned => 0x19
  | .retired => 0x1A
  | .storeError => 0x1B
  | .sequenceError => 0x1C
  | .scanDone => 0x1D

/-- Ring entry word 0: 13:8 kind, 5:0 subject (R167). -/
def Report.word0 (r : Report) : Word := BitVec.ofNat 16 (r.kind.code * 256 + r.subject.toNat)

/-- The active class: the highest class present (R2). -/
def activeClass (t : TreatmentSet) : Option Cls :=
  if t[3].isSome then some 3 else if t[2].isSome then some 2 else if t[1].isSome then some 1
  else if t[0].isSome then some 0 else none

/-- The active entry (R2). -/
def activeEntry (t : TreatmentSet) : Option Entry := (activeClass t).bind fun c => t[c]

/-- The plan or recording or route of an entry (R25). -/
def Entry.argument (e : Entry) : Nat :=
  match e.treat with
  | .toneShared p => p.val
  | .tonePrivate p => p.val
  | .announce r _ => r.val
  | .congestion c => c.val

/-- The source number of a circuit (R26). -/
def Circuit.source (c : Circuit) : Nat :=
  match c.state with
  | .tone => match c.binding with
    | .channel k => k.val
    | _ => 0
  | .hear => match c.binding with
    | .listener n => n.val
    | _ => 0
  | .annWait => ((activeEntry c.set).map Entry.argument).getD 0
  | .channelWait => ((activeEntry c.set).map Entry.argument).getD 0
  | .quiet => 0
  | .gap => 0

/-- The state code of the circuit status word (R167). -/
def Circuit.stateCode (c : Circuit) : Nat :=
  match c.state with
  | .quiet => 0
  | .gap => 1
  | .tone => 2
  | .channelWait => 3
  | .hear => 4
  | .annWait => 6 + c.source / 16

/-- The circuit status word: 15:13 state code; 12:11 active class; 10:7 classes present; 6:3 source, low four bits;
2 latched grade present; 1:0 latched grade (R26, R167). -/
def Circuit.status (c : Circuit) : Word :=
  BitVec.ofNat 16 (c.stateCode * 8192 + ((activeClass c.set).map Fin.val).getD 0 * 2048
    + (bitNat c.set[3].isSome * 8 + bitNat c.set[2].isSome * 4 + bitNat c.set[1].isSome * 2 + bitNat c.set[0].isSome) * 128
    + c.source % 16 * 8 + bitNat c.latched.isSome * 4 + (c.latched.map Fin.val).getD 0)

/-- The engine codes of the global status word (R167). -/
def Engine.code : Engine → Nat
  | .scanning => 0
  | .idle => 1
  | .preparing => 2
  | .receiving => 3
  | .programming => 4
  | .finishing => 5
  | .retiring => 6
  | .configWriting => 7

/-- Whether either bank is draining (R44). -/
def PlanTable.draining (t : PlanTable) : Bool := t.bankA.state == .draining || t.bankB.state == .draining

/-- The live-bank field of the global status word (R167). -/
def PlanTable.liveCode (t : PlanTable) : Nat :=
  match t.live with
  | none => 0
  | some .A => 1
  | some .B => 2

/-- Whether any sticky store flag is set (R136). -/
def StoreController.sticky (c : StoreController) : Bool := c.eraseFail || c.programFail || c.supplyAbort

/-- The global status word (R167, R174). The frame-lost flag stands while the monitor is LOST (R86, R94, R96, log 32). Bit 12,
the store-lock level, is 1 while the lock is applied (DESIGN CHOICE, log 50). -/
def State.globalStatus (s : State) : Word :=
  BitVec.ofNat 16 (bitNat s.store.scanComplete * 2 ^ 15 + bitNat s.reports.lost * 2 ^ 14
    + bitNat (s.highway.monitor == .lost) * 2 ^ 13 + bitNat s.store.lock * 2 ^ 12 + bitNat s.store.supplyAbort * 2 ^ 11
    + bitNat s.store.programFail * 2 ^ 10 + bitNat s.store.eraseFail * 2 ^ 9 + bitNat s.store.hold * 2 ^ 8
    + s.store.engine.code * 32 + s.cong.grade.val * 8 + bitNat s.plans.draining * 4 + s.plans.liveCode)

/-- The code of a buffer state (R167). -/
def BufState.code : BufState → Nat
  | .empty => 0
  | .filling => 1
  | .ready => 2
  | .programming => 3

/-- The code of a refusal reason (R140). -/
def RefusalReason.code : RefusalReason → Nat
  | .badLength => 1
  | .alreadyExists => 2
  | .statusNotClear => 3
  | .engineBusy => 4
  | .noSpace => 5
  | .lockProtected => 6
  | .notAvailable => 7

/-- The store status word: 15 session present; 14:13 and 12:11 buffer states; 10:8 last refusal reason; 7:0 next chunk to
receive modulo 256, 0 with no session (R155, R167, log 19). -/
def StoreController.status (c : StoreController) : Word :=
  BitVec.ofNat 16 (bitNat c.session.isSome * 2 ^ 15 + c.bufA.state.code * 2 ^ 13 + c.bufB.state.code * 2 ^ 11
    + (c.lastRefusal.map RefusalReason.code).getD 0 * 256 + (c.session.map Session.nextRecv).getD 0 % 256)

/-- The code of a player state (R167). -/
def PlayerState.code : PlayerState → Nat
  | .idle => 0
  | .priming => 1
  | .playing => 2
  | .gap => 3

/-- The player status word: 15:14 state; 13:9 recording; 8:3 listeners, 63 when 63 or more; 2:0 joins, 7 when 7 or more
(R120, R167). -/
def Player.status (p : Player) : Word :=
  BitVec.ofNat 16 (p.state.code * 2 ^ 14 + (p.recording.map Fin.val).getD 0 * 2 ^ 9 + min p.listeners.length 63 * 8
    + min p.joins.length 7)

/-- The code of a directory state (R167). -/
def DirState.code : DirState → Nat
  | .absent => 0
  | .loading => 1
  | .available => 2
  | .retiring => 3

/-- The directory word: 15:14 state; 9 permanent; 8 barge-in; 7:0 segment count (R155, R167). -/
def DirRecord.status (d : DirRecord) : Word :=
  BitVec.ofNat 16 (d.state.code * 2 ^ 14 + bitNat d.permanent * 2 ^ 9 + bitNat d.bargeIn * 2 ^ 8 + d.segCount)

/-- The reset cause word: 2 SOFT, 1 PIN, 0 POWER (R167). -/
def Bus.resetCause (b : Bus) : Word :=
  BitVec.ofNat 16 (bitNat b.causeSoft * 4 + bitNat b.causePin * 2 + bitNat b.causePower)

/-- The value a posted word shows (R174). -/
def State.postedValue (s : State) (w : PostedWord) : Word :=
  match w with
  | .circuit p => s.orders.circuits[p].status
  | .global => s.globalStatus
  | .producer => BitVec.ofNat 16 s.reports.posted.val
  | .resetCause => s.bus.resetCause
  | .storeStatus => s.store.status
  | .player n => s.players.players[n].status
  | .directory r => s.store.dir[r].status

/-- Attention re-evaluated: asserted while the posted producer differs from the consumer shadow and no holdoff runs (R175). -/
def ReportUnit.attend (r : ReportUnit) : ReportUnit :=
  { r with attention := r.posted != r.consumer && !r.holdoffRunning }

/-- The load lamp output (R132). -/
def CongestionUnit.lampLit (c : CongestionUnit) : Bool :=
  match c.grade with
  | 0 => false
  | 1 => c.lamp.phase == .lit
  | 2 => true
  | 3 => true

/-- The store lamp output: steady while a sticky flag is set, else from its stretcher (R154). -/
def StoreController.lampLit (c : StoreController) : Bool := c.sticky || c.lamp.phase == .lit

end Sys2Proof.Machine
end

