-- ==== Sys2Proof/Machine/Store.lean ====
section
/-!
DEFINITION. The announcement store and the store controller’s shared operations (chapter 8): bytes of the store, segments,
chunk buffers, what the engine is to do next, the settling and the failure of work.
-/
namespace Sys2Proof.Machine

/-! ### Bytes of the store (R135) -/

/-- Byte `off` of segment `g`. -/
def storeByte (m : List Host.Cell) (g : SegNo) (off : Nat) : Byte :=
  memRead Config.erasedByte m (g.val * Config.segmentBytes + off)

/-- Whether every byte of segment `g` reads FFh. -/
def segErased (m : List Host.Cell) (g : SegNo) : Bool :=
  m.all fun c => c.1 / Config.segmentBytes != g.val || c.2 == Config.erasedByte

/-- The store with the content of segment `g` replaced by the residue a pulse leaves: what is not listed reads FFh (log 8). -/
def leaveResidue (g : SegNo) (left : List (Nat × Byte)) (m : List Host.Cell) : List Host.Cell :=
  memWriteAll Config.erasedByte (m.filter fun c => c.1 / Config.segmentBytes != g.val)
    ((left.filter fun c => c.1 < Config.segmentBytes).map fun c => (g.val * Config.segmentBytes + c.1, c.2))

/-- A byte after an attempt: bits 1 in the old byte and 0 in the value turn to 0, but for those the device missed (R135). -/
def programmed (old value missed : Byte) : Byte := old &&& (value ||| missed)

/-- The named bytes of an attempt programmed, `missed` holding one byte of missed bits for each, in order (log 8). -/
def programBytes (g : SegNo) : List Host.Cell → List Byte → List Host.Cell → List Host.Cell
  | [], _, m => m
  | c :: cs, ms, m =>
    programBytes g cs ms.tail
      (memWrite Config.erasedByte m (g.val * Config.segmentBytes + c.1)
        (programmed (storeByte m g c.1) c.2 (ms.headD 0)))

/-- The verify of the named bytes (R135, R150). -/
def verifies (m : List Host.Cell) (t : ProgramStep) : Bool := t.bytes.all fun c => storeByte m t.seg c.1 == c.2

/-- What a step cut short leaves in the store (R151, log 8). -/
def PortStep.damage (x : PortStep) (left : List (Nat × Byte)) (missed : List Byte) (m : List Host.Cell) : List Host.Cell :=
  match x with
  | .erasePulse g => leaveResidue g left m
  | .attempt t => programBytes t.seg t.bytes missed m
  | .refill _ _ => m
  | .eraseVerify _ => m

/-! ### The store side, updated -/

def StoreSide.on (f : StoreController → StoreController) (v : StoreSide) : StoreSide := { v with store := f v.store }

/-- The engine changes its state; the global status word shows it (R155). -/
def StoreSide.setEngine (e : Engine) (v : StoreSide) : StoreSide :=
  if v.store.engine = e then v else StoreSide.mark (v.on fun c => { c with engine := e }) .global

/-- A directory record changes (R155). -/
def StoreSide.setDir (r : RecNo) (d : DirRecord) (v : StoreSide) : StoreSide :=
  StoreSide.mark (v.on fun c => { c with dir := c.dir.set r d }) (.directory r)

/-- What the store status word shows changes (R155). -/
def StoreSide.status (f : StoreController → StoreController) (v : StoreSide) : StoreSide :=
  StoreSide.mark (v.on f) .storeStatus

def StoreController.setSeg (g : SegNo) (x : SegState) (c : StoreController) : StoreController :=
  { c with segMap := c.segMap.set g x }

/-- The segment that holds index `i` of recording `r` (R136). -/
def StoreController.segOf (c : StoreController) (r : RecNo) (i : Nat) : Option SegNo :=
  allSegments.find? fun g => c.segMap[g] == .used r i

/-- The SEQUENCE_ERROR of an offending command word (R139). -/
def StoreSide.sequenceError (w : Word) (v : StoreSide) : StoreSide :=
  v.submit .sequenceError (storeRecording w).val w.toNat

/-! ### Chunk buffers (R141, R142) -/

def StoreController.buf (c : StoreController) (b : Bank) : ChunkBuf :=
  match b with
  | .A => c.bufA
  | .B => c.bufB

def StoreController.setBuf (b : Bank) (x : ChunkBuf) (c : StoreController) : StoreController :=
  match b with
  | .A => { c with bufA := x }
  | .B => { c with bufB := x }

/-- The buffer, A before B, that stands in state `x`. -/
def StoreController.bufIn (c : StoreController) (x : BufState) : Option Bank :=
  if c.bufA.state = x then some .A else if c.bufB.state = x then some .B else none

/-- Buffer `b` becomes FILLING for chunk `j`, its bytes FFh; the busy-reported flag is cleared (R141). -/
def StoreController.fill (b : Bank) (j : Nat) (c : StoreController) : StoreController :=
  { c.setBuf b ⟨.filling, [], j⟩ with
    session := c.session.map fun (ss : Session) => { ss with busyReported := false } }

/-- Both buffers EMPTY. -/
def StoreController.emptyBufs (c : StoreController) : StoreController :=
  { c with bufA := ChunkBuf.cleared, bufB := ChunkBuf.cleared }

/-- Byte `k` of a buffer. -/
def ChunkBuf.byte (x : ChunkBuf) (k : Nat) : Byte := memRead Config.erasedByte x.bytes k

/-- A load-buffer word `k` written into a buffer: low byte at 2k, high byte at 2k + 1 (R141). -/
def ChunkBuf.writeWord (k : Nat) (w : Word) (x : ChunkBuf) : ChunkBuf :=
  let low := memWrite Config.erasedByte x.bytes (2 * k) (w.setWidth 8)
  { x with bytes := memWrite Config.erasedByte low (2 * k + 1) ((w >>> 8).setWidth 8) }

/-! ### What the engine does next (R140, R142, R143, R146, R148) -/

/-- The codes of chunk `j` end before this code (R142). -/
def Session.chunkEnd (ss : Session) (j : Nat) : Nat := min ss.length (Config.chunkCodes * (j + 1))

/-- The segment the engine is to erase. -/
def StoreController.eraseTarget (c : StoreController) : Option SegNo :=
  match c.engine with
  | .preparing => c.session.bind fun ss => (ss.segs.find? SessionSeg.toErase).map SessionSeg.seg
  | .retiring => c.retire.bind fun j => if j.answered then j.remaining.head? else none
  | .configWriting => c.config.bind fun j => if j.phase = .erase then some 0 else none
  | .scanning | .idle | .receiving | .programming | .finishing => none

/-- The header of the segment of index `i` of a session: recording, index, count, and in the first segment the length low
byte first, the flags and the gap (R135; the places of the bytes are DESIGN CHOICE, log 6). -/
def headerCells (d : DirRecord) (ss : Session) (i : Nat) : List Host.Cell :=
  [(0, BitVec.ofNat 8 ss.recording.val), (1, BitVec.ofNat 8 i), (2, BitVec.ofNat 8 d.segCount)] ++
    if i = 0 then
      [(3, BitVec.ofNat 8 ss.length), (4, BitVec.ofNat 8 (ss.length / 256)), (5, BitVec.ofNat 8 (ss.length / 65536)),
        (6, BitVec.ofNat 8 (bitNat d.permanent * 128 + bitNat d.bargeIn * 64)), (7, BitVec.ofNat 8 d.gap)]
    else []

/-- Byte of a first segment’s header that holds the completion mark (log 6). -/
def completionOffset : Nat := 8

/-- The codes of the chunk being programmed that go into the next page, from `ss.nextCode` up (R142). -/
def pageCells (ss : Session) (x : ChunkBuf) : List Host.Cell :=
  let off := Config.headerBytes + ss.nextCode % Config.segmentCodes
  let n := min (Config.pageBytes - off % Config.pageBytes) (ss.chunkEnd ss.nextProg - ss.nextCode)
  (List.range n).map fun i => (off + i, x.byte (ss.nextCode + i - Config.chunkCodes * ss.nextProg))

/-- The next program step of a load in PROGRAMMING: the header of the segment the next code falls in, if it is not
programmed, else the codes of the next page (R142). -/
def StoreController.loadStep (c : StoreController) (ss : Session) : Option ProgramStep :=
  let i := ss.nextCode / Config.segmentCodes
  match ss.segs[i]?, c.bufIn .programming with
  | some g, some b =>
    if g.headerDone then
      let cells := pageCells ss (c.buf b)
      some ⟨g.seg, .codes (ss.nextCode + cells.length), cells⟩
    else some ⟨g.seg, .header i, headerCells c.dir[ss.recording] ss i⟩
  | _, _ => none

/-- The format mark of the configuration record (R147). -/
def formatMark : List Byte := [0x3C#8, 0xC3#8]

/-- Byte of segment 0 that holds the configuration record’s completion mark: after the format mark and thirteen words
(R180, log 7). -/
def configMarkOffset : Nat := 28

/-- The format mark and the thirteen words, each low byte first, as bytes 0–27 of segment 0 (R180, log 7). -/
def configCells (ws : List Word) : List Host.Cell :=
  let bytes := formatMark ++ ws.flatMap fun (w : Word) => [w.setWidth 8, (w >>> 8).setWidth 8]
  (List.range configMarkOffset).map fun i => (i, bytes.getD i Config.erasedByte)

/-- The program step the engine is to make. -/
def StoreController.programTarget (c : StoreController) : Option ProgramStep :=
  match c.engine with
  | .programming => c.session.bind c.loadStep
  | .finishing => c.session.bind fun ss => ss.segs.head?.map fun g => ⟨g.seg, .completionMark, [(completionOffset, 0)]⟩
  | .configWriting => c.config.bind fun j =>
    match j.phase with
    | .erase => none
    | .values => some ⟨0, .configValues, configCells j.words⟩
    | .mark => some ⟨0, .configMark, [(configMarkOffset, 0)]⟩
  | .scanning | .idle | .preparing | .receiving | .retiring => none

/-- Whether the engine has a step in progress on the store device, a suspended pulse included (R137, R144, log 16). -/
def StoreController.stepInProgress (c : StoreController) : Bool :=
  c.suspended.isSome ||
    match c.port with
    | some ⟨.erasePulse _, _⟩ => true
    | some ⟨.eraseVerify _, _⟩ => true
    | some ⟨.attempt _, _⟩ => true
    | some ⟨.refill _ _, _⟩ => false
    | none => false

/-- Whether the engine may start its next step: not held, the port free, no refill waiting and no pulse suspended
(R149, R150, R152, R153). -/
def StoreController.mayStart (c : StoreController) : Bool :=
  !c.hold && c.port.isNone && c.suspended.isNone && c.refillQ.isEmpty && c.settling.isNone

/-! ### Progress of a load -/

/-- The buffer that is READY with chunk `j`. -/
def StoreController.readyBuf (c : StoreController) (j : Nat) : Option Bank :=
  if c.bufA.state = .ready ∧ c.bufA.chunk = j then some .A
  else if c.bufB.state = .ready ∧ c.bufB.chunk = j then some .B
  else none

/-- RECEIVING with the hold clear and the buffer of the next chunk READY: the engine enters PROGRAMMING (R142). -/
def StoreSide.advanceEngine (v : StoreSide) : StoreSide :=
  match v.store.session with
  | none => v
  | some ss =>
    match v.store.readyBuf ss.nextProg with
    | none => v
    | some b =>
      if v.store.engine = .receiving ∧ v.store.hold = false then
        StoreSide.setEngine .programming (v.status fun c =>
          { c.setBuf b { c.buf b with state := .programming } with
            session := some { ss with nextCode := Config.chunkCodes * ss.nextProg } })
      else v

/-- The engine enters RECEIVING, PREPARING being done (R140). -/
def StoreSide.enterReceiving (v : StoreSide) : StoreSide :=
  match v.store.session with
  | none => v
  | some ss =>
    ((v.setEngine .receiving).status fun c => c.fill .A 0).submit .loadStep ss.recording.val 0

/-- Every code of the chunk is programmed (R142 steps 1–4). -/
def StoreSide.chunkDone (v : StoreSide) : StoreSide :=
  match v.store.session, v.store.bufIn .programming with
  | some ss, some b =>
    let ss := { ss with nextProg := ss.nextProg + 1 }
    let v := v.status fun (c : StoreController) =>
      let c : StoreController := { c.setBuf b ChunkBuf.cleared with session := some ss }
      if (c.bufIn .filling).isNone ∧ ss.nextRecv < ss.chunks then c.fill b ss.nextRecv else c
    let v := (v.submit .loadStep ss.recording.val ss.nextProg).on fun c =>
      if c.sticky then c else { c with lamp := c.lamp.request }
    if ss.nextProg < ss.chunks then (v.setEngine .receiving).advanceEngine else v.setEngine .finishing
  | _, _ => v

/-- The completion mark is verified (R143). -/
def StoreSide.loadDone (v : StoreSide) : StoreSide :=
  match v.store.session with
  | none => v
  | some ss =>
    let d := v.store.dir[ss.recording]
    let v := v.setDir ss.recording { d with state := .available }
    let v := v.status fun c =>
      { c.emptyBufs with
        session := none
        poolNotices := c.poolNotices ++ [.madeAvailable ss.recording ⟨d.length, d.bargeIn, d.gap⟩] }
    (v.submit .loadDone ss.recording.val d.segCount).setEngine .idle

/-! ### The end of a session (R144) -/

/-- The state a segment of an ended session settles in (R144). -/
def SessionSeg.settled (g : SessionSeg) (x : SegState) : SegState :=
  if x = .bad then .bad else if g.headerDone || g.touched || g.toErase then .dirty else .erased

/-- The segments of an ended session settled (R144). -/
def StoreController.settleSegs (ss : Session) (c : StoreController) : StoreController :=
  ss.segs.foldl (fun c g => c.setSeg g.seg (g.settled c.segMap[g.seg])) c

/-- No step stands begun: the counts of pulses and attempts are gone. -/
def StoreController.noStep (c : StoreController) : StoreController := { c with pulses := 0, attempts := 0 }

/-- The step an ended session waited for has ended: its segments settle and the engine becomes IDLE (R144). -/
def StoreSide.settle (v : StoreSide) : StoreSide :=
  match v.store.settling with
  | none => v
  | some ss => (v.on fun c => { (c.settleSegs ss).noStep with settling := none }).setEngine .idle

/-- The load session ends at once; its segments settle now, or when the step in progress has ended (R144). -/
def StoreSide.endSession (v : StoreSide) : StoreSide :=
  match v.store.session with
  | none => v
  | some ss =>
    let v := (v.setDir ss.recording DirRecord.absent).status fun c =>
      { c.emptyBufs with session := none, settling := some ss }
    if v.store.stepInProgress then v else v.settle

/-! ### Failures (R151) -/

/-- The sticky flags. -/
inductive StoreFlag where
  | eraseFail | programFail | supplyAbort
deriving DecidableEq, Repr

/-- The code of a flag in STORE_ERROR (R151). -/
def StoreFlag.code : StoreFlag → Nat
  | .eraseFail => 1
  | .programFail => 2
  | .supplyAbort => 4

def StoreController.setFlag (f : StoreFlag) (c : StoreController) : StoreController :=
  match f with
  | .eraseFail => { c with eraseFail := true }
  | .programFail => { c with programFail := true }
  | .supplyAbort => { c with supplyAbort := true }

/-- The segment concerned after a failure: CONFIG absent for segment 0, BAD after a failed erase, else DIRTY (R149–R151). -/
def failedSeg (f : StoreFlag) (g : SegNo) : SegState :=
  if g = 0 then .configAbsent else if f = .eraseFail then .bad else .dirty

/-- The work in hand, a session that waits to settle included, ends: what becomes of its recording and segments, and the
subject of STORE_ERROR (R151). -/
def StoreSide.dropWork (v : StoreSide) : StoreSide × Nat :=
  match v.store.session, v.store.settling, v.store.retire, v.store.config with
  | some ss, _, _, _ =>
    ((v.setDir ss.recording DirRecord.absent).status fun c => { (c.settleSegs ss).emptyBufs with session := none }, ss.recording.val)
  | none, some ss, _, _ => (v.on fun c => { c.settleSegs ss with settling := none }, ss.recording.val)
  | none, none, some j, _ =>
    ((v.setDir j.recording DirRecord.absent).on fun c =>
      { j.remaining.foldl (fun c g => c.setSeg g .dirty) c with retire := none }, j.recording.val)
  | none, none, none, _ => (v.on fun c => { c with config := none }, 32)

/-- ERASE_FAIL, PROGRAM_FAIL or SUPPLY_ABORT at segment `g` ends the work in progress (R151, R154). -/
def StoreSide.fail (f : StoreFlag) (g : SegNo) (v : StoreSide) : StoreSide :=
  let a := v.dropWork
  let v := a.1.on fun c =>
    { ((c.setFlag f).setSeg g (failedSeg f g)).noStep with lamp := Lamp.off, port := none, suspended := none }
  ((v.submit .storeError a.2 (0x100 * f.code + g.val)).setEngine .idle).mark .global

end Sys2Proof.Machine
end

