-- ==== Sys2Proof/Machine/StoreOrders.lean ====
section
/-!
DEFINITION. The store commands (R138–R145, R148, R151, R152): pairing, the checks of the confirms, the chunk buffers, hold.
-/
namespace Sys2Proof.Machine

/-! ### Pairing (R139) -/

/-- A command word breaks a pending begin, with SEQUENCE_ERROR for the word that breaks it (R139). -/
def StoreSide.breakBegin (w : Word) (v : StoreSide) : StoreSide :=
  if v.store.pendingBegin = none then v else (v.on fun c => { c with pendingBegin := none }).sequenceError w

/-- A begin becomes the pending begin, with its recording field (R139). -/
def StoreSide.beginWith (k : BeginKind) (w : Word) (v : StoreSide) : StoreSide :=
  (v.breakBegin w).on fun c => { c with pendingBegin := some ⟨k, storeRecording w⟩ }

/-- A confirm of kind `k`: taken by `f` when it completes a pair, else refused with SEQUENCE_ERROR; one that breaks a begin
of another kind is reported for the break and then, having no begin, for itself (R139). -/
def StoreSide.confirmWith (k : BeginKind) (w : Word) (f : StoreSide → StoreSide) (v : StoreSide) : StoreSide :=
  match v.store.pendingBegin with
  | none => v.sequenceError w
  | some b =>
    let v := v.on fun c => { c with pendingBegin := none }
    if b.kind = k then
      if b.recording = storeRecording w then f v else v.sequenceError w
    else (v.sequenceError w).sequenceError w

/-- A confirm is refused with LOAD_REFUSED (R140, R145, R148). The reason is recorded as the last refusal reason and the store
status word marked: for a load and a retirement by R140 and R145, for a configuration write as for them (DESIGN CHOICE, log 51). -/
def StoreSide.refuse (operation : Nat) (x : RefusalReason) (subject : Nat) (v : StoreSide) : StoreSide :=
  (v.status fun c => { c with lastRefusal := some x }).submit .loadRefused subject (0x100 * operation + x.code)

/-! ### LOAD_CONFIRM (R140) -/

/-- The length the parameter words give (R140). -/
def StoreController.paramLength (c : StoreController) : Nat := c.paramHigh.toNat * 65536 + c.paramLow.toNat

/-- The segments a recording of `n` codes occupies: ceil(n / 8176) (R135). -/
def segmentsFor (n : Nat) : Nat := (n + (Config.segmentCodes - 1)) / Config.segmentCodes

/-- The chunks of a load of `n` codes: ceil(n / 2048) (R140). -/
def chunksFor (n : Nat) : Nat := (n + (Config.chunkCodes - 1)) / Config.chunkCodes

/-- The segments that can be allocated, in the order of allocation: ERASED, then DIRTY, each lowest first (R140). -/
def StoreController.free (c : StoreController) : List SegNo :=
  (audioSegments.filter fun g => c.segMap[g] == .erased) ++ audioSegments.filter fun g => c.segMap[g] == .dirty

/-- The checks of a LOAD_CONFIRM in their order: the reason of the first that fails (R140). -/
def StoreController.loadCheck (c : StoreController) (r : RecNo) : Option RefusalReason :=
  let n := c.paramLength
  if n = 0 ∨ Config.longestRecording < n then some .badLength
  else if c.dir[r].state ≠ .absent then some .alreadyExists
  else if c.sticky then some .statusNotClear
  else if c.engine ≠ .idle ∨ c.session ≠ none then some .engineBusy
  else if c.free.length < segmentsFor n then some .noSpace
  else if flagsPermanent c.paramFlags ∧ c.lock = true then some .lockProtected
  else none

/-- The directory record of an opened load (R140 step 4). -/
def StoreController.loadRecord (c : StoreController) (segs : List SegNo) : DirRecord where
  state := .loading
  firstSeg := segs.headD 0
  segCount := segs.length
  length := c.paramLength
  permanent := flagsPermanent c.paramFlags
  bargeIn := flagsBargeIn c.paramFlags
  gap := flagsGap c.paramFlags

/-- The session of an opened load (R140). -/
def StoreController.newSession (c : StoreController) (r : RecNo) (segs : List SegNo) : Session where
  recording := r
  length := c.paramLength
  chunks := chunksFor c.paramLength
  nextRecv := 0
  nextProg := 0
  segs := segs.map fun g => ⟨g, c.segMap[g] == .dirty, false, false⟩
  busyReported := false
  nextCode := 0

/-- Segments become USED, indexes rising from `i` (R140 step 3). -/
def StoreController.useSegs (r : RecNo) : Nat → List SegNo → StoreController → StoreController
  | _, [], c => c
  | i, g :: l, c => StoreController.useSegs r (i + 1) l (c.setSeg g (.used r i))

/-- A load session opens for recording `r` (R140 steps 1–5); with no segment to erase the engine is in RECEIVING at once. -/
def StoreSide.openSession (r : RecNo) (v : StoreSide) : StoreSide :=
  let c := v.store
  let segs := c.free.take (segmentsFor c.paramLength)
  let v := (v.setDir r (c.loadRecord segs)).status fun x =>
    { x.useSegs r 0 segs with session := some (c.newSession r segs) }
  let v := v.setEngine .preparing
  if (segs.any fun g => c.segMap[g] == .dirty) = true then v else v.enterReceiving

/-- A LOAD_CONFIRM that completes a pair (R140). -/
def StoreSide.loadConfirmed (r : RecNo) (v : StoreSide) : StoreSide :=
  match v.store.loadCheck r with
  | some x => v.refuse 0 x r.val
  | none => v.openSession r

/-! ### CHUNK_READY, the load buffer and LOAD_ABANDON (R141, R144) -/

/-- The other buffer. -/
def otherBuf : Bank → Bank
  | .A => .B
  | .B => .A

/-- A CHUNK_READY within a session (R141). -/
def StoreSide.readyChunk (ss : Session) (v : StoreSide) : StoreSide :=
  match v.store.bufIn .filling with
  | none => v.submit .chunkOverrun ss.recording.val ss.nextRecv
  | some b =>
    let n := ss.nextRecv + 1
    let v := v.status fun (c : StoreController) =>
      let c : StoreController := { c.setBuf b { c.buf b with state := .ready } with session := some { ss with nextRecv := n } }
      if (c.buf (otherBuf b)).state = .empty ∧ n < ss.chunks then c.fill (otherBuf b) n else c
    v.advanceEngine

/-- CHUNK_READY (R139, R141). -/
def StoreSide.chunkReady (w : Word) (v : StoreSide) : StoreSide :=
  let v := v.breakBegin w
  match v.store.session with
  | none => v.sequenceError w
  | some ss => v.readyChunk ss

/-- LOAD_ABANDON (R139, R144). -/
def StoreSide.loadAbandon (w : Word) (v : StoreSide) : StoreSide :=
  let v := v.breakBegin w
  match v.store.session with
  | none => v.sequenceError w
  | some ss => v.endSession.submit .loadAbandoned ss.recording.val ss.nextProg

/-- A captured load buffer word (R141). -/
def StoreSide.bufferWord (k : Nat) (w : Word) (v : StoreSide) : StoreSide :=
  match v.store.session with
  | none => v
  | some ss =>
    match v.store.bufIn .filling with
    | some b => v.on fun c => c.setBuf b ((c.buf b).writeWord k w)
    | none =>
      if ss.busyReported then v
      else
        StoreSide.submit (v.on fun c => { c with session := some { ss with busyReported := true } })
          .loadBufferBusy ss.recording.val k

/-- A captured store parameter word: 0 length high, 1 length low, 2 flags and gap (R138). -/
def StoreController.setParam (k : Fin 3) (w : Word) (c : StoreController) : StoreController :=
  match k with
  | 0 => { c with paramHigh := w }
  | 1 => { c with paramLow := w }
  | 2 => { c with paramFlags := w }

/-! ### RETIRE_CONFIRM and CONFIG_CONFIRM (R145, R148) -/

/-- The checks of a RETIRE_CONFIRM in their order (R145). -/
def StoreController.retireCheck (c : StoreController) (r : RecNo) : Option RefusalReason :=
  if c.dir[r].state ≠ .available then some .notAvailable
  else if c.sticky then some .statusNotClear
  else if c.engine ≠ .idle then some .engineBusy
  else if c.dir[r].permanent = true ∧ c.lock = true then some .lockProtected
  else none

/-- The segments of recording `r` in ascending index (R146). -/
def StoreController.segsOf (c : StoreController) (r : RecNo) : List SegNo :=
  (List.range c.dir[r].segCount).filterMap (c.segOf r)

/-- A RETIRE_CONFIRM that completes a pair (R145): the withdrawal goes to the player pool. -/
def StoreSide.retireConfirmed (r : RecNo) (v : StoreSide) : StoreSide :=
  match v.store.retireCheck r with
  | some x => v.refuse 1 x r.val
  | none =>
    StoreSide.setEngine .retiring (v.on fun c =>
      { c with
        retire := some ⟨r, c.dir[r].segCount, c.segsOf r, false⟩
        poolNotices := c.poolNotices ++ [.withdrawal r] })

/-- The checks of a CONFIG_CONFIRM in their order (R148). -/
def StoreController.configCheck (c : StoreController) : Option RefusalReason :=
  if c.sticky then some .statusNotClear
  else if c.engine ≠ .idle then some .engineBusy
  else if c.lock then some .lockProtected
  else none

/-- A CONFIG_CONFIRM that completes a pair, the shadow holding the words `ws` (R148). -/
def StoreSide.configConfirmed (ws : List Word) (v : StoreSide) : StoreSide :=
  match v.store.configCheck with
  | some x => v.refuse 2 x 32
  | none =>
    StoreSide.setEngine .configWriting (v.on fun c =>
      { c.setSeg 0 .configAbsent with config := some ⟨ws, .erase⟩ })

/-! ### Hold and status (R151, R152) -/

/-- STORE_HOLD (R152). -/
def StoreSide.holdStore (w : Word) (v : StoreSide) : StoreSide :=
  let v := v.breakBegin w
  if v.store.hold then v else StoreSide.mark (v.on fun c => { c with hold := true }) .global

/-- STORE_RESUME (R152); held work resumes. -/
def StoreSide.resumeStore (w : Word) (v : StoreSide) : StoreSide :=
  let v := v.breakBegin w
  if v.store.hold then (StoreSide.mark (v.on fun c => { c with hold := false }) .global).advanceEngine else v

/-- CLEAR_STORE_STATUS (R151, R154). -/
def StoreSide.clearStatus (w : Word) (v : StoreSide) : StoreSide :=
  let v := (v.breakBegin w).status fun c =>
    { c with
      eraseFail := false, programFail := false, supplyAbort := false, lastRefusal := none
      lamp := if c.sticky then Lamp.off else c.lamp }
  v.mark .global

/-- A command word whose code names no command (R138). -/
def StoreSide.invalidCommand (w : Word) (v : StoreSide) : StoreSide := (v.breakBegin w).sequenceError w

end Sys2Proof.Machine
end

