-- ==== Sys2Proof/Machine/Engine.lean ====
section
/-!
DEFINITION. The steps of the store engine and the read port’s arbiter (R142–R151, R153).
-/
namespace Sys2Proof.Machine

/-! ### Erasing (R149) -/

/-- A pulse or attempt acts on segment `g` of a session: it is touched (R144). -/
def Session.touch (g : SegNo) (ss : Session) : Session :=
  { ss with segs := ss.segs.map fun (x : SessionSeg) => if x.seg = g then { x with touched := true } else x }

/-- Segment `g` of a session has a verified erase. -/
def Session.erased (g : SegNo) (ss : Session) : Session :=
  { ss with segs := ss.segs.map fun (x : SessionSeg) =>
      if x.seg = g then { x with toErase := false, touched := false } else x }

/-- The engine comes to start an erase pulse (R149, R151). -/
def StoreSide.startPulse (good : Bool) (v : StoreSide) : StoreSide :=
  match v.store.eraseTarget with
  | none => v
  | some g =>
    if v.store.mayStart then
      let v := v.on fun c => { c with supplyGood := good }
      if good then
        v.on fun c =>
          { c with
            port := some ⟨.erasePulse g, Config.erasePulseUs⟩
            pulses := c.pulses + 1
            session := c.session.map (Session.touch g) }
      else v.fail .supplyAbort g
    else v

/-- The suspended pulse comes to resume, the refills being served (R151, R153). -/
def StoreSide.resumePulse (good : Bool) (left : List (Nat × Byte)) (v : StoreSide) : StoreSide :=
  match v.store.suspended with
  | none => v
  | some q =>
    if v.store.port = none ∧ v.store.refillQ = [] then
      let v := v.on fun c => { c with supplyGood := good, suspended := none }
      if good then v.on fun c => { c with port := some ⟨.erasePulse q.seg, q.leftUs⟩ }
      else (v.on fun c => { c with bytes := leaveResidue q.seg left c.bytes }).fail .supplyAbort q.seg
    else v

/-- The erase pulse ends: its verify follows (R149); for an ended session the step in progress has ended (R144, log 16). -/
def StoreSide.pulseDone (left : List (Nat × Byte)) (v : StoreSide) : StoreSide :=
  match v.store.port with
  | some ⟨.erasePulse g, _⟩ =>
    let v := v.on fun c => { c with bytes := leaveResidue g left c.bytes, port := none }
    if v.store.settling.isSome then v.settle
    else v.on fun c => { c with port := some ⟨.eraseVerify g, Config.eraseVerifyUs⟩ }
  | _ => v

/-- Every segment of a retiring recording is erased (R146). -/
def StoreSide.retired (j : RetireJob) (v : StoreSide) : StoreSide :=
  let v := (v.setDir j.recording DirRecord.absent).on fun c => { c with retire := none }
  (v.submit .retired j.recording.val j.segCount).setEngine .idle

/-- The erase of segment `g` is complete for the work in hand (R140, R144, R146, R148, R149). -/
def StoreSide.eraseDone (g : SegNo) (v : StoreSide) : StoreSide :=
  let v := v.on StoreController.noStep
  match v.store.session, v.store.settling, v.store.retire, v.store.config with
  | some ss, _, _, _ =>
    let ss := ss.erased g
    let v := v.on fun c => { c with session := some ss }
    if ss.segs.any SessionSeg.toErase then v else v.enterReceiving
  | none, some ss, _, _ => (v.on fun c => { c with settling := some (ss.erased g) }).settle
  | none, none, some j, _ =>
    let j := { j with remaining := j.remaining.filter fun x => x != g }
    let v := v.on fun c => { c.setSeg g .erased with retire := some j }
    if j.remaining = [] then v.retired j else v
  | none, none, none, some j => v.on fun c => { c with config := some { j with phase := .values } }
  | none, none, none, none => v

/-- The erase verify ends (R149). -/
def StoreSide.verifyDone (v : StoreSide) : StoreSide :=
  match v.store.port with
  | some ⟨.eraseVerify g, _⟩ =>
    let v := v.on fun c => { c with port := none }
    if segErased v.store.bytes g then v.eraseDone g
    else if Config.pulseLimit ≤ v.store.pulses then v.fail .eraseFail g
    else if v.store.settling.isSome then v.settle
    else v
  | _ => v

/-! ### Programming (R142, R143, R148, R150) -/

/-- The engine comes to start a program attempt (R150, R151). -/
def StoreSide.startAttempt (good : Bool) (v : StoreSide) : StoreSide :=
  match v.store.programTarget with
  | none => v
  | some t =>
    if v.store.mayStart then
      let v := v.on fun c => { c with supplyGood := good }
      if good then
        v.on fun c =>
          { c with
            port := some ⟨.attempt t, Config.programUs⟩
            attempts := c.attempts + 1
            session := c.session.map (Session.touch t.seg) }
      else v.fail .supplyAbort t.seg
    else v

/-- The header of the segment of index `i` is programmed. -/
def Session.headed (i : Nat) (ss : Session) : Session :=
  { ss with segs := ss.segs.mapIdx fun j (x : SessionSeg) => if j = i then { x with headerDone := true } else x }

/-- A program step has verified. -/
def StoreSide.stepDone (t : ProgramStep) (v : StoreSide) : StoreSide :=
  let v := v.on StoreController.noStep
  match t.what with
  | .header i => v.on fun c => { c with session := c.session.map (Session.headed i) }
  | .codes upTo =>
    match v.store.session with
    | none => v
    | some ss =>
      let v := v.on fun c => { c with session := some { ss with nextCode := upTo } }
      if ss.chunkEnd ss.nextProg ≤ upTo then v.chunkDone else v
  | .completionMark => v.loadDone
  | .configValues => v.on fun c => { c with config := c.config.map fun (j : ConfigJob) => { j with phase := .mark } }
  | .configMark =>
    let v := v.on fun c => { c.setSeg 0 .configValid with config := none }
    (v.submit .loadDone 32 0).setEngine .idle

/-- The program attempt ends with its verify (R150). -/
def StoreSide.attemptDone (missed : List Byte) (v : StoreSide) : StoreSide :=
  match v.store.port with
  | some ⟨.attempt t, _⟩ =>
    let v := v.on fun c => { c with bytes := programBytes t.seg t.bytes missed c.bytes, port := none }
    if verifies v.store.bytes t then
      if v.store.settling.isSome then v.settle else v.stepDone t
    else if Config.attemptLimit ≤ v.store.attempts then v.fail .programFail t.seg
    else if v.store.settling.isSome then v.settle
    else v
  | _ => v

/-- Supply-good falls (R151): a pulse or attempt in progress is cut short. -/
def StoreSide.supplyFall (left : List (Nat × Byte)) (missed : List Byte) (v : StoreSide) : StoreSide :=
  let v := v.on fun c => { c with supplyGood := false }
  let cut (x : PortStep) (g : SegNo) : StoreSide :=
    (v.on fun c => { c with bytes := x.damage left missed c.bytes }).fail .supplyAbort g
  match v.store.port with
  | some ⟨.erasePulse g, _⟩ => cut (.erasePulse g) g
  | some ⟨.attempt t, _⟩ => cut (.attempt t) t.seg
  | _ => v

/-! ### Refills (R153) -/

/-- A refill request enters the queue in place of any waiting request of its player; an erase pulse in progress is
suspended (R153). -/
def StoreController.enqueueRefill (q : RefillReq) (c : StoreController) : StoreController :=
  let c := { c with refillQ := (c.refillQ.filter fun (x : RefillReq) => x.player != q.player) ++ [q] }
  match c.port with
  | some ⟨.erasePulse g, n⟩ => { c with port := none, suspended := some ⟨g, n⟩ }
  | _ => c

/-- Of two waiting refills, the one the arbiter chooses: lower FIFO level, then lower player number (R153). -/
def betterRefill (level : PlayNo → Nat) (a b : RefillReq) : RefillReq :=
  if level b.player < level a.player ∨ (level b.player = level a.player ∧ b.player < a.player) then b else a

/-- The waiting refill the arbiter chooses (R153). -/
def chooseRefill (level : PlayNo → Nat) : List RefillReq → Option RefillReq
  | [] => none
  | q :: l => some (l.foldl (betterRefill level) q)

/-- With the port free the arbiter takes the chosen refill and starts its read; one whose recording is not AVAILABLE is
discarded (R153, log 17). -/
def StoreController.startRefill (level : PlayNo → Nat) (c : StoreController) : StoreController :=
  if c.port = none then
    match chooseRefill level c.refillQ with
    | none => c
    | some q =>
      let c := { c with refillQ := c.refillQ.filter fun x => x != q }
      if c.dir[q.recording].state = .available then { c with port := some ⟨.refill q true, Config.refillUs⟩ } else c
  else c

/-- Code `j` of recording `r` (R135). -/
def StoreController.codeAt (c : StoreController) (r : RecNo) (j : Nat) : Byte :=
  match c.segOf r (j / Config.segmentCodes) with
  | some g => storeByte c.bytes g (Config.headerBytes + j % Config.segmentCodes)
  | none => Config.erasedByte

/-- The refill read ends: its codes are on their way to the player, unless a reset has cancelled it (R137, R153). Whether the
recording is AVAILABLE was judged at the choice; a player unbound since discards the delivery (R107, R117, log 17). -/
def StoreController.refillDone (c : StoreController) : StoreController :=
  match c.port with
  | some ⟨.refill q deliver, _⟩ =>
    let c := { c with port := none }
    if deliver then
      let codes := (List.range q.count).map fun i => c.codeAt q.recording (q.start + i)
      { c with deliveries := c.deliveries ++ [⟨q.player, q.gen, codes⟩] }
    else c
  | _ => c

/-- The pool’s answer that recording `r` is withdrawn: it becomes RETIRING and erasing begins (R145). -/
def StoreSide.withdrawn (r : RecNo) (v : StoreSide) : StoreSide :=
  match v.store.retire with
  | some j =>
    if j.recording = r ∧ j.answered = false then
      StoreSide.setDir r { v.store.dir[r] with state := .retiring }
        (v.on fun c => { c with retire := some { j with answered := true } })
    else v
  | none => v

/-! ### Requests and answers taken from the player pool -/

/-- The store controller takes the oldest refill request, of whichever player (R153; DESIGN CHOICE, log 47). -/
def State.takeRefillReq (s : State) : State :=
  match s.players.refillReqs with
  | [] => s
  | q :: rest =>
    { s with players := { s.players with refillReqs := rest }, store := s.store.enqueueRefill q }

/-- The FIFO level of a player as it stands (R153). -/
def State.fifoLevel (s : State) (n : PlayNo) : Nat := s.players.players[n].fifo.length

/-- The store controller takes the oldest withdrawn answer (R145). -/
def State.takeWithdrawn (s : State) : State :=
  match s.players.withdrawnAnswers with
  | [] => s
  | r :: rest => State.onStore { s with players := { s.players with withdrawnAnswers := rest } } (StoreSide.withdrawn r)

end Sys2Proof.Machine
end

