-- ==== Sys2Proof/Machine/PlanTable.lean ====
section
/-!
DEFINITION. The plan table (chapter 2): plan writes, validation and the bank switch, and the requests of the channel pool.
-/
namespace Sys2Proof.Machine

/-- The number of a bank in reports: 0 for A, 1 for B (R43). -/
def Bank.num : Bank → Nat
  | .A => 0
  | .B => 1

/-- The other bank. -/
def Bank.other : Bank → Bank
  | .A => .B
  | .B => .A

def PlanTable.bank (t : PlanTable) : Bank → BankRecord
  | .A => t.bankA
  | .B => t.bankB

def PlanTable.setBank (t : PlanTable) (b : Bank) (r : BankRecord) : PlanTable :=
  match b with
  | .A => { t with bankA := r }
  | .B => { t with bankB := r }

/-- Plan `p` of bank `b` as the shadow holds it (R54). -/
def PlanTable.plan (t : PlanTable) (b : Bank) (p : PlanNo) : Plan := (t.bank b).plans[p]

/-- Whether plan `p` is valid in the live bank; with the selector NONE none is (R42). -/
def PlanTable.validLive (t : PlanTable) (p : PlanNo) : Bool :=
  match t.live with
  | none => false
  | some b => (t.plan b p).status == .valid

/-- A plan write as taken in an IDLE bank: the word's fields replaced, the plan UNVALIDATED (R31). -/
def PlanTable.takeWord (t : PlanTable) (b : Bank) (p : PlanNo) (k : Nat) (w : Word) : PlanTable :=
  let r := t.bank b
  t.setBank b { r with plans := r.plans.set p { planWithWord k w r.plans[p] with status := .unvalidated } }

/-- A captured plan word (R28, R31, R32). -/
def Exchange.planWrite (off : Offset) (w : Word) (e : Exchange) : Exchange :=
  let (b, p, k) := planOffset off
  if 12 ≤ k then e
  else if (e.plans.bank b).state = .idle then { e with plans := e.plans.takeWord b p k w }
  else e.submit .planTable .livePlanWrite p.val off.toNat

/-- Check 3 of R34: every used segment has kind 0, 1 or 2 and a duration of 1 or more. -/
def Plan.segsOk (p : Plan) : Bool :=
  (p.segs.toList.take p.segCount.toNat).all fun g => g.kind != .invalid && g.duration != 0

/-- The checks of R34 in their order; the plan is usable when all pass. -/
def Plan.passes (p : Plan) : Bool :=
  1 ≤ p.f1.toNat && (1 ≤ p.segCount.toNat && p.segCount.toNat ≤ 6) && p.segsOk && p.final != .invalid
    && (p.final != .chain || p.chainPlan.toNat < 16)

/-- The clamp of R35: F1 and F2 above 7000 become 7000, and the plan becomes VALID. -/
def Plan.clamped (p : Plan) : Plan :=
  { p with
    f1 := if 7000 < p.f1.toNat then 7000#13 else p.f1
    f2 := if 7000 < p.f2.toNat then 7000#13 else p.f2
    status := .valid }

/-- The flags of PLAN_CLAMPED: 1 when F1 is clamped, 2 when F2 is (R35). -/
def Plan.clampFlags (p : Plan) : Nat :=
  (if 7000 < p.f1.toNat then 1 else 0) + (if 7000 < p.f2.toNat then 2 else 0)

/-- Validation of plan `p` of bank `b` (R34, R35). -/
def Exchange.validatePlan (b : Bank) (e : Exchange) (p : PlanNo) : Exchange :=
  let r := e.plans.bank b
  let q := r.plans[p]
  let put (q' : Plan) : Exchange := { e with plans := e.plans.setBank b { r with plans := r.plans.set p q' } }
  if q.status ≠ .unvalidated then e
  else if q.validFlag = false then put { q with status := .invalid }
  else if q.passes then
    if q.clampFlags = 0 then put q.clamped
    else (put q.clamped).submit .planTable .planClamped p.val (0x100 * b.num + q.clampFlags)
  else (put { q with status := .invalid }).submit .planTable .planInvalid p.val b.num

/-- The plan numbers in ascending order. -/
def allPlans : List PlanNo := List.finRange 16

/-- Validation of the incoming bank, plans 0 to 15 (R34). -/
def Exchange.validateBank (b : Bank) (e : Exchange) : Exchange := allPlans.foldl (Exchange.validatePlan b) e

/-- Step 2 of R36: the outgoing bank becomes IDLE, or DRAINING with a draining notice while it is referenced. -/
def PlanTable.retireBank (t : PlanTable) (old : Option Bank) : PlanTable :=
  match old with
  | none => t
  | some o =>
    if (t.bank o).refs = 0 then t.setBank o { t.bank o with state := .idle }
    else { t.setBank o { t.bank o with state := .draining } with drainNotices := t.drainNotices ++ [o] }

/-- Whether step 2 of R36 leaves no bank DRAINING. -/
def PlanTable.settlesAtOnce (t : PlanTable) (old : Option Bank) : Bool :=
  match old with
  | none => true
  | some o => (t.bank o).refs == 0

/-- An accepted switch to bank `b` (R34–R36). -/
def Exchange.switchTo (b : Bank) (e : Exchange) : Exchange :=
  let old := e.plans.live
  let e := e.validateBank b
  let t := { e.plans.setBank b { e.plans.bank b with state := .live } with live := some b }
  let e' := Exchange.mark { e with plans := t.retireBank old } .global
  if t.settlesAtOnce old then
    e'.submit .planTable .bankSwitched b.num ((old.map Bank.num).getD 2)
  else e'

/-- A captured live-bank word (R33). -/
def Exchange.liveBankWrite (w : Word) (e : Exchange) : Exchange :=
  let b := liveBankOf w
  match (e.plans.bank b).state with
  | .live => e
  | .draining => { e with wire := e.wire.submitWord .planTable .bankBusy b.num w }
  | .idle => e.switchTo b

/-! ### Requests of the channel pool (section 2.5) -/

/-- The answer to a join request for plan `p` and a channel running it from bank `b` (R37). -/
def PlanTable.joinGranted (t : PlanTable) (b : Bank) (p : PlanNo) : Bool := t.live == some b && (t.plan b p).status == .valid

/-- Add 1 to a bank's reference count. -/
def PlanTable.addRef (t : PlanTable) (b : Bank) : PlanTable := t.setBank b { t.bank b with refs := (t.bank b).refs + 1 }

/-- An allocation request for plan `p` (R37): on a grant, the live bank and the table with its count raised. -/
def PlanTable.allocate (t : PlanTable) (p : PlanNo) : Option (Bank × PlanTable) :=
  match t.live with
  | none => none
  | some b => if (t.plan b p).status = .valid then some (b, t.addRef b) else none

/-- A reference to bank `b` is given up (R38, R39), and draining ends when none is left (R40). -/
def Exchange.dropRef (b : Bank) (e : Exchange) : Exchange :=
  let r := e.plans.bank b
  let n := r.refs - 1
  if r.state = .draining ∧ n = 0 then
    let e := Exchange.mark { e with plans := e.plans.setBank b { r with state := .idle, refs := n } } .global
    e.submit .planTable .bankSwitched ((e.plans.live.map Bank.num).getD 2) b.num
  else { e with plans := e.plans.setBank b { r with refs := n } }

/-- The answers to a move request (R38). -/
inductive MoveAnswer where
  | moved (live : Bank)
  | withdrawn
  | stay
deriving DecidableEq, Repr

/-- The answer to a move request for plan `p` of bank `b` (R38). -/
def PlanTable.moveAnswer (t : PlanTable) (b : Bank) (p : PlanNo) : MoveAnswer :=
  if (t.bank b).state = .live then .stay
  else
    match t.live with
    | none => .withdrawn
    | some l => if (t.plan l p).status = .valid then .moved l else .withdrawn

/-- The answer to a chain request for chain plan `q` of bank `b`, whatever the bank's state (R39). -/
def PlanTable.chainValid (t : PlanTable) (b : Bank) (q : BitVec 5) : Bool :=
  q.toNat < 16 && (t.plan b (Fin.ofNat 16 q.toNat)).status == .valid

end Sys2Proof.Machine
end

