-- ==== Sys2Proof/Machine/Channels.lean ====
section
/-!
DEFINITION. The tone channel pool (chapter 3): starts, joins, cadence, cycle ends, leaves and queue service.
-/
namespace Sys2Proof.Machine

/-- Insert a listener in ascending circuit number; a listener set holds no circuit twice (R45). -/
def insertToneListener (x : ToneListener) : List ToneListener → List ToneListener
  | [] => [x]
  | y :: l => if x.circ < y.circ then x :: y :: l else if x.circ = y.circ then x :: l else y :: insertToneListener x l

def Exchange.chan (e : Exchange) (k : ChanNo) : Channel := e.chans.chans[k]

def Exchange.setChan (k : ChanNo) (c : Channel) (e : Exchange) : Exchange :=
  { e with chans := { e.chans with chans := e.chans.chans.set k c } }

/-- The pool sends the order unit a notice (R48). -/
def Exchange.chanNotify (c : Circ) (tag : Tag) (m : ChannelMessage) (e : Exchange) : Exchange :=
  { e with chans := { e.chans with notices := e.chans.notices ++ [⟨c, tag, m⟩] } }

def Exchange.setToneQueue (q : List ToneWaiter) (e : Exchange) : Exchange := { e with chans := { e.chans with queue := q } }

/-- The duration of segment `i` of a plan in cadence units. -/
def Plan.duration (p : Plan) (i : Fin 6) : Nat := p.segs[i].duration.toNat

/-- The last used segment of a plan (R28). -/
def Plan.lastSegment (p : Plan) : Fin 6 := Fin.ofNat 6 (p.segCount.toNat - 1)

/-- A channel as set up by a granted allocation (R50). -/
def Run.start (isPrivate : Bool) (b : Bank) (p : PlanNo) (pl : Plan) (l : ToneListener) : Run where
  isPrivate := isPrivate
  bank := b
  plan := p
  listeners := [l]
  segIndex := 0
  segLeft := pl.duration 0
  unitFrames := 0
  cycles := 0
  phase1 := 0
  phase2 := 0
  movePending := false
  holding := false
  value := none
  computed := false
  due := .none

/-- The lowest-numbered channel that is SHARED on plan `p`, move pending clear, and whose join is granted (R49 case 1). -/
def Exchange.joinable (e : Exchange) (p : PlanNo) : Option ChanNo :=
  allChannels.find? fun k =>
    match e.chan k with
    | some r => !r.isPrivate && r.plan == p && !r.movePending && e.plans.joinGranted r.bank p
    | none => false

/-- The lowest-numbered FREE channel (R49, R50). -/
def Exchange.freeChannel (e : Exchange) : Option ChanNo := allChannels.find? fun k => (e.chan k).isNone

/-- A circuit enters the listener set of channel `k` (R51). -/
def Exchange.joinChan (k : ChanNo) (l : ToneListener) (e : Exchange) : Exchange :=
  match e.chan k with
  | some r => e.setChan k (some { r with listeners := insertToneListener l r.listeners })
  | none => e

/-- An allocation of FREE channel `k` for plan `p` with its first listener; none when the plan table refuses (R37, R50). -/
def Exchange.allocChan (k : ChanNo) (p : PlanNo) (l : ToneListener) (e : Exchange) : Option Exchange :=
  match e.plans.allocate p with
  | none => none
  | some (b, t) => some (Exchange.setChan k (some (Run.start l.isPrivate b p (t.plan b p) l)) { e with plans := t })

/-- The answers to a tone start request (R48). -/
inductive ToneAnswer where
  | served (k : ChanNo) (how : ServedHow)
  | queued
  | withdrawn
deriving DecidableEq, Repr

/-- The circuit joins the tail of the channel wait queue, with report CHANNEL_WAIT (R49, R50, R52). -/
def Exchange.queueTone (c : Circ) (tag : Tag) (isPrivate : Bool) (p : PlanNo) (e : Exchange) : Exchange :=
  (e.setToneQueue (e.chans.queue ++ [⟨c, isPrivate, p, tag⟩])).submit .channelPool .channelWait c.val
    (p.val + if isPrivate then 0x100 else 0)

/-- The allocation of the lowest-numbered FREE channel `k` as the answer to a start (R49 case 2, R50 case 1). -/
def Exchange.startFree (k : ChanNo) (p : PlanNo) (l : ToneListener) (e : Exchange) : ToneAnswer × Exchange :=
  match e.allocChan k p l with
  | some e' => (.served k .allocated, e')
  | none => (.withdrawn, e)

/-- A start request for a TONE_SHARED entry (R49). -/
def Exchange.startShared (c : Circ) (tag : Tag) (p : PlanNo) (e : Exchange) : ToneAnswer × Exchange :=
  match e.joinable p with
  | some k => (.served k .joined, e.joinChan k ⟨c, tag, false⟩)
  | none =>
    match e.freeChannel with
    | some k => e.startFree k p ⟨c, tag, false⟩
    | none => (.queued, e.queueTone c tag false p)

/-- A start request for a TONE_PRIVATE entry (R50). -/
def Exchange.startPrivate (c : Circ) (tag : Tag) (p : PlanNo) (e : Exchange) : ToneAnswer × Exchange :=
  match e.freeChannel with
  | some k => e.startFree k p ⟨c, tag, true⟩
  | none =>
    match e.joinable p with
    | some k =>
      (.served k .degraded, (e.joinChan k ⟨c, tag, true⟩).submit .channelPool .privateDegraded c.val (0x100 * k.val + p.val))
    | none => (.queued, e.queueTone c tag true p)

/-- A tone start request of either kind. -/
def Exchange.startTone (c : Circ) (tag : Tag) (isPrivate : Bool) (p : PlanNo) (e : Exchange) : ToneAnswer × Exchange :=
  if isPrivate then e.startPrivate c tag p else e.startShared c tag p

/-! ### Queue service -/

/-- Waiters of kind TONE_SHARED on plan `p` (R57, R64). -/
def ToneWaiter.sharedOn (p : PlanNo) (w : ToneWaiter) : Bool := !w.isPrivate && w.plan == p

/-- Waiter `w` leaves the queue into channel `k`'s listener set, with a served notice, joined (R48, R57, R64). -/
def Exchange.serveInto (k : ChanNo) (e : Exchange) (w : ToneWaiter) : Exchange :=
  (e.joinChan k ⟨w.circ, w.tag, w.isPrivate⟩).chanNotify w.circ w.tag (.served k .joined)

/-- Every shared waiter on plan `p`, oldest first, joins channel `k` (R57, R64 step 4). -/
def Exchange.serveShared (k : ChanNo) (p : PlanNo) (e : Exchange) : Exchange :=
  let ws := e.chans.queue.filter (ToneWaiter.sharedOn p)
  ws.foldl (Exchange.serveInto k) (e.setToneQueue (e.chans.queue.filter fun w => !w.sharedOn p))

/-- Serve the queue with FREE channel `k`, the queue being the argument, oldest first (R64). -/
def Exchange.serveQueueFrom (k : ChanNo) : List ToneWaiter → Exchange → Exchange
  | [], e => e.setToneQueue []
  | w :: rest, e =>
    match (e.setToneQueue rest).allocChan k w.plan ⟨w.circ, w.tag, w.isPrivate⟩ with
    | none => Exchange.serveQueueFrom k rest ((e.setToneQueue rest).chanNotify w.circ w.tag .withdrawn)
    | some e' =>
      let e' := e'.chanNotify w.circ w.tag (.served k .allocated)
      if w.isPrivate then e' else e'.serveShared k w.plan

def Exchange.serveToneQueue (k : ChanNo) (e : Exchange) : Exchange := Exchange.serveQueueFrom k e.chans.queue e

/-- Channel `k` becomes FREE (R62): its record is cleared, its reference is released unless a withdrawn answer has taken it
away, and the queue is served with it. -/
def Exchange.freeChan (k : ChanNo) (release : Bool) (e : Exchange) : Exchange :=
  match e.chan k with
  | none => e
  | some r =>
    let e := e.setChan k none
    (if release then e.dropRef r.bank else e).serveToneQueue k

/-! ### Leaves -/

/-- The channel whose listener set holds the circuit. -/
def Exchange.chanOf (c : Circ) (e : Exchange) : Option ChanNo :=
  allChannels.find? fun k =>
    match e.chan k with
    | some r => r.listeners.any fun l => l.circ == c
    | none => false

/-- A leave request (R61). -/
def Exchange.leaveTone (c : Circ) (e : Exchange) : Exchange :=
  if e.chans.queue.any fun w => w.circ == c then e.setToneQueue (e.chans.queue.filter fun w => w.circ != c)
  else
    match e.chanOf c with
    | none => e
    | some k =>
      match e.chan k with
      | none => e
      | some r =>
        let ls := r.listeners.filter fun l => l.circ != c
        let e := e.setChan k (some { r with listeners := ls })
        if ls = [] then e.freeChan k true else e

/-! ### Cadence -/

/-- A channel counts a frame of its unit, unless it is holding (R53 steps 2 and 3). -/
def Run.countFrame (r : Run) : Run :=
  if r.holding then r
  else if r.unitFrames + 1 = Config.unitFrames then { r with unitFrames := 0, due := .unitEnd }
  else { r with unitFrames := r.unitFrames + 1 }

/-- The channel takes a frame start: it counts the frame if it has been computed for it. A channel allocated since the
computation begins at the next frame start, so that each segment covers its duration exactly (R53). -/
def Run.takeFrame (r : Run) : Run := if r.computed then { r.countFrame with computed := false } else r

/-- A cadence unit ends: segment remaining falls by 1 (R53 step 3). -/
def Run.endUnit (r : Run) : Run :=
  if r.segLeft ≤ 1 then { r with segLeft := 0, due := .segmentEnd } else { r with segLeft := r.segLeft - 1, due := .none }

/-- A segment ends: the next one takes effect, or the cycle ends (R53 step 4). -/
def Run.endSegment (pl : Plan) (r : Run) : Run :=
  if r.segIndex.val + 1 < pl.segCount.toNat then
    let i : Fin 6 := Fin.ofNat 6 (r.segIndex.val + 1)
    { r with segIndex := i, segLeft := pl.duration i, due := .none }
  else { r with due := .cycleEnd }

/-- Work on a channel that is not FREE. -/
def Exchange.onRun (k : ChanNo) (f : Run → Run) (e : Exchange) : Exchange :=
  match e.chan k with
  | some r => e.setChan k (some (f r))
  | none => e

/-- The channel pool takes a frame start: each channel computed for it counts the frame (R53). -/
def Exchange.countFrames (e : Exchange) : Exchange :=
  { e with chans := { e.chans with chans := e.chans.chans.map fun c => c.map Run.takeFrame } }

/-- Channel `k` takes its unit end, if that is due. -/
def Exchange.unitEnd (k : ChanNo) (e : Exchange) : Exchange :=
  match e.chan k with
  | some r => if r.due = .unitEnd then e.setChan k (some r.endUnit) else e
  | none => e

/-- Channel `k` takes its segment end, if that is due. -/
def Exchange.segmentEnd (k : ChanNo) (e : Exchange) : Exchange :=
  match e.chan k with
  | some r => if r.due = .segmentEnd then e.setChan k (some (r.endSegment (e.plans.plan r.bank r.plan))) else e
  | none => e

/-! ### Cycle end (R56) -/

/-- The next cycle begins: segment 0 of the plan now referenced (R56 step 4). -/
def Run.nextCycle (pl : Plan) (r : Run) : Run := { r with segIndex := 0, segLeft := pl.duration 0, due := .none }

/-- The channel runs plan `q` of the same bank from its start (R59 CHAIN). -/
def Run.chained (q : PlanNo) (pl : Plan) (r : Run) : Run :=
  { r with
    plan := q, segIndex := 0, segLeft := pl.duration 0, unitFrames := 0, cycles := 0, phase1 := 0, phase2 := 0
    holding := false, due := .none }

/-- The listeners of channel `k` are sent `m`, in ascending circuit number, and removed (R59, R63). -/
def Exchange.dismiss (k : ChanNo) (m : ChannelMessage) (e : Exchange) : Exchange :=
  match e.chan k with
  | none => e
  | some r =>
    (r.listeners.foldl (fun e l => e.chanNotify l.circ l.tag m) e).setChan k (some { r with listeners := [] })

/-- SILENCE: the listener is sent a done notice and the channel becomes FREE (R59). -/
def Exchange.silence (k : ChanNo) (e : Exchange) : Exchange := (e.dismiss k .done).freeChan k true

/-- The final action of the plan now referenced (R59, R60). HOLD_LAST holds the last used segment of that plan, also after a
move to a plan with another segment count (DEDUCED, log 35). A plan in use has no invalid final action (R34, log 20). -/
def Exchange.finalAction (k : ChanNo) (r : Run) (pl : Plan) (e : Exchange) : Exchange :=
  match pl.final with
  | .holdLast => e.setChan k (some { r with segIndex := pl.lastSegment, holding := true, due := .none })
  | .chain =>
    if e.plans.chainValid r.bank pl.chainPlan then
      let q : PlanNo := Fin.ofNat 16 pl.chainPlan.toNat
      e.setChan k (some (r.chained q (e.plans.plan r.bank q)))
    else
      ((e.setChan k (some r)).submit .channelPool .planInvalid pl.chainPlan.toNat
        (0x100 + 0x10 * r.bank.num + k.val)).silence k
  | .silence => (e.setChan k (some r)).silence k
  | .invalid => (e.setChan k (some r)).silence k

/-- Steps 2 to 4 of R56: repeats, final action, next cycle (R58). -/
def Exchange.cycleOn (k : ChanNo) (r : Run) (e : Exchange) : Exchange :=
  let pl := e.plans.plan r.bank r.plan
  let n := pl.repeats.toNat
  if r.isPrivate ∧ n ≠ 0 then
    let r' := { r with cycles := r.cycles + 1 }
    if n ≤ r'.cycles then e.finalAction k r' pl else e.setChan k (some (r'.nextCycle pl))
  else e.setChan k (some (r.nextCycle pl))

/-- Channel `k` takes its cycle end, if that is due (R56). -/
def Exchange.cycleEnd (k : ChanNo) (e : Exchange) : Exchange :=
  match e.chan k with
  | none => e
  | some r =>
    if r.due ≠ .cycleEnd then e
    else if r.movePending then
      match e.plans.moveAnswer r.bank r.plan with
      | .stay => e.cycleOn k { r with movePending := false }
      | .moved l =>
        let r' := { r with movePending := false, bank := l }
        let e := (Exchange.dropRef r.bank { e with plans := e.plans.addRef l }).setChan k (some r')
        let e := if r.isPrivate then e else e.serveShared k r.plan
        match e.chan k with
        | some r'' => e.cycleOn k r''
        | none => e
      | .withdrawn => ((e.dropRef r.bank).dismiss k .withdrawn).freeChan k false
    else e.cycleOn k r

/-- Channel `k` takes every cadence event that is due, in R53's order. -/
def Exchange.settleChannel (e : Exchange) (k : ChanNo) : Exchange := ((e.unitEnd k).segmentEnd k).cycleEnd k

/-- Every channel takes every cadence event that is due, in ascending channel number (DESIGN CHOICE, log 37). -/
def Exchange.settleChannels (e : Exchange) : Exchange := allChannels.foldl Exchange.settleChannel e

/-- The channel pool takes a draining notice for bank `b` (R55). -/
def Exchange.drainNotice (b : Bank) (e : Exchange) : Exchange :=
  { e with chans := { e.chans with
      chans := e.chans.chans.map fun c => c.map fun r => if r.bank = b then { r with movePending := true } else r } }

end Sys2Proof.Machine
end

