-- ==== Sys2Proof/Machine/Players.lean ====
section
/-!
DEFINITION. The announcement player pool (chapter 6): starts, FIFO and refills, cycles, departures, the wait list, and the
recording view.
-/
namespace Sys2Proof.Machine

def Exchange.player (e : Exchange) (n : PlayNo) : Player := e.players.players[n]

/-- Whether what the player status word shows is the same (R120). -/
def Player.sameShown (p q : Player) : Bool :=
  p.state == q.state && p.recording == q.recording && p.listeners.length == q.listeners.length
    && p.joins.length == q.joins.length

/-- Replace a player record; its status word is marked when what it shows changes (R120). -/
def Exchange.setPlayer (n : PlayNo) (p : Player) (e : Exchange) : Exchange :=
  let e' := { e with players := { e.players with players := e.players.players.set n p } }
  if (e.player n).sameShown p then e' else e'.mark (.player n)

/-- The pool sends the order unit a notice or an expiry answer (R103). -/
def Exchange.playNotify (c : Circ) (tag : Tag) (m : PlayerMessage) (e : Exchange) : Exchange :=
  { e with players := { e.players with notices := e.players.notices ++ [⟨c, tag, m⟩] } }

def Exchange.setWaitList (l : List AnnWaiter) (e : Exchange) : Exchange := { e with players := { e.players with waitList := l } }

/-- The recording of the view that a player is bound to (R98, R101). -/
def PlayerPool.viewOf (q : PlayerPool) (p : Player) : Option ViewRecord := p.recording.bind fun r => q.view[r]

/-- The length of the bound recording, 0 when there is none (R98). -/
def PlayerPool.lengthOf (q : PlayerPool) (p : Player) : Nat := ((q.viewOf p).map ViewRecord.length).getD 0

/-- The inter-cycle gap of the bound recording. -/
def PlayerPool.gapOf (q : PlayerPool) (p : Player) : Nat := ((q.viewOf p).map ViewRecord.gap).getD 0

/-- A recording is available: not while the view is scanning, and only when the view holds it (R101). -/
def PlayerPool.available (q : PlayerPool) (r : RecNo) : Bool := !q.scanning && (q.view[r]).isSome

/-- The fan-out count (R99). -/
def Player.fanCount (p : Player) : Nat := p.listeners.length + p.joins.length

/-- Room: the fan-out count is below the limit in force (R99). -/
def PlayerPool.hasRoom (q : PlayerPool) (p : Player) : Bool := p.fanCount < q.fanout

/-- Primed: position 0 and the level at the smaller of 1024 and the length (R98). -/
def PlayerPool.primed (q : PlayerPool) (p : Player) : Bool :=
  p.pos == 0 && p.fifo.length == min Config.fifoDepth (q.lengthOf p)

/-- The FIFO is emptied (R107). -/
def Player.emptied (p : Player) : Player :=
  { p with fifo := [], pos := 0, fetch := 0, gen := p.gen + 1, refillOut := false, wrapped := false }

/-- The player becomes IDLE: its FIFO is emptied and its recording becomes absent (R98, R110, R112, R117). The code it
handed over for the present frame stands. -/
def Player.toIdle (p : Player) : Player := { Player.idleWith (p.gen + 1) with handed := p.handed }

/-! ### Refill requests (R106) -/

/-- A listener that will remain after the cycle end (R106). -/
def AnnListener.remains (l : AnnListener) : Bool := l.repeats == 0 || 2 ≤ l.repeats.val || !l.atStart

/-- The check of whether the next cycle can follow without a gap (R106): when it passes the fetch point wraps. -/
def PlayerPool.wrapCheck (q : PlayerPool) (p : Player) : Player :=
  if p.state = .playing ∧ p.wrapped = false ∧ p.fetch = q.lengthOf p ∧ q.gapOf p = 0
      ∧ (p.joins ≠ [] ∨ p.listeners.any AnnListener.remains = true) then
    { p with fetch := 0, wrapped := true }
  else p

/-- Whether the conditions of a refill request hold (R106). -/
def PlayerPool.wantsRefill (q : PlayerPool) (p : Player) : Bool :=
  p.state != .idle && !p.refillOut && p.fifo.length ≤ Config.refillCodes && p.fetch < q.lengthOf p

/-- The close of an event for one player: the wrap check, then the request conditions (R106). -/
def Exchange.closePlayer (e : Exchange) (n : PlayNo) : Exchange :=
  let p := e.players.wrapCheck (e.player n)
  match p.recording with
  | none => e.setPlayer n p
  | some r =>
    if e.players.wantsRefill p then
      let q : RefillReq := ⟨n, r, p.fetch, min Config.refillCodes (e.players.lengthOf p - p.fetch), p.gen⟩
      let e := e.setPlayer n { p with refillOut := true }
      { e with players := { e.players with refillReqs := e.players.refillReqs ++ [q] } }
    else e.setPlayer n p

/-! ### Serving the wait list (R114, R115) -/

/-- Waiters for recording `r` move, oldest first and at most `room` of them, into the tail of player `n`'s join list, each
with a moved notice (R114, R115). -/
def Exchange.moveWaiters (n : PlayNo) (r : RecNo) (room : Nat) (e : Exchange) : Exchange :=
  let t := takeMatching (fun w : AnnWaiter => w.recording == r) room e.players.waitList
  let p := e.player n
  let e := (e.setWaitList t.2).setPlayer n { p with joins := p.joins ++ t.1.map fun w => ⟨w.circ, w.tag, w.repeats⟩ }
  t.1.foldl (fun e w => e.playNotify w.circ w.tag (.moved n)) e

/-- Player `n`, if it is bound and has room, takes waiters for its recording (R114). -/
def Exchange.serveRoom (e : Exchange) (n : PlayNo) : Exchange :=
  match (e.player n).recording with
  | none => e
  | some r => e.moveWaiters n r (e.players.fanout - (e.player n).fanCount)

/-- Player `n` binds recording `r` (R105). -/
def Exchange.bindPlayer (n : PlayNo) (r : RecNo) (e : Exchange) : Exchange :=
  let p := e.player n
  (e.setPlayer n { p with
    state := .priming, recording := some r, pos := 0, fetch := 0, fifo := [], gapLeft := 0, wrapped := false
    underrun := false }).mark (.player n)

/-- Player `n`, if IDLE, binds the recording of the oldest waiter that can be served, and takes its waiters (R115). -/
def Exchange.serveIdle (e : Exchange) (n : PlayNo) : Exchange :=
  if (e.player n).state = .idle then
    match e.players.waitList.find? fun w => e.players.available w.recording with
    | none => e
    | some w => (e.bindPlayer n w.recording).moveWaiters n w.recording e.players.fanout
  else e

/-- Players with room are served (R114); not while scanning. -/
def Exchange.serveRooms (e : Exchange) : Exchange :=
  if e.players.scanning then e else allPlayers.foldl Exchange.serveRoom e

/-- IDLE players are served (R115); not while scanning. -/
def Exchange.serveIdles (e : Exchange) : Exchange :=
  if e.players.scanning then e else allPlayers.foldl Exchange.serveIdle e

/-- The close of every event the pool takes: the wait list is served (R114, R115), then each player's requests are
examined, in ascending number (R106; the order is a DESIGN CHOICE, log 39). -/
def Exchange.closePool (e : Exchange) : Exchange := allPlayers.foldl Exchange.closePlayer e.serveRooms.serveIdles

/-! ### Starts (R104) -/

/-- The answers to an announcement start request (R104). -/
inductive AnnAnswer where
  | listener (n : PlayNo)
  | joinList (n : PlayNo)
  | waitList
  | unavailable
deriving DecidableEq, Repr

/-- The player on `r` with room: the lowest-numbered one (R104). -/
def Exchange.playerOn (r : RecNo) (e : Exchange) : Option PlayNo :=
  allPlayers.find? fun n => (e.player n).recording == some r && e.players.hasRoom (e.player n)

/-- The lowest-numbered IDLE player. -/
def Exchange.idlePlayer (e : Exchange) : Option PlayNo := allPlayers.find? fun n => (e.player n).state == .idle

/-- Insert a listener in ascending circuit number (R99). -/
def insertAnnListener (x : AnnListener) : List AnnListener → List AnnListener
  | [] => [x]
  | y :: l => if x.circ < y.circ then x :: y :: l else if x.circ = y.circ then x :: l else y :: insertAnnListener x l

/-- The circuit joins the tail of player `n`'s join list. -/
def Exchange.addJoin (n : PlayNo) (j : JoinEntry) (e : Exchange) : Exchange :=
  e.setPlayer n { e.player n with joins := (e.player n).joins ++ [j] }

/-- Where the circuit of a start request goes (R104), before the close of the event. A circuit that barges in after the
players' hand-over and before the frame computation hears the code handed over for that frame (DESIGN CHOICE, log 44). -/
def Exchange.placeAnn (c : Circ) (r : RecNo) (reps : Fin 16) (tag : Tag) (e : Exchange) : AnnAnswer × Exchange :=
  let wait := (AnnAnswer.waitList, e.setWaitList (e.players.waitList ++ [⟨c, r, reps, tag⟩]))
  if e.players.scanning then wait
  else
    match e.players.view[r] with
    | none => (.unavailable, e)
    | some v =>
      match e.playerOn r with
      | some n =>
        if (e.player n).state = .playing ∧ v.bargeIn = true then
          (.listener n, e.setPlayer n { e.player n with
            listeners := insertAnnListener ⟨c, tag, reps, false⟩ (e.player n).listeners })
        else (.joinList n, e.addJoin n ⟨c, tag, reps⟩)
      | none =>
        match e.idlePlayer with
        | some n => (.joinList n, (e.bindPlayer n r).addJoin n ⟨c, tag, reps⟩)
        | none => wait

/-- A start request (R104) as one event of the pool. -/
def Exchange.startAnn (c : Circ) (r : RecNo) (reps : Fin 16) (tag : Tag) (e : Exchange) : AnnAnswer × Exchange :=
  let a := e.placeAnn c r reps tag
  (a.1, a.2.closePool)

/-! ### Cycles (R108–R111) -/

/-- Join entries become listeners with joined at cycle start set (R108). -/
def Player.admitJoins (p : Player) : Player :=
  { p with
    listeners := p.joins.foldl (fun ls j => insertAnnListener ⟨j.circ, j.tag, j.repeats, true⟩ ls) p.listeners
    joins := [] }

/-- A cycle of player `n` starts (R108). -/
def Exchange.startCycle (n : PlayNo) (e : Exchange) : Exchange :=
  let p := e.player n
  let e := e.setPlayer n { p.admitJoins with state := .playing, pos := 0, underrun := false }
  (p.joins.foldl (fun e j => e.playNotify j.circ j.tag (.listener n)) e).mark (.player n)

/-- Player `n` takes a frame start: in PLAYING it hands over its oldest code or underruns (R109). -/
def Exchange.handOverCode (e : Exchange) (n : PlayNo) : Exchange :=
  let p := e.player n
  if p.state = .playing then
    match p.fifo with
    | c :: rest => e.setPlayer n { p with handed := some c, fifo := rest, pos := p.pos + 1 }
    | [] =>
      let e' := e.setPlayer n { p with handed := none, underrun := true }
      if p.underrun then e'
      else e'.submit .playerPool .underrun n.val ((p.recording.map Fin.val).getD 0)
  else e.setPlayer n { p with handed := none }

/-- The player pool takes a frame start, the players in ascending number (R109; the order is a DESIGN CHOICE, log 39). The
request conditions are examined at the close of this event and again at that of the cycle end (DESIGN CHOICE, log 45). -/
def Exchange.framePlayers (e : Exchange) : Exchange := (allPlayers.foldl Exchange.handOverCode e).closePool

/-- Whether player `n` has reached its recording's length (R109): its cycle end is due. -/
def Exchange.cycleEndDue (n : PlayNo) (e : Exchange) : Bool :=
  (e.player n).state == .playing && (e.player n).recording.isSome && (e.player n).pos == e.players.lengthOf (e.player n)

/-- Steps 1 and 2 of R110 for one listener: none when its repeats are exhausted. -/
def AnnListener.count (l : AnnListener) : Option AnnListener :=
  if l.atStart then
    if l.repeats = 0 then some l
    else if l.repeats = 1 then none
    else some { l with repeats := l.repeats - 1 }
  else some { l with atStart := true }

/-- Steps 1 to 3 of R110. -/
def Player.endCycle (p : Player) : Player :=
  let p := { p with listeners := p.listeners.filterMap AnnListener.count, pos := 0 }
  if p.wrapped then { p with wrapped := false } else { p with fifo := [], fetch := 0 }

/-- Step 5 of R110. -/
def Exchange.afterCycle (n : PlayNo) (e : Exchange) : Exchange :=
  let p := e.player n
  if p.listeners = [] ∧ p.joins = [] then (e.setPlayer n p.toIdle).mark (.player n)
  else
    let g := e.players.gapOf p
    if 1 ≤ g then (e.setPlayer n { p with state := .gap, gapLeft := g }).mark (.player n)
    else if e.players.primed p then e.startCycle n
    else (e.setPlayer n { p with state := .priming }).mark (.player n)

/-- The listeners whose repeats are used up at the cycle end, in ascending circuit number (R110 step 1). -/
def Player.exhausted (p : Player) : List AnnListener := p.listeners.filter fun l => l.count.isNone

/-- Player `n` ends its cycle (R110). -/
def Exchange.endAnnCycle (n : PlayNo) (e : Exchange) : Exchange :=
  let p := e.player n
  let e := p.exhausted.foldl (fun e l => e.playNotify l.circ l.tag .exhausted) (e.setPlayer n p.endCycle)
  (e.serveRooms.afterCycle n).closePool

/-- Player `n` takes its cycle end, if that is due. -/
def Exchange.annCycleEnd (n : PlayNo) (e : Exchange) : Exchange := if e.cycleEndDue n then e.endAnnCycle n else e

/-- A wait boundary at the player pool: each player in GAP counts its gap (R111). -/
def Exchange.countGaps (e : Exchange) : Exchange :=
  Exchange.closePool { e with players := { e.players with
    players := e.players.players.map fun p => if p.state = .gap then { p with gapLeft := p.gapLeft - 1 } else p } }

/-- Player `n` in GAP with gap remaining 0 ends its gap (R111). -/
def Exchange.playerGapEnd (n : PlayNo) (e : Exchange) : Exchange :=
  let p := e.player n
  if p.state = .gap ∧ p.gapLeft = 0 then
    (if e.players.primed p then e.startCycle n else e.setPlayer n { p with state := .priming }).closePool
  else e

/-- A refill delivery (R107). -/
def Exchange.deliver (d : Delivery) (e : Exchange) : Exchange :=
  let p := e.player d.player
  if p.state ≠ .idle ∧ p.gen = d.gen then
    let p' := { p with fifo := p.fifo ++ d.codes, fetch := p.fetch + d.codes.length, refillOut := false }
    let e := e.setPlayer d.player p'
    (if p'.state = .priming ∧ e.players.primed p' = true then e.startCycle d.player else e).closePool
  else e

/-! ### Departures and expiry (R112, R113) -/

/-- The examination of a player after a removal (R112). -/
def Exchange.afterRemoval (n : PlayNo) (e : Exchange) : Exchange :=
  let p := e.player n
  (if p.listeners = [] ∧ p.joins = [] then e.setPlayer n p.toIdle
   else if p.listeners = [] ∧ p.state = .playing then e.setPlayer n { p.emptied with state := .priming }
   else e).mark (.player n)

/-- The player whose listener set holds the circuit. -/
def Exchange.listenerAt (c : Circ) (e : Exchange) : Option PlayNo :=
  allPlayers.find? fun n => (e.player n).listeners.any fun l => l.circ == c

/-- The player whose join list holds the circuit. -/
def Exchange.joinAt (c : Circ) (e : Exchange) : Option PlayNo :=
  allPlayers.find? fun n => (e.player n).joins.any fun l => l.circ == c

/-- Remove the circuit from player `n`'s lists. -/
def Exchange.removeFrom (n : PlayNo) (c : Circ) (e : Exchange) : Exchange :=
  let p := e.player n
  (e.setPlayer n { p with
    listeners := p.listeners.filter (fun l => l.circ != c), joins := p.joins.filter fun j => j.circ != c }).afterRemoval n

/-- A leave request (R112): the repeats remaining of a listener that left, none when the answer is nothing removed. -/
def Exchange.leaveAnn (c : Circ) (e : Exchange) : Option (Fin 16) × Exchange :=
  match e.listenerAt c with
  | some n =>
    ((((e.player n).listeners.find? fun l => l.circ == c).map AnnListener.repeats), (e.removeFrom n c).closePool)
  | none =>
    match e.joinAt c with
    | some n => (none, (e.removeFrom n c).closePool)
    | none => (none, (e.setWaitList (e.players.waitList.filter fun w => w.circ != c)).closePool)

/-- The pool takes an expiry request and answers it (R113). The tag of a not-held answer is the request's, since the pool
holds none for the circuit (DESIGN CHOICE, log 46). -/
def Exchange.takeExpiry (e : Exchange) (q : ExpiryReq) : Exchange :=
  match e.listenerAt q.circ with
  | some n => (e.playNotify q.circ q.tag (.listening n)).closePool
  | none =>
    match e.joinAt q.circ with
    | some n => ((e.removeFrom n q.circ).playNotify q.circ q.tag .expired).closePool
    | none =>
      if e.players.waitList.any fun w => w.circ == q.circ then
        ((e.setWaitList (e.players.waitList.filter fun w => w.circ != q.circ)).playNotify q.circ q.tag .expired).closePool
      else (e.playNotify q.circ q.tag .notHeld).closePool

/-- The pool takes every expiry request in flight, in the order sent. The order unit's later requests reach the pool after
them, since the pool takes requests in the order they were sent (R3, R103, log 10). -/
def Exchange.drainExpiry (e : Exchange) : Exchange :=
  e.orders.expiryReqs.foldl Exchange.takeExpiry { e with orders := { e.orders with expiryReqs := [] } }

/-! ### Fan-out and the recording view (R116–R118) -/

/-- A change of the fan-out limit (R116). -/
def Exchange.setFanout (n : Nat) (e : Exchange) : Exchange := Exchange.closePool { e with players := { e.players with fanout := n } }

/-- Player `n`, bound to `r`, is unbound with unavailable notices (R117 step 2). -/
def Exchange.unbind (r : RecNo) (e : Exchange) (n : PlayNo) : Exchange :=
  let p := e.player n
  if p.recording = some r then
    let e := p.listeners.foldl (fun e l => e.playNotify l.circ l.tag .unavailable) e
    let e := p.joins.foldl (fun e j => e.playNotify j.circ j.tag .unavailable) e
    (e.setPlayer n p.toIdle).mark (.player n)
  else e

/-- Waiters that do not satisfy `keep` are removed with unavailable notices, in wait-list order (R117, R118). -/
def Exchange.dropWaiters (keep : AnnWaiter → Bool) (e : Exchange) : Exchange :=
  let gone := e.players.waitList.filter fun w => !keep w
  gone.foldl (fun e w => e.playNotify w.circ w.tag .unavailable) (e.setWaitList (e.players.waitList.filter keep))

/-- The withdrawal of recording `r` (R117); the pool tells the store controller that it is withdrawn. -/
def Exchange.withdrawRecording (r : RecNo) (e : Exchange) : Exchange :=
  let e := { e with players := { e.players with view := e.players.view.set r none } }
  let e := (allPlayers.foldl (Exchange.unbind r) e).dropWaiters fun w => w.recording != r
  Exchange.closePool { e with players := { e.players with withdrawnAnswers := e.players.withdrawnAnswers ++ [r] } }

/-- A made-available notice (R118). -/
def Exchange.makeAvailable (r : RecNo) (v : ViewRecord) (e : Exchange) : Exchange :=
  Exchange.closePool { e with players := { e.players with view := e.players.view.set r (some v) } }

/-- The scan-done notice (R118). -/
def Exchange.scanDone (view : Vector (Option ViewRecord) 32) (e : Exchange) : Exchange :=
  let e := { e with players := { e.players with view := view, scanning := false } }
  (e.dropWaiters fun w => (view[w.recording]).isSome).closePool

end Sys2Proof.Machine
end

