-- ==== Sys2Proof/Machine/Congestion.lean ====
section
/-!
DEFINITION. The congestion unit (chapter 7): settings taken, the load grade, resolution.
-/
namespace Sys2Proof.Machine

/-- The thresholds in force for grade g + 1 from the captured fields (R125). -/
def CongestionUnit.setThreshold (g : Fin 3) (up down : Nat) (c : CongestionUnit) : CongestionUnit :=
  { c with up := c.up.set g up, down := c.down.set g (if down < up then down else up - 1) }

/-- The load measure L: the circuits in CHANNEL_WAIT or ANN_WAIT (R3, R126). -/
def OrderUnit.load (o : OrderUnit) : Nat :=
  (o.circuits.toList.filter fun c => c.state == .channelWait || c.state == .annWait).length

/-- The grade an evaluation gives from load L (R127): up(g + 1) is `up[g]`, down(g) is `down[g - 1]`. -/
def CongestionUnit.nextGrade (c : CongestionUnit) (load : Nat) : Cls :=
  match c.grade with
  | 0 => if c.up[0] ≤ load then 1 else 0
  | 1 => if c.up[1] ≤ load then 2 else if load ≤ c.down[0] then 0 else 1
  | 2 => if c.up[2] ≤ load then 3 else if load ≤ c.down[1] then 1 else 2
  | 3 => if load ≤ c.down[2] then 2 else 3

/-- An evaluation of the load grade (R126–R128, R132). -/
def Exchange.evaluateGrade (e : Exchange) : Exchange :=
  let g := e.cong.nextGrade e.orders.load
  if g = e.cong.grade then e
  else
    (Exchange.mark { e with cong := { e.cong with grade := g, lamp := Lamp.off } } .global).submit .congestionUnit
      .gradeChanged 0 (0x100 * e.cong.grade.val + g.val)

/-- The answers to a resolution request (R130, R131), each with the grade used. -/
inductive Resolution where
  | announcement (r : RecNo) (repeats : Fin 16) (plan : Option PlanNo)
  | tone (p : PlanNo)
  | unserved
deriving DecidableEq, Repr

/-- The grade used for route `c`: the larger of its level and the load grade (R129). -/
def CongestionUnit.gradeUsed (u : CongestionUnit) (c : Route) : Cls := max u.levels[c] u.grade

/-- The tone case of R130, or unserved. -/
def Exchange.resolveTone (t : TableEntry) (e : Exchange) : Resolution :=
  match t.plan with
  | some p => if e.plans.validLive p then .tone p else .unserved
  | none => .unserved

/-- The choice of R130 from the entry of the grade used. -/
def Exchange.resolution (c : Route) (e : Exchange) : Resolution :=
  let t := e.cong.table[e.cong.gradeUsed c]
  match t.recording with
  | some r => if e.players.available r = true ∧ e.cong.grade ≠ 3 then .announcement r t.repeats t.plan else e.resolveTone t
  | none => e.resolveTone t

/-- A resolved answer pulses the load lamp at load grade 1 (R131, R133). -/
def Exchange.pulseLoadLamp (e : Exchange) : Exchange :=
  if e.cong.grade = 1 then { e with cong := { e.cong with lamp := e.cong.lamp.request } } else e

end Sys2Proof.Machine
end

