-- ==== Sys2Proof/Machine/Orders.lean ====
section
/-!
DEFINITION. The order unit (chapter 1): orders, releases, starts, the changeover gap, completions, fallbacks, follow-ons
and served notices.
-/
namespace Sys2Proof.Machine

def Exchange.circuit (e : Exchange) (p : Circ) : Circuit := e.orders.circuits[p]

/-- Whether what R26 lists is the same in two circuit records. -/
def Circuit.sameShown (c d : Circuit) : Bool :=
  c.state == d.state && c.binding == d.binding && c.set == d.set && c.latched == d.latched

/-- Replace a circuit record; its status word is marked when something R26 lists changes. -/
def Exchange.setCircuit (p : Circ) (c : Circuit) (e : Exchange) : Exchange :=
  let e' := { e with orders := { e.orders with circuits := e.orders.circuits.set p c } }
  if (e.circuit p).sameShown c then e' else e'.mark (.circuit p)

/-- The record with another treatment set; the latched grade is that of the active entry's origin (R15). -/
def Circuit.withSet (t : TreatmentSet) (c : Circuit) : Circuit :=
  { c with set := t, latched := (activeEntry t).bind fun e => e.origin.map Origin.grade }

/-- The order unit submits a report about circuit `p` (R25). -/
def Exchange.report (p : Circ) (k : ReportKind) (value : Nat) (e : Exchange) : Exchange := e.submit .orderUnit k p.val value

/-- The value that names an entry: 100h × class + argument (R25). -/
def entryValue (c : Cls) (x : Entry) : Nat := 0x100 * c.val + x.argument

/-- The circuit enters QUIET (R2, R11). -/
def Circuit.toQuiet (c : Circuit) : Circuit :=
  { c with state := .quiet, binding := .none, gapLeft := 0, waited := 0, limit := .counting }

def Exchange.enterQuiet (p : Circ) (e : Exchange) : Exchange := e.setCircuit p (e.circuit p).toQuiet

/-- The circuit enters GAP with the configured gap (R18). -/
def Exchange.enterGap (p : Circ) (e : Exchange) : Exchange :=
  e.setCircuit p { e.circuit p with
    state := .gap, binding := .none, gapLeft := e.orders.gapSetting, waited := 0, limit := .counting }

/-- The circuit is bound by a start's answer (R13, R14). -/
def Exchange.bindCircuit (p : Circ) (st : CircuitState) (b : Binding) (e : Exchange) : Exchange :=
  e.setCircuit p { e.circuit p with state := st, binding := b, gapLeft := 0, waited := 0, limit := .counting }

/-- Each start of an entry advances the activation tag (R4, log 11). -/
def Exchange.bumpTag (p : Circ) (e : Exchange) : Exchange :=
  e.setCircuit p { e.circuit p with tag := (e.circuit p).tag + 1 }

/-- Put or remove the entry of class `c`. -/
def Exchange.setEntry (p : Circ) (c : Cls) (x : Option Entry) (e : Exchange) : Exchange :=
  e.setCircuit p ((e.circuit p).withSet ((e.circuit p).set.set c x))

/-- Steps 1 to 3 of a completion (R20): the entry is removed, the binding none, the report submitted. -/
def Exchange.removeEntry (p : Circ) (c : Cls) (k : ReportKind) (value : Nat) (e : Exchange) : Exchange :=
  let e := e.setEntry p c none
  (e.setCircuit p { e.circuit p with binding := .none }).report p k value

/-- A shared tone entry on `q` that replaces an announcement entry (R21, R22). -/
def Entry.replacement (q : PlanNo) (x : Entry) : Entry := ⟨.toneShared q, none, none, x.origin⟩

/-- Start a tone entry `x` of class `c` on plan `q` (R13); false when the start ended in a completion (R16). -/
def Exchange.startToneEntry (p : Circ) (c : Cls) (x : Entry) (isPrivate : Bool) (q : PlanNo) (e : Exchange) : Bool × Exchange :=
  if e.plans.validLive q then
    let a := e.startTone p (e.circuit p).tag isPrivate q
    match a.1 with
    | .served k _ => (true, a.2.bindCircuit p .tone (.channel k))
    | .queued => (true, a.2.bindCircuit p .channelWait .channelQueue)
    | .withdrawn => (false, a.2.removeEntry p c .planWithdrawn (entryValue c x))
  else (false, e.removeEntry p c .planWithdrawn (entryValue c x))

/-- Start an announcement entry `x` of class `c` on recording `r` with repeats `n` (R14), with the fallback or completion of
an unavailable recording (R16, R21). -/
def Exchange.startAnnEntry (p : Circ) (c : Cls) (x : Entry) (r : RecNo) (n : Fin 16) (e : Exchange) : Bool × Exchange :=
  let a := e.drainExpiry.startAnn p r n (e.circuit p).tag
  match a.1 with
  | .listener k => (true, a.2.bindCircuit p .hear (.listener k))
  | .joinList k => (true, a.2.bindCircuit p .annWait (.joinList k))
  | .waitList => (true, a.2.bindCircuit p .annWait .waitList)
  | .unavailable =>
    match x.fallback with
    | some q =>
      let y := x.replacement q
      Exchange.startToneEntry p c y false q
        (((a.2.setEntry p c (some y)).report p .annUnavailable (entryValue c x)).bumpTag p)
    | none => (false, a.2.removeEntry p c .annUnavailable (entryValue c x))

/-- Start a congestion entry `x` of class `c` on route `q`: it is resolved and the resolved entry started (R15). -/
def Exchange.startCongestion (p : Circ) (c : Cls) (x : Entry) (q : Route) (e : Exchange) : Bool × Exchange :=
  let origin : Option Origin := some ⟨q, e.cong.gradeUsed q⟩
  match e.resolution q with
  | .announcement r n pl =>
    let y : Entry := ⟨.announce r n, pl, pl, origin⟩
    (e.pulseLoadLamp.setEntry p c (some y)).startAnnEntry p c y r n
  | .tone pl =>
    let y : Entry := ⟨.toneShared pl, none, none, origin⟩
    (e.pulseLoadLamp.setEntry p c (some y)).startToneEntry p c y false pl
  | .unserved => (false, e.removeEntry p c .congestionUnserved (entryValue c x))

/-- Start the entry `x` of class `c` (R13–R15); false when the start ended in a completion. -/
def Exchange.startEntry (p : Circ) (c : Cls) (x : Entry) (e : Exchange) : Bool × Exchange :=
  let e := e.bumpTag p
  match x.treat with
  | .toneShared q => e.startToneEntry p c x false q
  | .tonePrivate q => e.startToneEntry p c x true q
  | .announce r n => e.startAnnEntry p c x r n
  | .congestion q => e.startCongestion p c x q

/-- Start the entry of the highest class below `n`, and on a completion the next, until one is bound; with none left the
circuit enters QUIET (R16). -/
def Exchange.startBelow (p : Circ) : Nat → Exchange → Exchange
  | 0, e => e.enterQuiet p
  | n + 1, e =>
    match (e.circuit p).set[(Fin.ofNat 4 n : Cls)] with
    | none => Exchange.startBelow p n e
    | some x =>
      let a := e.startEntry p (Fin.ofNat 4 n) x
      if a.1 then a.2 else Exchange.startBelow p n a.2

/-- Start the active entry (R13–R16). -/
def Exchange.startActive (p : Circ) (e : Exchange) : Exchange := e.startBelow p 4

/-- Whether the circuit hears a treatment: TONE or HEAR. -/
def CircuitState.hears (st : CircuitState) : Bool := st == .tone || st == .hear

/-- Step 4 of R20, and the end of R12: QUIET with an empty set; GAP when the circuit left TONE or HEAR and the configured
gap is 1–20; else the entry now active starts at once. -/
def Exchange.proceed (p : Circ) (left : CircuitState) (e : Exchange) : Exchange :=
  if activeClass (e.circuit p).set = none then e.enterQuiet p
  else if left.hears = true ∧ 1 ≤ e.orders.gapSetting then e.enterGap p
  else e.startActive p

/-! ### Releases and dormancy (R12, R17) -/

/-- The leave request of a release, to the pool the binding names (R12): the repeats a listener brings back. -/
def Exchange.leave (p : Circ) (e : Exchange) : Option (Fin 16) × Exchange :=
  match (e.circuit p).binding with
  | .none => (none, e)
  | .channel _ => (none, e.leaveTone p)
  | .channelQueue => (none, e.leaveTone p)
  | .listener _ => e.drainExpiry.leaveAnn p
  | .joinList _ => e.drainExpiry.leaveAnn p
  | .waitList => e.drainExpiry.leaveAnn p

/-- A release (R12): the leave, then binding none and wait elapsed 0. -/
def Exchange.release (p : Circ) (e : Exchange) : Option (Fin 16) × Exchange :=
  let a := e.leave p
  (a.1, a.2.setCircuit p { a.2.circuit p with binding := .none, waited := 0, limit := .counting })

/-- An entry as it becomes dormant (R17): an entry with an origin reverts to CONGESTION on the route of its origin; an
announcement that was heard keeps the repeats the leave returned. -/
def Entry.dormant (reps : Option (Fin 16)) (x : Entry) : Entry :=
  match x.origin with
  | some o => ⟨.congestion o.route, none, none, none⟩
  | none =>
    match x.treat, reps with
    | .announce r _, some n => { x with treat := .announce r n }
    | _, _ => x

/-- The set once the previous active entry, of class `c`, has become dormant, if it still stands there below another. -/
def TreatmentSet.makeDormant (t : TreatmentSet) (c : Option Cls) (reps : Option (Fin 16)) : TreatmentSet :=
  match c with
  | none => t
  | some c => if activeClass t = some c then t else t.set c ((t[c]).map (Entry.dormant reps))

/-- A change of circuit `p`'s set to `t`, class `placed` having been written (R10), settled by R11, R12, R17 and R19. A new
dormant entry marks the status word even when its fields equal the old one's; a new active entry in GAP of equal fields does
not (R26; DESIGN CHOICE, log 43). -/
def Exchange.changeSet (p : Circ) (t : TreatmentSet) (placed : Option Cls) (e : Exchange) : Exchange :=
  let c := e.circuit p
  let before := activeClass c.set
  if activeClass t = before ∧ (placed = none ∨ placed ≠ before) then
    let e := e.setCircuit p (c.withSet t)
    if placed = none then e else e.mark (.circuit p)
  else
    let a := e.release p
    let t' := t.makeDormant (if placed = before then none else before) a.1
    let e := a.2.setCircuit p ((a.2.circuit p).withSet t')
    if activeClass t' = none then e.enterQuiet p
    else if c.state = .gap then e
    else e.proceed p c.state

/-- A new entry of an order; its plans are copied from the detail shadow and it has no origin (R7, R10). -/
def Circuit.newEntry (k : Treatment) (c : Circuit) : Entry := ⟨k, c.detailFollowOn, c.detailFallback, none⟩

/-- An accepted order places a new entry in class `c` (R10). -/
def Exchange.place (p : Circ) (c : Cls) (k : Treatment) (e : Exchange) : Exchange :=
  e.changeSet p ((e.circuit p).set.set c (some ((e.circuit p).newEntry k))) (some c)

/-- A refused order submits its report with the hearing word as captured, and changes nothing in the record (R9). -/
def Exchange.refuseOrder (p : Circ) (k : ReportKind) (w : Word) (e : Exchange) : Exchange :=
  { e with wire := e.wire.submitWord .orderUnit k p.val w }

/-- A TONE order of either kind (R9, R10). -/
def Exchange.orderTone (p : Circ) (w : Word) (k : PlanNo → Treatment) (e : Exchange) : Exchange :=
  if 16 ≤ orderArg w then e.refuseOrder p .orderInvalid w
  else if e.plans.validLive (Fin.ofNat 16 (orderArg w)) = false then e.refuseOrder p .planInvalid w
  else e.place p (orderClass w) (k (Fin.ofNat 16 (orderArg w)))

/-- An ANNOUNCE order (R9, R10); the recording's state is not checked at arrival. -/
def Exchange.orderAnnounce (p : Circ) (w : Word) (e : Exchange) : Exchange :=
  if 32 ≤ orderArg w then e.refuseOrder p .orderInvalid w
  else e.place p (orderClass w) (.announce (Fin.ofNat 32 (orderArg w)) (orderRepeats w))

/-- A CONGESTION order (R9, R10). -/
def Exchange.orderCongestion (p : Circ) (w : Word) (e : Exchange) : Exchange :=
  if 8 ≤ orderArg w then e.refuseOrder p .orderInvalid w
  else e.place p (orderClass w) (.congestion (Fin.ofNat 8 (orderArg w)))

/-- A QUIET order (R10): the entry of its class is removed if present. -/
def Exchange.orderQuiet (p : Circ) (w : Word) (e : Exchange) : Exchange :=
  e.changeSet p ((e.circuit p).set.set (orderClass w) none) none

/-- A CLEAR_ALL order (R10): every entry is removed. -/
def Exchange.orderClearAll (p : Circ) (e : Exchange) : Exchange := e.changeSet p (Vector.replicate 4 none) none

/-- A captured detail word (R7). -/
def Exchange.writeDetail (p : Circ) (w : Word) (e : Exchange) : Exchange :=
  e.setCircuit p { e.circuit p with detailFollowOn := detailFollowOn w, detailFallback := detailFallback w }

/-! ### Gaps and waits -/

/-- A cadence boundary: each circuit in GAP counts its gap (R18). -/
def OrderUnit.countGaps (o : OrderUnit) : OrderUnit :=
  { o with circuits := o.circuits.map fun c => if c.state = .gap then { c with gapLeft := c.gapLeft - 1 } else c }

/-- The changeover gap of circuit `p` ends: the then-active entry starts (R18). -/
def Exchange.gapEnd (p : Circ) (e : Exchange) : Exchange :=
  if (e.circuit p).state = .gap ∧ (e.circuit p).gapLeft = 0 then e.startActive p else e

/-- One circuit's wait count at a wait boundary, compared with the limit in force after the advance (R14). -/
def Circuit.countWait (limit : Nat) (c : Circuit) : Circuit :=
  if c.state = .annWait ∧ c.limit = .counting then
    { c with waited := c.waited + 1, limit := if limit ≤ c.waited + 1 then .reached else .counting }
  else c

/-- A wait boundary at the order unit (R14). -/
def OrderUnit.countWaits (o : OrderUnit) : OrderUnit := { o with circuits := o.circuits.map (Circuit.countWait o.waitLimit) }

/-- Circuit `p`, found at the limit, has its expiry request sent (R14). -/
def Exchange.sendExpiry (p : Circ) (e : Exchange) : Exchange :=
  let c := e.circuit p
  if c.limit = .reached then
    let e := e.setCircuit p { c with limit := .requested }
    { e with orders := { e.orders with expiryReqs := e.orders.expiryReqs ++ [⟨p, c.tag⟩] } }
  else e

/-! ### Notices (R4, R20–R23) -/

/-- Whether a notice is applied: its tag is the circuit's, and the circuit is in one of the four bound states (R4). -/
def Circuit.takes (tag : Tag) (c : Circuit) : Bool :=
  c.tag == tag && (c.state == .channelWait || c.state == .tone || c.state == .annWait || c.state == .hear)

/-- Apply `f` for the active entry of circuit `p`, if the notice is not stale (R4). -/
def Exchange.onNotice (p : Circ) (tag : Tag) (f : Cls → Entry → Exchange → Exchange) (e : Exchange) : Exchange :=
  if (e.circuit p).takes tag then
    match activeClass (e.circuit p).set with
    | none => e
    | some c =>
      match (e.circuit p).set[c] with
      | none => e
      | some x => f c x e
  else e

/-- A completion by a notice (R20). -/
def Exchange.complete (p : Circ) (k : ReportKind) (c : Cls) (x : Entry) (e : Exchange) : Exchange :=
  let st := (e.circuit p).state
  (e.removeEntry p c k (entryValue c x)).proceed p st

/-- A fallback or follow-on on plan `q` (R21, R22). -/
def Exchange.replaceBy (q : PlanNo) (p : Circ) (k : ReportKind) (c : Cls) (x : Entry) (e : Exchange) : Exchange :=
  let st := (e.circuit p).state
  let e := e.setEntry p c (some (x.replacement q))
  ((e.setCircuit p { e.circuit p with binding := .none }).report p k (entryValue c x)).proceed p st

/-- A fallback where the entry has a fallback plan, else a completion (R20, R21). -/
def Exchange.fallBack (p : Circ) (k : ReportKind) (c : Cls) (x : Entry) (e : Exchange) : Exchange :=
  match x.fallback with
  | some q => e.replaceBy q p k c x
  | none => e.complete p k c x

/-- A follow-on where the entry has a follow-on plan, else a completion (R20, R22). -/
def Exchange.followOn (p : Circ) (c : Cls) (x : Entry) (e : Exchange) : Exchange :=
  match x.followOn with
  | some q => e.replaceBy q p .annDone c x
  | none => e.complete p .annDone c x

/-- A served notice from the channel wait queue (R23). -/
def Exchange.servedOnChannel (p : Circ) (tag : Tag) (k : ChanNo) (e : Exchange) : Exchange :=
  let c := e.circuit p
  if c.takes tag = true ∧ c.state = .channelWait then e.setCircuit p { c with state := .tone, binding := .channel k } else e

/-- A notice of a move from the wait list into player `n`'s join list; wait elapsed continues (R23). -/
def Exchange.servedMoved (p : Circ) (tag : Tag) (n : PlayNo) (e : Exchange) : Exchange :=
  let c := e.circuit p
  if c.takes tag = true ∧ c.state = .annWait then e.setCircuit p { c with binding := .joinList n } else e

/-- A notice, or an answer to an expiry request, that the circuit is a listener of player `n` (R14, R23). -/
def Exchange.servedListener (p : Circ) (tag : Tag) (n : PlayNo) (e : Exchange) : Exchange :=
  let c := e.circuit p
  if c.takes tag = true ∧ c.state = .annWait then
    e.setCircuit p { c with state := .hear, binding := .listener n, waited := 0, limit := .counting }
  else e

end Sys2Proof.Machine
end

