-- ==== Sys2Proof/Machine/Tables.lean ====
section
/-!
DEFINITION. The fixed tables of the sample path (R70, R71, R78). The entries are the values of the rules' formulas,
computed outside Lean to fifty digits and rounded as the rules say.
-/
namespace Sys2Proof.Machine

/-- T[0] to T[256]: the first quarter of the sine table (R70). -/
def quarterSine : List Int :=
  [0, 13, 25, 38, 50, 63, 75, 88, 100, 113, 126, 138, 151, 163, 176, 188, 201, 213, 226, 238]
    ++ [251, 263, 275, 288, 300, 313, 325, 338, 350, 362, 375, 387, 399, 412, 424, 436, 449, 461, 473, 485]
    ++ [497, 510, 522, 534, 546, 558, 570, 582, 594, 606, 618, 630, 642, 654, 666, 678, 690, 701, 713, 725]
    ++ [737, 748, 760, 772, 783, 795, 807, 818, 830, 841, 852, 864, 875, 887, 898, 909, 920, 932, 943, 954]
    ++ [965, 976, 987, 998, 1009, 1020, 1031, 1042, 1052, 1063, 1074, 1085, 1095, 1106, 1116, 1127, 1137, 1148, 1158, 1168]
    ++ [1179, 1189, 1199, 1209, 1219, 1229, 1239, 1249, 1259, 1269, 1279, 1289, 1299, 1308, 1318, 1328, 1337, 1347, 1356, 1365]
    ++ [1375, 1384, 1393, 1402, 1411, 1421, 1430, 1439, 1447, 1456, 1465, 1474, 1483, 1491, 1500, 1508, 1517, 1525, 1533, 1542]
    ++ [1550, 1558, 1566, 1574, 1582, 1590, 1598, 1606, 1614, 1621, 1629, 1637, 1644, 1652, 1659, 1666, 1674, 1681, 1688, 1695]
    ++ [1702, 1709, 1716, 1723, 1729, 1736, 1743, 1749, 1756, 1762, 1769, 1775, 1781, 1787, 1793, 1799, 1805, 1811, 1817, 1823]
    ++ [1828, 1834, 1840, 1845, 1850, 1856, 1861, 1866, 1871, 1876, 1881, 1886, 1891, 1896, 1901, 1905, 1910, 1914, 1919, 1923]
    ++ [1927, 1932, 1936, 1940, 1944, 1948, 1951, 1955, 1959, 1962, 1966, 1969, 1973, 1976, 1979, 1983, 1986, 1989, 1992, 1994]
    ++ [1997, 2000, 2003, 2005, 2008, 2010, 2012, 2015, 2017, 2019, 2021, 2023, 2025, 2027, 2028, 2030, 2032, 2033, 2035, 2036]
    ++ [2037, 2038, 2039, 2040, 2041, 2042, 2043, 2044, 2045, 2045, 2046, 2046, 2046, 2047, 2047, 2047, 2047]

/-- The sine table T[k], k in 0–1023: symmetric about each quarter and odd about half a turn (R70). -/
def sineTable (k : Nat) : Int :=
  if k ≤ 256 then quarterSine.getD k 0
  else if k ≤ 512 then quarterSine.getD (512 - k) 0
  else if k ≤ 768 then -(quarterSine.getD (k - 512) 0)
  else -(quarterSine.getD (1024 - k) 0)

/-- The gain table g[0] to g[63] (R71). -/
def gainTable : List Int :=
  [32767, 30934, 29204, 27570, 26028, 24572, 23197, 21900, 20675, 19518, 18426, 17395, 16422, 15504, 14636, 13818, 13045, 12315, 11626, 10976]
    ++ [10362, 9782, 9235, 8718, 8231, 7770, 7336, 6925, 6538, 6172, 5827, 5501, 5193, 4903, 4628, 4370, 4125, 3894, 3677, 3471]
    ++ [3277, 3093, 2920, 2757, 2603, 2457, 2320, 2190, 2067, 1952, 1843, 1740, 1642, 1550, 1464, 1382, 1304, 1232, 1163, 1098]
    ++ [1036, 978, 923, 872]

/-- g[A] for an attenuation code A (R71). -/
def gainOf (a : BitVec 6) : Int := gainTable.getD a.toNat 0

/-- The trim table for codes 0 to 47 (R78). -/
def trimTable : List Int :=
  [32690, 30862, 29135, 27506, 25967, 24514, 23143, 21848, 20626, 19472, 18383, 17355, 16384, 15467, 14602, 13785, 13014, 12286, 11599, 10950]
    ++ [10338, 9759, 9213, 8698, 8211, 7752, 7318, 6909, 6523, 6158, 5813, 5488, 5181, 4891, 4618, 4359, 4115, 3885, 3668, 3463]
    ++ [3269, 3086, 2914, 2751, 2597, 2451, 2314, 2185]

/-- The circuit gain of a trim code (R78). -/
def trimOf (a : Fin 48) : Int := trimTable.getD a.val 0

end Sys2Proof.Machine
end

