-- ==== Sys2Proof/Machine/Sample.lean ====
section
/-!
DEFINITION. The sample arithmetic and the frame computation (chapter 4). Integer division by a positive number is floor
division, as the rules ask.
-/
namespace Sys2Proof.Machine

/-- The phase increment of a frequency field (R68). -/
def phaseStep (f : BitVec 13) : BitVec 16 := BitVec.ofNat 16 ((f.toNat * 4096 + 500) / 1000)

/-- The phase accumulators of a channel advance; the second only when F2 is not 0 (R69). -/
def Run.advance (pl : Plan) (r : Run) : Run :=
  { r with
    phase1 := r.phase1 + phaseStep pl.f1
    phase2 := if pl.f2 = 0 then r.phase2 else r.phase2 + phaseStep pl.f2 }

/-- The value of a component from its phase and its attenuation (R70, R72). -/
def componentValue (phase : BitVec 16) (a : BitVec 6) : Int := sineTable (phase.toNat / 64) * gainOf a / 32768

/-- The two components combined (R73–R75). A plan in use has no segment of an invalid kind (R34, log 20). -/
def combine (kind : SegKind) (mode : PlanMode) (second : Bool) (v1 v2 : Int) : Int :=
  match kind with
  | .off => 0
  | .onFirst => v1
  | .onBoth =>
    if second then
      match mode with
      | .sum => v1 + v2
      | .product => v1 * (2048 + v2) / 4096
    else v1
  | .invalid => 0

/-- The channel value y of a channel at its present phases (R73). -/
def Run.channelValue (pl : Plan) (r : Run) : Int :=
  combine pl.segs[r.segIndex].kind pl.mode (pl.f2 != 0) (componentValue r.phase1 pl.a1) (componentValue r.phase2 pl.a2)

/-- Stage 1 of the frame computation for one channel: advance, then compute y (R67, R69, R73); its count of the frame is then
to come (R53). -/
def Run.compute (pl : Plan) (r : Run) : Run :=
  let r := r.advance pl
  { r with value := some (r.channelValue pl), computed := true }

/-- The linear value a code decodes to (R76). -/
def decodeCode (b : Byte) : Int :=
  let n := b.toNat
  let seg := n / 16 % 8
  let q := n % 16
  let m := if seg = 0 then 2 * q + 1 else 2 ^ (seg + 4) + q * 2 ^ seg + 2 ^ (seg - 1)
  if n / 128 = 1 then -(m : Int) else m

/-- A limited value encoded to a code (R80). -/
def encodeValue (z : Int) : Byte :=
  let m := z.natAbs
  let seg := if m < 32 then 0 else m.log2 - 4
  let q := if m < 32 then m / 2 else (m - 2 ^ (seg + 4)) / 2 ^ seg
  BitVec.ofNat 8 ((if z < 0 then 128 else 0) + seg * 16 + q)

/-- A source value trimmed (R79). -/
def trimValue (trim : Fin 48) (u : Int) : Int := u * trimOf trim / 16384

/-- The limit to −4095..4095 (R79). -/
def limitValue (z : Int) : Int := max (-4095) (min 4095 z)

/-- The output code of a source value at a trim; none is the idle code (R77, R79, R80). -/
def codeOf (trim : Fin 48) (u : Option Int) : Byte :=
  match u with
  | none => Config.idleCode
  | some u => encodeValue (limitValue (trimValue trim u))

/-- The source value of circuit `p` (R77), by the listener sets of the moment of the computation (log 44). -/
def State.sourceValue (s : State) (p : Circ) : Option Int :=
  let c := s.orders.circuits[p]
  match c.state, c.binding with
  | .tone, .channel k =>
    match s.chans.chans[k] with
    | some r => if r.listeners.any fun l => l.circ == p then r.value else none
    | none => none
  | .hear, .listener n =>
    if s.players.players[n].listeners.any fun l => l.circ == p then s.sample.playerValues[n] else none
  | _, _ => none

/-- Stage 1: every channel not FREE (R67). -/
def State.computeChannels (s : State) : State :=
  { s with chans := { s.chans with
      chans := s.chans.chans.map fun c => c.map fun r => r.compute (s.plans.plan r.bank r.plan) } }

/-- Stage 2: the codes the players hand over for this frame (R67, R76). -/
def State.computePlayers (s : State) : State :=
  { s with sample := { s.sample with playerValues := s.players.players.map fun p => p.handed.map decodeCode } }

/-- Stage 3: an output code for each circuit mapped in the map in force; an unmapped circuit has none formed and keeps the
one it had, which is sent nowhere (R67, log 22). -/
def State.computeCircuits (s : State) : State :=
  { s with sample := { s.sample with
      outCodes := Vector.ofFn fun p =>
        if s.highway.map[p].mapped then codeOf s.highway.map[p].trim (s.sourceValue p) else s.sample.outCodes[p] } }

/-- The frame computation (R67). -/
def State.computeFrame (s : State) : State := s.computeChannels.computePlayers.computeCircuits

end Sys2Proof.Machine
end

