-- ==== Sys2Proof/Machine/HighwayPort.lean ====
section
/-!
DEFINITION. The highway port (chapter 5): the slot maps, the frame start and its deliveries, the boundaries as the blocks
take them, the bits of a frame, frame loss and restoration.
-/
namespace Sys2Proof.Machine

/-! ### Slot words (R90, R91) -/

/-- The circuit other than `p` that holds slot `g` in the next map. -/
def Highway.otherHolder (h : Highway) (p : Circ) (g : Fin 64) : Option Circ :=
  allCircuits.find? fun q => q != p && h.next[q].mapped && h.next[q].slot == g

/-- A slot word handed over (R90), with the conflict of R91. -/
def State.slotWrite (p : Circ) (m : MapEntry) (s : State) : State :=
  let h := s.highway
  let conflict := if m.mapped then h.otherHolder p m.slot else none
  match conflict with
  | none => { s with highway := { h with next := h.next.set p m } }
  | some q =>
    State.submit
      { s with highway := { h with next := (h.next.set q { h.next[q] with mapped := false }).set p m } }
      .highwayPort .slotConflict q.val m.slot.val

/-! ### Deliveries of a frame start, taken in any order (R67, R87, log 9) -/

/-- The player pool takes the frame start if it has not yet (R109). -/
def State.takePlayersFrame (s : State) : State :=
  if s.highway.playersDue then
    State.onExchange { s with highway := { s.highway with playersDue := false } } Exchange.framePlayers
  else s

/-- The sample path takes the frame start if it has not yet; the computation uses the codes handed over for this frame,
so the players’ hand-over comes before it (R67). The listener sets are those of the moment of the computation (log 44). -/
def State.takeComputation (s : State) : State :=
  if s.highway.sampleDue then
    let s := s.takePlayersFrame
    State.computeFrame { s with highway := { s.highway with sampleDue := false } }
  else s

/-- The channel pool takes the frame start if it has not yet; the segment in force for the computation is the one before
this count (R67), so the computation comes before it. A channel allocated between the pulse and the computation is computed
and counted for this frame (DESIGN CHOICE, log 36), one allocated after the computation for neither (R53). -/
def State.takeChannelsFrame (s : State) : State :=
  if s.highway.channelsDue then
    let s := s.takeComputation
    State.onExchange { s with highway := { s.highway with channelsDue := false } } Exchange.countFrames
  else s

/-- What the previous frame start left to be taken is taken before the next: deliveries, cadence events of channels, and
cycle ends of players (DEDUCED, log 9). -/
def State.settleFrame (s : State) : State :=
  (s.takeComputation.takePlayersFrame.takeChannelsFrame).onExchange fun e =>
    allPlayers.foldl (fun e n => Exchange.annCycleEnd n e) e.settleChannels

/-! ### Boundaries of the time bases, taken in any order (R93) -/

/-- The order unit takes a cadence boundary (R18, R93). -/
def State.takeCadence (s : State) : State :=
  if s.highway.cadenceDue = 0 then s
  else
    let s := s.takeComputation
    { s with
      highway := { s.highway with cadenceDue := s.highway.cadenceDue - 1 }
      orders := s.orders.countGaps }

/-- The order unit takes a wait boundary (R14, R93). -/
def State.takeWaitOrders (s : State) : State :=
  if s.highway.waitOrdersDue = 0 then s
  else
    let s := s.takeComputation
    { s with
      highway := { s.highway with waitOrdersDue := s.highway.waitOrdersDue - 1 }
      orders := s.orders.countWaits }

/-- The player pool takes a wait boundary (R93, R111). -/
def State.takeWaitPlayers (s : State) : State :=
  if s.highway.waitPlayersDue = 0 then s
  else
    let s := s.takeComputation
    State.onExchange { s with highway := { s.highway with waitPlayersDue := s.highway.waitPlayersDue - 1 } }
      Exchange.countGaps

/-- The congestion unit takes a wait boundary and evaluates the load grade (R93, R126). -/
def State.takeEvaluation (s : State) : State :=
  if s.highway.waitGradeDue = 0 then s
  else
    State.onExchange { s with highway := { s.highway with waitGradeDue := s.highway.waitGradeDue - 1 } }
      Exchange.evaluateGrade

/-- The boundaries delivered and not yet taken are taken, with the gaps and waits they end, in the order changeover gaps,
circuits' waits, players' gaps, load grade, and within each by ascending number (the order is a DESIGN CHOICE,
log 9). -/
def State.settleBoundaries (s : State) : State :=
  let s := (State.takeCadence^[s.highway.cadenceDue] s).onExchange fun e => allCircuits.foldl (fun e p => Exchange.gapEnd p e) e
  let s := (State.takeWaitOrders^[s.highway.waitOrdersDue] s).onExchange fun e =>
    allCircuits.foldl (fun e p => Exchange.sendExpiry p e) e
  let s := (State.takeWaitPlayers^[s.highway.waitPlayersDue] s).onExchange fun e =>
    allPlayers.foldl (fun e n => Exchange.playerGapEnd n e) e
  State.takeEvaluation^[s.highway.waitGradeDue] s

/-! ### Loss, restoration and the frame start -/

/-- Frame loss is declared (R94). What the last frame start delivered is taken first, since nothing timed by frames runs in
LOST (R53, R95, log 9). The loss duration count starts at 0 when the pulse interval timer passes 250 µs; a
declaration taken later counts the time since (log 25). -/
def State.declareLoss (s : State) : State :=
  let s := s.settleFrame.settleBoundaries
  let late := s.highway.pulseUs - (Config.lossUs + 1)
  State.submit
    (State.mark
      { s with highway := { s.highway with
          monitor := .lost, lossMs := min (late / 1000) 65535, lossUs := late % 1000, sending := none, pin := .highZ } }
      .global)
    .highwayPort .frameLost 0 0

/-- Steps 1 to 3 of R96. -/
def State.restoreFrames (s : State) : State :=
  State.submit (State.mark { s with highway := { s.highway with monitor := .running } } .global)
    .highwayPort .frameRestored 0 s.highway.lossMs

/-- The base frame count after a frame start (R93). -/
def nextBaseCount (n : Nat) : Nat := if n + 1 = Config.waitFrames then 0 else n + 1

/-- A frame start (R87): the next map applied, the timer restarted, the count advanced with its boundaries, the deliveries
made, the sending of the slots begun. The output keeps its level until the first bit time (log 21). -/
def Highway.frameStart (h : Highway) : Highway :=
  let n := nextBaseCount h.baseCount
  let wait := if n = 0 then 1 else 0
  { h with
    map := h.next
    pulseUs := 0
    baseCount := n
    sampleDue := true
    channelsDue := true
    playersDue := true
    cadenceDue := h.cadenceDue + if n % Config.unitFrames = 0 then 1 else 0
    waitOrdersDue := h.waitOrdersDue + wait
    waitPlayersDue := h.waitPlayersDue + wait
    waitGradeDue := h.waitGradeDue + wait
    sending := some 0 }

/-- The monitor as a pulse finds it: a loss already overdue is declared (R94, log 25). -/
def State.overdueLoss (s : State) : State :=
  if s.highway.monitor = .running ∧ Config.lossUs < s.highway.pulseUs then s.declareLoss else s

/-- A frame pulse (R87, R96). -/
def State.takePulse (s : State) : State :=
  let s := s.overdueLoss.settleFrame
  let s := if s.highway.monitor = .lost then s.restoreFrames else s
  { s with highway := s.highway.frameStart }

/-! ### The bits of a frame (R88, R89) -/

/-- The circuit that holds slot `g` in the map in force. -/
def Highway.slotHolder (h : Highway) (g : Fin 64) : Option Circ :=
  allCircuits.find? fun q => h.map[q].mapped && h.map[q].slot == g

/-- The code slot `g` carries (R89): the output code formed for its circuit, which is the idle code without a source. -/
def State.slotCode (s : State) (g : Fin 64) : Byte :=
  match s.highway.slotHolder g with
  | some p => s.sample.outCodes[p]
  | none => Config.idleCode

/-- The bit sent in bit time `n` of a frame: slot n / 8, sign bit first (R88). -/
def State.frameBit (s : State) (n : Nat) : Bool := (s.slotCode (Fin.ofNat 64 (n / 8))).getLsbD (7 - n % 8)

/-- One highway clock (R88): the bit of the present bit time is put out, and the clock after the 512th bit releases the
output (DESIGN CHOICE, log 38). -/
def State.clockBit (s : State) : State :=
  let s := s.takeComputation
  match s.highway.sending with
  | some n =>
    if n < Config.frameBits then
      { s with highway := { s.highway with sending := some (n + 1), pin := .driven (s.frameBit n) } }
    else { s with highway := { s.highway with pin := .highZ } }
  | none => { s with highway := { s.highway with pin := .highZ } }

end Sys2Proof.Machine
end

