-- ==== Sys2Proof/Machine/Settings.lean ====
section
/-!
DEFINITION. The settings shadow and the hand-over of each setting to its owner (R161), the report unit’s side of the
consumer index word and the holdoff (R173, R176), and the acknowledge word (R162).
-/
namespace Sys2Proof.Machine

/-! ### The report unit’s settings -/

/-- A write of the holdoff field reaches the report unit (R176). -/
def ReportUnit.writeHoldoff (n : Nat) (r : ReportUnit) : ReportUnit :=
  if r.holdoffRunning then
    if n = 0 then ReportUnit.attend { r with holdoffSetting := 0, holdoffRunning := false, holdoffUs := 0 }
    else { r with holdoffSetting := n, holdoffUs := 0 }
  else { r with holdoffSetting := n }

/-- The consumer index word reaches the report unit (R173, R175, R176). -/
def ReportUnit.writeConsumer (c : Fin 128) (r : ReportUnit) : ReportUnit :=
  let r := { r with consumer := c }
  ReportUnit.attend
    (if c = r.posted then
      if r.holdoffSetting = 0 then { r with holdoffRunning := false, holdoffUs := 0 }
      else { r with holdoffRunning := true, holdoffUs := 0 }
    else r)

/-! ### A field’s value replaced in the shadow and handed to its owner -/

/-- Replace the shadow. -/
def State.setSettings (t : Settings) (s : State) : State := { s with bus := { s.bus with settings := t } }

/-- Replace the host-set marks. -/
def State.setMarks (m : SettingMarks) (s : State) : State := { s with bus := { s.bus with marks := m } }

/-- The changeover gap goes to the order unit. -/
def State.giveGap (n : Nat) (s : State) : State :=
  { s.setSettings { s.bus.settings with gap := n } with orders := { s.orders with gapSetting := n } }

/-- The fan-out limit goes to the player pool, which takes it as an event of its own (R116): it stays in flight until then.
The next snoop entry waits for a change that an entry carried (R160), not for one of the scan's end (log 42). -/
def State.giveFanout (fromEntry : Bool) (n : Nat) (s : State) : State :=
  let s := s.setSettings { s.bus.settings with fanout := n }
  { s with bus := { s.bus with fanoutChanges := s.bus.fanoutChanges ++ [⟨n, fromEntry⟩] } }

/-- The wait limit goes to the order unit. -/
def State.giveWaitLimit (n : Nat) (s : State) : State :=
  { s.setSettings { s.bus.settings with waitLimit := n } with orders := { s.orders with waitLimit := n } }

/-- The attention holdoff goes to the report unit. -/
def State.giveHoldoff (n : Nat) (s : State) : State :=
  { s.setSettings { s.bus.settings with holdoff := n } with reports := s.reports.writeHoldoff n }

/-- The thresholds of grade g + 1 go to the congestion unit (R125). -/
def State.giveThreshold (g : Fin 3) (up down : Nat) (s : State) : State :=
  let t := s.bus.settings
  { s.setSettings { t with up := t.up.set g up, down := t.down.set g down } with cong := s.cong.setThreshold g up down }

/-- The recording field of table entry `g` goes to the congestion unit (R124). -/
def State.giveRecording (g : Cls) (r : Option RecNo) (s : State) : State :=
  let t := s.bus.settings
  { s.setSettings { t with recording := t.recording.set g r } with
    cong := { s.cong with table := s.cong.table.set g { s.cong.table[g] with recording := r } } }

/-- The plan field and repeats of table entry `g` go to the congestion unit (R124). -/
def State.givePlan (g : Cls) (p : Option PlanNo) (n : Fin 16) (s : State) : State :=
  let t := s.bus.settings
  { s.setSettings { t with plan := t.plan.set g p, repeats := t.repeats.set g n } with
    cong := { s.cong with table := s.cong.table.set g { s.cong.table[g] with plan := p, repeats := n } } }

/-! ### Captures of setting words (R161): the fields clamped, handed over, and marked as host-set -/

/-- Timing word 1. -/
def State.writeTiming1 (w : Word) (s : State) : State :=
  ((s.giveGap (timingGap w)).giveFanout true (timingFanout w)).setMarks { s.bus.marks with gap := true, fanout := true }

/-- Timing word 2; the report unit takes it as a write of the holdoff field whether or not the value changes (R176). -/
def State.writeTiming2 (w : Word) (s : State) : State :=
  ((s.giveWaitLimit (timingWaitLimit w)).giveHoldoff (timingHoldoff w)).setMarks
    { s.bus.marks with waitLimit := true, holdoff := true }

/-- The threshold word of grade g + 1. -/
def State.writeThreshold (g : Fin 3) (w : Word) (s : State) : State :=
  (s.giveThreshold g (thresholdUp w) (thresholdDown w)).setMarks
    { s.bus.marks with up := s.bus.marks.up.set g true, down := s.bus.marks.down.set g true }

/-- Congestion table word `k`: entry k / 2, its recording field in the even word, its plan and repeats in the odd one. -/
def State.writeTable (k : Fin 8) (w : Word) (s : State) : State :=
  let g : Cls := Fin.ofNat 4 (k.val / 2)
  let m := s.bus.marks
  if k.val % 2 = 0 then
    (s.giveRecording g (tableRecording w)).setMarks { m with recording := m.recording.set g true }
  else
    (s.givePlan g (tablePlan w) (tableRepeats w)).setMarks
      { m with plan := m.plan.set g true, repeats := m.repeats.set g true }

/-- The route level word (R123); it carries no setting field. -/
def State.writeLevels (w : Word) (s : State) : State := { s with cong := { s.cong with levels := routeLevels w } }

/-! ### The configuration record (R147, R180) -/

/-- An optional number with its present bit at 15, as the table words lay it out (R167). -/
def presentWord (x : Option Nat) (shift : Nat) : Nat := (x.map fun n => 2 ^ 15 + n * 2 ^ shift).getD 0

/-- The thirteen setting words as the shadow holds them, in the order of the record (R180, log 7). -/
def Settings.words (t : Settings) : List Word :=
  let threshold (g : Fin 3) : Word := BitVec.ofNat 16 (t.up[g] * 256 + t.down[g])
  let recording (g : Cls) : Word := BitVec.ofNat 16 (presentWord (t.recording[g].map Fin.val) 0)
  let plan (g : Cls) : Word := BitVec.ofNat 16 (presentWord (t.plan[g].map Fin.val) 8 + t.repeats[g].val)
  [BitVec.ofNat 16 (t.fanout * 256 + t.gap), BitVec.ofNat 16 (t.holdoff * 256 + t.waitLimit),
    threshold 0, threshold 1, threshold 2,
    recording 0, plan 0, recording 1, plan 1, recording 2, plan 2, recording 3, plan 3]

/-- A value applied at scan end: the host’s value stands where the mark is set (R181). -/
def unmarked {α : Type} (mark : Bool) (held recorded : α) : α := if mark then held else recorded

/-- The recorded timing words are applied to the unmarked fields; a field that changes is handed over (R181, log 31). -/
def State.applyTimings (w1 w2 : Word) (s : State) : State :=
  let t := s.bus.settings
  let m := s.bus.marks
  let gap := unmarked m.gap t.gap (timingGap w1)
  let fanout := unmarked m.fanout t.fanout (timingFanout w1)
  let limit := unmarked m.waitLimit t.waitLimit (timingWaitLimit w2)
  let holdoff := unmarked m.holdoff t.holdoff (timingHoldoff w2)
  let s := if gap = t.gap then s else s.giveGap gap
  let s := if fanout = t.fanout then s else s.giveFanout false fanout
  let s := if limit = t.waitLimit then s else s.giveWaitLimit limit
  if holdoff = t.holdoff then s else s.giveHoldoff holdoff

/-- The recorded threshold word of grade g + 1 is applied to its unmarked fields. -/
def State.applyThreshold (g : Fin 3) (w : Word) (s : State) : State :=
  let t := s.bus.settings
  let m := s.bus.marks
  let up := unmarked m.up[g] t.up[g] (thresholdUp w)
  let down := unmarked m.down[g] t.down[g] (thresholdDown w)
  if up = t.up[g] ∧ down = t.down[g] then s else s.giveThreshold g up down

/-- The recorded table words of entry `g` are applied to its unmarked fields. -/
def State.applyTable (g : Cls) (wr wp : Word) (s : State) : State :=
  let t := s.bus.settings
  let m := s.bus.marks
  let r := unmarked m.recording[g] t.recording[g] (tableRecording wr)
  let p := unmarked m.plan[g] t.plan[g] (tablePlan wp)
  let n := unmarked m.repeats[g] t.repeats[g] (tableRepeats wp)
  let s := if r = t.recording[g] then s else s.giveRecording g r
  if p = t.plan[g] ∧ n = t.repeats[g] then s else s.givePlan g p n

/-- Step 1 of R181: the thirteen recorded words, `ws k` being word `k`. -/
def State.applyRecord (ws : Nat → Word) (s : State) : State :=
  let s := s.applyTimings (ws 0) (ws 1)
  let s := ((s.applyThreshold 0 (ws 2)).applyThreshold 1 (ws 3)).applyThreshold 2 (ws 4)
  (((s.applyTable 0 (ws 5) (ws 6)).applyTable 1 (ws 7) (ws 8)).applyTable 2 (ws 9) (ws 10)).applyTable 3 (ws 11) (ws 12)

/-! ### The acknowledge word (R162) -/

/-- A capture of the acknowledge word: 8 reports lost; 2 SOFT; 1 PIN; 0 POWER. -/
def State.acknowledge (w : Word) (s : State) : State :=
  let b := s.bus
  let b' := { b with
    causePower := b.causePower && !flag w 0
    causePin := b.causePin && !flag w 1
    causeSoft := b.causeSoft && !flag w 2 }
  let lost := s.reports.lost && !flag w 8
  let s' := { s with bus := b', reports := { s.reports with lost := lost } }
  let s' := if b'.resetCause = b.resetCause then s' else s'.mark .resetCause
  if lost = s.reports.lost then s' else s'.mark .global

end Sys2Proof.Machine
end

