-- ==== Sys2Proof/Machine/Resets.lean ====
section
/-!
DEFINITION. The three kinds of reset and reset release (R178, R179, with the reset values of each block’s own chapter).
-/
namespace Sys2Proof.Machine

/-! ### Power-on and pin reset -/

/-- What a reset leaves in the announcement store: a step cut off may be left incomplete (R137, log 8). -/
def StoreController.cutOff (c : StoreController) (left : List (Nat × Byte)) (missed : List Byte) : List Host.Cell :=
  match c.port, c.suspended with
  | some q, none => q.step.damage left missed c.bytes
  | _, some p => leaveResidue p.seg left c.bytes
  | none, none => c.bytes

/-- Every block at the value its chapter gives for a power-on or pin reset (R179). Until the release, which marks every word
(R169), no dirty mark is set (DESIGN CHOICE, log 49). -/
def State.clearBlocks (left : List (Nat × Byte)) (missed : List Byte) (s : State) : State :=
  { s with
    reports := ReportUnit.initial
    wire := ⟨[], DirtyMarks.all false⟩
    orders := OrderUnit.initial
    plans := PlanTable.initial
    chans := ChannelPool.initial
    sample := SamplePath.initial
    highway := Highway.initial
    players := PlayerPool.initial
    cong := CongestionUnit.initial
    store := StoreController.initial (s.store.cutOff left missed) s.store.lock s.store.supplyGood }

/-- The capture and posting unit as a power-on or pin reset is asserted: the snoop queue is emptied, the settings take
their defaults, and the writes held or waiting go to memory uncaptured (R158, R159, R161, R178): at once, or where a posting
cycle in progress has the memory port at the end of that cycle (R164, R165), whether or not the reset is still in force
then (log 41). -/
def Bus.assertReset (line : ResetLine) (posting : Option Posting) (b : Bus) : Bus :=
  Bus.giveWay
    { b with
      resetLine := line
      snoop := []
      waiting := b.waiting.map fun x => { x with uncaptured := true }
      posting := posting
      settings := Settings.initial
      marks := SettingMarks.initial
      fanoutChanges := [] }

/-- A power-on reset begins (R178); a posting cycle does not outlast the loss of supply (log 27). -/
def State.powerOn (left : List (Nat × Byte)) (missed : List Byte) (s : State) : State :=
  let s := s.clearBlocks left missed
  { s with bus := Bus.assertReset .powerOn none { s.bus with causePower := true, causePin := false, causeSoft := false } }

/-- A pin reset begins (R178); a posting cycle in progress runs to its end (R164). -/
def State.pinReset (left : List (Nat × Byte)) (missed : List Byte) (s : State) : State :=
  let s := s.clearBlocks left missed
  { s with bus := Bus.assertReset .pin s.bus.posting { s.bus with causePin := true } }

/-- A power-on or pin reset is released (R178): straps latched, capture and posting begin, every word of R174 marked, the
scan begun. -/
def State.release (straps : Fin 8) (s : State) : State :=
  { s with
    bus := { s.bus with resetLine := .released, straps := straps }
    wire := { s.wire with dirty := DirtyMarks.all true }
    store := { s.store with engine := .scanning } }

/-! ### Soft reset -/

/-- The order unit after a soft reset: its settings are kept (R5). -/
def OrderUnit.softReset (o : OrderUnit) : OrderUnit :=
  { OrderUnit.initial with gapSetting := o.gapSetting, waitLimit := o.waitLimit }

/-- A bank after a soft reset: draining is ended and no channel references it (R30). -/
def BankRecord.softReset (b : BankRecord) : BankRecord :=
  { b with state := if b.state = .draining then .idle else b.state, refs := 0 }

/-- The plan table after a soft reset (R30). -/
def PlanTable.softReset (t : PlanTable) : PlanTable :=
  { t with bankA := t.bankA.softReset, bankB := t.bankB.softReset, drainNotices := [] }

/-- The highway port after a soft reset: maps reset, monitor, timers and count kept (R86), and no frame in progress until
the next frame start (R88, log 13). -/
def Highway.softReset (h : Highway) : Highway :=
  { Highway.initial with
    baseCount := h.baseCount, monitor := h.monitor, pulseUs := h.pulseUs, lossMs := h.lossMs, lossUs := h.lossUs }

/-- The player pool after a soft reset: the recording view and the fan-out limit are kept (R102, log 12). -/
def PlayerPool.softReset (q : PlayerPool) : PlayerPool :=
  { PlayerPool.initial with
    fanout := q.fanout, scanning := q.scanning, view := q.view, withdrawnAnswers := q.withdrawnAnswers }

/-- The congestion unit after a soft reset: levels, table and thresholds kept, grade 0, lamp off (R122). -/
def CongestionUnit.softReset (u : CongestionUnit) : CongestionUnit := { u with grade := 0, lamp := Lamp.off }

/-- The report unit after a soft reset (R169). -/
def ReportUnit.softReset (r : ReportUnit) : ReportUnit :=
  { r with
    queue := [], producer := r.consumer, posted := r.consumer, entry := none, holdoffRunning := false, holdoffUs := 0
    attention := false }

/-- Whether a notice is a withdrawal. -/
def PoolNotice.isWithdrawal : PoolNotice → Bool
  | .withdrawal _ => true
  | .madeAvailable _ _ => false
  | .scanDone _ => false

/-- Notices to the player pool after a soft reset: a withdrawal not yet taken is lost and sent again, after the others
(R137, R145, log 12). -/
def resendWithdrawals (l : List PoolNotice) : List PoolNotice :=
  (l.filter fun x => !x.isWithdrawal) ++ l.filter PoolNotice.isWithdrawal

/-- A refill read in progress is not delivered (R137). -/
def Port.cancel (q : Port) : Port :=
  match q.step with
  | .refill x _ => { q with step := .refill x false }
  | .erasePulse _ => q
  | .eraseVerify _ => q
  | .attempt _ => q

/-- The store side after a soft reset (R137): the session abandoned without a report, work that is not a load going on. -/
def StoreSide.softReset (v : StoreSide) : StoreSide :=
  v.endSession.on fun c =>
    { c.emptyBufs with
      hold := false
      pendingBegin := none
      refillQ := []
      deliveries := []
      port := c.port.map Port.cancel
      lamp := Lamp.off
      poolNotices := resendWithdrawals c.poolNotices }

/-- A soft reset (R163, R178, R179). Capture goes on, and the snoop queue, the settings and the call store stand; a fan-out
setting change of the scan's end in flight is kept (DESIGN CHOICE, log 42). -/
def State.softReset (s : State) : State :=
  let s := s.onStore StoreSide.softReset
  { s with
    bus := { s.bus with causeSoft := true }
    reports := s.reports.softReset
    wire := ⟨[], DirtyMarks.all true⟩
    orders := s.orders.softReset
    plans := s.plans.softReset
    chans := ChannelPool.initial
    sample := SamplePath.initial
    highway := s.highway.softReset
    players := s.players.softReset
    cong := s.cong.softReset }

end Sys2Proof.Machine
end

