-- ==== Sys2Proof/Machine/CaptureCommands.lean ====
section
/-!
DEFINITION. The commands of the capture and posting unit: processor writes, setting words, the acknowledge and soft-reset
words, and the consumer index word (chapters 9 and 10).
-/
namespace Sys2Proof.Machine

/-- PROCESSOR_WRITE (R157–R159, R165). -/
def execProcessorWrite (a : BusAddr) (v : Word) (s : State) : Host.Outcome State Fault Refusal :=
  .next { s with bus := s.bus.request a v }

/-- OTHER_REGION_WRITE (R157, R158, R164, R165): by its address it is not captured (log 33). -/
def execOtherRegionWrite (a : BusAddr) (v : Word) (s : State) : Host.Outcome State Fault Refusal :=
  .next { s with bus := s.bus.request a v }

/-- CONGESTION_TABLE_WORD_WRITE (R124, R161). -/
def execCongestionTableWordWrite (k : Fin 8) (w : Word) (s : State) : Host.Outcome State Fault Refusal :=
  handOver (0x300 + k.val) w (fun s => s.writeTable k w) s

/-- ROUTE_LEVEL_WORD_WRITE (R123). -/
def execRouteLevelWordWrite (w : Word) (s : State) : Host.Outcome State Fault Refusal :=
  handOver 0x308 w (fun s => s.writeLevels w) s

/-- THRESHOLD_WORD_WRITE (R125, R161). -/
def execThresholdWordWrite (g : Fin 3) (w : Word) (s : State) : Host.Outcome State Fault Refusal :=
  handOver (0x309 + g.val) w (fun s => s.writeThreshold g w) s

/-- TIMING_WORD_1_WRITE (R161). -/
def execTimingWord1Write (w : Word) (s : State) : Host.Outcome State Fault Refusal :=
  handOver 0x30C w (fun s => s.writeTiming1 w) s

/-- TIMING_WORD_2_WRITE (R161, R176). -/
def execTimingWord2Write (w : Word) (s : State) : Host.Outcome State Fault Refusal :=
  handOver 0x30D w (fun s => s.writeTiming2 w) s

/-- CONSUMER_INDEX_WORD_WRITE (R173, R175, R176). -/
def execConsumerIndexWordWrite (w : Word) (s : State) : Host.Outcome State Fault Refusal :=
  handOver 0x30F w (fun s => { s with reports := s.reports.writeConsumer (consumerIndex w) }) s

/-- ACKNOWLEDGE_WORD_WRITE (R162). -/
def execAcknowledgeWordWrite (w : Word) (s : State) : Host.Outcome State Fault Refusal :=
  handOver 0x310 w (fun s => s.acknowledge w) s

/-- SOFT_RESET_WORD_WRITE (R163, R178, R179). -/
def execSoftResetWordWrite (w : Word) (s : State) : Host.Outcome State Fault Refusal :=
  handOver 0x311 w
    (fun s => if w = Config.softResetKey then s.softReset else s.submit .captureUnit .orderInvalid 63 w.toNat) s

end Sys2Proof.Machine
end

