-- ==== Sys2Proof/Machine/ChannelCommands.lean ====
section
/-!
DEFINITION. The commands of the tone channel pool (chapter 3).
-/
namespace Sys2Proof.Machine

/-- FRAME_START_CHANNELS (R53, R67). -/
def execFrameStartChannels (s : State) : Host.Outcome State Fault Refusal := event State.takeChannelsFrame s

/-- CADENCE_UNIT_END (R53). -/
def execCadenceUnitEnd (k : ChanNo) (s : State) : Host.Outcome State Fault Refusal :=
  event (fun s => s.onExchange (Exchange.unitEnd k)) s

/-- SEGMENT_END (R53). -/
def execSegmentEnd (k : ChanNo) (s : State) : Host.Outcome State Fault Refusal :=
  event (fun s => s.onExchange (Exchange.segmentEnd k)) s

/-- CYCLE_END (R56–R60, R62–R64). -/
def execCycleEnd (k : ChanNo) (s : State) : Host.Outcome State Fault Refusal :=
  event (fun s => s.onExchange (Exchange.cycleEnd k)) s

/-- The channel pool takes the oldest draining notice (R55); that two in flight are taken in the order sent is a DESIGN
CHOICE (log 34). -/
def Exchange.takeDrainNotice (e : Exchange) : Exchange :=
  match e.plans.drainNotices with
  | [] => e
  | b :: rest => Exchange.drainNotice b { e with plans := { e.plans with drainNotices := rest } }

/-- DRAINING_NOTICE (R55). -/
def execDrainingNotice (s : State) : Host.Outcome State Fault Refusal :=
  event (fun s => s.onExchange Exchange.takeDrainNotice) s

end Sys2Proof.Machine
end

