-- ==== Sys2Proof/Machine/CongestionCommands.lean ====
section
/-!
DEFINITION. The commands of the congestion unit (chapter 7).
-/
namespace Sys2Proof.Machine

/-- LOAD_GRADE_EVALUATION (R126–R128). -/
def execLoadGradeEvaluation (s : State) : Host.Outcome State Fault Refusal := event State.takeEvaluation s

/-- The load lamp stretcher’s timer reaches 100 ms: the local clock runs to that moment (R133, log 2). -/
def State.expireLoadLamp (s : State) : State :=
  if s.cong.lamp.phase = .idle then s
  else
    let s := s.runClock (Config.lampUs - s.cong.lamp.us)
    { s with cong := { s.cong with lamp := s.cong.lamp.expire } }

/-- LOAD_LAMP_TIMER_EXPIRY (R133). -/
def execLoadLampTimerExpiry (s : State) : Host.Outcome State Fault Refusal := event State.expireLoadLamp s

end Sys2Proof.Machine
end

