-- ==== Sys2Proof/Machine/Scan.lean ====
section
/-!
DEFINITION. The store scan’s judgement and its end (R180, R181).
-/
namespace Sys2Proof.Machine

/-- A segment header as read; the places of the fields are those of `headerCells` (R135, log 6). -/
structure Header where
  recording : Nat
  index : Nat
  count : Nat
  length : Nat
  permanent : Bool
  bargeIn : Bool
  gap : Nat
  mark : Byte
deriving DecidableEq, Repr

/-- The header of segment `g`. -/
def readHeader (m : List Host.Cell) (g : SegNo) : Header :=
  let b (i : Nat) : Nat := (storeByte m g i).toNat
  { recording := b 0, index := b 1, count := b 2, length := b 3 + 256 * b 4 + 65536 * b 5
    permanent := (storeByte m g 6).getLsbD 7, bargeIn := (storeByte m g 6).getLsbD 6, gap := b 7
    mark := storeByte m g completionOffset }

/-- Whether the 16 header bytes all read FFh (R180). -/
def headerErased (m : List Host.Cell) (g : SegNo) : Bool :=
  (List.range Config.headerBytes).all fun i => storeByte m g i == Config.erasedByte

/-- Whether a header makes its segment a candidate first segment (R180). -/
def Header.isFirst (h : Header) : Bool :=
  h.index == 0 && h.mark == 0 && h.recording < 32 && 1 ≤ h.count && (1 ≤ h.length && h.length ≤ Config.longestRecording)
    && segmentsFor h.length == h.count

/-- The lowest-numbered segment whose header gives the recording and count of `h` and index `i` (R180). -/
def findIndex (m : List Host.Cell) (h : Header) (i : Nat) : Option SegNo :=
  audioSegments.find? fun g =>
    let x := readHeader m g
    x.recording == h.recording && x.index == i && x.count == h.count

/-- The segments of the complete recording whose first segment is `g`: none when `g` is no candidate or an index is
missing (R180). -/
def completeFrom (m : List Host.Cell) (g : SegNo) : Option (List SegNo) :=
  let h := readHeader m g
  if h.isFirst then
    let others := (List.range (h.count - 1)).filterMap fun i => findIndex m h (i + 1)
    if others.length = h.count - 1 then some (g :: others) else none
  else none

/-- A complete recording as the scan keeps it. -/
structure Kept where
  recording : RecNo
  header : Header
  segs : List SegNo
deriving DecidableEq, Repr

/-- The complete recordings, in ascending number of first segment. -/
def completeRecordings (m : List Host.Cell) : List Kept :=
  audioSegments.filterMap fun g => (completeFrom m g).map fun l =>
    let h := readHeader m g
    ⟨Fin.ofNat 32 h.recording, h, l⟩

/-- The recordings kept: of two complete ones with one number, the one with the lower first segment (R180). -/
def keptRecordings (m : List Host.Cell) : List Kept :=
  allRecordings.filterMap fun r => (completeRecordings m).find? fun k => k.recording == r

/-- Whether segment 0 holds a valid configuration record (R180, log 7). -/
def configValid (m : List Host.Cell) : Bool :=
  storeByte m 0 0 == 0x3C#8 && storeByte m 0 1 == 0xC3#8 && storeByte m 0 configMarkOffset == 0

/-- Word `k` of the configuration record, low byte first (R180, log 7). -/
def recordWord (m : List Host.Cell) (k : Nat) : Word :=
  BitVec.ofNat 16 ((storeByte m 0 (2 + 2 * k)).toNat + 256 * (storeByte m 0 (3 + 2 * k)).toNat)

/-- A segment before any kept recording claims it: segment 0 by its record, an audio segment ERASED or DIRTY (R180). -/
def judgeSegment (m : List Host.Cell) (g : SegNo) : SegState :=
  if g = 0 then if configValid m then .configValid else .configAbsent
  else if headerErased m g && segErased m g then .erased
  else .dirty

/-- The directory record of a kept recording (R180). -/
def Kept.record (k : Kept) : DirRecord where
  state := .available
  firstSeg := k.segs.headD 0
  segCount := k.header.count
  length := k.header.length
  permanent := k.header.permanent
  bargeIn := k.header.bargeIn
  gap := min k.header.gap 50

/-- The directory and the segment map as the scan judges them from the store (R180). -/
def StoreController.judge (c : StoreController) : StoreController :=
  let m := c.bytes
  let c := { c with dir := Vector.replicate 32 DirRecord.absent, segMap := Vector.ofFn (judgeSegment m) }
  (keptRecordings m).foldl
    (fun c k => { c.useSegs k.recording 0 k.segs with dir := c.dir.set k.recording k.record }) c

/-- The recording view of the AVAILABLE recordings (R118, R181). -/
def StoreController.viewOf (c : StoreController) : Vector (Option ViewRecord) 32 :=
  c.dir.map fun d => if d.state = .available then some ⟨d.length, d.bargeIn, d.gap⟩ else none

/-- The number of AVAILABLE recordings (R181). -/
def StoreController.available (c : StoreController) : Nat := (c.dir.toList.filter fun d => d.state == .available).length

/-- The marks of every directory word set (R181). -/
def DirtyMarks.allDirectory (d : DirtyMarks) : DirtyMarks := { d with directory := Vector.replicate 32 true }

/-- The scan ends (R181). -/
def State.endScan (s : State) : State :=
  let m := s.store.bytes
  let s := if configValid m then s.applyRecord (recordWord m) else s
  let c := s.store.judge
  let s := { s with
    store := { c with engine := .idle, scanComplete := true, poolNotices := c.poolNotices ++ [PoolNotice.scanDone c.viewOf] }
    wire := { s.wire with dirty := s.wire.dirty.allDirectory } }
  (s.mark .global).submit .storeController .scanDone 0 (c.available + if configValid m then 0x100 else 0)

end Sys2Proof.Machine
end

