-- ==== Sys2Proof/Machine/EngineCommands.lean ====
section
/-!
DEFINITION. The events of the store engine, the read port, the store’s inputs and the scan (chapters 8 and 11).
-/
namespace Sys2Proof.Machine

/-- A step in progress on the store port that satisfies `p` ends: the local clock runs to its end, and `f` takes it
(R135, log 2). -/
def State.atStepEnd (p : PortStep → Bool) (f : State → State) (s : State) : State :=
  match s.store.port with
  | some q => if p q.step then f (s.runClock q.leftUs) else s
  | none => s

def PortStep.isRefill : PortStep → Bool
  | .refill _ _ => true
  | .erasePulse _ => false
  | .eraseVerify _ => false
  | .attempt _ => false

def PortStep.isPulse : PortStep → Bool
  | .refill _ _ => false
  | .erasePulse _ => true
  | .eraseVerify _ => false
  | .attempt _ => false

def PortStep.isVerify : PortStep → Bool
  | .refill _ _ => false
  | .erasePulse _ => false
  | .eraseVerify _ => true
  | .attempt _ => false

def PortStep.isAttempt : PortStep → Bool
  | .refill _ _ => false
  | .erasePulse _ => false
  | .eraseVerify _ => false
  | .attempt _ => true

/-- WITHDRAWN_ANSWER (R145). -/
def execWithdrawnAnswer (s : State) : Host.Outcome State Fault Refusal := event State.takeWithdrawn s

/-- REFILL_REQUEST (R153). -/
def execRefillRequest (s : State) : Host.Outcome State Fault Refusal := event State.takeRefillReq s

/-- REFILL_READ_START (R153). -/
def execRefillReadStart (s : State) : Host.Outcome State Fault Refusal :=
  event (fun s => { s with store := s.store.startRefill s.fifoLevel }) s

/-- REFILL_READ_DONE (R153). -/
def execRefillReadDone (s : State) : Host.Outcome State Fault Refusal :=
  event (State.atStepEnd PortStep.isRefill fun s => { s with store := s.store.refillDone }) s

/-- ERASE_PULSE_START (R149, R151). -/
def execErasePulseStart (good : Bool) (s : State) : Host.Outcome State Fault Refusal :=
  event (fun s => s.onStore (StoreSide.startPulse good)) s

/-- ERASE_PULSE_RESUME (R151, R153). -/
def execErasePulseResume (good : Bool) (left : List (Nat × Byte)) (s : State) : Host.Outcome State Fault Refusal :=
  event (fun s => s.onStore (StoreSide.resumePulse good left)) s

/-- ERASE_PULSE_DONE (R149). -/
def execErasePulseDone (left : List (Nat × Byte)) (s : State) : Host.Outcome State Fault Refusal :=
  event (State.atStepEnd PortStep.isPulse fun s => s.onStore (StoreSide.pulseDone left)) s

/-- ERASE_VERIFY_DONE (R149, R140, R146, R148). -/
def execEraseVerifyDone (s : State) : Host.Outcome State Fault Refusal :=
  event (State.atStepEnd PortStep.isVerify fun s => s.onStore StoreSide.verifyDone) s

/-- PROGRAM_ATTEMPT_START (R150, R151). -/
def execProgramAttemptStart (good : Bool) (s : State) : Host.Outcome State Fault Refusal :=
  event (fun s => s.onStore (StoreSide.startAttempt good)) s

/-- PROGRAM_ATTEMPT_DONE (R142, R143, R148, R150). -/
def execProgramAttemptDone (missed : List Byte) (s : State) : Host.Outcome State Fault Refusal :=
  event (State.atStepEnd PortStep.isAttempt fun s => s.onStore (StoreSide.attemptDone missed)) s

/-- STORE_SUPPLY_GOOD_FALL (R151). -/
def execStoreSupplyGoodFall (left : List (Nat × Byte)) (missed : List Byte) (s : State) : Host.Outcome State Fault Refusal :=
  .next (s.onStore (StoreSide.supplyFall left missed))

/-- STORE_LOCK_CHANGE (R152). -/
def execStoreLockChange (applied : Bool) (s : State) : Host.Outcome State Fault Refusal :=
  let s' := { s with store := { s.store with lock := applied } }
  .next (if s.running = true ∧ applied ≠ s.store.lock then s'.mark .global else s')

/-- The store lamp stretcher’s timer reaches 100 ms: the local clock runs to that moment (R154, log 2). -/
def State.expireStoreLamp (s : State) : State :=
  if s.store.lamp.phase = .idle then s
  else
    let s := s.runClock (Config.lampUs - s.store.lamp.us)
    { s with store := { s.store with lamp := s.store.lamp.expire } }

/-- STORE_LAMP_TIMER_EXPIRY (R154). -/
def execStoreLampTimerExpiry (s : State) : Host.Outcome State Fault Refusal := event State.expireStoreLamp s

/-- STORE_SCAN_END (R180, R181). -/
def execStoreScanEnd (s : State) : Host.Outcome State Fault Refusal :=
  event (fun s => if s.store.engine = .scanning then s.endScan else s) s

end Sys2Proof.Machine
end

