-- ==== Sys2Proof/Machine/FrameCommands.lean ====
section
/-!
DEFINITION. The commands of the highway port and the sample path (chapters 4 and 5).
-/
namespace Sys2Proof.Machine

/-- FRAME_PULSE (R87, R92, R93, R96). -/
def execFramePulse (s : State) : Host.Outcome State Fault Refusal := event State.takePulse s

/-- The monitor’s timer comes to pass 250 µs: the local clock runs to that moment and loss is declared (R94, log 2). -/
def State.passInterval (s : State) : State :=
  if s.highway.monitor = .running then (s.runClock (Config.lossUs + 1 - s.highway.pulseUs)).declareLoss else s

/-- FRAME_LOSS (R94). -/
def execFrameLoss (s : State) : Host.Outcome State Fault Refusal := event State.passInterval s

/-- FRAME_COMPUTATION (R67). -/
def execFrameComputation (s : State) : Host.Outcome State Fault Refusal := event State.takeComputation s

/-- HIGHWAY_CLOCK_BIT_TIME (R88, R89). -/
def execHighwayClockBitTime (s : State) : Host.Outcome State Fault Refusal := event State.clockBit s

end Sys2Proof.Machine
end

