-- ==== Sys2Proof/Machine/OrderCommands.lean ====
section
/-!
DEFINITION. The commands of the order unit (chapter 1): hearing, detail and slot words, the boundaries it takes, and the
notices and answers of the pools.
-/
namespace Sys2Proof.Machine

/-- A hearing word `w` of circuit `p` with code `code` is handed over; a word of another code is not this command’s (log 1). -/
def hearingWord (code : Nat) (p : Circ) (w : Word) (f : Exchange → Exchange) (s : State) : Host.Outcome State Fault Refusal :=
  if orderCode w = code then handOver p.val w (fun s => s.onExchange f) s else .next s

/-- QUIET (R10–R12, R17, R19). -/
def execQuiet (p : Circ) (w : Word) (s : State) : Host.Outcome State Fault Refusal :=
  hearingWord 0 p w (Exchange.orderQuiet p w) s

/-- TONE_SHARED (R9–R13). -/
def execToneShared (p : Circ) (w : Word) (s : State) : Host.Outcome State Fault Refusal :=
  hearingWord 1 p w (Exchange.orderTone p w .toneShared) s

/-- TONE_PRIVATE (R9–R13). -/
def execTonePrivate (p : Circ) (w : Word) (s : State) : Host.Outcome State Fault Refusal :=
  hearingWord 2 p w (Exchange.orderTone p w .tonePrivate) s

/-- ANNOUNCE (R9–R12, R14). -/
def execAnnounce (p : Circ) (w : Word) (s : State) : Host.Outcome State Fault Refusal :=
  hearingWord 3 p w (Exchange.orderAnnounce p w) s

/-- CONGESTION (R9–R12, R15). -/
def execCongestion (p : Circ) (w : Word) (s : State) : Host.Outcome State Fault Refusal :=
  hearingWord 4 p w (Exchange.orderCongestion p w) s

/-- CLEAR_ALL (R10–R12). -/
def execClearAll (p : Circ) (w : Word) (s : State) : Host.Outcome State Fault Refusal :=
  hearingWord 5 p w (Exchange.orderClearAll p) s

/-- ORDER_INVALID_CODE (R6, R9). -/
def execOrderInvalidCode (p : Circ) (w : Word) (s : State) : Host.Outcome State Fault Refusal :=
  if 6 ≤ orderCode w then handOver p.val w (fun s => s.onExchange (Exchange.refuseOrder p .orderInvalid w)) s else .next s

/-- DETAIL_WORD_WRITE (R7). -/
def execDetailWordWrite (p : Circ) (w : Word) (s : State) : Host.Outcome State Fault Refusal :=
  handOver (0x040 + p.val) w (fun s => s.onExchange (Exchange.writeDetail p w)) s

/-- SLOT_WORD_WRITE (R8, R90, R91). -/
def execSlotWordWrite (p : Circ) (w : Word) (s : State) : Host.Outcome State Fault Refusal :=
  handOver (0x080 + p.val) w (fun s => s.slotWrite p (slotEntry w)) s

/-! ### Boundaries -/

/-- CADENCE_BOUNDARY (R18). -/
def execCadenceBoundary (s : State) : Host.Outcome State Fault Refusal := event State.takeCadence s

/-- GAP_END (R18). -/
def execGapEnd (p : Circ) (s : State) : Host.Outcome State Fault Refusal :=
  event (fun s => s.onExchange (Exchange.gapEnd p)) s

/-- WAIT_BOUNDARY_ORDERS (R14). -/
def execWaitBoundaryOrders (s : State) : Host.Outcome State Fault Refusal := event State.takeWaitOrders s

/-- WAIT_LIMIT_REACHED (R14). -/
def execWaitLimitReached (p : Circ) (s : State) : Host.Outcome State Fault Refusal :=
  event (fun s => s.onExchange (Exchange.sendExpiry p)) s

/-! ### Notices and answers -/

/-- The order unit takes the channel pool’s oldest notice, if `ok` accepts it, and applies it by `f`. -/
def Exchange.takeChannelNotice (ok : ChannelMessage → Bool) (f : ChannelNotice → Exchange → Exchange) (e : Exchange) : Exchange :=
  match e.chans.notices with
  | [] => e
  | x :: rest => if ok x.what then f x { e with chans := { e.chans with notices := rest } } else e

/-- The order unit takes the player pool’s oldest message, if `ok` accepts it, and applies it by `f`. -/
def Exchange.takePlayerNotice (ok : PlayerMessage → Bool) (f : PlayerNotice → Exchange → Exchange) (e : Exchange) : Exchange :=
  match e.players.notices with
  | [] => e
  | x :: rest => if ok x.what then f x { e with players := { e.players with notices := rest } } else e

/-- Whether a message answers an expiry request (R113). -/
def PlayerMessage.isAnswer : PlayerMessage → Bool
  | .expired => true
  | .listening _ => true
  | .notHeld => true
  | .moved _ => false
  | .listener _ => false
  | .exhausted => false
  | .unavailable => false

/-- An expiry answer applied (R14): expired by a fallback or completion, listening by HEAR, not held dropped. -/
def Exchange.applyAnswer (x : PlayerNotice) (e : Exchange) : Exchange :=
  match x.what with
  | .expired => e.onNotice x.circ x.tag (Exchange.fallBack x.circ .annWaitExpired)
  | .listening n => e.servedListener x.circ x.tag n
  | _ => e

/-- Whether a player pool message is a served notice (R23). -/
def PlayerMessage.isServed : PlayerMessage → Bool
  | .moved _ => true
  | .listener _ => true
  | .expired => false
  | .listening _ => false
  | .notHeld => false
  | .exhausted => false
  | .unavailable => false

/-- Whether a channel pool message is a served notice (R23). -/
def ChannelMessage.isServed : ChannelMessage → Bool
  | .served _ _ => true
  | .done => false
  | .withdrawn => false

/-- A served notice of the player pool applied (R23). -/
def Exchange.applyPlayerServed (x : PlayerNotice) (e : Exchange) : Exchange :=
  match x.what with
  | .moved n => e.servedMoved x.circ x.tag n
  | .listener n => e.servedListener x.circ x.tag n
  | _ => e

/-- A served notice of the channel pool applied (R23). -/
def Exchange.applyChannelServed (x : ChannelNotice) (e : Exchange) : Exchange :=
  match x.what with
  | .served k _ => e.servedOnChannel x.circ x.tag k
  | _ => e

/-- EXPIRY_ANSWER (R14). -/
def execExpiryAnswer (s : State) : Host.Outcome State Fault Refusal :=
  event (fun s => s.onExchange (Exchange.takePlayerNotice PlayerMessage.isAnswer Exchange.applyAnswer)) s

/-- SERVED_NOTICE (R23). -/
def execServedNotice (pool : Pool) (s : State) : Host.Outcome State Fault Refusal :=
  match pool with
  | .channels => event (fun s => s.onExchange (Exchange.takeChannelNotice ChannelMessage.isServed Exchange.applyChannelServed)) s
  | .players => event (fun s => s.onExchange (Exchange.takePlayerNotice PlayerMessage.isServed Exchange.applyPlayerServed)) s

/-- DONE_NOTICE (R20). -/
def execDoneNotice (s : State) : Host.Outcome State Fault Refusal :=
  event (fun s => s.onExchange (Exchange.takeChannelNotice (fun m => m == .done) fun x e =>
    e.onNotice x.circ x.tag (Exchange.complete x.circ .treatmentDone))) s

/-- WITHDRAWN_NOTICE (R20). -/
def execWithdrawnNotice (s : State) : Host.Outcome State Fault Refusal :=
  event (fun s => s.onExchange (Exchange.takeChannelNotice (fun m => m == .withdrawn) fun x e =>
    e.onNotice x.circ x.tag (Exchange.complete x.circ .planWithdrawn))) s

/-- REPEATS_EXHAUSTED_NOTICE (R20, R22). -/
def execRepeatsExhaustedNotice (s : State) : Host.Outcome State Fault Refusal :=
  event (fun s => s.onExchange (Exchange.takePlayerNotice (fun m => m == .exhausted) fun x e =>
    e.onNotice x.circ x.tag (Exchange.followOn x.circ))) s

/-- UNAVAILABLE_NOTICE (R20, R21). -/
def execUnavailableNotice (s : State) : Host.Outcome State Fault Refusal :=
  event (fun s => s.onExchange (Exchange.takePlayerNotice (fun m => m == .unavailable) fun x e =>
    e.onNotice x.circ x.tag (Exchange.fallBack x.circ .annUnavailable))) s

end Sys2Proof.Machine
end

