-- ==== Sys2Proof/Machine/PlanCommands.lean ====
section
/-!
DEFINITION. The commands of the plan table (chapter 2).
-/
namespace Sys2Proof.Machine

/-- PLAN_WORD_WRITE (R28, R31, R32); an offset outside the plan banks is no plan word (log 1). -/
def execPlanWordWrite (off : Offset) (w : Word) (s : State) : Host.Outcome State Fault Refusal :=
  if 0x100 ≤ off.toNat ∧ off.toNat < 0x300 then
    handOver off.toNat w (fun s => s.onExchange (Exchange.planWrite off w)) s
  else .next s

/-- LIVE_BANK_WORD_WRITE (R33–R36). -/
def execLiveBankWordWrite (w : Word) (s : State) : Host.Outcome State Fault Refusal :=
  handOver 0x30E w (fun s => s.onExchange (Exchange.liveBankWrite w)) s

end Sys2Proof.Machine
end

