-- ==== Sys2Proof/Machine/PlayerCommands.lean ====
section
/-!
DEFINITION. The commands of the player pool (chapter 6).
-/
namespace Sys2Proof.Machine

/-- The player pool takes the oldest expiry request (R113). -/
def Exchange.takeExpiryReq (e : Exchange) : Exchange :=
  match e.orders.expiryReqs with
  | [] => e
  | q :: rest => Exchange.takeExpiry { e with orders := { e.orders with expiryReqs := rest } } q

/-- EXPIRY_REQUEST (R113). -/
def execExpiryRequest (s : State) : Host.Outcome State Fault Refusal :=
  event (fun s => s.onExchange Exchange.takeExpiryReq) s

/-- FRAME_START_PLAYERS (R109). -/
def execFrameStartPlayers (s : State) : Host.Outcome State Fault Refusal := event State.takePlayersFrame s

/-- ANN_CYCLE_END (R110); the computation of the frame comes before it (R67). -/
def execAnnCycleEnd (n : PlayNo) (s : State) : Host.Outcome State Fault Refusal :=
  event (fun s => s.takeComputation.onExchange (Exchange.annCycleEnd n)) s

/-- WAIT_BOUNDARY_PLAYERS (R111). -/
def execWaitBoundaryPlayers (s : State) : Host.Outcome State Fault Refusal := event State.takeWaitPlayers s

/-- PLAYER_GAP_END (R111). -/
def execPlayerGapEnd (n : PlayNo) (s : State) : Host.Outcome State Fault Refusal :=
  event (fun s => s.onExchange (Exchange.playerGapEnd n)) s

/-- The player pool takes the oldest refill delivery, of whichever player (R107; DESIGN CHOICE, log 47). -/
def State.takeDelivery (s : State) : State :=
  match s.store.deliveries with
  | [] => s
  | d :: rest => State.onExchange { s with store := { s.store with deliveries := rest } } (Exchange.deliver d)

/-- REFILL_DELIVERY (R107). -/
def execRefillDelivery (s : State) : Host.Outcome State Fault Refusal := event State.takeDelivery s

/-- The player pool takes the oldest fan-out setting change (R116). -/
def State.takeFanout (s : State) : State :=
  match s.bus.fanoutChanges with
  | [] => s
  | c :: rest => State.onExchange { s with bus := { s.bus with fanoutChanges := rest } } (Exchange.setFanout c.limit)

/-- FANOUT_LIMIT_CHANGE (R116). -/
def execFanoutLimitChange (s : State) : Host.Outcome State Fault Refusal := event State.takeFanout s

/-- The player pool takes every fan-out setting change in flight, in the order handed over (R116). -/
def State.drainFanout (s : State) : State :=
  s.bus.fanoutChanges.foldl (fun s c => s.onExchange (Exchange.setFanout c.limit)) { s with bus := { s.bus with fanoutChanges := [] } }

/-- The notices left once the oldest has been taken. -/
def State.dropPoolNotice (s : State) : State :=
  { s with store := { s.store with poolNotices := s.store.poolNotices.tail } }

/-- The player pool takes the store controller’s oldest notice, of whichever recording, if it is a withdrawal (R117; DESIGN
CHOICE, log 48). -/
def State.takeWithdrawal (s : State) : State :=
  match s.store.poolNotices.head? with
  | some (.withdrawal r) => s.dropPoolNotice.onExchange (Exchange.withdrawRecording r)
  | _ => s

/-- RECORDING_WITHDRAWAL (R117). -/
def execRecordingWithdrawal (s : State) : Host.Outcome State Fault Refusal := event State.takeWithdrawal s

/-- The player pool takes the store controller’s oldest notice, of whichever recording, if it is made available (R118; DESIGN
CHOICE, log 48). -/
def State.takeMadeAvailable (s : State) : State :=
  match s.store.poolNotices.head? with
  | some (.madeAvailable r v) => s.dropPoolNotice.onExchange (Exchange.makeAvailable r v)
  | _ => s

/-- MADE_AVAILABLE_NOTICE (R118). -/
def execMadeAvailableNotice (s : State) : Host.Outcome State Fault Refusal := event State.takeMadeAvailable s

/-- The player pool takes the store controller’s oldest notice, if it is scan done (R118; DESIGN CHOICE, log 48). The fan-out limit the scan end applied is in
force before any recording is available (R181), so the changes in flight are taken first (log 42). -/
def State.takeScanDone (s : State) : State :=
  match s.store.poolNotices.head? with
  | some (.scanDone view) => s.drainFanout.dropPoolNotice.onExchange (Exchange.scanDone view)
  | _ => s

/-- SCAN_DONE_NOTICE (R118). -/
def execScanDoneNotice (s : State) : Host.Outcome State Fault Refusal := event State.takeScanDone s

end Sys2Proof.Machine
end

