-- ==== Sys2Proof/Machine/Reports.lean ====
section
/-!
DEFINITION. The report unit (chapter 10): submission, coalescing and loss, the posting cycles of ring entries and status
words, and the holdoff’s end.
-/
namespace Sys2Proof.Machine

/-! ### Submission (R170, R171) -/

/-- Reports of the same kind and the same subject (R171). -/
def Report.sameAs (a b : Report) : Bool := a.kind == b.kind && a.subject == b.subject

/-- The report unit takes a report (R170, R171). -/
def ReportUnit.take (x : Report) (r : ReportUnit) : ReportUnit :=
  if r.queue.length < Config.reportDepth then { r with queue := r.queue ++ [x] }
  else
    match replaceNewest (Report.sameAs x) (fun y => { y with value := x.value }) r.queue with
    | some q => { r with queue := q }
    | none => { r with lost := true }

/-- The oldest submission of block `b`, and the others. -/
def takeSubmission (b : Block) : List Submission → Option (Report × List Submission)
  | [] => none
  | x :: l =>
    if x.block = b then some (x.report, l)
    else (takeSubmission b l).map fun r => (r.1, x :: r.2)

/-- The report unit takes the oldest report of block `b` in flight; a report lost marks the global status word when the
flag was clear (R170, R171). -/
def State.takeReport (b : Block) (s : State) : State :=
  match takeSubmission b s.wire.submitted with
  | none => s
  | some (x, rest) =>
    let r := s.reports.take x
    let s' := { s with wire := { s.wire with submitted := rest }, reports := r }
    if r.lost = s.reports.lost then s' else s'.mark .global

/-! ### Posting cycles (R164, R165, R172, R174) -/

/-- Whether a posting cycle may start: no reset in force, none in progress, and no processor cycle waiting (R158, R165). -/
def State.canPost (s : State) : Bool := s.running && s.bus.posting == none && s.bus.waiting == []

/-- A posting cycle starts: the word goes to memory (log 15). -/
def State.startPosting (x : Posting) (offset : Nat) (v : Word) (s : State) : State :=
  { s with bus := { s.bus.post offset v with posting := some x } }

/-- Whether a new ring entry may be started (R172). -/
def ReportUnit.canStart (r : ReportUnit) : Bool := r.entry == none && r.queue != [] && r.producer + 1 != r.consumer

/-- Offset of word 0 of ring position `p` (R172). -/
def ringOffset (p : Fin 128) : Nat := 0x400 + 2 * p.val

/-- Cycle 1 of an entry takes the head report and writes word 0; cycle 2 writes word 1 (R172). -/
def State.postRingWord (s : State) : State :=
  let r := s.reports
  if s.canPost then
    match r.entry with
    | none =>
      match r.queue with
      | [] => s
      | x :: rest =>
        if r.producer + 1 = r.consumer then s
        else
          State.startPosting .ringWord0 (ringOffset r.producer) x.word0
            { s with reports := { r with queue := rest, entry := some ⟨x, 0⟩ } }
    | some e => if e.cyclesEnded = 1 then s.startPosting .ringWord1 (ringOffset r.producer + 1) e.report.value else s
  else s

/-- Cycle 3 of an entry starts: the posted producer moves on, the mark of its word is cleared, attention is re-evaluated
(R172, R175). -/
def State.postProducer (s : State) : State :=
  let r := s.reports
  if s.canPost then
    match r.entry with
    | some e =>
      if e.cyclesEnded = 2 then
        State.startPosting .producerIndex (PostedWord.offset .producer) (BitVec.ofNat 16 r.producer.val)
          { s with
            reports := ReportUnit.attend { r with posted := r.producer }
            wire := { s.wire with dirty := s.wire.dirty.put .producer false } }
      else s
    | none => s
  else s

/-- A posting cycle of the marked status word of lowest offset starts: its value is read and its mark cleared (R174). -/
def State.postStatus (s : State) : State :=
  if s.canPost = true ∧ s.reports.entry = none ∧ s.reports.canStart = false then
    match s.wire.dirty.lowest with
    | none => s
    | some w =>
      State.startPosting (.status w) w.offset (s.postedValue w)
        { s with wire := { s.wire with dirty := s.wire.dirty.put w false } }
  else s

/-- What the end of a posting cycle does to the entry in progress (R172); none is in progress after a reset (R169). -/
def ReportUnit.endCycle (x : Posting) (r : ReportUnit) : ReportUnit :=
  match x, r.entry with
  | .ringWord0, some e => { r with entry := some { e with cyclesEnded := 1 } }
  | .ringWord1, some e => { r with entry := some { e with cyclesEnded := 2 }, producer := r.producer + 1 }
  | .producerIndex, _ => { r with entry := none }
  | _, _ => r

/-- A posting cycle ends (R165, R172): a waiting processor cycle is then passed. The producer index word is marked when the
producer index has changed (R174, log 26). -/
def State.endPosting (s : State) : State :=
  match s.bus.posting with
  | none => s
  | some x =>
    let r := s.reports.endCycle x
    let s' := { s with reports := r, bus := Bus.giveWay { s.bus with posting := none } }
    if r.producer = s.reports.producer then s' else s'.mark .producer

/-- The holdoff timer reaches its setting (R176). -/
def ReportUnit.endHoldoff (r : ReportUnit) : ReportUnit :=
  if r.holdoffRunning then ReportUnit.attend { r with holdoffRunning := false, holdoffUs := 0 } else r

end Sys2Proof.Machine
end

