-- ==== Sys2Proof/Machine/ReportCommands.lean ====
section
/-!
DEFINITION. The events of the report unit (chapter 10).
-/
namespace Sys2Proof.Machine

/-- REPORT_SUBMIT (R170, R171). -/
def execReportSubmit (b : Block) (s : State) : Host.Outcome State Fault Refusal := event (State.takeReport b) s

/-- RING_WORD_POST (R164, R165, R172). -/
def execRingWordPost (s : State) : Host.Outcome State Fault Refusal := event State.postRingWord s

/-- PRODUCER_INDEX_WORD_POST (R172, R175). -/
def execProducerIndexWordPost (s : State) : Host.Outcome State Fault Refusal := event State.postProducer s

/-- STATUS_WORD_POST (R174). -/
def execStatusWordPost (s : State) : Host.Outcome State Fault Refusal := event State.postStatus s

/-- POSTING_CYCLE_END (R164, R165, R172); a cycle in progress at a pin reset runs to its end. -/
def execPostingCycleEnd (s : State) : Host.Outcome State Fault Refusal := .next s.endPosting

/-- The attention holdoff timer reaches its setting: the local clock runs to that moment (R176, log 2). -/
def State.expireHoldoff (s : State) : State :=
  if s.reports.holdoffRunning then
    let s := s.runClock (s.reports.holdoffSetting * Config.holdoffUnitUs - s.reports.holdoffUs)
    { s with reports := s.reports.endHoldoff }
  else s

/-- HOLDOFF_EXPIRY (R175, R176). -/
def execHoldoffExpiry (s : State) : Host.Outcome State Fault Refusal := event State.expireHoldoff s

end Sys2Proof.Machine
end

