-- ==== Sys2Proof/Machine/ResetCommands.lean ====
section
/-!
DEFINITION. Power-on reset, pin reset and reset release (chapter 11).
-/
namespace Sys2Proof.Machine

/-- POWER_ON_RESET (R178, R179). -/
def execPowerOnReset (left : List (Nat × Byte)) (missed : List Byte) (s : State) : Host.Outcome State Fault Refusal :=
  .next (s.powerOn left missed)

/-- PIN_RESET (R178, R179); an assertion during a reset is part of that reset. -/
def execPinReset (left : List (Nat × Byte)) (missed : List Byte) (s : State) : Host.Outcome State Fault Refusal :=
  .next (if s.running then s.pinReset left missed else s)

/-- RESET_RELEASE (R178). -/
def execResetRelease (straps : Fin 8) (s : State) : Host.Outcome State Fault Refusal :=
  .next (if s.running then s else s.release straps)

end Sys2Proof.Machine
end

