-- ==== Sys2Proof/Machine/StoreCommands.lean ====
section
/-!
DEFINITION. The captured store command, parameter and load buffer words (chapter 8).
-/
namespace Sys2Proof.Machine

/-- A store command word with code `code` is handed over; a word of another code is not this command’s (log 1). -/
def storeWord (code : Nat) (w : Word) (f : State → State) (s : State) : Host.Outcome State Fault Refusal :=
  if storeCode w = code then handOver 0x312 w f s else .next s

/-- LOAD_BEGIN (R138, R139). -/
def execLoadBegin (w : Word) (s : State) : Host.Outcome State Fault Refusal :=
  storeWord 1 w (fun s => s.onStore (StoreSide.beginWith .load w)) s

/-- LOAD_CONFIRM (R139, R140). -/
def execLoadConfirm (w : Word) (s : State) : Host.Outcome State Fault Refusal :=
  storeWord 2 w (fun s => s.onStore (StoreSide.confirmWith .load w (StoreSide.loadConfirmed (storeRecording w)))) s

/-- CHUNK_READY (R139, R141). -/
def execChunkReady (w : Word) (s : State) : Host.Outcome State Fault Refusal :=
  storeWord 3 w (fun s => s.onStore (StoreSide.chunkReady w)) s

/-- LOAD_ABANDON (R139, R144). -/
def execLoadAbandon (w : Word) (s : State) : Host.Outcome State Fault Refusal :=
  storeWord 4 w (fun s => s.onStore (StoreSide.loadAbandon w)) s

/-- RETIRE_BEGIN (R138, R139). -/
def execRetireBegin (w : Word) (s : State) : Host.Outcome State Fault Refusal :=
  storeWord 5 w (fun s => s.onStore (StoreSide.beginWith .retire w)) s

/-- RETIRE_CONFIRM (R139, R145). -/
def execRetireConfirm (w : Word) (s : State) : Host.Outcome State Fault Refusal :=
  storeWord 6 w (fun s => s.onStore (StoreSide.confirmWith .retire w (StoreSide.retireConfirmed (storeRecording w)))) s

/-- CONFIG_BEGIN (R138, R139). -/
def execConfigBegin (w : Word) (s : State) : Host.Outcome State Fault Refusal :=
  storeWord 7 w (fun s => s.onStore (StoreSide.beginWith .config w)) s

/-- CONFIG_CONFIRM (R139, R148). -/
def execConfigConfirm (w : Word) (s : State) : Host.Outcome State Fault Refusal :=
  storeWord 8 w
    (fun s => s.onStore (StoreSide.confirmWith .config w (StoreSide.configConfirmed s.bus.settings.words))) s

/-- STORE_HOLD (R152). -/
def execStoreHold (w : Word) (s : State) : Host.Outcome State Fault Refusal :=
  storeWord 9 w (fun s => s.onStore (StoreSide.holdStore w)) s

/-- STORE_RESUME (R152). -/
def execStoreResume (w : Word) (s : State) : Host.Outcome State Fault Refusal :=
  storeWord 10 w (fun s => s.onStore (StoreSide.resumeStore w)) s

/-- CLEAR_STORE_STATUS (R151, R154). -/
def execClearStoreStatus (w : Word) (s : State) : Host.Outcome State Fault Refusal :=
  storeWord 11 w (fun s => s.onStore (StoreSide.clearStatus w)) s

/-- INVALID_STORE_COMMAND (R138, R139). -/
def execInvalidStoreCommand (w : Word) (s : State) : Host.Outcome State Fault Refusal :=
  if storeCode w = 0 ∨ 12 ≤ storeCode w then handOver 0x312 w (fun s => s.onStore (StoreSide.invalidCommand w)) s
  else .next s

/-- STORE_PARAMETER_WRITE (R138). -/
def execStoreParameterWrite (k : Fin 3) (w : Word) (s : State) : Host.Outcome State Fault Refusal :=
  handOver (0x313 + k.val) w (fun s => { s with store := s.store.setParam k w }) s

/-- LOAD_BUFFER_WRITE (R141). -/
def execLoadBufferWrite (k : Fin 1024) (w : Word) (s : State) : Host.Outcome State Fault Refusal :=
  handOver (0x800 + k.val) w (fun s => s.onStore (StoreSide.bufferWord k.val w)) s

end Sys2Proof.Machine
end

