-- ==== Sys2Proof/Machine/Dispatch.lean ====
section
/-!
DEFINITION. The dispatch of commands to their meanings: one arm per constructor of Instr.
-/
namespace Sys2Proof.Machine

def exec (i : Instr) (s : State) : Host.Outcome State Fault Refusal :=
  match i with
  | .processorWrite a v => Sys2Proof.Machine.execProcessorWrite a v s
  | .otherRegionWrite a v => Sys2Proof.Machine.execOtherRegionWrite a v s
  | .quiet p w => Sys2Proof.Machine.execQuiet p w s
  | .toneShared p w => Sys2Proof.Machine.execToneShared p w s
  | .tonePrivate p w => Sys2Proof.Machine.execTonePrivate p w s
  | .announce p w => Sys2Proof.Machine.execAnnounce p w s
  | .congestion p w => Sys2Proof.Machine.execCongestion p w s
  | .clearAll p w => Sys2Proof.Machine.execClearAll p w s
  | .orderInvalidCode p w => Sys2Proof.Machine.execOrderInvalidCode p w s
  | .detailWordWrite p w => Sys2Proof.Machine.execDetailWordWrite p w s
  | .slotWordWrite p w => Sys2Proof.Machine.execSlotWordWrite p w s
  | .planWordWrite off w => Sys2Proof.Machine.execPlanWordWrite off w s
  | .liveBankWordWrite w => Sys2Proof.Machine.execLiveBankWordWrite w s
  | .congestionTableWordWrite k w => Sys2Proof.Machine.execCongestionTableWordWrite k w s
  | .routeLevelWordWrite w => Sys2Proof.Machine.execRouteLevelWordWrite w s
  | .thresholdWordWrite g w => Sys2Proof.Machine.execThresholdWordWrite g w s
  | .timingWord1Write w => Sys2Proof.Machine.execTimingWord1Write w s
  | .timingWord2Write w => Sys2Proof.Machine.execTimingWord2Write w s
  | .consumerIndexWordWrite w => Sys2Proof.Machine.execConsumerIndexWordWrite w s
  | .acknowledgeWordWrite w => Sys2Proof.Machine.execAcknowledgeWordWrite w s
  | .softResetWordWrite w => Sys2Proof.Machine.execSoftResetWordWrite w s
  | .loadBegin w => Sys2Proof.Machine.execLoadBegin w s
  | .loadConfirm w => Sys2Proof.Machine.execLoadConfirm w s
  | .chunkReady w => Sys2Proof.Machine.execChunkReady w s
  | .loadAbandon w => Sys2Proof.Machine.execLoadAbandon w s
  | .retireBegin w => Sys2Proof.Machine.execRetireBegin w s
  | .retireConfirm w => Sys2Proof.Machine.execRetireConfirm w s
  | .configBegin w => Sys2Proof.Machine.execConfigBegin w s
  | .configConfirm w => Sys2Proof.Machine.execConfigConfirm w s
  | .storeHold w => Sys2Proof.Machine.execStoreHold w s
  | .storeResume w => Sys2Proof.Machine.execStoreResume w s
  | .clearStoreStatus w => Sys2Proof.Machine.execClearStoreStatus w s
  | .invalidStoreCommand w => Sys2Proof.Machine.execInvalidStoreCommand w s
  | .storeParameterWrite k w => Sys2Proof.Machine.execStoreParameterWrite k w s
  | .loadBufferWrite k w => Sys2Proof.Machine.execLoadBufferWrite k w s
  | .framePulse => Sys2Proof.Machine.execFramePulse s
  | .frameLoss => Sys2Proof.Machine.execFrameLoss s
  | .frameComputation => Sys2Proof.Machine.execFrameComputation s
  | .frameStartChannels => Sys2Proof.Machine.execFrameStartChannels s
  | .cadenceUnitEnd k => Sys2Proof.Machine.execCadenceUnitEnd k s
  | .segmentEnd k => Sys2Proof.Machine.execSegmentEnd k s
  | .cycleEnd k => Sys2Proof.Machine.execCycleEnd k s
  | .drainingNotice => Sys2Proof.Machine.execDrainingNotice s
  | .cadenceBoundary => Sys2Proof.Machine.execCadenceBoundary s
  | .gapEnd p => Sys2Proof.Machine.execGapEnd p s
  | .waitBoundaryOrders => Sys2Proof.Machine.execWaitBoundaryOrders s
  | .waitLimitReached p => Sys2Proof.Machine.execWaitLimitReached p s
  | .expiryRequest => Sys2Proof.Machine.execExpiryRequest s
  | .expiryAnswer => Sys2Proof.Machine.execExpiryAnswer s
  | .servedNotice pool => Sys2Proof.Machine.execServedNotice pool s
  | .doneNotice => Sys2Proof.Machine.execDoneNotice s
  | .withdrawnNotice => Sys2Proof.Machine.execWithdrawnNotice s
  | .repeatsExhaustedNotice => Sys2Proof.Machine.execRepeatsExhaustedNotice s
  | .unavailableNotice => Sys2Proof.Machine.execUnavailableNotice s
  | .frameStartPlayers => Sys2Proof.Machine.execFrameStartPlayers s
  | .annCycleEnd n => Sys2Proof.Machine.execAnnCycleEnd n s
  | .waitBoundaryPlayers => Sys2Proof.Machine.execWaitBoundaryPlayers s
  | .playerGapEnd n => Sys2Proof.Machine.execPlayerGapEnd n s
  | .refillDelivery => Sys2Proof.Machine.execRefillDelivery s
  | .fanoutLimitChange => Sys2Proof.Machine.execFanoutLimitChange s
  | .recordingWithdrawal => Sys2Proof.Machine.execRecordingWithdrawal s
  | .madeAvailableNotice => Sys2Proof.Machine.execMadeAvailableNotice s
  | .scanDoneNotice => Sys2Proof.Machine.execScanDoneNotice s
  | .loadGradeEvaluation => Sys2Proof.Machine.execLoadGradeEvaluation s
  | .loadLampTimerExpiry => Sys2Proof.Machine.execLoadLampTimerExpiry s
  | .withdrawnAnswer => Sys2Proof.Machine.execWithdrawnAnswer s
  | .refillRequest => Sys2Proof.Machine.execRefillRequest s
  | .refillReadStart => Sys2Proof.Machine.execRefillReadStart s
  | .refillReadDone => Sys2Proof.Machine.execRefillReadDone s
  | .erasePulseStart good => Sys2Proof.Machine.execErasePulseStart good s
  | .erasePulseResume good left => Sys2Proof.Machine.execErasePulseResume good left s
  | .erasePulseDone left => Sys2Proof.Machine.execErasePulseDone left s
  | .eraseVerifyDone => Sys2Proof.Machine.execEraseVerifyDone s
  | .programAttemptStart good => Sys2Proof.Machine.execProgramAttemptStart good s
  | .programAttemptDone missed => Sys2Proof.Machine.execProgramAttemptDone missed s
  | .storeSupplyGoodFall left missed => Sys2Proof.Machine.execStoreSupplyGoodFall left missed s
  | .storeLockChange applied => Sys2Proof.Machine.execStoreLockChange applied s
  | .storeLampTimerExpiry => Sys2Proof.Machine.execStoreLampTimerExpiry s
  | .storeScanEnd => Sys2Proof.Machine.execStoreScanEnd s
  | .reportSubmit b => Sys2Proof.Machine.execReportSubmit b s
  | .ringWordPost => Sys2Proof.Machine.execRingWordPost s
  | .producerIndexWordPost => Sys2Proof.Machine.execProducerIndexWordPost s
  | .statusWordPost => Sys2Proof.Machine.execStatusWordPost s
  | .postingCycleEnd => Sys2Proof.Machine.execPostingCycleEnd s
  | .holdoffExpiry => Sys2Proof.Machine.execHoldoffExpiry s
  | .powerOnReset left missed => Sys2Proof.Machine.execPowerOnReset left missed s
  | .pinReset left missed => Sys2Proof.Machine.execPinReset left missed s
  | .resetRelease straps => Sys2Proof.Machine.execResetRelease straps s
  | .highwayClockBitTime => Sys2Proof.Machine.execHighwayClockBitTime s

end Sys2Proof.Machine
end

