-- ==== Sys2Proof/Safety.lean ====
section
/-!
DEFINITION. The terms the claims use: when a captured word is at the head of the snoop queue and what taking it does to the
bus, and the invariants of the part, each the spec's own statement about its state.
-/
namespace Sys2Proof.Machine

/-- No power-on or pin reset is in force, every entry handed over has been taken by its owners, and the head of the snoop
queue is word `w` captured at offset `off`: the entry is about to be handed to its owner (R160). -/
def State.headIs (s : State) (off : Nat) (w : Word) : Bool :=
  s.running && s.bus.ownersTook &&
    match s.bus.snoop with
    | e :: _ => e.offset.toNat == off && e.value == w
    | [] => false

/-- The state once the head entry has left the snoop queue, a held write passing in the same event (R159, R160). -/
def State.taken (s : State) : State := { s with bus := Bus.giveWay { s.bus with snoop := s.bus.snoop.tail } }

/-- What a byte of the announcement store reads. -/
def State.storeRead (s : State) (g : SegNo) (off : Nat) : Byte := storeByte s.store.bytes g off

/-! ### What the scan finds in the store (R180); the places of the header fields are those of log 6 -/

/-- Segment `f` is a candidate first segment of recording `r`, with `n` segments and `len` codes. -/
def State.firstSegment (s : State) (r : RecNo) (n len : Nat) (f : SegNo) : Prop :=
  f ≠ 0 ∧ (s.storeRead f 0).toNat = r.val ∧ s.storeRead f 1 = 0 ∧ (s.storeRead f 2).toNat = n ∧ s.storeRead f 8 = 0
    ∧ len = (s.storeRead f 3).toNat + 256 * (s.storeRead f 4).toNat + 65536 * (s.storeRead f 5).toNat
    ∧ 1 ≤ n ∧ 1 ≤ len ∧ len ≤ 2084880 ∧ (len + 8175) / 8176 = n

/-- Segment `g` is the lowest-numbered audio segment whose header gives recording `r`, count `n` and index `j`. -/
def State.indexSegment (s : State) (r : RecNo) (n j : Nat) (g : SegNo) : Prop :=
  let gives (h : SegNo) : Prop :=
    h ≠ 0 ∧ (s.storeRead h 0).toNat = r.val ∧ (s.storeRead h 1).toNat = j ∧ (s.storeRead h 2).toNat = n
  gives g ∧ ∀ h : SegNo, h < g → ¬ gives h

/-- The candidate at `f` is complete: every further index is found. -/
def State.completeRecording (s : State) (r : RecNo) (n len : Nat) (f : SegNo) : Prop :=
  s.firstSegment r n len f ∧ ∀ j, 1 ≤ j → j < n → ∃ g, s.indexSegment r n j g

/-- The complete recording at `f` is the one of its number with the lowest first segment. -/
def State.keptRecording (s : State) (r : RecNo) (n len : Nat) (f : SegNo) : Prop :=
  s.completeRecording r n len f ∧ ∀ h : SegNo, h < f → ∀ n' len', ¬ s.completeRecording r n' len' h

/-! ### Words for single records -/

/-- Circuit `p` has record `c`, and its status word is marked. -/
def State.showCircuit (p : Circ) (c : Circuit) (s : State) : State :=
  { s with
    orders := { s.orders with circuits := s.orders.circuits.set p c }
    wire := { s.wire with dirty := s.wire.dirty.put (.circuit p) true } }

/-- Plan `q` is valid in the live bank (R42). -/
def State.planUsable (s : State) (q : PlanNo) : Prop := ∃ b, s.plans.live = some b ∧ (s.plans.plan b q).status = .valid

/-- Command `i` hands over hearing word `w` of circuit `p`, an order that is accepted and places an entry of treatment `k`
(R6, R9, R10). -/
def State.accepts (s : State) (p : Circ) (w : Word) (i : Instr) (k : Treatment) : Prop :=
  (∃ q : PlanNo, q.val = w.toNat / 16 % 64 ∧ s.planUsable q
    ∧ (w.toNat / 4096 = 1 ∧ i = .toneShared p w ∧ k = .toneShared q
      ∨ w.toNat / 4096 = 2 ∧ i = .tonePrivate p w ∧ k = .tonePrivate q))
  ∨ (∃ r : RecNo, r.val = w.toNat / 16 % 64 ∧ w.toNat / 4096 = 3 ∧ i = .announce p w
    ∧ k = .announce r (Fin.ofNat 16 (w.toNat % 16)))
  ∨ (∃ q : Route, q.val = w.toNat / 16 % 64 ∧ w.toNat / 4096 = 4 ∧ i = .congestion p w ∧ k = .congestion q)

/-- Channel `k` is SHARED on plan `q` from the live bank with move pending clear (R49, R37); none is joined otherwise. -/
def State.joinable (s : State) (q : PlanNo) (k : ChanNo) : Bool :=
  match s.chans.chans[k] with
  | some r => !r.isPrivate && r.plan == q && !r.movePending && s.plans.live == some r.bank
  | none => false

/-- A player in which the close of an event finds nothing to do: IDLE without a recording, or bound with no wrap due and no
refill request due (R106). -/
def Player.atRest (l : PlayerPool) (p : Player) : Bool :=
  match p.recording with
  | none => p.state == .idle
  | some _ => (p.state != .playing || p.wrapped || p.fetch != l.lengthOf p || l.gapOf p != 0)
      && (p.refillOut || Config.refillCodes < p.fifo.length || l.lengthOf p ≤ p.fetch)

/-- Every player but those named is at rest. -/
def State.playersRest (s : State) (but : List PlayNo) : Prop :=
  ∀ m : PlayNo, m ∉ but → (s.players.players[m]).atRest s.players = true

/-! ### What a release, a leave and a start do, each said once for the claims about orders, gaps and channels -/

/-- Order `i`, hearing word `w` of circuit `p` with record `C`, removes or replaces the active entry, of class `d`: QUIET of that
class, CLEAR_ALL, or an accepted order of that class or a higher one. It leaves the set `T`; an entry put below the new one has
become dormant: one with an origin reverts to CONGESTION on its route, an announcement takes the repeats its player answered
(R10, R17). -/
def State.supersedes (s : State) (p : Circ) (w : Word) (i : Instr) (C : Circuit) (d : Cls) (reps : Option (Fin 16))
    (T : TreatmentSet) : Prop :=
  w.toNat / 4096 = 5 ∧ i = .clearAll p w ∧ T = Vector.replicate 4 none
  ∨ w.toNat / 4096 = 0 ∧ i = .quiet p w ∧ d.val = w.toNat / 1024 % 4 ∧ T = C.set.set d none
  ∨ ∃ (kind : Treatment) (c : Cls), s.accepts p w i kind ∧ c.val = w.toNat / 1024 % 4 ∧ d ≤ c
      ∧ T = (if c = d then C.set
          else C.set.set d ((C.set[d]).map fun x =>
            match x.origin, x.treat, reps with
            | some o, _, _ => ⟨.congestion o.route, none, none, none⟩
            | none, .announce r _, some n => { x with treat := .announce r n }
            | none, _, _ => x)).set c (some ⟨kind, C.detailFollowOn, C.detailFallback, none⟩)

/-- A reference to bank `b` is given up, from `s` to `t`; a DRAINING bank that loses its last one becomes IDLE, with
BANK_SWITCHED and the global status word marked (R39, R40). -/
def State.givesUp (s : State) (b : Bank) (t : State) : Prop :=
  ((s.plans.bank b).state ≠ .draining ∨ (s.plans.bank b).refs - 1 ≠ 0)
      ∧ t = { s with plans := s.plans.setBank b { s.plans.bank b with refs := (s.plans.bank b).refs - 1 } }
  ∨ ∃ l : Bank, s.plans.live = some l ∧ (s.plans.bank b).state = .draining ∧ (s.plans.bank b).refs - 1 = 0
      ∧ t = (State.mark { s with plans := s.plans.setBank b { s.plans.bank b with state := .idle, refs := 0 } } .global).submit
          .planTable .bankSwitched l.num b.num

/-- Channel `k` as an allocation sets it up for plan `q` of bank `b`, with listeners `ls` (R50). -/
def State.allocated (s : State) (isPrivate : Bool) (b : Bank) (q : PlanNo) (ls : List ToneListener) : Run :=
  { isPrivate := isPrivate, bank := b, plan := q, listeners := ls, segIndex := 0
    segLeft := (s.plans.plan b q).segs[0].duration.toNat, unitFrames := 0, cycles := 0, phase1 := 0, phase2 := 0
    movePending := false, holding := false, value := none, computed := false, due := .none }

/-- FREE channel `k` serves the channel wait queue, from `s` to `t` (R64). Waiters before the oldest whose plan is valid in the
live bank are sent withdrawn; that one takes the channel, and when it is shared every other shared waiter on its plan joins it,
oldest first; each is sent served. With no such waiter the queue is left empty and the channel FREE. -/
def State.servesWaiters (s : State) (k : ChanNo) (t : State) : Prop :=
  (∀ y ∈ s.chans.queue, ¬ s.planUsable y.plan)
      ∧ t = { s with chans := { s.chans with
          queue := [], notices := s.chans.notices ++ s.chans.queue.map fun y => ⟨y.circ, y.tag, .withdrawn⟩ } }
  ∨ ∃ (b : Bank) (before after joined : List ToneWaiter) (x : ToneWaiter), s.plans.live = some b
      ∧ s.chans.queue = before ++ x :: after ∧ (∀ y ∈ before, (s.plans.plan b y.plan).status ≠ .valid)
      ∧ (s.plans.plan b x.plan).status = .valid
      ∧ joined = (if x.isPrivate then [] else after.filter fun y => !y.isPrivate && y.plan == x.plan)
      ∧ t = { s with
          plans := s.plans.setBank b { s.plans.bank b with refs := (s.plans.bank b).refs + 1 }
          chans := {
            chans := s.chans.chans.set k (some (s.allocated x.isPrivate b x.plan
              (joined.foldl (fun ls y => insertToneListener ⟨y.circ, y.tag, y.isPrivate⟩ ls)
                [⟨x.circ, x.tag, x.isPrivate⟩])))
            queue := after.filter fun y => x.isPrivate || y.isPrivate || y.plan != x.plan
            notices := s.chans.notices ++ before.map (fun y => ⟨y.circ, y.tag, .withdrawn⟩)
              ++ [⟨x.circ, x.tag, .served k .allocated⟩] ++ joined.map fun y => ⟨y.circ, y.tag, .served k .joined⟩ } }

/-- Channel `k`, which runs `r`, becomes FREE, from `s` to `t`: its reference is given up, then it serves the queue (R62). -/
def State.freesChannel (s : State) (k : ChanNo) (r : Run) (t : State) : Prop :=
  ∃ u, State.givesUp { s with chans := { s.chans with chans := s.chans.chans.set k none } } r.bank u ∧ u.servesWaiters k t

/-- Circuit `p` leaves the channel pool, from `s` to `t` (R61): a waiter leaves the queue, a listener its channel, which becomes
FREE when it was the last; one held nowhere changes nothing. -/
def State.leavesChannels (s : State) (p : Circ) (t : State) : Prop :=
  (∃ x ∈ s.chans.queue, x.circ = p)
      ∧ t = { s with chans := { s.chans with queue := s.chans.queue.filter fun x => x.circ != p } }
  ∨ (∀ x ∈ s.chans.queue, x.circ ≠ p)
      ∧ ((∀ (j : ChanNo) (u : Run), s.chans.chans[j] = some u → ∀ l ∈ u.listeners, l.circ ≠ p) ∧ t = s
        ∨ ∃ (k : ChanNo) (r : Run) (others : List ToneListener), s.chans.chans[k] = some r
            ∧ (∃ l ∈ r.listeners, l.circ = p)
            ∧ (∀ (j : ChanNo) (u : Run), j ≠ k → s.chans.chans[j] = some u → ∀ l ∈ u.listeners, l.circ ≠ p)
            ∧ others = r.listeners.filter (fun l => l.circ != p)
            ∧ (others ≠ []
                ∧ t = { s with chans := { s.chans with
                    chans := s.chans.chans.set k (some { r with listeners := others }) } }
              ∨ others = [] ∧ s.freesChannel k r t))

/-- Circuit `p` leaves the player pool, from `s` to `t`, the player answering with the repeats `reps` of a listener (R112). Its
player becomes IDLE when both lists are empty; with no listener left in PLAYING it abandons the cycle and is PRIMING from index
0, its first refill requested; else it runs on. A waiter leaves the wait list. Here no expiry request is in flight, no other
circuit waits and the players are at rest. -/
def State.leavesPlayers (s : State) (p : Circ) (reps : Option (Fin 16)) (t : State) : Prop :=
  s.orders.expiryReqs = [] ∧ s.playersRest []
  ∧ ((∃ (n : PlayNo) (P Q : Player) (L : List AnnListener) (J : List JoinEntry) (req : List RefillReq),
        s.players.waitList = [] ∧ s.players.players[n] = P
        ∧ ((∃ l ∈ P.listeners, l.circ = p) ∨ ∃ j ∈ P.joins, j.circ = p)
        ∧ (∀ m : PlayNo, m ≠ n →
            (∀ l ∈ s.players.players[m].listeners, l.circ ≠ p) ∧ ∀ j ∈ s.players.players[m].joins, j.circ ≠ p)
        ∧ reps = (P.listeners.find? fun l => l.circ == p).map AnnListener.repeats
        ∧ L = P.listeners.filter (fun l => l.circ != p) ∧ J = P.joins.filter (fun j => j.circ != p)
        ∧ (L = [] ∧ J = [] ∧ Q = { Player.idleWith (P.gen + 1) with handed := P.handed } ∧ req = []
          ∨ (∃ (r : RecNo) (v : ViewRecord), L = [] ∧ J ≠ [] ∧ P.state = .playing ∧ P.recording = some r
              ∧ s.players.view[r] = some v ∧ 0 < v.length
              ∧ Q = { P with
                listeners := [], joins := J, state := .priming, fifo := [], pos := 0, fetch := 0, gen := P.gen + 1
                wrapped := false, refillOut := true }
              ∧ req = [⟨n, r, 0, min 512 v.length, P.gen + 1⟩])
          ∨ (L ≠ [] ∨ J ≠ [] ∧ P.state ≠ .playing) ∧ Q = { P with listeners := L, joins := J } ∧ req = [])
        ∧ t = State.mark { s with players := { s.players with
            players := s.players.players.set n Q, refillReqs := s.players.refillReqs ++ req } } (.player n))
    ∨ reps = none ∧ (∀ x ∈ s.players.waitList, x.circ = p)
        ∧ (∀ m : PlayNo,
            (∀ l ∈ s.players.players[m].listeners, l.circ ≠ p) ∧ ∀ j ∈ s.players.players[m].joins, j.circ ≠ p)
        ∧ t = { s with players := { s.players with waitList := [] } })

/-- The binding of circuit `p`, in state `st`, is released, from `s` to `t` (R12). -/
def State.releasesBinding (s : State) (p : Circ) (st : CircuitState) (reps : Option (Fin 16)) (t : State) : Prop :=
  (st = .tone ∨ st = .channelWait) ∧ reps = none ∧ s.leavesChannels p t
  ∨ (st = .hear ∨ st = .annWait) ∧ s.leavesPlayers p reps t

/-- The record of a circuit bound by a start (R4, R13, R14). -/
def Circuit.started (C : Circuit) (st : CircuitState) (b : Binding) : Circuit :=
  { C with tag := C.tag + 1, state := st, binding := b, gapLeft := 0, waited := 0, limit := .counting }

/-- Circuit `p`, whose record is `C`, starts a tone entry on plan `q`, valid in the live bank, from `s` to `t` (R13, R49, R50): a
SHARED start joins the lowest-numbered joinable channel, else takes the lowest-numbered FREE one, else waits; a PRIVATE one takes
a FREE one, else joins with PRIVATE_DEGRADED, else waits. -/
def State.startsTone (s : State) (p : Circ) (C : Circuit) (isPrivate : Bool) (q : PlanNo) (t : State) : Prop :=
  ∃ b : Bank, s.plans.live = some b ∧ (s.plans.plan b q).status = .valid
    ∧ ((∃ k : ChanNo, s.chans.chans[k] = none ∧ (∀ j : ChanNo, j < k → s.chans.chans[j] ≠ none)
          ∧ (isPrivate = true ∨ ∀ j, s.joinable q j = false)
          ∧ t = { s.showCircuit p (C.started .tone (.channel k)) with
              plans := s.plans.setBank b { s.plans.bank b with refs := (s.plans.bank b).refs + 1 }
              chans := { s.chans with
                chans := s.chans.chans.set k (some (s.allocated isPrivate b q [⟨p, C.tag + 1, isPrivate⟩])) } })
      ∨ (∃ (k : ChanNo) (r : Run) (u : State), s.chans.chans[k] = some r ∧ s.joinable q k = true
          ∧ (∀ j : ChanNo, j < k → s.joinable q j = false)
          ∧ (isPrivate = true → ∀ j : ChanNo, s.chans.chans[j] ≠ none)
          ∧ u = { s.showCircuit p (C.started .tone (.channel k)) with
              chans := { s.chans with
                chans := s.chans.chans.set k
                  (some { r with listeners := insertToneListener ⟨p, C.tag + 1, isPrivate⟩ r.listeners }) } }
          ∧ t = if isPrivate then u.submit .channelPool .privateDegraded p.val (0x100 * k.val + q.val) else u)
      ∨ (∀ j, s.joinable q j = false) ∧ (∀ j : ChanNo, s.chans.chans[j] ≠ none)
          ∧ t = State.submit { s.showCircuit p (C.started .channelWait .channelQueue) with
              chans := { s.chans with queue := s.chans.queue ++ [⟨p, isPrivate, q, C.tag + 1⟩] } }
              .channelPool .channelWait p.val (q.val + if isPrivate then 0x100 else 0))

/-- Circuit `p`, whose record is `C`, starts an announcement entry on recording `r` with `reps` repeats, from `s` to `t` (R14,
R104): it waits while scanning; a player on the recording with room takes it, among its listeners when it is PLAYING a barge-in
recording and else at the tail of its join list; else the lowest-numbered IDLE player is bound, its first refill requested; else
it waits. Here no expiry request is in flight, no circuit waits and the players are at rest. -/
def State.startsAnnouncement (s : State) (p : Circ) (C : Circuit) (r : RecNo) (reps : Fin 16) (t : State) : Prop :=
  s.orders.expiryReqs = [] ∧ s.players.waitList = [] ∧ s.playersRest []
  ∧ ((s.players.scanning = true
        ∨ s.players.view[r] ≠ none ∧ ∀ m : PlayNo, s.players.players[m].state ≠ .idle
            ∧ (s.players.players[m].recording = some r → s.players.fanout ≤ s.players.players[m].fanCount))
      ∧ t = { s.showCircuit p (C.started .annWait .waitList) with
          players := { s.players with waitList := [⟨p, r, reps, C.tag + 1⟩] } }
    ∨ (∃ (n : PlayNo) (v : ViewRecord) (P : Player), s.players.scanning = false ∧ s.players.view[r] = some v
        ∧ s.players.players[n] = P ∧ P.recording = some r ∧ P.fanCount < s.players.fanout
        ∧ (∀ m : PlayNo, m < n →
            s.players.players[m].recording ≠ some r ∨ s.players.fanout ≤ s.players.players[m].fanCount)
        ∧ (P.state = .playing ∧ v.bargeIn = true ∧ (∀ l ∈ P.listeners, l.circ ≠ p)
            ∧ t = State.mark { s.showCircuit p (C.started .hear (.listener n)) with
                players := { s.players with
                  players := s.players.players.set n
                    { P with listeners := insertAnnListener ⟨p, C.tag + 1, reps, false⟩ P.listeners } } } (.player n)
          ∨ (P.state ≠ .playing ∨ v.bargeIn = false)
            ∧ t = State.mark { s.showCircuit p (C.started .annWait (.joinList n)) with
                players := { s.players with
                  players := s.players.players.set n
                    { P with joins := P.joins ++ [⟨p, C.tag + 1, reps⟩] } } } (.player n)))
    ∨ ∃ (n : PlayNo) (v : ViewRecord) (P : Player), s.players.scanning = false ∧ s.players.view[r] = some v ∧ 0 < v.length
        ∧ s.players.players[n] = { Player.idleWith P.gen with handed := P.handed }
        ∧ (∀ m : PlayNo, s.players.players[m].recording ≠ some r ∨ s.players.fanout ≤ s.players.players[m].fanCount)
        ∧ (∀ m : PlayNo, m < n → s.players.players[m].state ≠ .idle)
        ∧ t = State.mark { s.showCircuit p (C.started .annWait (.joinList n)) with
            players := { s.players with
              players := s.players.players.set n { Player.idleWith P.gen with
                handed := P.handed, state := .priming, recording := some r, joins := [⟨p, C.tag + 1, reps⟩]
                refillOut := true }
              refillReqs := s.players.refillReqs ++ [⟨n, r, 0, min 512 v.length, P.gen⟩] } } (.player n))

/-- The grade at which a congestion entry on route `q` is resolved: the larger of the route's level and the load grade (R129). -/
def State.gradeFor (s : State) (q : Route) : Cls := max s.cong.levels[q] s.cong.grade

/-- The recording a congestion entry on route `q` is resolved to: that of the table entry, if it is available and the load grade
is below 3 (R130). -/
def State.servedRecording (s : State) (q : Route) : Option RecNo :=
  s.cong.table[s.gradeFor q].recording.bind fun r =>
    if s.players.scanning = false ∧ s.players.view[r] ≠ none ∧ s.cong.grade ≠ 3 then some r else none

/-- A resolution pulses the load lamp at load grade 1 (R131, R133). -/
def State.pulsesLamp (s : State) : State :=
  { s with cong := { s.cong with lamp :=
      if s.cong.grade ≠ 1 then s.cong.lamp
      else match s.cong.lamp.phase with
        | .idle => { s.cong.lamp with phase := .lit, us := 0 }
        | .lit => s.cong.lamp
        | .darkened => { s.cong.lamp with pending := true } } }

/-- Circuit `p`, whose record is `C`, starts its active entry `x`, of class `c`, from `s` to `t` (R13–R15); a congestion entry is
resolved first, to an announcement or to a shared tone, keeping its route and grade as its origin. -/
def State.startsEntry (s : State) (p : Circ) (C : Circuit) (c : Cls) (x : Entry) (t : State) : Prop :=
  match x.treat with
  | .toneShared q => s.startsTone p C false q t
  | .tonePrivate q => s.startsTone p C true q t
  | .announce r n => s.startsAnnouncement p C r n t
  | .congestion q =>
    ∃ (g : Cls) (row : TableEntry), g = s.gradeFor q ∧ row = s.cong.table[g]
      ∧ ((∃ r, s.servedRecording q = some r ∧ s.pulsesLamp.startsAnnouncement p { C with
            set := C.set.set c (some ⟨.announce r row.repeats, row.plan, row.plan, some ⟨q, g⟩⟩), latched := some g }
            r row.repeats t)
        ∨ ∃ pl, s.servedRecording q = none ∧ row.plan = some pl ∧ s.pulsesLamp.startsTone p { C with
            set := C.set.set c (some ⟨.toneShared pl, none, none, some ⟨q, g⟩⟩), latched := some g } false pl t)

/-- The load session `ss`, ended while a step was in progress, settles from `s` to `t` (R144): its segments become ERASED where
erased with nothing programmed, BAD where BAD, else DIRTY, every other segment stands, and the engine becomes IDLE. -/
def State.settles (s : State) (ss : Session) (t : State) : Prop :=
  (∀ y ∈ ss.segs, t.store.segMap[y.seg] =
      if s.store.segMap[y.seg] = .bad then .bad
      else if y.headerDone = false ∧ y.touched = false ∧ y.toErase = false then .erased else .dirty)
    ∧ (∀ h : SegNo, (∀ y ∈ ss.segs, y.seg ≠ h) → t.store.segMap[h] = s.store.segMap[h])
    ∧ t = State.mark { s with store := { s.store with
        segMap := t.store.segMap, settling := none, engine := .idle, pulses := 0, attempts := 0 } } .global

/-! ### Invariants -/

/-- Every memory keeps its canonical form: the call store, the announcement store, the chunk buffers. -/
def MemoryOk (s : State) : Prop :=
  memWf Config.callStoreFill s.bus.callStore = true ∧ memWf Config.erasedByte s.store.bytes = true
    ∧ memWf Config.erasedByte s.store.bufA.bytes = true ∧ memWf Config.erasedByte s.store.bufB.bytes = true

/-- The snoop queue holds at most 32 entries (R159) and the report queue at most 16 (R169); a processor write waits only
while a posting cycle is in progress or behind a full snoop queue (R159, R165). -/
def QueuesOk (s : State) : Prop :=
  s.bus.snoop.length ≤ Config.snoopDepth ∧ s.reports.queue.length ≤ Config.reportDepth
    ∧ (s.bus.waiting ≠ [] → s.bus.posting ≠ none ∨ s.bus.snoop.length = Config.snoopDepth)

/-- No two mapped circuits hold the same slot of a map (R86). -/
def MapOk (m : Vector MapEntry 64) : Prop :=
  ∀ p q : Circ, m[p].mapped = true → m[q].mapped = true → m[p].slot = m[q].slot → p = q

/-- No two circuits hold the same slot in the next map, nor in the map in force (R86). -/
def SlotsOk (s : State) : Prop := MapOk s.highway.next ∧ MapOk s.highway.map

/-- Attention is asserted exactly while the posted producer differs from the consumer shadow and no holdoff runs (R175). -/
def AttentionOk (s : State) : Prop :=
  s.reports.attention = (s.reports.posted != s.reports.consumer && !s.reports.holdoffRunning)

/-- The ranges of the settings shadow (R161). -/
def SettingsOk (s : State) : Prop :=
  let t := s.bus.settings
  t.gap ≤ 20 ∧ (1 ≤ t.fanout ∧ t.fanout ≤ 64) ∧ (1 ≤ t.waitLimit ∧ t.waitLimit ≤ 255) ∧ t.holdoff ≤ 255
    ∧ ∀ g : Fin 3, t.up[g] ≤ 64 ∧ t.down[g] ≤ 64

/-- The owners hold the shadow’s values: order unit, report unit, congestion unit, and the player pool once it has taken
every change handed to it (R161). -/
def OwnersOk (s : State) : Prop :=
  let t := s.bus.settings
  s.orders.gapSetting = t.gap ∧ s.orders.waitLimit = t.waitLimit ∧ s.reports.holdoffSetting = t.holdoff
    ∧ ((s.bus.fanoutChanges.getLast?).map FanoutChange.limit).getD s.players.fanout = t.fanout
    ∧ (∀ g : Fin 3, s.cong.up[g] = t.up[g] ∧ s.cong.down[g] = if t.down[g] < t.up[g] then t.down[g] else t.up[g] - 1)
    ∧ ∀ g : Cls, s.cong.table[g] = ⟨t.recording[g], t.plan[g], t.repeats[g]⟩

/-- The binding that goes with a state (R1). -/
def bindingFits (st : CircuitState) (b : Binding) : Bool :=
  match st, b with
  | .quiet, .none => true
  | .gap, .none => true
  | .tone, .channel _ => true
  | .channelWait, .channelQueue => true
  | .annWait, .joinList _ => true
  | .annWait, .waitList => true
  | .hear, .listener _ => true
  | _, _ => false

/-- A circuit record is consistent: its binding goes with its state (R1), it is in QUIET exactly when its set is empty
(R2), and its latched grade is that of the active entry's origin (R15). -/
def Circuit.consistent (c : Circuit) : Bool :=
  bindingFits c.state c.binding && ((c.state == .quiet) == (activeClass c.set).isNone)
    && (c.latched == (activeEntry c.set).bind fun e => e.origin.map Origin.grade)

/-- Every circuit record is consistent. -/
def CircuitsOk (s : State) : Prop := ∀ p : Circ, s.orders.circuits[p].consistent = true

/-- The live-bank selector names the bank that is LIVE, and no other bank is LIVE (R29). -/
def BanksOk (s : State) : Prop := ∀ b : Bank, (s.plans.bank b).state = .live ↔ s.plans.live = some b

/-- The counts of the highway port stay in their ranges (R86, R88). -/
def CountsOk (s : State) : Prop :=
  s.highway.baseCount < Config.waitFrames ∧ s.highway.lossMs ≤ 65535
    ∧ ∀ n, s.highway.sending = some n → n ≤ Config.frameBits

end Sys2Proof.Machine
end

