-- ==== Sys2Proof/Certificates/Slice0/Obligations.lean ====
section
/-!
DEFINITION. The statements for the provers: what the commands of the TN-640 do, and what every step keeps. `s.headIs off w`
says that word `w` captured at offset `off` is at the head of the snoop queue and no power-on or pin reset is in force;
`s.taken` is the state once that entry has left (R159, R160).
-/
open Sys2Proof Sys2Proof.Machine

/-! ### The step and the queue of commands -/

/-- A step takes the command at the front of the queue and runs it on the state with the queue's rest. -/
def Obligations.StepRunsFrontCommand : Prop :=
  ∀ (c : Instr) (rest : List Instr) (s : State), s.pending = c :: rest → step s = exec c { s with pending := rest }

/-- The model's choice (log 2): on an empty queue one microsecond of the local clock passes. The pulse interval timer, in LOST
the loss duration count, which rises by one each 1000 µs and stops at 65535, the holdoff timer while a holdoff runs, the lamp
stretchers' timers while they are not IDLE, and the step on the store port move; nothing else does, and nothing at all during
a power-on or pin reset. -/
def Obligations.IdleStepPassesOneMicrosecond : Prop :=
  ∀ s : State, s.pending = [] →
    (s.running = false → step s = .next s) ∧
    (s.running = true →
      ∃ t, step s = .next t ∧ t = { s with highway := t.highway, reports := t.reports, cong := t.cong, store := t.store }
        ∧ (s.highway.monitor = .running → t.highway = { s.highway with pulseUs := s.highway.pulseUs + 1 })
        ∧ (s.highway.monitor = .lost → t.highway = { s.highway with
            pulseUs := s.highway.pulseUs + 1
            lossMs := min (s.highway.lossMs + (s.highway.lossUs + 1) / 1000) 65535
            lossUs := (s.highway.lossUs + 1) % 1000 })
        ∧ t.reports = { s.reports with
            holdoffUs := if s.reports.holdoffRunning then min (s.reports.holdoffUs + 1) (s.reports.holdoffSetting * 100)
              else s.reports.holdoffUs }
        ∧ t.cong = { s.cong with lamp := { s.cong.lamp with
            us := if s.cong.lamp.phase = .idle then s.cong.lamp.us else min (s.cong.lamp.us + 1) 100000 } }
        ∧ t.store = { s.store with
            lamp := { s.store.lamp with
              us := if s.store.lamp.phase = .idle then s.store.lamp.us else min (s.store.lamp.us + 1) 100000 }
            port := s.store.port.map fun q => { q with leftUs := q.leftUs - 1 } })

/-- Every command answers a next state, and leaves the queue of waiting commands as it is: the spec describes no stop. That
a command whose event cannot occur changes nothing is the model's choice (log 1). -/
def Obligations.EveryCommandAnswersNext : Prop :=
  ∀ (c : Instr) (s : State), ∃ t, exec c s = .next t ∧ t.pending = s.pending

/-! ### Processor writes, capture and the snoop queue -/

/-- A processor write with the port free passes to memory at once: a read of its address gives its word, every other address
reads as before, and exactly when its address is a captured word it joins the tail of the snoop queue. Nothing else changes.
That OTHER_REGION_WRITE is classed by its address is the model's choice (log 33). -/
def Obligations.ProcessorWritePassesAndIsCaptured : Prop :=
  ∀ (a : BusAddr) (v : Word) (s : State),
    memWf Config.callStoreFill s.bus.callStore = true → s.bus.posting = none → s.bus.waiting = [] →
    (s.bus.captureOffset a = none ∨ s.bus.snoop.length < 32) →
    (∃ t, exec (.processorWrite a v) s = .next t
      ∧ (∀ b, t.busRead b = if b = a then v else s.busRead b)
      ∧ t.bus.snoop = s.bus.snoop ++ ((s.bus.captureOffset a).map fun off => Capture.mk off v).toList
      ∧ t = { s with bus := { s.bus with callStore := t.bus.callStore, snoop := t.bus.snoop } })
    ∧ (s.bus.captureOffset a = none →
      ∃ t, exec (.otherRegionWrite a v) s = .next t
        ∧ (∀ b, t.busRead b = if b = a then v else s.busRead b)
        ∧ t = { s with bus := { s.bus with callStore := t.bus.callStore } })

/-- Which writes are captured: with no power-on or pin reset in force, exactly those at the captured offsets of the region,
whose base is F8000h + straps × 1000h; during such a reset none. -/
def Obligations.CapturedWordsOfTheRegion : Prop :=
  ∀ (s : State) (off : Offset) (a : BusAddr),
    (s.running = true → a.toNat = 0xF8000 + s.bus.straps.val * 0x1000 + off.toNat →
      s.bus.captureOffset a =
        if off.toNat < 0x0C0 ∨ (0x100 ≤ off.toNat ∧ off.toNat ≤ 0x315) ∨ (0x800 ≤ off.toNat ∧ off.toNat < 0xC00)
        then some off else none)
    ∧ (a.toNat < 0xF8000 + s.bus.straps.val * 0x1000 ∨ 0xF8000 + s.bus.straps.val * 0x1000 + 0x1000 ≤ a.toNat →
      s.bus.captureOffset a = none)
    ∧ (s.running = false → s.bus.captureOffset a = none)

/-- A captured write that finds 32 entries is held: memory and queue stand. When an entry is taken, here a store parameter
word, which replaces that word of the parameter shadow, the held write passes to memory and joins the tail in the same
event; with no write waiting, memory stands. The list of waiting writes is the model's own field (log 14). -/
def Obligations.HeldWritePassesWhenAnEntryLeaves : Prop :=
  (∀ (a : BusAddr) (v : Word) (s : State), s.bus.snoop.length = 32 → s.bus.waiting = [] →
    s.bus.captureOffset a ≠ none →
    exec (.processorWrite a v) s = .next { s with bus := { s.bus with waiting := [⟨a, v, false⟩] } })
  ∧ (∀ (k : Fin 3) (w : Word) (s : State), s.headIs (0x313 + k.val) w = true →
      (s.bus.waiting = [] →
        exec (.storeParameterWrite k w) s = .next { s with
          bus := { s.bus with snoop := s.bus.snoop.tail }
          store := { s.store with
            paramHigh := if k = 0 then w else s.store.paramHigh
            paramLow := if k = 1 then w else s.store.paramLow
            paramFlags := if k = 2 then w else s.store.paramFlags } })
      ∧ (∀ (a : BusAddr) (v : Word) (off : Offset), s.bus.waiting = [⟨a, v, false⟩] → s.bus.posting = none →
          s.bus.snoop.length = 32 → s.bus.captureOffset a = some off →
          memWf Config.callStoreFill s.bus.callStore = true →
          ∃ t, exec (.storeParameterWrite k w) s = .next t ∧ t.bus.waiting = []
            ∧ t.bus.snoop = s.bus.snoop.tail ++ [⟨off, v⟩]
            ∧ (∀ b, t.busRead b = if b = a then v else s.busRead b)))

/-! ### Settings -/

/-- The setting words: each field clamped, put in the shadow with its host-set mark, and handed to its owner in the same
event; the route level word goes to the congestion unit alone. Nothing else changes. The fan-out limit of timing word 1 is
in flight to the player pool, and no later entry, of any captured word, is handed over until the pool has taken it; that such
a command then changes nothing, and the list of changes in flight, are the model's choices (logs 1 and 42). -/
def Obligations.SettingWordsReachTheirOwners : Prop :=
  (∀ (w : Word) (s : State), s.headIs 0x30C w = true →
    exec (.timingWord1Write w) s = .next { s.taken with
      bus := { s.taken.bus with
        settings := { s.bus.settings with gap := min (w.toNat % 32) 20, fanout := min (max (w.toNat / 256 % 128) 1) 64 }
        marks := { s.bus.marks with gap := true, fanout := true }
        fanoutChanges := s.bus.fanoutChanges ++ [⟨min (max (w.toNat / 256 % 128) 1) 64, true⟩] }
      orders := { s.orders with gapSetting := min (w.toNat % 32) 20 } })
  ∧ (∀ (w : Word) (s : State), s.headIs 0x30D w = true →
    exec (.timingWord2Write w) s = .next { s.taken with
      bus := { s.taken.bus with
        settings := { s.bus.settings with waitLimit := max (w.toNat % 256) 1, holdoff := w.toNat / 256 }
        marks := { s.bus.marks with waitLimit := true, holdoff := true } }
      orders := { s.orders with waitLimit := max (w.toNat % 256) 1 }
      reports := if s.reports.holdoffRunning then
          if w.toNat / 256 = 0 then
            { s.reports with
              holdoffSetting := 0, holdoffRunning := false, holdoffUs := 0
              attention := s.reports.posted != s.reports.consumer }
          else { s.reports with holdoffSetting := w.toNat / 256, holdoffUs := 0 }
        else { s.reports with holdoffSetting := w.toNat / 256 } })
  ∧ (∀ (g : Fin 3) (w : Word) (s : State) (up down : Nat), s.headIs (0x309 + g.val) w = true →
    up = min (w.toNat / 256 % 128) 64 → down = min (w.toNat % 128) 64 →
    exec (.thresholdWordWrite g w) s = .next { s.taken with
      bus := { s.taken.bus with
        settings := { s.bus.settings with up := s.bus.settings.up.set g up, down := s.bus.settings.down.set g down }
        marks := { s.bus.marks with up := s.bus.marks.up.set g true, down := s.bus.marks.down.set g true } }
      cong := { s.cong with
        up := s.cong.up.set g up, down := s.cong.down.set g (if down < up then down else up - 1) } })
  ∧ (∀ (k : Fin 8) (g : Cls) (w : Word) (s : State), s.headIs (0x300 + k.val) w = true → g.val = k.val / 2 →
    exec (.congestionTableWordWrite k w) s = .next
      (if k.val % 2 = 0 then
        let r : Option RecNo := if w.toNat / 2 ^ 15 = 1 then some (Fin.ofNat 32 (w.toNat % 32)) else none
        { s.taken with
          bus := { s.taken.bus with
            settings := { s.bus.settings with recording := s.bus.settings.recording.set g r }
            marks := { s.bus.marks with recording := s.bus.marks.recording.set g true } }
          cong := { s.cong with table := s.cong.table.set g { s.cong.table[g] with recording := r } } }
      else
        let p : Option PlanNo := if w.toNat / 2 ^ 15 = 1 then some (Fin.ofNat 16 (w.toNat / 256 % 16)) else none
        let n : Fin 16 := Fin.ofNat 16 (w.toNat % 16)
        { s.taken with
          bus := { s.taken.bus with
            settings := { s.bus.settings with
              plan := s.bus.settings.plan.set g p, repeats := s.bus.settings.repeats.set g n }
            marks := { s.bus.marks with
              plan := s.bus.marks.plan.set g true, repeats := s.bus.marks.repeats.set g true } }
          cong := { s.cong with table := s.cong.table.set g { s.cong.table[g] with plan := p, repeats := n } } }))
  ∧ (∀ (w : Word) (s : State), s.headIs 0x308 w = true →
    ∃ t, exec (.routeLevelWordWrite w) s = .next t
      ∧ (∀ c : Route, (t.cong.levels[c]).val = w.toNat / 4 ^ c.val % 4)
      ∧ t = { s.taken with cong := { s.cong with levels := t.cong.levels } })
  ∧ (∀ (p : Circ) (off : Offset) (k : Fin 3) (row : Fin 8) (j : Fin 1024) (w : Word) (s : State),
    (∃ c ∈ s.bus.fanoutChanges, c.fromEntry = true) →
    ∀ i ∈ [Instr.quiet p w, .toneShared p w, .tonePrivate p w, .announce p w, .congestion p w, .clearAll p w,
        .orderInvalidCode p w, .detailWordWrite p w, .slotWordWrite p w, .planWordWrite off w, .liveBankWordWrite w,
        .congestionTableWordWrite row w, .routeLevelWordWrite w, .thresholdWordWrite k w, .timingWord1Write w,
        .timingWord2Write w, .consumerIndexWordWrite w, .acknowledgeWordWrite w, .softResetWordWrite w, .loadBegin w,
        .loadConfirm w, .chunkReady w, .loadAbandon w, .retireBegin w, .retireConfirm w, .configBegin w, .configConfirm w,
        .storeHold w, .storeResume w, .clearStoreStatus w, .invalidStoreCommand w, .storeParameterWrite k w,
        .loadBufferWrite j w],
      exec i s = .next s)

/-- The acknowledge word clears the reset-cause flags and the reports-lost flag whose bits are 1, marks the reset cause word
when a cause flag changes and the global status word when reports-lost changes, and changes nothing else. -/
def Obligations.AcknowledgeClearsNamedFlags : Prop :=
  ∀ (w : Word) (s : State), s.headIs 0x310 w = true →
    ∃ t, exec (.acknowledgeWordWrite w) s = .next t
      ∧ t.bus = { s.taken.bus with
          causePower := s.bus.causePower && !w.getLsbD 0
          causePin := s.bus.causePin && !w.getLsbD 1
          causeSoft := s.bus.causeSoft && !w.getLsbD 2 }
      ∧ t.reports = { s.reports with lost := s.reports.lost && !w.getLsbD 8 }
      ∧ (∀ x : PostedWord, t.wire.dirty.get x =
          (s.wire.dirty.get x
            || (x == .resetCause
              && (s.bus.causePower && w.getLsbD 0 || s.bus.causePin && w.getLsbD 1 || s.bus.causeSoft && w.getLsbD 2))
            || (x == .global && s.reports.lost && w.getLsbD 8)))
      ∧ t = { s.taken with bus := t.bus, reports := t.reports, wire := { s.wire with dirty := t.wire.dirty } }

/-- The consumer index word replaces the consumer shadow; when it empties the ring the holdoff starts afresh with the setting
in force, or with a setting of 0 stops; attention is re-evaluated. -/
def Obligations.ConsumerWriteMovesShadowAndHoldoff : Prop :=
  ∀ (w : Word) (s : State), s.headIs 0x30F w = true →
    ∃ t, exec (.consumerIndexWordWrite w) s = .next t
      ∧ t.reports.consumer.val = w.toNat % 128
      ∧ t.reports.holdoffRunning
          = (if t.reports.consumer = s.reports.posted then decide (s.reports.holdoffSetting ≠ 0) else s.reports.holdoffRunning)
      ∧ t.reports.holdoffUs = (if t.reports.consumer = s.reports.posted then 0 else s.reports.holdoffUs)
      ∧ t.reports.attention = (s.reports.posted != t.reports.consumer && !t.reports.holdoffRunning)
      ∧ t = { s.taken with reports := { s.reports with
          consumer := t.reports.consumer, holdoffRunning := t.reports.holdoffRunning
          holdoffUs := t.reports.holdoffUs, attention := t.reports.attention } }

/-! ### Reports, posting and attention -/

/-- The report unit takes the oldest report of a block: with room it joins the tail; with 16 queued it replaces the value of
the newest report of its kind and subject; with none such it is dropped and reports-lost is set, which marks the global
status word when the flag was clear. The lists of submitted reports in flight, first in first out for each block, are read
from the spec by inference (log 23). -/
def Obligations.ReportJoinsCoalescesOrIsLost : Prop :=
  ∀ (b : Block) (x : Report) (before after : List Submission) (s : State), s.running = true →
    s.wire.submitted = before ++ ⟨b, x⟩ :: after → (∀ y ∈ before, y.block ≠ b) →
    (s.reports.queue.length < 16 →
      exec (.reportSubmit b) s = .next { s with
        wire := { s.wire with submitted := before ++ after }
        reports := { s.reports with queue := s.reports.queue ++ [x] } })
    ∧ (∀ (older newer : List Report) (y : Report), 16 ≤ s.reports.queue.length →
      s.reports.queue = older ++ y :: newer → y.kind = x.kind → y.subject = x.subject →
      (∀ z ∈ newer, z.kind ≠ x.kind ∨ z.subject ≠ x.subject) →
      exec (.reportSubmit b) s = .next { s with
        wire := { s.wire with submitted := before ++ after }
        reports := { s.reports with queue := older ++ { y with value := x.value } :: newer } })
    ∧ (16 ≤ s.reports.queue.length → (∀ z ∈ s.reports.queue, z.kind ≠ x.kind ∨ z.subject ≠ x.subject) →
      exec (.reportSubmit b) s = .next { s with
        wire := { submitted := before ++ after
                  dirty := { s.wire.dirty with global := s.wire.dirty.global || !s.reports.lost } }
        reports := { s.reports with lost := true } })

/-- The three posting cycles of a ring entry, each started with the memory port free: word 0 with kind and subject, taking
the head report from the queue; word 1 with the value; the producer index word, with which the posted producer moves, its
mark is cleared and attention is re-evaluated. Every other word of memory reads as before. That memory takes the word at the
start of the cycle is the model's choice (log 15). -/
def Obligations.RingEntryIsPostedInThreeCycles : Prop :=
  ∀ (x : Report) (s : State) (base : Nat), s.running = true → s.bus.posting = none → s.bus.waiting = [] →
    memWf Config.callStoreFill s.bus.callStore = true → base = 0xF8000 + s.bus.straps.val * 0x1000 →
    (∀ rest : List Report, s.reports.entry = none → s.reports.queue = x :: rest →
      (s.reports.producer.val + 1) % 128 ≠ s.reports.consumer.val →
      ∃ t, exec .ringWordPost s = .next t
        ∧ (∀ a, t.busRead a = if a.toNat = base + 0x400 + 2 * s.reports.producer.val
            then BitVec.ofNat 16 (x.kind.code * 256 + x.subject.toNat) else s.busRead a)
        ∧ t = { s with
            bus := { s.bus with callStore := t.bus.callStore, posting := some .ringWord0 }
            reports := { s.reports with queue := rest, entry := some ⟨x, 0⟩ } })
    ∧ (s.reports.entry = some ⟨x, 1⟩ →
      ∃ t, exec .ringWordPost s = .next t
        ∧ (∀ a, t.busRead a = if a.toNat = base + 0x401 + 2 * s.reports.producer.val then x.value else s.busRead a)
        ∧ t = { s with bus := { s.bus with callStore := t.bus.callStore, posting := some .ringWord1 } })
    ∧ (s.reports.entry = some ⟨x, 2⟩ →
      ∃ t, exec .producerIndexWordPost s = .next t
        ∧ (∀ a, t.busRead a = if a.toNat = base + 0x321 then BitVec.ofNat 16 s.reports.producer.val else s.busRead a)
        ∧ t = { s with
            bus := { s.bus with callStore := t.bus.callStore, posting := some .producerIndex }
            reports := { s.reports with
              posted := s.reports.producer
              attention := s.reports.producer != s.reports.consumer && !s.reports.holdoffRunning }
            wire := { s.wire with dirty := { s.wire.dirty with producer := false } } })

/-- The end of a posting cycle: the entry in progress counts it, the producer index moves on at the end of the second cycle
and its word is marked (log 26), the entry is gone at the end of the third; then waiting processor writes pass. That the
producer index word is marked at the end of cycle 2 is an inference (log 26). -/
def Obligations.PostingCycleEndAdvancesTheEntry : Prop :=
  ∀ (x : Report) (s : State) (p : Posting), s.bus.posting = some p →
    (p = .ringWord0 → s.reports.entry = some ⟨x, 0⟩ →
      exec .postingCycleEnd s = .next { s with
        bus := Bus.giveWay { s.bus with posting := none }
        reports := { s.reports with entry := some ⟨x, 1⟩ } })
    ∧ (p = .ringWord1 → s.reports.entry = some ⟨x, 1⟩ →
      exec .postingCycleEnd s = .next { s with
        bus := Bus.giveWay { s.bus with posting := none }
        reports := { s.reports with entry := some ⟨x, 2⟩, producer := s.reports.producer + 1 }
        wire := { s.wire with dirty := { s.wire.dirty with producer := true } } })
    ∧ (p = .producerIndex →
      exec .postingCycleEnd s = .next { s with
        bus := Bus.giveWay { s.bus with posting := none }
        reports := { s.reports with entry := none } })
    ∧ (∀ w, p = .status w →
      exec .postingCycleEnd s = .next { s with bus := Bus.giveWay { s.bus with posting := none } })

/-- With no ring entry in progress and none that can be started, the marked status word of lowest offset is posted with its
current value and its mark cleared; every other word of memory and every other mark stands. The fields of each word, bit by
bit: circuit status, global status, producer index, reset cause, store status, player status, directory; bits of no field are
0. That memory takes the word at the start of the cycle (log 15), that the chunk field reads 0 with no session (log 19),
that the store-lock bit is 1 while the lock is applied (log 50) and that the producer word posted here shows the producer
index last posted (log 26) are the model's choices. -/
def Obligations.LowestMarkedStatusWordIsPosted : Prop :=
  (∀ (w : PostedWord) (s : State), s.running = true → s.bus.posting = none → s.bus.waiting = [] →
    memWf Config.callStoreFill s.bus.callStore = true → s.reports.entry = none →
    (s.reports.queue = [] ∨ (s.reports.producer.val + 1) % 128 = s.reports.consumer.val) →
    s.wire.dirty.get w = true → (∀ x, s.wire.dirty.get x = true → w.offset ≤ x.offset) →
    ∃ t, exec .statusWordPost s = .next t
      ∧ (∀ a, t.busRead a = if a.toNat = 0xF8000 + s.bus.straps.val * 0x1000 + w.offset then s.postedValue w else s.busRead a)
      ∧ (∀ x, t.wire.dirty.get x = (s.wire.dirty.get x && x != w))
      ∧ t = { s with
          bus := { s.bus with callStore := t.bus.callStore, posting := some (.status w) }
          wire := { s.wire with dirty := t.wire.dirty } })
  ∧ (∀ (s : State) (v : PostedWord → Word), (∀ w, v w = s.postedValue w) →
    (∀ (p : Circ) (C : Circuit) (n source : Nat), s.orders.circuits[p] = C → n = (v (.circuit p)).toNat →
      source = (match C.state, C.binding with
        | .tone, .channel k => k.val
        | .hear, .listener m => m.val
        | .channelWait, _ => ((activeEntry C.set).map Entry.argument).getD 0
        | .annWait, _ => ((activeEntry C.set).map Entry.argument).getD 0
        | _, _ => 0) →
      n / 8192 = (match C.state with
          | .quiet => 0 | .gap => 1 | .tone => 2 | .channelWait => 3 | .hear => 4
          | .annWait => if source < 16 then 6 else 7)
        ∧ n / 2048 % 4 = ((activeClass C.set).map Fin.val).getD 0
        ∧ (∀ d : Cls, (v (.circuit p)).getLsbD (7 + d.val) = C.set[d].isSome)
        ∧ n / 8 % 16 = source % 16 ∧ n / 4 % 2 = (if C.latched = none then 0 else 1)
        ∧ n % 4 = (C.latched.map Fin.val).getD 0)
    ∧ (∀ (g : Word) (n : Nat), g = v .global → n = g.toNat →
      g.getLsbD 15 = s.store.scanComplete ∧ g.getLsbD 14 = s.reports.lost
        ∧ (g.getLsbD 13 = true ↔ s.highway.monitor = .lost) ∧ g.getLsbD 12 = s.store.lock
        ∧ g.getLsbD 11 = s.store.supplyAbort ∧ g.getLsbD 10 = s.store.programFail ∧ g.getLsbD 9 = s.store.eraseFail
        ∧ g.getLsbD 8 = s.store.hold
        ∧ [Engine.scanning, .idle, .preparing, .receiving, .programming, .finishing, .retiring, .configWriting][n / 32 % 8]?
            = some s.store.engine
        ∧ n / 8 % 4 = s.cong.grade.val ∧ (g.getLsbD 2 = true ↔ ∃ b, (s.plans.bank b).state = .draining)
        ∧ [none, some Bank.A, some Bank.B][n % 4]? = some s.plans.live)
    ∧ (v .producer).toNat = s.reports.posted.val
    ∧ (v .resetCause).toNat = (if s.bus.causeSoft then 4 else 0) + (if s.bus.causePin then 2 else 0)
        + (if s.bus.causePower then 1 else 0)
    ∧ (∀ n : Nat, n = (v .storeStatus).toNat →
      n / 2 ^ 15 = (if s.store.session = none then 0 else 1)
        ∧ [BufState.empty, .filling, .ready, .programming][n / 2 ^ 13 % 4]? = some s.store.bufA.state
        ∧ [BufState.empty, .filling, .ready, .programming][n / 2 ^ 11 % 4]? = some s.store.bufB.state
        ∧ [none, some RefusalReason.badLength, some .alreadyExists, some .statusNotClear, some .engineBusy, some .noSpace,
            some .lockProtected, some .notAvailable][n / 256 % 8]? = some s.store.lastRefusal
        ∧ n % 256 = (match s.store.session with
          | some ss => ss.nextRecv % 256
          | none => 0))
    ∧ (∀ (m : PlayNo) (P : Player) (n : Nat), s.players.players[m] = P → n = (v (.player m)).toNat →
      [PlayerState.idle, .priming, .playing, .gap][n / 2 ^ 14]? = some P.state
        ∧ n / 2 ^ 9 % 32 = (P.recording.map Fin.val).getD 0 ∧ n / 8 % 64 = min P.listeners.length 63
        ∧ n % 8 = min P.joins.length 7)
    ∧ (∀ (r : RecNo) (d : DirRecord) (n : Nat), s.store.dir[r] = d → d.segCount < 256 → n = (v (.directory r)).toNat →
      [DirState.absent, .loading, .available, .retiring][n / 2 ^ 14]? = some d.state ∧ n / 2 ^ 10 % 16 = 0
        ∧ n / 2 ^ 9 % 2 = (if d.permanent then 1 else 0) ∧ n / 2 ^ 8 % 2 = (if d.bargeIn then 1 else 0)
        ∧ n % 256 = d.segCount))

/-! ### Congestion unit and lamps -/

/-- An evaluation of the load grade moves it by at most one step: up when below 3 and the load is at or above the next up
threshold, else down when above 0 and the load is at or below the down threshold. A change turns the lamp stretcher off, marks
the global status word and submits GRADE_CHANGED; an evaluation without a change does nothing more. -/
def Obligations.LoadGradeMovesByOneStep : Prop :=
  ∀ (s : State) (load : Nat) (g : Cls), s.running = true → 0 < s.highway.waitGradeDue →
    load = (s.orders.circuits.toList.filter fun c => c.state == .channelWait || c.state == .annWait).length →
    (g.val =
      if ∃ i : Fin 3, i.val = s.cong.grade.val ∧ s.cong.up[i] ≤ load then s.cong.grade.val + 1
      else if ∃ i : Fin 3, i.val + 1 = s.cong.grade.val ∧ load ≤ s.cong.down[i] then s.cong.grade.val - 1
      else s.cong.grade.val) →
    exec .loadGradeEvaluation s = .next
      (if g = s.cong.grade then { s with highway := { s.highway with waitGradeDue := s.highway.waitGradeDue - 1 } }
      else { s with
        highway := { s.highway with waitGradeDue := s.highway.waitGradeDue - 1 }
        cong := { s.cong with grade := g, lamp := ⟨.idle, 0, false⟩ }
        wire := { submitted := s.wire.submitted ++
                    [⟨.congestionUnit, ⟨.gradeChanged, 0, BitVec.ofNat 16 (0x100 * s.cong.grade.val + g.val)⟩⟩]
                  dirty := { s.wire.dirty with global := true } } })

/-- The timers of the local clock that reach their end. The holdoff timer at its setting: the holdoff is over and attention
is re-evaluated. A lamp stretcher at 100 ms: LIT becomes DARKENED with pending cleared; DARKENED becomes LIT when a request
is pending and IDLE otherwise; its timer restarts at 0. The store lamp's stretcher goes by the same table. That a timed
command lets the local clock run to its own moment is the model's choice (log 2). -/
def Obligations.TimersExpire : Prop :=
  ∀ s : State, s.running = true →
    (s.reports.holdoffRunning = true →
      ∃ t, exec .holdoffExpiry s = .next t
        ∧ t.reports = { s.reports with
            holdoffRunning := false, holdoffUs := 0, attention := s.reports.posted != s.reports.consumer }
        ∧ t.bus = s.bus ∧ t.wire = s.wire ∧ t.orders = s.orders ∧ t.plans = s.plans ∧ t.chans = s.chans
        ∧ t.sample = s.sample ∧ t.players = s.players)
    ∧ (∀ (phase : LampPhase) (us : Nat) (pending : Bool), phase ≠ .idle →
      (s.cong.lamp = ⟨phase, us, pending⟩ →
        ∃ t, exec .loadLampTimerExpiry s = .next t
          ∧ t.cong = { s.cong with lamp :=
              if phase = .lit then ⟨.darkened, 0, false⟩ else if pending then ⟨.lit, 0, false⟩ else ⟨.idle, 0, false⟩ }
          ∧ t.orders = s.orders ∧ t.plans = s.plans ∧ t.chans = s.chans ∧ t.players = s.players ∧ t.bus = s.bus
          ∧ t.wire = s.wire)
      ∧ (s.store.lamp = ⟨phase, us, pending⟩ →
        ∃ t, exec .storeLampTimerExpiry s = .next t
          ∧ t.store = { s.store with
              lamp := if phase = .lit then ⟨.darkened, 0, false⟩ else if pending then ⟨.lit, 0, false⟩ else ⟨.idle, 0, false⟩
              port := t.store.port }
          ∧ t.orders = s.orders ∧ t.plans = s.plans ∧ t.chans = s.chans ∧ t.players = s.players ∧ t.bus = s.bus
          ∧ t.wire = s.wire))

/-! ### Resets -/

/-- Power-on reset, pin reset and their release. After a power-on reset and its release every block is at the value its
chapter gives, the straps latched, POWER set and the other causes clear, every posted word marked, the scan begun. A pin
reset asserted with no reset in force takes every block to its reset value, PIN set and the other causes held, the snoop
queue emptied, the settings at their defaults with no mark, a posting cycle in progress going on, no posted word marked until
the release; during a reset it changes nothing, and a release with no reset in force changes nothing. The release after a pin
reset latches the straps and marks every posted word. The memories keep what they held: the call store takes the writes that
were waiting, uncaptured, at once or, where a posting cycle goes on, at its end, also after the release; the announcement store
stands but for the segment of a step cut off. These clauses are the model's choices: that power-on reset drops a posting cycle
in progress (log 27), that a write which only that cycle kept waiting goes uncaptured too (log 41), that no word is marked until
the release (log 49), the segment map before the scan (log 18), and the contents of an EMPTY buffer (log 40). -/
def Obligations.PowerOnAndPinReset : Prop :=
  ∀ (s : State) (left : List (Nat × Byte)) (missed : List Byte) (kept passed : State → Prop),
    (∀ t, kept t ↔ (s.store.port = none → s.store.suspended = none → t.store.bytes = s.store.bytes)
      ∧ (memWf 0xFF#8 s.store.bytes = true → ∀ (g : SegNo) (off : Nat), off < 8192 →
        (∀ us, s.store.port ≠ some ⟨.erasePulse g, us⟩) → (∀ us, s.store.suspended ≠ some ⟨g, us⟩) →
        (∀ x us, s.store.port = some ⟨.attempt x, us⟩ → x.seg ≠ g ∧ ∀ c ∈ x.bytes, c.1 < 8192) →
        t.storeRead g off = s.storeRead g off)) →
    (∀ t, passed t ↔ t.bus.waiting = [] ∧ (s.bus.waiting = [] → t.bus.callStore = s.bus.callStore)
      ∧ (memWf Config.callStoreFill s.bus.callStore = true → ∀ a, t.busRead a =
        s.bus.waiting.foldl (fun v x => if x.addr = a then x.value else v) (s.busRead a))) →
    (∀ straps : Fin 8,
      ∃ a t, exec (.powerOnReset left missed) s = .next a ∧ a.running = false
        ∧ exec (.resetRelease straps) a = .next t ∧ kept t ∧ passed t
        ∧ t = { State.reset with
            pending := s.pending
            bus := { State.reset.bus with straps := straps, callStore := t.bus.callStore }
            store := { State.reset.store with
              bytes := t.store.bytes, lock := s.store.lock, supplyGood := s.store.supplyGood } })
    ∧ (s.running = false → exec (.pinReset left missed) s = .next s)
    ∧ (s.running = true → ∀ straps : Fin 8, exec (.resetRelease straps) s = .next s)
    ∧ (s.running = true →
      ∃ t, exec (.pinReset left missed) s = .next t ∧ t.running = false ∧ kept t
        ∧ (s.bus.posting = none → passed t)
        ∧ (s.bus.posting ≠ none → t.bus.waiting = s.bus.waiting.map (fun x => { x with uncaptured := true })
          ∧ t.bus.callStore = s.bus.callStore)
        ∧ t = { State.reset with
            pending := s.pending
            bus := { State.reset.bus with
              resetLine := .pin, straps := s.bus.straps, callStore := t.bus.callStore, waiting := t.bus.waiting
              posting := s.bus.posting, causePower := s.bus.causePower, causePin := true, causeSoft := s.bus.causeSoft }
            wire := ⟨[], DirtyMarks.all false⟩
            store := { State.reset.store with
              bytes := t.store.bytes, lock := s.store.lock, supplyGood := s.store.supplyGood } }
        ∧ ∀ (straps : Fin 8) (v : State), v = { t with
            bus := { t.bus with resetLine := .released, straps := straps }, wire := ⟨[], DirtyMarks.all true⟩ } →
          exec (.resetRelease straps) t = .next v
          ∧ (s.bus.posting ≠ none → ∃ u, exec .postingCycleEnd v = .next u ∧ passed u ∧ u.bus.snoop = []))

/-- The soft-reset word: C3A5h resets the treatment machinery and keeps the settings, the plans and their statuses, the live
bank, the recording view, the thresholds, levels and table, the monitor, its timers and the base frame count, the sticky flags,
the store's contents, and the directory of recordings not being loaded. A load session ends without a report: its record
becomes ABSENT, its segments settle and the engine becomes IDLE, now or when the step in progress ends; a retirement, a
configuration write and the scan go on, but for a refill read, which is not delivered. Any other value is refused with
ORDER_INVALID, subject 63. These clauses are the model's choices: which messages in flight stand (log 12), that the scan's
fan-out change does (log 42) and submitted reports do not (log 23), that the highway output is released and the frame ended
(log 13), what counts as a step in progress (log 16), and the contents of an EMPTY buffer (log 40). -/
def Obligations.SoftResetWord : Prop :=
  ∀ (w : Word) (s : State) (c : StoreController), s.headIs 0x311 w = true →
    c = { s.store with
      hold := false, pendingBegin := none, refillQ := [], deliveries := [], lamp := ⟨.idle, 0, false⟩
      bufA := ⟨.empty, [], 0⟩, bufB := ⟨.empty, [], 0⟩
      poolNotices := s.store.poolNotices.filter (fun x => !x.isWithdrawal)
        ++ s.store.poolNotices.filter PoolNotice.isWithdrawal
      port := s.store.port.map fun q => { q with step := match q.step with
        | .refill x _ => .refill x false
        | y => y } } →
    (w ≠ 0xC3A5#16 →
      exec (.softResetWordWrite w) s = .next { s.taken with wire := { s.wire with
        submitted := s.wire.submitted ++ [⟨.captureUnit, ⟨.orderInvalid, 63, w⟩⟩] } })
    ∧ (w = 0xC3A5#16 →
      ∃ t, exec (.softResetWordWrite w) s = .next t
        ∧ t = { s.taken with
          bus := { s.taken.bus with causeSoft := true }
          wire := ⟨[], DirtyMarks.all true⟩
          orders := { OrderUnit.initial with gapSetting := s.orders.gapSetting, waitLimit := s.orders.waitLimit }
          plans := t.plans
          chans := ChannelPool.initial
          sample := SamplePath.initial
          highway := { Highway.initial with
            baseCount := s.highway.baseCount, monitor := s.highway.monitor, pulseUs := s.highway.pulseUs
            lossMs := s.highway.lossMs, lossUs := s.highway.lossUs }
          players := { PlayerPool.initial with
            fanout := s.players.fanout, scanning := s.players.scanning, view := s.players.view
            withdrawnAnswers := s.players.withdrawnAnswers }
          cong := { s.cong with grade := 0, lamp := ⟨.idle, 0, false⟩ }
          reports := { s.reports with
            queue := [], producer := s.reports.consumer, posted := s.reports.consumer, entry := none
            holdoffRunning := false, holdoffUs := 0, attention := false }
          store := t.store }
        ∧ (∀ b, t.plans.bank b = { s.plans.bank b with
            refs := 0, state := if (s.plans.bank b).state = .draining then .idle else (s.plans.bank b).state })
        ∧ t.plans.live = s.plans.live ∧ t.plans.drainNotices = []
        ∧ (s.store.session = none → t.store = c)
        ∧ (∀ ss, s.store.session = some ss →
          (s.store.stepInProgress = true → t.store = { c with
            session := none, settling := some ss, dir := s.store.dir.set ss.recording DirRecord.absent })
          ∧ (s.store.stepInProgress = false → t.store = { c with
              session := none, settling := none, dir := s.store.dir.set ss.recording DirRecord.absent
              engine := .idle, pulses := 0, attempts := 0, segMap := t.store.segMap }
            ∧ ((ss.segs.map SessionSeg.seg).Nodup → ∀ g ∈ ss.segs, t.store.segMap[g.seg] =
                if s.store.segMap[g.seg] = .bad then .bad
                else if g.headerDone = false ∧ g.touched = false ∧ g.toErase = false then .erased else .dirty)
            ∧ (∀ h : SegNo, (∀ g ∈ ss.segs, g.seg ≠ h) → t.store.segMap[h] = s.store.segMap[h]))))

/-! ### Sample arithmetic -/

/-- The sample arithmetic. Decoding any code and encoding the result at trim code 12 returns the same code: the decoded value
is not 0, lies in −4032..4032, and passes the trim and the limit unchanged. Its magnitude is the middle of its step: 2Q + 1 in
segment 0, else 2^(S+4) + Q × 2^S + 2^(S−1). A limited value encodes to its sign bit, its
segment and its step: magnitudes below 32 two to a step in segment 0, a larger one in segment S with 2^(S+4) at or below it
and step Q counting its steps of 2^S. The sine table holds 2047 × sin(2πk/1024), the gain table 32767 × 10^(−A/40), the trim
table 16384 × 10^(−(Ap−12)/40), each rounded to the nearest integer; a component is the floor of T[k] × g[A] / 32768, k
being the top ten bits of its phase; the components combine by segment kind and mode; a trimmed value is the floor of
u × gp / 16384, limited to −4095..4095. -/
def Obligations.CodesAndValuesAgree : Prop :=
  (∀ b : Byte, decodeCode b ≠ 0 ∧ -4032 ≤ decodeCode b ∧ decodeCode b ≤ 4032
    ∧ (∀ s q : Nat, s = b.toNat / 16 % 8 → q = b.toNat % 16 →
      (decodeCode b).natAbs = if s = 0 then 2 * q + 1 else 2 ^ (s + 4) + q * 2 ^ s + 2 ^ (s - 1))
    ∧ limitValue (trimValue 12 (decodeCode b)) = decodeCode b
    ∧ (decodeCode b < 0 ↔ b.getLsbD 7 = true) ∧ codeOf 12 (some (decodeCode b)) = b)
  ∧ (∀ (z : Int) (s q : Nat), -4095 ≤ z → z ≤ 4095 →
    s = (encodeValue z).toNat / 16 % 8 → q = (encodeValue z).toNat % 16 →
    ((encodeValue z).getLsbD 7 = true ↔ z < 0)
    ∧ (z.natAbs < 32 → s = 0 ∧ q = z.natAbs / 2)
    ∧ (32 ≤ z.natAbs → 1 ≤ s ∧ 2 ^ (s + 4) ≤ z.natAbs ∧ z.natAbs < 2 ^ (s + 5) ∧ q = (z.natAbs - 2 ^ (s + 4)) / 2 ^ s))
  ∧ (∀ k : Nat, k < 1024 → |(sineTable k : ℝ) - 2047 * Real.sin (2 * Real.pi * k / 1024)| < 1 / 2)
  ∧ (∀ (a : BitVec 6) (g : Int), g = gainOf a →
    1 ≤ g ∧ (2 * g - 1) ^ 40 * 10 ^ a.toNat ≤ 65534 ^ 40 ∧ 65534 ^ 40 < (2 * g + 1) ^ 40 * 10 ^ a.toNat)
  ∧ (∀ (a : Fin 48) (g : Int), g = trimOf a →
    1 ≤ g ∧ (2 * g - 1) ^ 40 * 10 ^ a.val ≤ 32768 ^ 40 * 10 ^ 12
      ∧ 32768 ^ 40 * 10 ^ 12 < (2 * g + 1) ^ 40 * 10 ^ a.val)
  ∧ (∀ (phase : BitVec 16) (a : BitVec 6) (k : Nat) (v : Int), k = phase.toNat / 64 → v = componentValue phase a →
    32768 * v ≤ sineTable k * gainOf a ∧ sineTable k * gainOf a < 32768 * (v + 1))
  ∧ (∀ (mode : PlanMode) (second : Bool) (v1 v2 y : Int),
    combine .off mode second v1 v2 = 0 ∧ combine .onFirst mode second v1 v2 = v1
    ∧ combine .onBoth mode false v1 v2 = v1 ∧ combine .onBoth .sum true v1 v2 = v1 + v2
    ∧ (y = combine .onBoth .product true v1 v2 → 4096 * y ≤ v1 * (2048 + v2) ∧ v1 * (2048 + v2) < 4096 * (y + 1)))
  ∧ (∀ (a : Fin 48) (u z : Int), z = trimValue a u →
    16384 * z ≤ u * trimOf a ∧ u * trimOf a < 16384 * (z + 1)
    ∧ codeOf a (some u) = encodeValue (if 4095 < z then 4095 else if z < -4095 then -4095 else z))

/-- The frame computation: each channel not FREE advances its phase accumulators by floor((F × 4096 + 500) / 1000), the
second only when F2 is not 0, and takes its value from the segment in force; each player value is the decode of the code
handed over; a mapped circuit that is not in TONE or HEAR, or whose source is FREE or does not hold it, gets the idle code,
one in TONE among the listeners of its channel the code of that channel's value at its trim, one in HEAR among the listeners of its
player the code of the player value. Nothing else changes. These are the model's choices: the kept codes of unmapped circuits
(log 22), the mark `computed` of a channel whose count is to come (log 36), and that a circuit that has barged in since the
hand-over hears the code handed over (log 44). -/
def Obligations.FrameComputationFormsTheCodes : Prop :=
  ∀ s : State, s.running = true → s.highway.sampleDue = true → s.highway.playersDue = false →
    ∃ t, exec .frameComputation s = .next t
      ∧ t = { s with
          highway := { s.highway with sampleDue := false }
          chans := { s.chans with chans := t.chans.chans }
          sample := t.sample }
      ∧ (∀ k : ChanNo, s.chans.chans[k] = none → t.chans.chans[k] = none)
      ∧ (∀ (k : ChanNo) (r : Run) (p : Plan), s.chans.chans[k] = some r → p = s.plans.plan r.bank r.plan →
          ∃ x1 x2 : BitVec 16, x1.toNat = (r.phase1.toNat + (p.f1.toNat * 4096 + 500) / 1000) % 65536
            ∧ x2.toNat = (if p.f2 = 0 then r.phase2.toNat else (r.phase2.toNat + (p.f2.toNat * 4096 + 500) / 1000) % 65536)
            ∧ t.chans.chans[k] = some { r with
                phase1 := x1
                phase2 := x2
                value := some (combine p.segs[r.segIndex].kind p.mode (p.f2 != 0)
                  (componentValue x1 p.a1) (componentValue x2 p.a2))
                computed := true })
      ∧ (∀ n : PlayNo, t.sample.playerValues[n] = (s.players.players[n].handed).map decodeCode)
      ∧ (∀ p : Circ, s.highway.map[p].mapped = true →
          (s.orders.circuits[p].state ≠ .tone → s.orders.circuits[p].state ≠ .hear → t.sample.outCodes[p] = 0#8)
          ∧ (∀ k : ChanNo, s.orders.circuits[p].state = .tone → s.orders.circuits[p].binding = .channel k →
              s.chans.chans[k] = none → t.sample.outCodes[p] = 0#8)
          ∧ (∀ (k : ChanNo) (r : Run) (y : Int), s.orders.circuits[p].state = .tone →
              s.orders.circuits[p].binding = .channel k → t.chans.chans[k] = some r → r.value = some y →
              t.sample.outCodes[p] = if r.listeners.any (fun l => l.circ == p)
                then codeOf s.highway.map[p].trim (some y) else 0#8)
          ∧ (∀ n : PlayNo, s.orders.circuits[p].state = .hear → s.orders.circuits[p].binding = .listener n →
              t.sample.outCodes[p] = if s.players.players[n].listeners.any (fun l => l.circ == p)
                then codeOf s.highway.map[p].trim t.sample.playerValues[n] else 0#8))
      ∧ (∀ p : Circ, s.highway.map[p].mapped = false → t.sample.outCodes[p] = s.sample.outCodes[p])

/-! ### Highway port -/

/-- A frame pulse is a frame start: the next map comes into force, the interval timer restarts, the base frame count
advances with its boundaries at every 80th and at the 800th, the frame is delivered to the three blocks and its slots begin.
In LOST it also ends the loss: with nothing of the frame before left to take, nothing changes but the port, the frame-lost
mark and the report FRAME_RESTORED with the loss in ms; in RUNNING nothing changes but the port. Frame loss, in RUNNING when
the interval timer passes 250 µs: the monitor becomes LOST, the loss duration count starts at 0, the output goes to high
impedance, the global status word is marked and FRAME_LOST submitted; with nothing of the last frame left to take, no other
block changes but for the timers of the local clock; what is left is taken first, so that in LOST no delivery, no boundary and
no cadence event is due. These clauses are the model's choices: the settling of a frame not yet taken at the next pulse or at
a loss (log 9), that the local clock runs to the moment of the loss, 251 µs (log 2), and that the output keeps its level at
the pulse (log 21). -/
def Obligations.FramePulseAndFrameLoss : Prop :=
  (∀ (s : State) (n : Nat) (h : Highway), s.running = true →
      (s.highway.monitor = .lost ∨ s.highway.pulseUs ≤ 250) →
      n = (if s.highway.baseCount + 1 = 800 then 0 else s.highway.baseCount + 1) →
      h = { s.highway with
        map := s.highway.next, pulseUs := 0, baseCount := n, monitor := .running, sending := some 0
        sampleDue := true, channelsDue := true, playersDue := true
        cadenceDue := s.highway.cadenceDue + if n % 80 = 0 then 1 else 0
        waitOrdersDue := s.highway.waitOrdersDue + if n = 0 then 1 else 0
        waitPlayersDue := s.highway.waitPlayersDue + if n = 0 then 1 else 0
        waitGradeDue := s.highway.waitGradeDue + if n = 0 then 1 else 0 } →
      (∃ t, exec .framePulse s = .next t ∧ t.highway = h ∧ t.bus = s.bus ∧ t.reports = s.reports ∧ t.store = s.store)
      ∧ (s.highway.sampleDue = false → s.highway.channelsDue = false → s.highway.playersDue = false →
        (∀ (k : ChanNo) (r : Run), s.chans.chans[k] = some r → r.due = .none) →
        (∀ m : PlayNo, s.exchange.cycleEndDue m = false) →
        exec .framePulse s = .next { s with
          highway := h
          wire := if s.highway.monitor = .running then s.wire else
            { submitted := s.wire.submitted ++
                [⟨.highwayPort, ⟨.frameRestored, 0, BitVec.ofNat 16 s.highway.lossMs⟩⟩]
              dirty := { s.wire.dirty with global := true } } }))
  ∧ (∀ s : State, s.running = true → s.highway.monitor = .running → s.highway.pulseUs ≤ 251 →
      ∃ t, exec .frameLoss s = .next t
        ∧ t.highway = { s.highway with
            monitor := .lost, pulseUs := 251, lossMs := 0, lossUs := 0, sending := none, pin := .highZ
            sampleDue := false, channelsDue := false, playersDue := false
            cadenceDue := 0, waitOrdersDue := 0, waitPlayersDue := 0, waitGradeDue := 0 }
        ∧ (∀ (k : ChanNo) (r : Run), t.chans.chans[k] = some r → r.due = .none)
        ∧ t.bus = s.bus ∧ t.reports = (s.runClock (251 - s.highway.pulseUs)).reports
        ∧ t.store = (s.runClock (251 - s.highway.pulseUs)).store
        ∧ (s.highway.sampleDue = false → s.highway.channelsDue = false → s.highway.playersDue = false →
          s.highway.cadenceDue = 0 → s.highway.waitOrdersDue = 0 → s.highway.waitPlayersDue = 0 →
          s.highway.waitGradeDue = 0 → (∀ (k : ChanNo) (r : Run), s.chans.chans[k] = some r → r.due = .none) →
          (∀ m : PlayNo, s.exchange.cycleEndDue m = false
            ∧ ¬ (s.players.players[m].state = .gap ∧ s.players.players[m].gapLeft = 0)) →
          (∀ p : Circ, s.orders.circuits[p].limit ≠ .reached
            ∧ ¬ (s.orders.circuits[p].state = .gap ∧ s.orders.circuits[p].gapLeft = 0)) →
          t = { s.runClock (251 - s.highway.pulseUs) with
            highway := t.highway
            wire := { submitted := s.wire.submitted ++ [⟨.highwayPort, ⟨.frameLost, 0, 0⟩⟩]
                      dirty := { s.wire.dirty with global := true } } }))

/-- A highway clock carries out one bit time: of the 512 bit times, time n carries slot n / 8 with the sign bit first, the
output code of the circuit that holds the slot in the map in force and the idle code where none does; after the 512th, or with
no frame in progress, the output is in high impedance. That clock n + 1 puts out bit n, and that only the 513th clock releases
the output, are the model's choices (log 38). -/
def Obligations.HighwayClockCarriesOneBit : Prop :=
  ∀ s : State, s.running = true → s.highway.sampleDue = false →
    (∀ (n : Nat) (b : Bool), s.highway.sending = some n → n < 512 →
      (∀ p : Circ, MapOk s.highway.map → s.highway.map[p].mapped = true → s.highway.map[p].slot.val = n / 8 →
        b = s.sample.outCodes[p].getLsbD (7 - n % 8)) →
      ((∀ p : Circ, s.highway.map[p].mapped = true → s.highway.map[p].slot.val ≠ n / 8) → b = false) →
      MapOk s.highway.map →
      exec .highwayClockBitTime s = .next { s with highway := { s.highway with
        sending := some (n + 1), pin := .driven b } })
    ∧ ((s.highway.sending = none ∨ ∃ n, s.highway.sending = some n ∧ 512 ≤ n) →
      exec .highwayClockBitTime s = .next { s with highway := { s.highway with pin := .highZ } })

/-- A slot word changes the next map alone: the circuit takes the mapped flag, the slot and the trim, a trim above 47 taken as
47; where another circuit holds the slot, that circuit is unmapped with its slot and trim kept, and SLOT_CONFLICT is
submitted with it as subject and the slot as value. -/
def Obligations.SlotWordChangesTheNextMap : Prop :=
  ∀ (p : Circ) (w : Word) (m : MapEntry) (s : State), s.headIs (0x080 + p.val) w = true →
    m.mapped = decide (w.toNat / 2 ^ 15 = 1) → m.slot.val = w.toNat / 256 % 64 → m.trim.val = min (w.toNat % 64) 47 →
    ((m.mapped = false ∨ ∀ q : Circ, q ≠ p → s.highway.next[q].mapped = true → s.highway.next[q].slot ≠ m.slot) →
      exec (.slotWordWrite p w) s = .next { s.taken with
        highway := { s.highway with next := s.highway.next.set p m } })
    ∧ (∀ q : Circ, m.mapped = true → MapOk s.highway.next → q ≠ p → s.highway.next[q].mapped = true →
        s.highway.next[q].slot = m.slot →
      exec (.slotWordWrite p w) s = .next { s.taken with
        highway := { s.highway with
          next := (s.highway.next.set q { s.highway.next[q] with mapped := false }).set p m }
        wire := { s.wire with submitted := s.wire.submitted ++
          [⟨.highwayPort, ⟨.slotConflict, BitVec.ofNat 6 q.val, BitVec.ofNat 16 m.slot.val⟩⟩] } })

/-! ### Orders -/

/-- Refused orders: a code 6–15, or an argument outside the range of its treatment, is reported as ORDER_INVALID, a plan that is
not valid in the live bank as PLAN_INVALID, each with the hearing word as value; nothing else changes. -/
def Obligations.RefusedOrdersAreReported : Prop :=
  ∀ (p : Circ) (w : Word) (s : State) (i : Instr) (code arg : Nat), s.headIs p.val w = true →
    code = w.toNat / 4096 → arg = w.toNat / 16 % 64 →
    ((6 ≤ code ∧ i = .orderInvalidCode p w ∨ code = 1 ∧ 16 ≤ arg ∧ i = .toneShared p w
        ∨ code = 2 ∧ 16 ≤ arg ∧ i = .tonePrivate p w ∨ code = 3 ∧ 32 ≤ arg ∧ i = .announce p w
        ∨ code = 4 ∧ 8 ≤ arg ∧ i = .congestion p w) →
      exec i s = .next { s.taken with wire := { s.wire with
        submitted := s.wire.submitted ++ [⟨.orderUnit, ⟨.orderInvalid, BitVec.ofNat 6 p.val, w⟩⟩] } })
    ∧ (∀ q : PlanNo, q.val = arg → ¬ s.planUsable q →
      (code = 1 ∧ i = .toneShared p w ∨ code = 2 ∧ i = .tonePrivate p w) →
      exec i s = .next { s.taken with wire := { s.wire with
        submitted := s.wire.submitted ++ [⟨.orderUnit, ⟨.planInvalid, BitVec.ofNat 6 p.val, w⟩⟩] } })

/-- The detail word sets the circuit's two detail fields, each absent when its present bit is 0, and changes nothing else. -/
def Obligations.DetailWordSetsThePlans : Prop :=
  ∀ (p : Circ) (w : Word) (s : State) (fallback follow : Option PlanNo), s.headIs (0x040 + p.val) w = true →
    fallback = (if w.getLsbD 12 then some (Fin.ofNat 16 (w.toNat / 256)) else none) →
    follow = (if w.getLsbD 4 then some (Fin.ofNat 16 w.toNat) else none) →
    exec (.detailWordWrite p w) s = .next { s.taken with orders := { s.orders with
      circuits := s.orders.circuits.set p { s.orders.circuits[p] with
        detailFollowOn := follow, detailFallback := fallback } } }

/-- Orders that change only the circuit's set. Below the active class QUIET removes the entry if present, the others place a new
entry with the detail word's plans; the status word is marked and the treatment heard goes on. During a changeover gap the same
holds of an order that removes or replaces the active entry, another being left: the gap goes on as it was, nothing is released
and nothing started. That an equal entry put in the place of the active one in GAP leaves the word unmarked is the model's choice
(log 43). -/
def Obligations.OrderChangesOnlyTheSet : Prop :=
  ∀ (p : Circ) (w : Word) (s : State) (c d : Cls) (C : Circuit), s.headIs p.val w = true →
    s.orders.circuits[p] = C → C.consistent = true → c.val = w.toNat / 1024 % 4 → activeClass C.set = some d →
    (c < d →
      (w.toNat / 4096 = 0 →
        exec (.quiet p w) s = .next (if C.set[c] = none then s.taken
          else s.taken.showCircuit p { C with set := C.set.set c none }))
      ∧ (∀ (i : Instr) (k : Treatment), s.accepts p w i k →
        exec i s = .next (s.taken.showCircuit p
          { C with set := C.set.set c (some ⟨k, C.detailFollowOn, C.detailFallback, none⟩) })))
    ∧ (∀ (i : Instr) (T : TreatmentSet) (E : Circuit), C.state = .gap → s.supersedes p w i C d none T →
      activeClass T ≠ none →
      E = { C with
        set := T, waited := 0, limit := .counting, latched := (activeEntry T).bind fun x => x.origin.map Origin.grade } →
      exec i s = .next (if T = C.set then { s.taken with orders := { s.orders with circuits := s.orders.circuits.set p E } }
        else s.taken.showCircuit p E))

/-- QUIET of the only class present, and CLEAR_ALL, take the circuit to QUIET with an empty set and leave every other circuit
alone. In QUIET nothing changes; in GAP nothing else does; a waiter leaves the channel queue; a listener leaves its channel,
which, when it was the last and no circuit waits, becomes FREE and gives up its reference. -/
def Obligations.EmptyingOrderEntersQuiet : Prop :=
  ∀ (p : Circ) (w : Word) (s : State) (i : Instr) (C D : Circuit), s.headIs p.val w = true →
    s.orders.circuits[p] = C → C.consistent = true →
    (w.toNat / 4096 = 5 ∧ i = .clearAll p w
      ∨ w.toNat / 4096 = 0 ∧ i = .quiet p w ∧ ∀ d : Cls, d.val ≠ w.toNat / 1024 % 4 → C.set[d] = none) →
    D = { C with
      set := Vector.replicate 4 none, state := .quiet, binding := .none, gapLeft := 0, waited := 0, latched := none
      limit := .counting } →
    (C.state = .quiet → exec i s = .next s.taken)
    ∧ (C.state ≠ .quiet →
      ∃ t, exec i s = .next t ∧ t.orders.circuits = s.orders.circuits.set p D ∧ t.wire.dirty.circuits[p] = true
        ∧ t.bus = s.taken.bus ∧ t.reports = s.reports ∧ t.sample = s.sample ∧ t.highway = s.highway ∧ t.cong = s.cong
        ∧ t.store = s.store)
    ∧ (C.state = .gap → exec i s = .next (s.taken.showCircuit p D))
    ∧ (C.state = .channelWait → (∃ x ∈ s.chans.queue, x.circ = p) →
      exec i s = .next { s.taken.showCircuit p D with
        chans := { s.chans with queue := s.chans.queue.filter fun x => x.circ != p } })
    ∧ (∀ (k : ChanNo) (r : Run) (others : List ToneListener), C.state = .tone → C.binding = .channel k →
      (∀ x ∈ s.chans.queue, x.circ ≠ p) → s.chans.chans[k] = some r → (∃ l ∈ r.listeners, l.circ = p) →
      (∀ (j : ChanNo) (u : Run), j ≠ k → s.chans.chans[j] = some u → ∀ l ∈ u.listeners, l.circ ≠ p) →
      others = r.listeners.filter (fun l => l.circ != p) →
      (others ≠ [] →
        exec i s = .next { s.taken.showCircuit p D with
          chans := { s.chans with chans := s.chans.chans.set k (some { r with listeners := others }) } })
      ∧ (others = [] → s.chans.queue = [] → (s.plans.bank r.bank).state = .live →
        exec i s = .next { s.taken.showCircuit p D with
          chans := { s.chans with chans := s.chans.chans.set k none }
          plans := s.plans.setBank r.bank
            { s.plans.bank r.bank with refs := (s.plans.bank r.bank).refs - 1 } }))

/-- An accepted tone order on a QUIET circuit starts at once: a SHARED order joins the lowest-numbered joinable channel, else
takes the lowest-numbered FREE one, else waits; a PRIVATE order takes a FREE one, else joins with PRIVATE_DEGRADED, else
waits. A channel taken runs the plan of the live bank from its start and references that bank. -/
def Obligations.ToneOrderOnAQuietCircuit : Prop :=
  ∀ (p : Circ) (w : Word) (s : State) (c : Cls) (q : PlanNo) (b : Bank) (priv : Bool) (i : Instr) (C D : Circuit)
    (noJoin noFree : Prop), s.headIs p.val w = true →
    s.orders.circuits[p] = C → C.consistent = true → C.state = .quiet → c.val = w.toNat / 1024 % 4 →
    q.val = w.toNat / 16 % 64 → s.plans.live = some b → (s.plans.plan b q).status = .valid →
    (if priv then w.toNat / 4096 = 2 ∧ i = .tonePrivate p w else w.toNat / 4096 = 1 ∧ i = .toneShared p w) →
    D = { C with
      set := (Vector.replicate 4 none).set c
        (some ⟨if priv then .tonePrivate q else .toneShared q, C.detailFollowOn, C.detailFallback, none⟩)
      tag := C.tag + 1, gapLeft := 0, waited := 0, limit := .counting } →
    (noJoin ↔ ∀ k, s.joinable q k = false) → (noFree ↔ ∀ k : ChanNo, s.chans.chans[k] ≠ none) →
    (∀ k : ChanNo, s.chans.chans[k] = none → (∀ j : ChanNo, j < k → s.chans.chans[j] ≠ none) → (priv = true ∨ noJoin) →
      exec i s = .next { s.taken.showCircuit p { D with state := .tone, binding := .channel k } with
        plans := s.plans.setBank b { s.plans.bank b with refs := (s.plans.bank b).refs + 1 }
        chans := { s.chans with chans := s.chans.chans.set k (some
          { isPrivate := priv, bank := b, plan := q, listeners := [⟨p, C.tag + 1, priv⟩], segIndex := 0
            segLeft := (s.plans.plan b q).segs[0].duration.toNat, unitFrames := 0, cycles := 0, phase1 := 0, phase2 := 0
            movePending := false, holding := false, value := none, computed := false, due := .none }) } })
    ∧ (∀ (k : ChanNo) (r : Run), s.chans.chans[k] = some r → s.joinable q k = true →
      (∀ j : ChanNo, j < k → s.joinable q j = false) → (priv = true → noFree) →
      exec i s = .next
        (let t := { s.taken.showCircuit p { D with state := .tone, binding := .channel k } with
          chans := { s.chans with
            chans := s.chans.chans.set k
              (some { r with listeners := insertToneListener ⟨p, C.tag + 1, priv⟩ r.listeners }) } }
        if priv then t.submit .channelPool .privateDegraded p.val (0x100 * k.val + q.val) else t))
    ∧ (noJoin → noFree →
      exec i s = .next (State.submit { s.taken.showCircuit p { D with state := .channelWait, binding := .channelQueue } with
        chans := { s.chans with queue := s.chans.queue ++ [⟨p, priv, q, C.tag + 1⟩] } }
        .channelPool .channelWait p.val (q.val + if priv then 0x100 else 0)))

/-- An ANNOUNCE order on a QUIET circuit, nothing waiting and the players at rest: an unavailable recording with no fallback
completes with ANN_UNAVAILABLE; while scanning the circuit waits; a player on the recording with room takes it, among its
listeners when it is PLAYING a barge-in recording, else at the tail of its join list; else the lowest-numbered IDLE player
is bound, its first refill requested; else it waits. That a start that fails at once advances the tag is an inference
(log 11). -/
def Obligations.AnnounceOrderOnAQuietCircuit : Prop :=
  ∀ (p : Circ) (w : Word) (s : State) (c : Cls) (r : RecNo) (reps : Fin 16) (C D : Circuit), s.headIs p.val w = true →
    s.orders.circuits[p] = C → C.consistent = true → C.state = .quiet → w.toNat / 4096 = 3 →
    c.val = w.toNat / 1024 % 4 → r.val = w.toNat / 16 % 64 → reps.val = w.toNat % 16 →
    s.orders.expiryReqs = [] → s.players.waitList = [] → s.playersRest [] →
    D = { C with
      set := (Vector.replicate 4 none).set c (some ⟨.announce r reps, C.detailFollowOn, C.detailFallback, none⟩)
      tag := C.tag + 1, gapLeft := 0, waited := 0, limit := .counting } →
    (s.players.scanning = false → s.players.view[r] = none → C.detailFallback = none →
      exec (.announce p w) s = .next (State.submit
        (s.taken.showCircuit p { C with tag := C.tag + 1, gapLeft := 0, waited := 0, limit := .counting })
        .orderUnit .annUnavailable p.val (0x100 * c.val + r.val)))
    ∧ (s.players.scanning = true
        ∨ s.players.view[r] ≠ none ∧ (∀ m : PlayNo, s.players.players[m].state ≠ .idle
            ∧ (s.players.players[m].recording = some r → s.players.fanout ≤ s.players.players[m].fanCount)) →
      exec (.announce p w) s = .next { s.taken.showCircuit p { D with state := .annWait, binding := .waitList } with
        players := { s.players with waitList := [⟨p, r, reps, C.tag + 1⟩] } })
    ∧ (∀ (n : PlayNo) (v : ViewRecord) (P : Player), s.players.scanning = false → s.players.view[r] = some v →
      s.players.players[n] = P → P.recording = some r → P.fanCount < s.players.fanout →
      (∀ m : PlayNo, m < n → s.players.players[m].recording ≠ some r ∨ s.players.fanout ≤ s.players.players[m].fanCount) →
      (P.state = .playing ∧ v.bargeIn = true → (∀ l ∈ P.listeners, l.circ ≠ p) →
        exec (.announce p w) s = .next (State.mark
          { s.taken.showCircuit p { D with state := .hear, binding := .listener n } with
            players := { s.players with
              players := s.players.players.set n
                { P with listeners := insertAnnListener ⟨p, C.tag + 1, reps, false⟩ P.listeners } } } (.player n)))
      ∧ (¬(P.state = .playing ∧ v.bargeIn = true) →
        exec (.announce p w) s = .next (State.mark
          { s.taken.showCircuit p { D with state := .annWait, binding := .joinList n } with
            players := { s.players with
              players := s.players.players.set n
                { P with joins := P.joins ++ [⟨p, C.tag + 1, reps⟩] } } } (.player n))))
    ∧ (∀ (n : PlayNo) (v : ViewRecord) (P : Player), s.players.scanning = false → s.players.view[r] = some v →
      0 < v.length → s.players.players[n] = { Player.idleWith P.gen with handed := P.handed } →
      (∀ m : PlayNo, s.players.players[m].recording ≠ some r ∨ s.players.fanout ≤ s.players.players[m].fanCount) →
      (∀ m : PlayNo, m < n → s.players.players[m].state ≠ .idle) →
      exec (.announce p w) s = .next (State.mark
        { s.taken.showCircuit p { D with state := .annWait, binding := .joinList n } with
          players := { s.players with
            players := s.players.players.set n { Player.idleWith P.gen with
              handed := P.handed, state := .priming, recording := some r, joins := [⟨p, C.tag + 1, reps⟩], refillOut := true }
            refillReqs := s.players.refillReqs ++ [⟨n, r, 0, min 512 v.length, P.gen⟩] } } (.player n)))

/-- A CONGESTION order on a QUIET circuit is resolved at the larger of the route's level and the load grade: to a shared tone
on a FREE channel when the table entry of that grade names no recording, or one that is not available, or the load grade is 3,
and its plan is valid; to its announcement when the recording is available and the grade is not 3, here joining a PRIMING
player; unserved otherwise. The entry keeps its origin; a resolution at grade 1 pulses the load lamp. That a start that fails
at once advances the tag is an inference (log 11). -/
def Obligations.CongestionOrderOnAQuietCircuit : Prop :=
  ∀ (p : Circ) (w : Word) (s : State) (c g : Cls) (q : Route) (C D : Circuit) (row : TableEntry) (served : Option RecNo)
    (lamp : Lamp), s.headIs p.val w = true →
    s.orders.circuits[p] = C → C.consistent = true → C.state = .quiet → w.toNat / 4096 = 4 →
    c.val = w.toNat / 1024 % 4 → q.val = w.toNat / 16 % 64 → g = max s.cong.levels[q] s.cong.grade →
    row = s.cong.table[g] →
    served = (row.recording.bind fun r =>
      if s.players.scanning = false ∧ s.players.view[r] ≠ none ∧ s.cong.grade ≠ 3 then some r else none) →
    lamp = (if s.cong.grade ≠ 1 then s.cong.lamp
      else match s.cong.lamp.phase with
        | .idle => { s.cong.lamp with phase := .lit, us := 0 }
        | .lit => s.cong.lamp
        | .darkened => { s.cong.lamp with pending := true }) →
    D = { C with tag := C.tag + 1, gapLeft := 0, waited := 0, limit := .counting } →
    (served = none → (∀ pl, row.plan = some pl → ¬ s.planUsable pl) →
      exec (.congestion p w) s = .next ((s.taken.showCircuit p D).submit .orderUnit .congestionUnserved p.val
        (0x100 * c.val + q.val)))
    ∧ (∀ (pl : PlanNo) (b : Bank) (k : ChanNo), served = none → row.plan = some pl → s.plans.live = some b →
      (s.plans.plan b pl).status = .valid → (∀ j, s.joinable pl j = false) → s.chans.chans[k] = none →
      (∀ j : ChanNo, j < k → s.chans.chans[j] ≠ none) →
      exec (.congestion p w) s = .next { s.taken.showCircuit p { D with
          set := (Vector.replicate 4 none).set c (some ⟨.toneShared pl, none, none, some ⟨q, g⟩⟩)
          latched := some g, state := .tone, binding := .channel k } with
        plans := s.plans.setBank b { s.plans.bank b with refs := (s.plans.bank b).refs + 1 }
        chans := { s.chans with chans := s.chans.chans.set k (some
          { isPrivate := false, bank := b, plan := pl, listeners := [⟨p, C.tag + 1, false⟩], segIndex := 0
            segLeft := (s.plans.plan b pl).segs[0].duration.toNat, unitFrames := 0, cycles := 0, phase1 := 0, phase2 := 0
            movePending := false, holding := false, value := none, computed := false, due := .none }) }
        cong := { s.cong with lamp := lamp } })
    ∧ (∀ (r : RecNo) (n : PlayNo) (P : Player), served = some r → s.orders.expiryReqs = [] → s.players.waitList = [] →
      s.playersRest [] → s.players.players[n] = P → P.recording = some r → P.state = .priming →
      P.fanCount < s.players.fanout → (∀ m : PlayNo, m < n → s.players.players[m].recording ≠ some r) →
      exec (.congestion p w) s = .next (State.mark { s.taken.showCircuit p { D with
          set := (Vector.replicate 4 none).set c (some ⟨.announce r row.repeats, row.plan, row.plan, some ⟨q, g⟩⟩)
          latched := some g, state := .annWait, binding := .joinList n } with
        players := { s.players with
          players := s.players.players.set n
            { P with joins := P.joins ++ [⟨p, C.tag + 1, row.repeats⟩] } }
        cong := { s.cong with lamp := lamp } } (.player n)))

/-- An order that takes away the active entry of a bound circuit: QUIET of it, CLEAR_ALL, or an accepted order of its class or a
higher one. The binding is released: a waiter leaves its queue or list; a listener leaves its channel, which as the last one it
frees, the channel serving its queue, or its player, which becomes IDLE, is PRIMING again or runs on. With no entry left the
circuit is QUIET. With one left, a circuit that heard a tone or an announcement enters a changeover gap of 1–20, its tag standing;
with a gap of 0, and from CHANNEL_WAIT and ANN_WAIT, the entry now active starts at once, on the channels and players as the
release leaves them. Here, for a circuit at the player pool or an announcement to start, no other circuit waits there and the
other players are at rest. -/
def Obligations.LeavingATreatment : Prop :=
  ∀ (p : Circ) (w : Word) (s t : State) (i : Instr) (d : Cls) (C E : Circuit) (T : TreatmentSet) (reps : Option (Fin 16)),
    s.headIs p.val w = true → s.orders.circuits[p] = C → C.consistent = true → activeClass C.set = some d →
    s.supersedes p w i C d reps T → s.taken.releasesBinding p C.state reps t →
    E = { C with
      set := T, binding := .none, gapLeft := 0, waited := 0, limit := .counting
      latched := (activeEntry T).bind fun x => x.origin.map Origin.grade } →
    (activeClass T = none → exec i s = .next (t.showCircuit p { E with state := .quiet }))
    ∧ (activeClass T ≠ none → C.state = .tone ∨ C.state = .hear → 1 ≤ s.orders.gapSetting →
      exec i s = .next (t.showCircuit p { E with state := .gap, gapLeft := s.orders.gapSetting }))
    ∧ (∀ (c : Cls) (x : Entry) (u : State), activeClass T = some c → T[c] = some x →
      C.state = .channelWait ∨ C.state = .annWait ∨ s.orders.gapSetting = 0 → t.startsEntry p E c x u →
      exec i s = .next u)

/-! ### Gaps, waits and notices of the order unit -/

/-- A cadence boundary takes one from the gap remaining of every circuit in GAP; a wait boundary adds one to the wait elapsed
of every circuit in ANN_WAIT still counting and finds those at the limit; at the player pool, players at rest and nothing
waiting, it takes one from the gap remaining of every player in GAP. Every other circuit and player stands. That a circuit
at the limit is marked for its expiry request is the model's own state (log 30). -/
def Obligations.BoundariesCountGapsAndWaits : Prop :=
  ∀ s : State, s.running = true → s.highway.sampleDue = false →
    (0 < s.highway.cadenceDue →
      ∃ t, exec .cadenceBoundary s = .next t
        ∧ (∀ p : Circ, t.orders.circuits[p] =
            if s.orders.circuits[p].state = .gap then
              { s.orders.circuits[p] with gapLeft := s.orders.circuits[p].gapLeft - 1 }
            else s.orders.circuits[p])
        ∧ t = { s with
            highway := { s.highway with cadenceDue := s.highway.cadenceDue - 1 }
            orders := { s.orders with circuits := t.orders.circuits } })
    ∧ (0 < s.highway.waitOrdersDue →
      ∃ t, exec .waitBoundaryOrders s = .next t
        ∧ (∀ p : Circ, t.orders.circuits[p] =
            if s.orders.circuits[p].state = .annWait ∧ s.orders.circuits[p].limit = .counting then
              { s.orders.circuits[p] with
                waited := s.orders.circuits[p].waited + 1
                limit := if s.orders.waitLimit ≤ s.orders.circuits[p].waited + 1 then .reached else .counting }
            else s.orders.circuits[p])
        ∧ t = { s with
            highway := { s.highway with waitOrdersDue := s.highway.waitOrdersDue - 1 }
            orders := { s.orders with circuits := t.orders.circuits } })
    ∧ (0 < s.highway.waitPlayersDue → s.players.waitList = [] → s.playersRest [] →
      ∃ t, exec .waitBoundaryPlayers s = .next t
        ∧ (∀ n : PlayNo, t.players.players[n] =
            if s.players.players[n].state = .gap then
              { s.players.players[n] with gapLeft := s.players.players[n].gapLeft - 1 }
            else s.players.players[n])
        ∧ t = { s with
            highway := { s.highway with waitPlayersDue := s.highway.waitPlayersDue - 1 }
            players := { s.players with players := t.players.players } })

/-- The end of a changeover gap starts the entry then active. A tone entry whose plan is valid in the live bank joins a channel,
takes a FREE one or waits; an announcement entry goes to a player or the wait list; a congestion entry is resolved and the
resolved entry starts. An announcement entry whose recording is unavailable gives way to its fallback tone, with ANN_UNAVAILABLE.
One that fails without a fallback, a tone whose plan is not valid and a congestion entry that cannot be served complete, with
their report; with no other entry the circuit is QUIET. That a start that fails at once advances the tag is an inference
(log 11). Here, for an announcement, no other circuit waits for a player and the players are at rest. -/
def Obligations.GapEndStartsTheEntry : Prop :=
  ∀ (p : Circ) (s : State) (C : Circuit) (c : Cls) (x : Entry) (unavailable : RecNo → Prop), s.running = true →
    s.orders.circuits[p] = C → C.consistent = true → C.state = .gap → C.gapLeft = 0 → activeClass C.set = some c →
    C.set[c] = some x →
    (∀ r, unavailable r ↔ (∃ n, x.treat = .announce r n) ∧ s.players.scanning = false ∧ s.players.view[r] = none
      ∧ s.orders.expiryReqs = [] ∧ s.players.waitList = [] ∧ s.playersRest []) →
    (∀ t, s.startsEntry p C c x t → exec (.gapEnd p) s = .next t)
    ∧ (∀ (r : RecNo) (f : PlanNo) (t : State), unavailable r → x.fallback = some f →
      (s.submit .orderUnit .annUnavailable p.val (0x100 * c.val + r.val)).startsTone p { C with
        tag := C.tag + 1, set := C.set.set c (some ⟨.toneShared f, none, none, x.origin⟩) } false f t →
      exec (.gapEnd p) s = .next t)
    ∧ (∀ (kind : ReportKind) (argument : Nat), (∀ d : Cls, d ≠ c → C.set[d] = none) →
      (∃ q : PlanNo, (x.treat = .toneShared q ∨ x.treat = .tonePrivate q) ∧ ¬ s.planUsable q
          ∧ kind = .planWithdrawn ∧ argument = q.val)
        ∨ (∃ r : RecNo, unavailable r ∧ x.fallback = none ∧ kind = .annUnavailable ∧ argument = r.val)
        ∨ (∃ q : Route, x.treat = .congestion q ∧ s.servedRecording q = none
            ∧ (∀ pl, s.cong.table[s.gradeFor q].plan = some pl → ¬ s.planUsable pl)
            ∧ kind = .congestionUnserved ∧ argument = q.val) →
      exec (.gapEnd p) s = .next (State.submit
        (s.showCircuit p { C with
          set := Vector.replicate 4 none, state := .quiet, tag := C.tag + 1, waited := 0, limit := .counting
          latched := none })
        .orderUnit kind p.val (0x100 * c.val + argument)))

/-- A circuit found at the wait limit has one expiry request sent, with its tag. The player pool, its players at rest,
answers the oldest request: listening when the circuit is a listener; expired, the entry gone, when it is in a join list
with others left on that player, or the only waiter of the wait list; else not held. That one expiry request is sent for
each wait is held by a mark of the model (log 30); that a not-held answer carries the tag of the request is the model's choice
(log 46). -/
def Obligations.ExpiryRequestsAreAnswered : Prop :=
  (∀ (p : Circ) (s : State) (C : Circuit), s.running = true → s.orders.circuits[p] = C → C.limit = .reached →
    exec (.waitLimitReached p) s = .next { s with orders := { s.orders with
      circuits := s.orders.circuits.set p { C with limit := .requested }
      expiryReqs := s.orders.expiryReqs ++ [⟨p, C.tag⟩] } })
  ∧ (∀ (s u : State) (q : ExpiryReq) (rest : List ExpiryReq) (answer : PlayerMessage → PlayerPool),
    s.running = true → s.orders.expiryReqs = q :: rest → s.playersRest [] →
    u = { s with orders := { s.orders with expiryReqs := rest } } →
    (answer = fun m => { s.players with notices := s.players.notices ++ [⟨q.circ, q.tag, m⟩] }) →
    (∀ n : PlayNo, s.players.waitList = [] → (∃ l ∈ s.players.players[n].listeners, l.circ = q.circ) →
      (∀ m : PlayNo, m ≠ n → ∀ l ∈ s.players.players[m].listeners, l.circ ≠ q.circ) →
      exec .expiryRequest s = .next { u with players := answer (.listening n) })
    ∧ ((∀ (m : PlayNo), ∀ l ∈ s.players.players[m].listeners, l.circ ≠ q.circ) →
      (∀ (n : PlayNo) (P : Player), s.players.waitList = [] → s.players.players[n] = P →
        (∃ j ∈ P.joins, j.circ = q.circ) → P.listeners ≠ [] →
        (∀ m : PlayNo, m ≠ n → ∀ j ∈ s.players.players[m].joins, j.circ ≠ q.circ) →
        exec .expiryRequest s = .next (State.mark { u with players := { answer .expired with
          players := s.players.players.set n { P with joins := P.joins.filter fun j => j.circ != q.circ } } } (.player n)))
      ∧ ((∀ (m : PlayNo), ∀ j ∈ s.players.players[m].joins, j.circ ≠ q.circ) →
        (∀ x, s.players.waitList = [x] → x.circ = q.circ →
          exec .expiryRequest s = .next { u with players := { answer .expired with waitList := [] } })
        ∧ (s.players.waitList = [] → exec .expiryRequest s = .next { u with players := answer .notHeld }))))

/-- Notices that leave the entry in place: a channel notice and a listener notice take the circuit from its wait to TONE and to
HEAR, a moved notice binds it to the join list, its wait going on, an expiry answer that the circuit is listening takes it to
HEAR; a not-held answer is dropped, and so is every notice whose tag is not the circuit's. -/
def Obligations.ServedAndStaleNotices : Prop :=
  ∀ (p : Circ) (g : Tag) (s : State) (C : Circuit), s.running = true → s.orders.circuits[p] = C →
    (∀ (m : ChannelMessage) (rest : List ChannelNotice), s.chans.notices = ⟨p, g, m⟩ :: rest →
      (∀ (k : ChanNo) (how : ServedHow), m = .served k how → C.tag = g → C.state = .channelWait →
        exec (.servedNotice .channels) s = .next { s.showCircuit p { C with state := .tone, binding := .channel k } with
          chans := { s.chans with notices := rest } })
      ∧ (C.tag ≠ g →
        ∀ i : Instr, (i = .servedNotice .channels ∧ (∃ k how, m = .served k how) ∨ i = .doneNotice ∧ m = .done
            ∨ i = .withdrawnNotice ∧ m = .withdrawn) →
          exec i s = .next { s with chans := { s.chans with notices := rest } }))
    ∧ (∀ (m : PlayerMessage) (rest : List PlayerNotice), s.players.notices = ⟨p, g, m⟩ :: rest →
      (∀ n : PlayNo, m = .moved n → C.tag = g → C.state = .annWait → C.binding = .waitList →
        exec (.servedNotice .players) s = .next { s.showCircuit p { C with binding := .joinList n } with
          players := { s.players with notices := rest } })
      ∧ (∀ n : PlayNo, C.tag = g → C.state = .annWait →
        ∀ i : Instr, (i = .servedNotice .players ∧ m = .listener n ∨ i = .expiryAnswer ∧ m = .listening n) →
          exec i s = .next { s.showCircuit p { C with
              state := .hear, binding := .listener n, waited := 0, limit := .counting } with
            players := { s.players with notices := rest } })
      ∧ (m = .notHeld → exec .expiryAnswer s = .next { s with players := { s.players with notices := rest } })
      ∧ (C.tag ≠ g →
        ∀ i : Instr, (i = .servedNotice .players ∧ (∃ n, m = .moved n ∨ m = .listener n)
            ∨ i = .expiryAnswer ∧ (m = .expired ∨ ∃ n, m = .listening n)
            ∨ i = .repeatsExhaustedNotice ∧ m = .exhausted ∨ i = .unavailableNotice ∧ m = .unavailable) →
          exec i s = .next { s with players := { s.players with notices := rest } }))

/-- A current notice that ends an entry: done, withdrawn, repeats exhausted, unavailable, wait expired. An announcement entry
with a follow-on plan (repeats exhausted) or a fallback plan (unavailable, expired) is replaced by a shared tone entry on it;
else the entry is removed. Its report names class and argument. With no entry left the circuit is QUIET; having heard a tone
or an announcement, with a gap of 1–20, it enters GAP; from a wait, or with a gap of 0, the entry then active starts at once:
here a tone entry takes a FREE channel, or waits for one, or, its plan not valid and no other entry present, completes with
PLAN_WITHDRAWN. That a start that fails at once advances the tag is an inference (log 11). -/
def Obligations.NoticesThatEndAnEntry : Prop :=
  ∀ (p : Circ) (s t : State) (C : Circuit) (x : Entry) (c : Cls) (g : Tag) (i : Instr) (kind : ReportKind)
    (next : Option PlanNo) (T : TreatmentSet), s.running = true → s.orders.circuits[p] = C → C.consistent = true →
    activeClass C.set = some c → C.set[c] = some x → C.tag = g →
    (∃ rest,
      (C.state = .tone ∨ C.state = .channelWait) ∧ next = none ∧ t = { s with chans := { s.chans with notices := rest } }
        ∧ (i = .doneNotice ∧ s.chans.notices = ⟨p, g, .done⟩ :: rest ∧ kind = .treatmentDone
          ∨ i = .withdrawnNotice ∧ s.chans.notices = ⟨p, g, .withdrawn⟩ :: rest ∧ kind = .planWithdrawn))
      ∨ (∃ rest,
      (C.state = .hear ∨ C.state = .annWait) ∧ t = { s with players := { s.players with notices := rest } }
        ∧ (i = .repeatsExhaustedNotice ∧ s.players.notices = ⟨p, g, .exhausted⟩ :: rest ∧ kind = .annDone
            ∧ next = x.followOn
          ∨ i = .unavailableNotice ∧ s.players.notices = ⟨p, g, .unavailable⟩ :: rest ∧ kind = .annUnavailable
            ∧ next = x.fallback
          ∨ i = .expiryAnswer ∧ s.players.notices = ⟨p, g, .expired⟩ :: rest ∧ kind = .annWaitExpired
            ∧ next = x.fallback)) →
    T = C.set.set c (next.map fun q => ⟨.toneShared q, none, none, x.origin⟩) →
    (activeClass T = none →
      exec i s = .next ((t.showCircuit p { C with
        set := T, state := .quiet, binding := .none, gapLeft := 0, waited := 0, latched := none, limit := .counting }).submit
          .orderUnit kind p.val (0x100 * c.val + x.argument)))
    ∧ (activeClass T ≠ none → C.state = .tone ∨ C.state = .hear → 1 ≤ s.orders.gapSetting →
      exec i s = .next ((t.showCircuit p { C with
        set := T, state := .gap, binding := .none, gapLeft := s.orders.gapSetting, waited := 0, limit := .counting
        latched := (activeEntry T).bind fun y => y.origin.map Origin.grade }).submit
          .orderUnit kind p.val (0x100 * c.val + x.argument)))
    ∧ (∀ (y : Entry) (d : Cls) (priv : Bool) (q : PlanNo) (D : Circuit),
      C.state = .channelWait ∨ C.state = .annWait ∨ s.orders.gapSetting = 0 → activeClass T = some d → T[d] = some y →
      y.treat = (if priv then .tonePrivate q else .toneShared q) →
      D = { C with
        set := T, tag := C.tag + 1, gapLeft := 0, waited := 0, limit := .counting
        latched := y.origin.map Origin.grade } →
      (∀ (b : Bank) (k : ChanNo), s.plans.live = some b → (s.plans.plan b q).status = .valid →
        (priv = true ∨ ∀ j, s.joinable q j = false) → s.chans.chans[k] = none →
        (∀ j : ChanNo, j < k → s.chans.chans[j] ≠ none) →
        exec i s = .next (State.submit { t.showCircuit p { D with state := .tone, binding := .channel k } with
          plans := s.plans.setBank b { s.plans.bank b with refs := (s.plans.bank b).refs + 1 }
          chans := { t.chans with chans := s.chans.chans.set k (some
            { isPrivate := priv, bank := b, plan := q, listeners := [⟨p, C.tag + 1, priv⟩], segIndex := 0
              segLeft := (s.plans.plan b q).segs[0].duration.toNat, unitFrames := 0, cycles := 0, phase1 := 0, phase2 := 0
              movePending := false, holding := false, value := none, computed := false, due := .none }) } }
          .orderUnit kind p.val (0x100 * c.val + x.argument)))
      ∧ (s.planUsable q → (∀ j, s.joinable q j = false) → (∀ k : ChanNo, s.chans.chans[k] ≠ none) →
        exec i s = .next (State.submit (State.submit
          { t.showCircuit p { D with state := .channelWait, binding := .channelQueue } with
            chans := { t.chans with queue := s.chans.queue ++ [⟨p, priv, q, C.tag + 1⟩] } }
          .orderUnit kind p.val (0x100 * c.val + x.argument))
          .channelPool .channelWait p.val (q.val + if priv then 0x100 else 0)))
      ∧ (¬ s.planUsable q → activeClass (T.set d none) = none →
        exec i s = .next (State.submit (State.submit
          (t.showCircuit p { D with set := T.set d none, state := .quiet, binding := .none, latched := none })
          .orderUnit kind p.val (0x100 * c.val + x.argument))
          .orderUnit .planWithdrawn p.val (0x100 * d.val + q.val))))

/-! ### Tone plans and plan banks -/

/-- A plan word into an IDLE bank replaces the fields that word carries and leaves the plan UNVALIDATED; into a bank that is
LIVE or DRAINING it is refused with LIVE_PLAN_WRITE; words 12–15 of a plan have no effect. -/
def Obligations.PlanWordIntoAnIdleBank : Prop :=
  ∀ (off : Offset) (w : Word) (s : State) (b : Bank) (p : PlanNo) (k : Nat) (q : Plan), 0x100 ≤ off.toNat →
    off.toNat < 0x300 → s.headIs off.toNat w = true → (b = .A ↔ off.toNat < 0x200) → p.val = off.toNat / 16 % 16 →
    k = off.toNat % 16 → q = (s.plans.bank b).plans[p] →
    (12 ≤ k → exec (.planWordWrite off w) s = .next s.taken)
    ∧ (k < 12 → (s.plans.bank b).state ≠ .idle →
      exec (.planWordWrite off w) s = .next (s.taken.submit .planTable .livePlanWrite p.val off.toNat))
    ∧ (k < 12 → (s.plans.bank b).state = .idle →
      ∃ q' : Plan, exec (.planWordWrite off w) s = .next { s.taken with
          plans := s.plans.setBank b { s.plans.bank b with plans := (s.plans.bank b).plans.set p q' } }
        ∧ q'.status = .unvalidated
        ∧ q'.validFlag = (if k = 0 then w.getLsbD 15 else q.validFlag)
        ∧ q'.mode = (if k = 0 then (if w.getLsbD 14 then .product else .sum) else q.mode)
        ∧ q'.segCount.toNat = (if k = 0 then w.toNat % 8 else q.segCount.toNat)
        ∧ q'.f1.toNat = (if k = 1 then w.toNat % 8192 else q.f1.toNat)
        ∧ q'.a1.toNat = (if k = 2 then w.toNat % 64 else q.a1.toNat)
        ∧ q'.f2.toNat = (if k = 3 then w.toNat % 8192 else q.f2.toNat)
        ∧ q'.a2.toNat = (if k = 4 then w.toNat % 64 else q.a2.toNat)
        ∧ q'.chainPlan.toNat = (if k = 5 then w.toNat / 1024 % 32 else q.chainPlan.toNat)
        ∧ q'.final = (if k = 5 then [.silence, .holdLast, .chain, .invalid].getD (w.toNat / 256 % 4) .invalid else q.final)
        ∧ q'.repeats.toNat = (if k = 5 then w.toNat % 256 else q.repeats.toNat)
        ∧ ∀ j : Fin 6, q'.segs[j] =
            if k = 6 + j.val then
              ⟨[.off, .onBoth, .onFirst, .invalid].getD (w.toNat / 1024 % 4) .invalid, BitVec.ofNat 10 w.toNat⟩
            else q.segs[j])

/-- The live-bank word: a LIVE target changes nothing, a DRAINING one is refused with BANK_BUSY. An IDLE target becomes LIVE
once its UNVALIDATED plans are judged in ascending order, a usable one clamped to 7000 Hz and VALID, PLAN_CLAMPED where a
frequency was cut, another INVALID, PLAN_INVALID where its valid flag was set; the old bank becomes DRAINING with a notice
while it is referenced, else IDLE, BANK_SWITCHED then following. -/
def Obligations.LiveBankWordSwitchesBanks : Prop :=
  ∀ (w : Word) (s : State) (b : Bank), s.headIs 0x30E w = true → b = (if w.getLsbD 0 then .B else .A) →
    ((s.plans.bank b).state = .live → exec (.liveBankWordWrite w) s = .next s.taken)
    ∧ ((s.plans.bank b).state = .draining →
      exec (.liveBankWordWrite w) s = .next { s.taken with wire := { s.wire with
        submitted := s.wire.submitted ++ [⟨.planTable, ⟨.bankBusy, BitVec.ofNat 6 b.num, w⟩⟩] } })
    ∧ (∀ (usable : Plan → Prop) (flags : Plan → Nat) (reports : List (List Report)) (free : Prop),
      (s.plans.bank b).state = .idle → s.plans.live ≠ some b →
      (∀ q, usable q ↔ 1 ≤ q.f1.toNat ∧ 1 ≤ q.segCount.toNat ∧ q.segCount.toNat ≤ 6
        ∧ (∀ j : Fin 6, j.val < q.segCount.toNat → q.segs[j].kind ≠ .invalid ∧ 1 ≤ q.segs[j].duration.toNat)
        ∧ q.final ≠ .invalid ∧ (q.final = .chain → q.chainPlan.toNat < 16)) →
      (∀ q, flags q = (if 7000 < q.f1.toNat then 1 else 0) + (if 7000 < q.f2.toNat then 2 else 0)) →
      (reports.length = 16 ∧ ∀ (p : PlanNo) (q : Plan), q = (s.plans.bank b).plans[p] →
        (q.status ≠ .unvalidated ∨ q.validFlag = false → reports[p.val]? = some [])
        ∧ (q.status = .unvalidated → q.validFlag = true → ¬ usable q →
          reports[p.val]? = some [⟨.planInvalid, BitVec.ofNat 6 p.val, BitVec.ofNat 16 b.num⟩])
        ∧ (q.status = .unvalidated → q.validFlag = true → usable q →
          reports[p.val]? = some (if flags q = 0 then []
            else [⟨.planClamped, BitVec.ofNat 6 p.val, BitVec.ofNat 16 (0x100 * b.num + flags q)⟩]))) →
      (free ↔ ∀ o, s.plans.live = some o → (s.plans.bank o).refs = 0) →
      ∃ t, exec (.liveBankWordWrite w) s = .next t
        ∧ t = { s.taken with plans := t.plans, wire := t.wire }
        ∧ t.plans.live = some b ∧ (t.plans.bank b).state = .live ∧ (t.plans.bank b).refs = (s.plans.bank b).refs
        ∧ (∀ (p : PlanNo) (q : Plan), q = (s.plans.bank b).plans[p] →
          (q.status ≠ .unvalidated → (t.plans.bank b).plans[p] = q)
          ∧ (q.status = .unvalidated → q.validFlag = true → usable q →
            (t.plans.bank b).plans[p] = { q with
              status := .valid
              f1 := if 7000 < q.f1.toNat then 7000#13 else q.f1
              f2 := if 7000 < q.f2.toNat then 7000#13 else q.f2 })
          ∧ (q.status = .unvalidated → q.validFlag = false ∨ ¬ usable q →
            (t.plans.bank b).plans[p] = { q with status := .invalid }))
        ∧ (∀ o, s.plans.live = some o → (t.plans.bank o) = { s.plans.bank o with
            state := if (s.plans.bank o).refs = 0 then .idle else .draining })
        ∧ (s.plans.live = none → ∀ o, o ≠ b → t.plans.bank o = s.plans.bank o)
        ∧ t.plans.drainNotices = s.plans.drainNotices
            ++ (s.plans.live.filter fun o => (s.plans.bank o).refs != 0).toList
        ∧ t.wire.dirty = s.wire.dirty.put .global true
        ∧ (∀ last : List Report, (free → last = [⟨.bankSwitched, BitVec.ofNat 6 b.num,
              BitVec.ofNat 16 ((s.plans.live.map Bank.num).getD 2)⟩]) → (¬ free → last = []) →
          t.wire.submitted = s.wire.submitted ++ (reports.flatten ++ last).map fun x => ⟨.planTable, x⟩))

/-! ### Tone channels -/

/-- The cadence of a channel, in frames, units and segments: a frame start adds one to the unit's frames of every channel
computed for that frame and not holding, the 80th ending the unit; the end of a unit takes one from segment remaining, 0
ending the segment; the end of a segment puts the next one in force, after the last the cycle ends. A draining notice sets
move pending on every channel of that bank. These clauses are the model's choices: that a channel allocated between the pulse
and the computation counts the frame (log 36), and that the older of two draining notices is taken first (log 34). -/
def Obligations.CadenceRunsByFramesUnitsAndSegments : Prop :=
  (∀ s : State, s.running = true → s.highway.channelsDue = true → s.highway.sampleDue = false →
    ∃ t, exec .frameStartChannels s = .next t
      ∧ (∀ k : ChanNo, t.chans.chans[k] = (s.chans.chans[k]).map fun r =>
          if r.computed = false then r
          else if r.holding then { r with computed := false }
          else if r.unitFrames = 79 then { r with unitFrames := 0, computed := false, due := .unitEnd }
          else { r with unitFrames := r.unitFrames + 1, computed := false })
      ∧ t = { s with
          highway := { s.highway with channelsDue := false }
          chans := { s.chans with chans := t.chans.chans } })
  ∧ (∀ (k : ChanNo) (s : State) (r : Run) (pl : Plan), s.running = true → s.chans.chans[k] = some r →
    pl = s.plans.plan r.bank r.plan →
    (r.due = .unitEnd →
      exec (.cadenceUnitEnd k) s = .next { s with chans := { s.chans with
        chans := s.chans.chans.set k (some
          { r with segLeft := r.segLeft - 1, due := if r.segLeft ≤ 1 then .segmentEnd else .none }) } })
    ∧ (r.due = .segmentEnd → pl.segCount.toNat ≤ r.segIndex.val + 1 →
      exec (.segmentEnd k) s = .next { s with chans := { s.chans with
        chans := s.chans.chans.set k (some { r with due := .cycleEnd }) } })
    ∧ (∀ j : Fin 6, r.due = .segmentEnd → j.val = r.segIndex.val + 1 → j.val < pl.segCount.toNat →
      exec (.segmentEnd k) s = .next { s with chans := { s.chans with
        chans := s.chans.chans.set k (some
          { r with segIndex := j, segLeft := pl.segs[j].duration.toNat, due := .none }) } }))
  ∧ (∀ (b : Bank) (rest : List Bank) (s : State), s.running = true → s.plans.drainNotices = b :: rest →
    ∃ t, exec .drainingNotice s = .next t
      ∧ (∀ k : ChanNo, t.chans.chans[k] = (s.chans.chans[k]).map fun r =>
          if r.bank = b then { r with movePending := true } else r)
      ∧ t = { s with
          plans := { s.plans with drainNotices := rest }
          chans := { s.chans with chans := t.chans.chans } })

/-- The end of a cycle with no move pending: a SHARED channel, a plan with repeats 0, and a PRIVATE channel with cycles left
begin the next cycle; a PRIVATE channel that has run its repeats takes the final action: HOLD_LAST holds the last used
segment, CHAIN to a valid plan starts that plan afresh, SILENCE sends done, frees the channel and gives up its reference, here
with no circuit waiting and its bank LIVE; CHAIN to a plan that is not valid is reported with PLAN_INVALID and acts as
SILENCE. -/
def Obligations.CycleEndRepeatsOrTakesTheFinalAction : Prop :=
  ∀ (k : ChanNo) (s : State) (r : Run) (pl : Plan), s.running = true → s.chans.chans[k] = some r → r.due = .cycleEnd →
    r.movePending = false → pl = s.plans.plan r.bank r.plan →
    (r.isPrivate = false ∨ pl.repeats = 0 →
      exec (.cycleEnd k) s = .next { s with chans := { s.chans with
        chans := s.chans.chans.set k (some
          { r with segIndex := 0, segLeft := pl.segs[0].duration.toNat, due := .none }) } })
    ∧ (r.isPrivate = true → r.cycles + 1 < pl.repeats.toNat →
      exec (.cycleEnd k) s = .next { s with chans := { s.chans with
        chans := s.chans.chans.set k (some
          { r with cycles := r.cycles + 1, segIndex := 0, segLeft := pl.segs[0].duration.toNat, due := .none }) } })
    ∧ (r.isPrivate = true → pl.repeats ≠ 0 → pl.repeats.toNat ≤ r.cycles + 1 →
      (∀ j : Fin 6, pl.final = .holdLast → j.val + 1 = pl.segCount.toNat →
        exec (.cycleEnd k) s = .next { s with chans := { s.chans with
          chans := s.chans.chans.set k (some
            { r with cycles := r.cycles + 1, segIndex := j, holding := true, due := .none }) } })
      ∧ (∀ q : PlanNo, pl.final = .chain → pl.chainPlan.toNat = q.val → (s.plans.plan r.bank q).status = .valid →
        exec (.cycleEnd k) s = .next { s with chans := { s.chans with
          chans := s.chans.chans.set k (some { r with
            plan := q, segIndex := 0, segLeft := (s.plans.plan r.bank q).segs[0].duration.toNat, unitFrames := 0
            cycles := 0, phase1 := 0, phase2 := 0, holding := false, due := .none }) } })
      ∧ (∀ v : State, pl.final = .silence ∧ v = s
          ∨ pl.final = .chain ∧ (∀ q : PlanNo, pl.chainPlan.toNat = q.val → (s.plans.plan r.bank q).status ≠ .valid)
              ∧ v = s.submit .channelPool .planInvalid pl.chainPlan.toNat (0x100 + 0x10 * r.bank.num + k.val) →
        s.chans.queue = [] → (s.plans.bank r.bank).state = .live →
        exec (.cycleEnd k) s = .next { v with
          chans := { s.chans with
            chans := s.chans.chans.set k none
            notices := s.chans.notices ++ r.listeners.map fun l => ⟨l.circ, l.tag, .done⟩ }
          plans := s.plans.setBank r.bank { s.plans.bank r.bank with refs := (s.plans.bank r.bank).refs - 1 } }))

/-- The end of a cycle with a move pending: a channel whose plan is valid in the live bank moves to it and goes on there, its
old bank becoming IDLE, with BANK_SWITCHED, when that was the last reference. A SHARED channel begins the next cycle; a
PRIVATE one counts by the repeats of the plan it has moved to, and a HOLD_LAST reached there holds the last used segment of
that plan (log 35). A SHARED channel also takes every shared waiter on its plan, oldest first, each sent served. With the plan not
valid there, each listener is sent withdrawn and the channel becomes FREE, here with no circuit waiting. -/
def Obligations.CycleEndMovesToTheLiveBank : Prop :=
  ∀ (k : ChanNo) (s : State) (r : Run) (l : Bank) (old : BankRecord) (pl : Plan) (left : PlanTable → State → State)
    (joined : List ToneWaiter), s.running = true → s.chans.chans[k] = some r → r.due = .cycleEnd → r.movePending = true →
    joined = (if r.isPrivate then [] else s.chans.queue.filter fun y => !y.isPrivate && y.plan == r.plan) →
    old = s.plans.bank r.bank → old.state = .draining → s.plans.live = some l → l ≠ r.bank →
    pl = s.plans.plan l r.plan →
    (left = fun T t =>
      if old.refs - 1 = 0 then
        (State.mark { t with plans := T.setBank r.bank { old with state := .idle, refs := 0 } } .global).submit
          .planTable .bankSwitched l.num r.bank.num
      else { t with plans := T.setBank r.bank { old with refs := old.refs - 1 } }) →
    (∀ (counted : Bool) (u : Run), pl.status = .valid → (counted = true ↔ r.isPrivate = true ∧ pl.repeats ≠ 0) →
      (u = { r with bank := l, movePending := false, cycles := if counted then r.cycles + 1 else r.cycles, due := .none }) →
      (counted = false ∨ r.cycles + 1 < pl.repeats.toNat →
        exec (.cycleEnd k) s = .next (left
          (s.plans.setBank l { s.plans.bank l with refs := (s.plans.bank l).refs + 1 })
          { s with chans := {
              chans := s.chans.chans.set k (some { u with
                listeners := joined.foldl (fun ls y => insertToneListener ⟨y.circ, y.tag, y.isPrivate⟩ ls) r.listeners
                segIndex := 0, segLeft := pl.segs[0].duration.toNat })
              queue := s.chans.queue.filter fun y => r.isPrivate || y.isPrivate || y.plan != r.plan
              notices := s.chans.notices ++ joined.map fun y => ⟨y.circ, y.tag, .served k .joined⟩ } }))
      ∧ (∀ j : Fin 6, counted = true → pl.repeats.toNat ≤ r.cycles + 1 → pl.final = .holdLast →
        j.val + 1 = pl.segCount.toNat →
        exec (.cycleEnd k) s = .next (left
          (s.plans.setBank l { s.plans.bank l with refs := (s.plans.bank l).refs + 1 })
          { s with chans := { s.chans with
              chans := s.chans.chans.set k (some { u with segIndex := j, holding := true }) } })))
    ∧ (pl.status ≠ .valid → s.chans.queue = [] →
      exec (.cycleEnd k) s = .next (left s.plans
        { s with chans := { s.chans with
            chans := s.chans.chans.set k none
            notices := s.chans.notices ++ r.listeners.map fun x => ⟨x.circ, x.tag, .withdrawn⟩ } }))

/-- A channel that becomes FREE: a PRIVATE one whose cycles are run and whose plan ends in SILENCE, or in a CHAIN to a plan that is
not valid, reported with PLAN_INVALID; one whose move is answered withdrawn; one whose last listener leaves by an order that empties
its circuit's set. Its listeners are sent done, withdrawn, or in the last case nothing; its reference is given up, draining ending
with BANK_SWITCHED when that was the bank's last. Then it serves the wait queue: the oldest waiter whose plan is valid in the live
bank takes it, waiters before it being sent withdrawn; when that waiter is shared, every other shared waiter on its plan joins its
listeners, oldest first; each is sent served, the channel starts that plan afresh and the live bank gains a reference. With no
waiter's plan valid all are sent withdrawn and the channel stays FREE. Nothing else changes. -/
def Obligations.FreedChannelServesTheQueue : Prop :=
  ∀ (k : ChanNo) (s t : State) (r : Run) (pl : Plan) (told : ChannelMessage → State → State),
    s.chans.chans[k] = some r → pl = s.plans.plan r.bank r.plan →
    (told = fun m u => { u with chans := { u.chans with
      notices := u.chans.notices ++ r.listeners.map fun l => ⟨l.circ, l.tag, m⟩ } }) →
    (s.running = true → r.due = .cycleEnd → r.movePending = false → r.isPrivate = true → pl.repeats ≠ 0 →
      pl.repeats.toNat ≤ r.cycles + 1 →
      (pl.final = .silence → (told .done s).freesChannel k r t → exec (.cycleEnd k) s = .next t)
      ∧ (pl.final = .chain → (∀ q : PlanNo, pl.chainPlan.toNat = q.val → (s.plans.plan r.bank q).status ≠ .valid) →
        (told .done (s.submit .channelPool .planInvalid pl.chainPlan.toNat (0x100 + 0x10 * r.bank.num + k.val))).freesChannel
          k r t →
        exec (.cycleEnd k) s = .next t))
    ∧ (∀ l : Bank, s.running = true → r.due = .cycleEnd → r.movePending = true →
      (s.plans.bank r.bank).state = .draining → s.plans.live = some l → l ≠ r.bank →
      (s.plans.plan l r.plan).status ≠ .valid → (told .withdrawn s).freesChannel k r t →
      exec (.cycleEnd k) s = .next t)
    ∧ (∀ (p : Circ) (w : Word) (i : Instr) (C : Circuit), s.headIs p.val w = true → s.orders.circuits[p] = C →
      C.consistent = true → C.state = .tone →
      (w.toNat / 4096 = 5 ∧ i = .clearAll p w
        ∨ w.toNat / 4096 = 0 ∧ i = .quiet p w ∧ ∀ d : Cls, d.val ≠ w.toNat / 1024 % 4 → C.set[d] = none) →
      (∀ x ∈ s.chans.queue, x.circ ≠ p) → r.listeners ≠ [] → (∀ l ∈ r.listeners, l.circ = p) →
      (∀ (j : ChanNo) (u : Run), j ≠ k → s.chans.chans[j] = some u → ∀ l ∈ u.listeners, l.circ ≠ p) →
      s.taken.freesChannel k r t →
      exec i s = .next (t.showCircuit p { C with
        set := Vector.replicate 4 none, state := .quiet, binding := .none, gapLeft := 0, waited := 0, latched := none
        limit := .counting }))

/-! ### Announcement players -/

/-- The player pool takes a frame start, one player PLAYING and the others at rest: that player hands over its oldest code and
its position rises by 1; with its FIFO at 512 or less, codes still to fetch and no refill outstanding it requests the next
refill; with its FIFO empty it hands over no code and reports UNDERRUN once a cycle. The others hand over none. That the
request conditions are examined here also when the cycle end is to follow is the model's choice (log 45). -/
def Obligations.PlayersHandOverOneCode : Prop :=
  ∀ (n : PlayNo) (s t : State) (P : Player) (r : RecNo) (v : ViewRecord) (quiet : Prop), s.running = true →
    s.highway.playersDue = true → s.players.waitList = [] → s.players.players[n] = P → P.state = .playing →
    P.recording = some r → s.players.view[r] = some v → s.playersRest [n] →
    (∀ m : PlayNo, m ≠ n → s.players.players[m].state ≠ .playing) →
    (quiet ↔ P.wrapped = true ∨ P.fetch ≠ v.length ∨ v.gap ≠ 0) →
    t = { s with
      highway := { s.highway with playersDue := false }
      players := { s.players with players := s.players.players.map fun p => { p with handed := none } } } →
    (∀ (c : Byte) (codes : List Byte), P.fifo = c :: codes → quiet →
      (P.refillOut = true ∨ 512 < codes.length ∨ v.length ≤ P.fetch →
        exec .frameStartPlayers s = .next { t with players := { t.players with
          players := t.players.players.set n { P with handed := some c, fifo := codes, pos := P.pos + 1 } } })
      ∧ (P.refillOut = false → codes.length ≤ 512 → P.fetch < v.length →
        exec .frameStartPlayers s = .next { t with players := { t.players with
          players := t.players.players.set n
            { P with handed := some c, fifo := codes, pos := P.pos + 1, refillOut := true }
          refillReqs := s.players.refillReqs ++ [⟨n, r, P.fetch, min 512 (v.length - P.fetch), P.gen⟩] } }))
    ∧ (P.fifo = [] → P.refillOut = true → quiet →
      exec .frameStartPlayers s = .next
        (let u := { t with players := { t.players with players := t.players.players.set n { P with
          handed := none, underrun := true } } }
        if P.underrun then u else u.submit .playerPool .underrun n.val r.val))

/-- The end of an announcement cycle, no circuit waiting and the other players at rest: each listener that was there at the
start uses up one of its repeats, 0 being unlimited, and one whose last it was is sent repeats exhausted and gone; the others
are now there from the start. With nobody left the player becomes IDLE with its generation advanced. Else it goes on from index 0
with the codes of the next cycle it holds, if its fetch had wrapped, and with an empty FIFO otherwise: with an inter-cycle gap it
enters GAP; with none it starts the next cycle at once when it is primed, and is PRIMING when it is not. In GAP and PRIMING it
requests the next refill while the conditions hold. -/
def Obligations.AnnouncementCycleEnds : Prop :=
  ∀ (n : PlayNo) (s t : State) (P : Player) (r : RecNo) (v : ViewRecord) (kept : List AnnListener), s.running = true →
    s.highway.sampleDue = false → s.players.waitList = [] → s.players.players[n] = P → P.state = .playing →
    P.recording = some r → s.players.view[r] = some v → P.pos = v.length → s.playersRest [n] →
    kept = (P.listeners.filterMap fun l =>
      if l.atStart then
        if l.repeats = 0 then some l else if l.repeats = 1 then none else some { l with repeats := l.repeats - 1 }
      else some { l with atStart := true }) →
    t = State.mark { s with players := { s.players with
      notices := s.players.notices
        ++ (P.listeners.filter fun l => l.atStart && l.repeats == 1).map fun l => ⟨l.circ, l.tag, .exhausted⟩ } }
      (.player n) →
    (kept = [] → P.joins = [] →
      exec (.annCycleEnd n) s = .next { t with players := { t.players with
        players := s.players.players.set n { Player.idleWith (P.gen + 1) with handed := P.handed } } })
    ∧ (∀ Q : Player, kept ≠ [] ∨ P.joins ≠ [] →
      1 ≤ v.gap ∨ (if P.wrapped then P.fifo.length else 0) ≠ min 1024 v.length →
      Q = { P with
        state := if 1 ≤ v.gap then .gap else .priming
        listeners := kept, pos := 0, wrapped := false, gapLeft := if 1 ≤ v.gap then v.gap else P.gapLeft
        fifo := if P.wrapped then P.fifo else [], fetch := if P.wrapped then P.fetch else 0 } →
      (Q.refillOut = false → Q.fifo.length ≤ 512 → Q.fetch < v.length →
        exec (.annCycleEnd n) s = .next { t with players := { t.players with
          players := s.players.players.set n { Q with refillOut := true }
          refillReqs := s.players.refillReqs ++ [⟨n, r, Q.fetch, min 512 (v.length - Q.fetch), P.gen⟩] } })
      ∧ (Q.refillOut = true ∨ 512 < Q.fifo.length ∨ v.length ≤ Q.fetch →
        exec (.annCycleEnd n) s = .next { t with players := { t.players with
          players := s.players.players.set n Q } }))
    ∧ (kept ≠ [] ∨ P.joins ≠ [] → v.gap = 0 → P.wrapped = true → P.fifo.length = 1024 → 1024 ≤ v.length →
      P.fetch < v.length →
      exec (.annCycleEnd n) s = .next { t with players := { t.players with
        players := s.players.players.set n { P with
          listeners := P.joins.foldl (fun ls j => insertAnnListener ⟨j.circ, j.tag, j.repeats, true⟩ ls) kept
          joins := [], pos := 0, wrapped := false, underrun := false }
        notices := t.players.notices ++ P.joins.map fun j => ⟨j.circ, j.tag, .listener n⟩ } })

/-- A player with its inter-cycle gap over starts a cycle when it is primed and is PRIMING otherwise. A refill delivery of the
present generation joins the FIFO: a PRIMING player it primes starts its cycle, one still short requests the next refill; a
player PLAYING or in GAP runs on and requests the next refill while its conditions hold; in PLAYING with the fetch point at the
length, an inter-cycle gap of 0 and someone to hear the next cycle, the fetch point wraps to 0 once and the conditions are
examined from there. One of an older generation is dropped. A cycle start makes every join entry a listener, with a notice. That
the delivery taken is the oldest in flight, whatever player it is for, is the model's choice (log 47). -/
def Obligations.GapEndsAndRefillsArrive : Prop :=
  ∀ (n : PlayNo) (s : State) (P : Player) (r : RecNo) (v : ViewRecord) (play : Player → PlayerPool), s.running = true →
    s.players.waitList = [] → s.players.players[n] = P → P.recording = some r → s.players.view[r] = some v →
    s.playersRest [n] →
    (play = fun Q => { s.players with
      players := s.players.players.set n { Q with
        state := .playing, pos := 0, underrun := false, joins := []
        listeners := Q.joins.foldl (fun ls j => insertAnnListener ⟨j.circ, j.tag, j.repeats, true⟩ ls) Q.listeners }
      notices := s.players.notices ++ Q.joins.map fun j => ⟨j.circ, j.tag, .listener n⟩ }) →
    (P.state = .gap → P.gapLeft = 0 →
      (P.pos = 0 → P.fifo.length = min 1024 v.length → v.gap ≠ 0 →
        (P.refillOut = true ∨ 512 < P.fifo.length ∨ v.length ≤ P.fetch) →
        exec (.playerGapEnd n) s = .next (State.mark { s with players := play P } (.player n)))
      ∧ (P.fifo.length < min 1024 v.length → (P.refillOut = true ∨ 512 < P.fifo.length) →
        exec (.playerGapEnd n) s = .next (State.mark { s with players := { s.players with
          players := s.players.players.set n { P with state := .priming } } } (.player n))))
    ∧ (∀ (g : Tag) (codes : List Byte) (rest : List Delivery) (Q : Player) (t : State),
      s.store.deliveries = ⟨n, g, codes⟩ :: rest → t = { s with store := { s.store with deliveries := rest } } →
      Q = { P with fifo := P.fifo ++ codes, fetch := P.fetch + codes.length, refillOut := false } →
      (P.gen ≠ g → exec .refillDelivery s = .next t)
      ∧ (P.gen = g → P.state = .priming → Q.fifo.length ≤ 512 → Q.fifo.length < v.length → Q.fetch < v.length →
        exec .refillDelivery s = .next { t with players := { s.players with
          players := s.players.players.set n { Q with refillOut := true }
          refillReqs := s.players.refillReqs ++ [⟨n, r, Q.fetch, min 512 (v.length - Q.fetch), g⟩] } })
      ∧ (P.gen = g → P.state = .priming → P.pos = 0 → Q.fifo.length = min 1024 v.length →
        (512 < Q.fifo.length ∨ v.length ≤ Q.fetch) → (Q.fetch ≠ v.length ∨ v.gap ≠ 0) →
        exec .refillDelivery s = .next (State.mark { t with players := play Q } (.player n)))
      ∧ (∀ (A : Player) (wraps : Prop), P.gen = g → P.state = .playing ∨ P.state = .gap →
        (wraps ↔ P.state = .playing ∧ P.wrapped = false ∧ Q.fetch = v.length ∧ v.gap = 0
          ∧ (P.joins ≠ [] ∨ ∃ l ∈ P.listeners, l.repeats = 0 ∨ 2 ≤ l.repeats.val ∨ l.atStart = false)) →
        (wraps → A = { Q with fetch := 0, wrapped := true }) → (¬ wraps → A = Q) →
        (Q.fifo.length ≤ 512 → A.fetch < v.length →
          exec .refillDelivery s = .next { t with players := { s.players with
            players := s.players.players.set n { A with refillOut := true }
            refillReqs := s.players.refillReqs ++ [⟨n, r, A.fetch, min 512 (v.length - A.fetch), g⟩] } })
        ∧ (512 < Q.fifo.length ∨ v.length ≤ A.fetch →
          exec .refillDelivery s = .next { t with players := { s.players with
            players := s.players.players.set n A } })))

/-- The fan-out limit, the recording view and a withdrawal, as the player pool takes them, and the service of the wait list at
the close of these events. A made-available recording enters the view; the end of the scan gives the whole view, and waiters
for recordings it does not hold are sent unavailable; that the fan-out changes in flight are taken first is the model's
choice (log 42). Waiters for a player's recording move to the tail of its join list, oldest first, while there is room, each
with a moved notice; an IDLE player, the lowest-numbered first, binds the recording of the oldest waiter that can be served,
takes its waiters up to the limit and requests its first refill; the others keep their order. A withdrawn recording leaves
the view: its listeners, its joins, and its waiters are sent unavailable, its player becomes IDLE, and the store controller
is answered. That the store controller's notices are taken oldest first, whatever recording they name, is the model's choice
(log 48). -/
def Obligations.RecordingViewAndFanout : Prop :=
  ∀ s : State, s.running = true →
    (∀ (m : FanoutChange) (rest : List FanoutChange), s.bus.fanoutChanges = m :: rest → s.players.waitList = [] → s.playersRest [] →
      exec .fanoutLimitChange s = .next { s with
        bus := { s.bus with fanoutChanges := rest }, players := { s.players with fanout := m.limit } })
    ∧ (∀ (r : RecNo) (v : ViewRecord) (rest : List PoolNotice), s.store.poolNotices = .madeAvailable r v :: rest →
      s.players.waitList = [] → s.playersRest [] → (∀ m : PlayNo, s.players.players[m].recording ≠ some r) →
      exec .madeAvailableNotice s = .next { s with
        store := { s.store with poolNotices := rest }
        players := { s.players with view := s.players.view.set r (some v) } })
    ∧ (∀ (r : RecNo) (n : PlayNo) (older newer moved left : List AnnWaiter), s.players.scanning = false →
      s.players.waitList = older ++ newer → moved = older.filter (fun x => x.recording == r) → moved ≠ [] →
      left = older.filter (fun x => x.recording != r) ++ newer → s.playersRest [] →
      (∀ (m : FanoutChange) (rest : List FanoutChange) (P : Player), s.bus.fanoutChanges = m :: rest →
        s.players.players[n] = P → P.recording = some r →
        (moved.length + P.fanCount = m.limit ∨ moved.length + P.fanCount < m.limit ∧ ∀ x ∈ newer, x.recording ≠ r) →
        (∀ j : PlayNo, s.players.players[j].state ≠ .idle
          ∧ (j ≠ n → ∀ x ∈ s.players.waitList, s.players.players[j].recording ≠ some x.recording)) →
        exec .fanoutLimitChange s = .next (State.mark { s with
          bus := { s.bus with fanoutChanges := rest }
          players := { s.players with
            fanout := m.limit, waitList := left
            players := s.players.players.set n
              { P with joins := P.joins ++ moved.map fun x => ⟨x.circ, x.tag, x.repeats⟩ }
            notices := s.players.notices ++ moved.map fun x => ⟨x.circ, x.tag, .moved n⟩ } } (.player n)))
      ∧ (∀ (v : ViewRecord) (rest : List PoolNotice) (g : Tag) (handed : Option Byte),
        s.store.poolNotices = .madeAvailable r v :: rest → 0 < v.length →
        s.players.players[n] = { Player.idleWith g with handed := handed } →
        (∀ j : PlayNo, j < n → s.players.players[j].state ≠ .idle) →
        (moved.length = s.players.fanout ∧ (∀ j : PlayNo, j ≠ n → s.players.players[j].state ≠ .idle)
          ∨ moved.length ≤ s.players.fanout ∧ ∀ x ∈ newer, x.recording ≠ r) →
        (∀ x ∈ left, x.recording ≠ r → s.players.view[x.recording] = none) →
        (∀ (j : PlayNo), ∀ x ∈ s.players.waitList, s.players.players[j].recording ≠ some x.recording) →
        exec .madeAvailableNotice s = .next (State.mark { s with
          store := { s.store with poolNotices := rest }
          players := { s.players with
            view := s.players.view.set r (some v), waitList := left
            players := s.players.players.set n { Player.idleWith g with
              handed := handed, state := .priming, recording := some r, refillOut := true
              joins := moved.map fun x => ⟨x.circ, x.tag, x.repeats⟩ }
            notices := s.players.notices ++ moved.map fun x => ⟨x.circ, x.tag, .moved n⟩
            refillReqs := s.players.refillReqs ++ [⟨n, r, 0, min 512 v.length, g⟩] } } (.player n))))
    ∧ (∀ (view : Vector (Option ViewRecord) 32) (rest : List PoolNotice) (r : RecNo) (v : ViewRecord) (g : Tag)
        (handed : Option Byte) (moved gone : List AnnWaiter) (limit : Nat),
      s.store.poolNotices = .scanDone view :: rest → s.players.scanning = true →
      (∀ m : PlayNo, s.players.players[m].recording = none ∧ s.players.players[m].state = .idle) →
      s.players.players[(0 : PlayNo)] = { Player.idleWith g with handed := handed } → view[r] = some v → 0 < v.length →
      moved = s.players.waitList.filter (fun x => x.recording == r) →
      gone = s.players.waitList.filter (fun x => x.recording != r) → (∀ x ∈ gone, view[x.recording] = none) →
      limit = ((s.bus.fanoutChanges.getLast?).map FanoutChange.limit).getD s.players.fanout →
      moved ≠ [] → moved.length ≤ limit →
      exec .scanDoneNotice s = .next (State.mark { s with
        bus := { s.bus with fanoutChanges := [] }
        store := { s.store with poolNotices := rest }
        players := { s.players with
          fanout := limit, view := view, scanning := false, waitList := []
          players := s.players.players.set 0 { Player.idleWith g with
            handed := handed, state := .priming, recording := some r, refillOut := true
            joins := moved.map fun x => ⟨x.circ, x.tag, x.repeats⟩ }
          notices := s.players.notices ++ gone.map (fun x => ⟨x.circ, x.tag, .unavailable⟩)
            ++ moved.map fun x => ⟨x.circ, x.tag, .moved 0⟩
          refillReqs := s.players.refillReqs ++ [⟨0, r, 0, min 512 v.length, g⟩] } } (.player 0)))
    ∧ (∀ (view : Vector (Option ViewRecord) 32) (rest : List PoolNotice), s.store.poolNotices = .scanDone view :: rest →
      (∀ m : PlayNo, s.players.players[m].recording = none ∧ s.players.players[m].state = .idle) →
      (∀ x ∈ s.players.waitList, view[x.recording] = none) → (s.players.scanning = true ∨ s.bus.fanoutChanges = []) →
      exec .scanDoneNotice s = .next { s with
        bus := { s.bus with fanoutChanges := [] }
        store := { s.store with poolNotices := rest }
        players := { s.players with
          fanout := ((s.bus.fanoutChanges.getLast?).map FanoutChange.limit).getD s.players.fanout
          view := view, scanning := false, waitList := []
          notices := s.players.notices ++ s.players.waitList.map fun x => ⟨x.circ, x.tag, .unavailable⟩ } })
    ∧ (∀ (r : RecNo) (n : PlayNo) (P : Player) (rest : List PoolNotice), s.store.poolNotices = .withdrawal r :: rest →
      s.players.players[n] = P → P.recording = some r → s.playersRest [n] →
      (∀ m : PlayNo, m ≠ n → s.players.players[m].recording ≠ some r) → (∀ x ∈ s.players.waitList, x.recording = r) →
      exec .recordingWithdrawal s = .next (State.mark { s with
        store := { s.store with poolNotices := rest }
        players := { s.players with
          view := s.players.view.set r none, waitList := []
          players := s.players.players.set n { Player.idleWith (P.gen + 1) with handed := P.handed }
          notices := s.players.notices ++ P.listeners.map (fun l => ⟨l.circ, l.tag, .unavailable⟩)
            ++ P.joins.map (fun j => ⟨j.circ, j.tag, .unavailable⟩)
            ++ s.players.waitList.map (fun x => ⟨x.circ, x.tag, .unavailable⟩)
          withdrawnAnswers := s.players.withdrawnAnswers ++ [r] } } (.player n)))

/-! ### The announcement store -/

/-- The pairing of store commands. A begin becomes the pending begin; any other command word clears it. A command word that
breaks a begin, an invalid command, CHUNK_READY and LOAD_ABANDON without a session, and a confirm without its begin or with
another recording field are each reported as SEQUENCE_ERROR, and change nothing else. STORE_HOLD, STORE_RESUME,
CLEAR_STORE_STATUS, and CHUNK_READY and LOAD_ABANDON within a session, once they have broken a begin, are taken by their own
rules. -/
def Obligations.StoreCommandPairing : Prop :=
  ∀ (w : Word) (s : State) (i : Instr) (r : RecNo) (code broken : Nat) (after : Nat → Option PendingBegin → State),
    s.headIs 0x312 w = true → r.val = w.toNat % 32 → code = w.toNat / 4096 →
    broken = (if s.store.pendingBegin = none then 0 else 1) →
    (after = fun n b => { s.taken with
      store := { s.store with pendingBegin := b }
      wire := { s.wire with
        submitted := s.wire.submitted ++
          List.replicate n ⟨.storeController, ⟨.sequenceError, BitVec.ofNat 6 r.val, w⟩⟩ } }) →
    (∀ kind, (code = 1 ∧ i = .loadBegin w ∧ kind = .load ∨ code = 5 ∧ i = .retireBegin w ∧ kind = .retire
        ∨ code = 7 ∧ i = .configBegin w ∧ kind = .config) →
      exec i s = .next (after broken (some ⟨kind, r⟩)))
    ∧ ((code = 0 ∨ 12 ≤ code) ∧ i = .invalidStoreCommand w
        ∨ s.store.session = none ∧ (code = 3 ∧ i = .chunkReady w ∨ code = 4 ∧ i = .loadAbandon w) →
      exec i s = .next (after (broken + 1) none))
    ∧ (∀ kind, (code = 2 ∧ i = .loadConfirm w ∧ kind = .load ∨ code = 6 ∧ i = .retireConfirm w ∧ kind = .retire
        ∨ code = 8 ∧ i = .configConfirm w ∧ kind = .config) →
      (s.store.pendingBegin = none → exec i s = .next (after 1 none))
      ∧ (∀ b, s.store.pendingBegin = some b →
        (b.kind ≠ kind → exec i s = .next (after 2 none))
        ∧ (b.kind = kind → b.recording ≠ r → exec i s = .next (after 1 none))))
    ∧ (∀ u : State, u = after broken none →
      (code = 9 → exec (.storeHold w) s = .next (if s.store.hold then u
        else State.mark { u with store := { u.store with hold := true } } .global))
      ∧ (code = 10 → s.store.engine ≠ .receiving ∨ s.store.session = none →
        exec (.storeResume w) s = .next (if s.store.hold then
          State.mark { u with store := { u.store with hold := false } } .global
        else u))
      ∧ (code = 11 →
        exec (.clearStoreStatus w) s = .next (State.mark (State.mark { u with store := { u.store with
          eraseFail := false, programFail := false, supplyAbort := false, lastRefusal := none
          lamp := if s.store.eraseFail || s.store.programFail || s.store.supplyAbort then ⟨.idle, 0, false⟩
            else s.store.lamp } } .storeStatus) .global)))
    ∧ (code = 3 ∧ i = .chunkReady w ∨ code = 4 ∧ i = .loadAbandon w ∨ code = 10 ∧ i = .storeResume w →
      exec i s = exec i { s with
        store := { s.store with pendingBegin := none }
        wire := { s.wire with
          submitted := s.wire.submitted ++
            List.replicate broken ⟨.storeController, ⟨.sequenceError, BitVec.ofNat 6 r.val, w⟩⟩ } })

/-- A confirm that completes a pair is checked in the order of its table, and the first check that fails refuses it: the
reason is recorded, the store status word marked, LOAD_REFUSED submitted with the operation and the reason. That a refused
CONFIG_CONFIRM too records its reason and marks the word is the model's choice (log 51). -/
def Obligations.ConfirmsAreCheckedInOrder : Prop :=
  ∀ (w : Word) (s : State) (i : Instr) (r : RecNo) (code n subject op : Nat) (kind : BeginKind) (sticky : Bool)
    (x : RefusalReason), s.headIs 0x312 w = true → r.val = w.toNat % 32 → code = w.toNat / 4096 →
    s.store.pendingBegin = some ⟨kind, r⟩ → n = s.store.paramHigh.toNat * 65536 + s.store.paramLow.toNat →
    sticky = (s.store.eraseFail || s.store.programFail || s.store.supplyAbort) →
    (code = 2 ∧ i = .loadConfirm w ∧ kind = .load ∧ op = 0 ∧ subject = r.val
        ∧ some x = (if n = 0 ∨ 2084880 < n then some .badLength
          else if s.store.dir[r].state ≠ .absent then some .alreadyExists
          else if sticky then some .statusNotClear
          else if s.store.engine ≠ .idle ∨ s.store.session ≠ none then some .engineBusy
          else if ((List.finRange 256).filter fun g =>
              g != 0 && (s.store.segMap[g] == .erased || s.store.segMap[g] == .dirty)).length < (n + 8175) / 8176 then
            some .noSpace
          else if s.store.paramFlags.getLsbD 15 && s.store.lock then some .lockProtected else none)
      ∨ code = 6 ∧ i = .retireConfirm w ∧ kind = .retire ∧ op = 1 ∧ subject = r.val
        ∧ some x = (if s.store.dir[r].state ≠ .available then some .notAvailable
          else if sticky then some .statusNotClear
          else if s.store.engine ≠ .idle then some .engineBusy
          else if s.store.dir[r].permanent && s.store.lock then some .lockProtected else none)
      ∨ code = 8 ∧ i = .configConfirm w ∧ kind = .config ∧ op = 2 ∧ subject = 32
        ∧ some x = (if sticky then some .statusNotClear
          else if s.store.engine ≠ .idle then some .engineBusy
          else if s.store.lock then some .lockProtected else none)) →
    exec i s = .next ((State.mark { s.taken with store := { s.store with pendingBegin := none, lastRefusal := some x } }
      .storeStatus).submit .storeController .loadRefused subject (0x100 * op + x.code))

/-- A confirm whose checks all pass begins its work. A load takes the lowest ERASED segments, then the lowest DIRTY ones, opens
a session and its LOADING record, and is in PREPARING, or with nothing to erase in RECEIVING with buffer A FILLING and
LOAD_STEP 0. A retirement enters RETIRING and sends the withdrawal. A configuration write takes the shadow's words, segment
0 becoming CONFIG absent. -/
def Obligations.AcceptedConfirmsBeginTheirWork : Prop :=
  ∀ (w : Word) (s : State) (r : RecNo) (code n : Nat), s.headIs 0x312 w = true → r.val = w.toNat % 32 →
    code = w.toNat / 4096 → s.store.eraseFail = false → s.store.programFail = false → s.store.supplyAbort = false →
    s.store.engine = .idle → n = s.store.paramHigh.toNat * 65536 + s.store.paramLow.toNat →
    (∀ (all segs : List SegNo) (clean : Prop), code = 2 → s.store.pendingBegin = some ⟨.load, r⟩ →
      1 ≤ n → n ≤ 2084880 → s.store.dir[r].state = .absent → s.store.session = none →
      (s.store.paramFlags.getLsbD 15 = false ∨ s.store.lock = false) →
      all = ((List.finRange 256).filter fun g => g != 0 && s.store.segMap[g] == .erased)
        ++ ((List.finRange 256).filter fun g => g != 0 && s.store.segMap[g] == .dirty) →
      segs = all.take ((n + 8175) / 8176) → segs.length = (n + 8175) / 8176 →
      (clean ↔ ∀ g ∈ segs, s.store.segMap[g] = .erased) →
      ∃ t, exec (.loadConfirm w) s = .next t
        ∧ (∀ (j : Nat) (g : SegNo), segs[j]? = some g → t.store.segMap[g] = .used r j)
        ∧ (∀ g : SegNo, g ∉ segs → t.store.segMap[g] = s.store.segMap[g])
        ∧ (clean → t.store.engine = .receiving ∧ t.store.bufA = ⟨.filling, [], 0⟩)
        ∧ (¬ clean → t.store.engine = .preparing ∧ t.store.bufA = s.store.bufA)
        ∧ t = { s.taken with
            store := { s.store with
              pendingBegin := none, segMap := t.store.segMap, engine := t.store.engine, bufA := t.store.bufA
              dir := s.store.dir.set r
                { state := .loading, firstSeg := segs.headD 0, segCount := (n + 8175) / 8176, length := n
                  permanent := s.store.paramFlags.getLsbD 15, bargeIn := s.store.paramFlags.getLsbD 14
                  gap := min (s.store.paramFlags.toNat % 64) 50 }
              session := some
                { recording := r, length := n, chunks := (n + 2047) / 2048, nextRecv := 0, nextProg := 0
                  segs := segs.map fun g => ⟨g, s.store.segMap[g] == .dirty, false, false⟩
                  busyReported := false, nextCode := 0 } }
            wire := { dirty := ((s.wire.dirty.put (.directory r) true).put .storeStatus true).put .global true
                      submitted := t.wire.submitted } }
        ∧ (clean → t.wire.submitted = s.wire.submitted ++ [⟨.storeController, ⟨.loadStep, BitVec.ofNat 6 r.val, 0⟩⟩])
        ∧ (¬ clean → t.wire.submitted = s.wire.submitted))
    ∧ (∀ segs : List SegNo, code = 6 → s.store.pendingBegin = some ⟨.retire, r⟩ → s.store.dir[r].state = .available →
      (s.store.dir[r].permanent = false ∨ s.store.lock = false) → segs.length = s.store.dir[r].segCount →
      (∀ (j : Nat) (g h : SegNo), segs[j]? = some g → (s.store.segMap[h] = .used r j ↔ h = g)) →
      exec (.retireConfirm w) s = .next (State.mark { s.taken with store := { s.store with
        pendingBegin := none, engine := .retiring, retire := some ⟨r, s.store.dir[r].segCount, segs, false⟩
        poolNotices := s.store.poolNotices ++ [.withdrawal r] } } .global))
    ∧ (code = 8 → s.store.pendingBegin = some ⟨.config, r⟩ → s.store.lock = false →
      exec (.configConfirm w) s = .next (State.mark { s.taken with store := { s.store with
        pendingBegin := none, engine := .configWriting, segMap := s.store.segMap.set 0 .configAbsent
        config := some ⟨s.bus.settings.words, .erase⟩ } } .global))

/-- The load buffer and CHUNK_READY. A load-buffer word goes to the FILLING buffer, low byte first; with a session and none
FILLING it is dropped, LOAD_BUFFER_BUSY once; without a session it is dropped. CHUNK_READY makes the FILLING buffer READY,
whichever of the two it is, and an EMPTY other one FILLING for the next chunk; with none FILLING it is refused with
CHUNK_OVERRUN; the engine in RECEIVING, not held, takes the chunk it waits for. -/
def Obligations.ChunkBuffersFillAndTurnReady : Prop :=
  (∀ (k : Fin 1024) (w : Word) (s : State), s.headIs (0x800 + k.val) w = true →
    (s.store.session = none → exec (.loadBufferWrite k w) s = .next s.taken)
    ∧ (∀ ss, s.store.session = some ss →
      (∀ b : Bank, s.store.bufIn .filling = some b → memWf 0xFF#8 (s.store.buf b).bytes = true →
        ∃ (t : State) (x : ChunkBuf), exec (.loadBufferWrite k w) s = .next t
          ∧ t = { s.taken with store := s.store.setBuf b { s.store.buf b with bytes := x.bytes } }
          ∧ ∀ j : Nat, x.byte j = if j = 2 * k.val then BitVec.ofNat 8 w.toNat
              else if j = 2 * k.val + 1 then BitVec.ofNat 8 (w.toNat / 256) else (s.store.buf b).byte j)
      ∧ (s.store.bufA.state ≠ .filling → s.store.bufB.state ≠ .filling →
        (ss.busyReported = true → exec (.loadBufferWrite k w) s = .next s.taken)
        ∧ (ss.busyReported = false →
          exec (.loadBufferWrite k w) s = .next (State.submit { s.taken with store := { s.store with
            session := some { ss with busyReported := true } } } .storeController .loadBufferBusy ss.recording.val k.val)))))
  ∧ (∀ (w : Word) (s : State) (ss : Session), s.headIs 0x312 w = true → w.toNat / 4096 = 3 →
    s.store.pendingBegin = none → s.store.session = some ss →
    (s.store.bufA.state ≠ .filling → s.store.bufB.state ≠ .filling →
      exec (.chunkReady w) s = .next (s.taken.submit .storeController .chunkOverrun ss.recording.val ss.nextRecv))
    ∧ (∀ (b : Bank) (x y : ChunkBuf) (c : StoreController), s.store.bufIn .filling = some b → s.store.buf b = x →
      s.store.buf b.other = y → x.chunk = ss.nextRecv →
      c = { (s.store.setBuf b { x with state := .ready }).setBuf b.other
          (if y.state = .empty ∧ ss.nextRecv + 1 < ss.chunks then ⟨.filling, [], ss.nextRecv + 1⟩ else y) with
        session := some { ss with
          nextRecv := ss.nextRecv + 1
          busyReported := if y.state = .empty ∧ ss.nextRecv + 1 < ss.chunks then false else ss.busyReported } } →
      (s.store.engine ≠ .receiving ∨ s.store.hold = true →
        exec (.chunkReady w) s = .next (State.mark { s.taken with store := c } .storeStatus))
      ∧ (s.store.engine = .receiving → s.store.hold = false → ss.nextProg = ss.nextRecv →
        b = .A ∨ y.state ≠ .ready ∨ y.chunk ≠ ss.nextRecv →
        exec (.chunkReady w) s = .next (State.mark (State.mark { s.taken with store := {
          c.setBuf b { x with state := .programming } with
          engine := .programming
          session := c.session.map fun u => { u with nextCode := 2048 * ss.nextProg } } } .storeStatus) .global))))

/-- LOAD_ABANDON within a session: the record becomes ABSENT, both buffers EMPTY, the session ends, LOAD_ABANDONED carries
the chunks programmed. With no step in progress its segments settle, ERASED where erased and untouched, BAD where BAD, else
DIRTY, and the engine becomes IDLE; with a step in progress both wait for its end. What counts as a step in progress follows
log 16, the contents of an EMPTY buffer log 40. -/
def Obligations.LoadAbandonEndsTheSession : Prop :=
  ∀ (w : Word) (s : State) (ss : Session), s.headIs 0x312 w = true → w.toNat / 4096 = 4 →
    s.store.pendingBegin = none → s.store.session = some ss → s.store.engine ≠ .idle →
    (ss.segs.map SessionSeg.seg).Nodup →
    ∃ t, exec (.loadAbandon w) s = .next t
      ∧ t.store.dir = s.store.dir.set ss.recording DirRecord.absent ∧ t.store.session = none
      ∧ t.store.bufA = ⟨.empty, [], 0⟩ ∧ t.store.bufB = ⟨.empty, [], 0⟩
      ∧ t.wire.submitted = s.wire.submitted ++
          [⟨.storeController, ⟨.loadAbandoned, BitVec.ofNat 6 ss.recording.val, BitVec.ofNat 16 ss.nextProg⟩⟩]
      ∧ t.wire.dirty.get (.directory ss.recording) = true ∧ t.wire.dirty.get .storeStatus = true
      ∧ (s.store.stepInProgress = true → t.store.settling = some ss ∧ t.store.engine = s.store.engine
          ∧ t.store.segMap = s.store.segMap)
      ∧ (s.store.stepInProgress = false → t.store.settling = none ∧ t.store.engine = .idle
          ∧ t.wire.dirty.get .global = true
          ∧ (∀ g ∈ ss.segs, t.store.segMap[g.seg] =
              if s.store.segMap[g.seg] = .bad then .bad
              else if g.headerDone = false ∧ g.touched = false ∧ g.toErase = false then .erased else .dirty)
          ∧ (∀ h : SegNo, (∀ g ∈ ss.segs, g.seg ≠ h) → t.store.segMap[h] = s.store.segMap[h]))
      ∧ t = { s.taken with wire := t.wire, store := { s.store with
          dir := t.store.dir, session := none, settling := t.store.settling, engine := t.store.engine
          segMap := t.store.segMap, bufA := t.store.bufA, bufB := t.store.bufB, pulses := t.store.pulses
          attempts := t.store.attempts } }

/-- STORE_HOLD and STORE_RESUME set and clear the hold flag; an engine in RECEIVING that is resumed takes the READY chunk it waits
for, its buffer PROGRAMMING from the chunk's first code. CLEAR_STORE_STATUS clears the sticky flags and the last refusal
reason, each with its marks; the lock input is followed live; on the pool's answer a retiring recording becomes RETIRING. -/
def Obligations.HoldStatusLockAndWithdrawnAnswer : Prop :=
  (∀ (w : Word) (s : State), s.headIs 0x312 w = true → s.store.pendingBegin = none →
    (w.toNat / 4096 = 9 → exec (.storeHold w) s = .next (if s.store.hold then s.taken
      else State.mark { s.taken with store := { s.store with hold := true } } .global))
    ∧ (w.toNat / 4096 = 10 → s.store.engine ≠ .receiving ∨ s.store.session = none →
      exec (.storeResume w) s = .next (if s.store.hold then
        State.mark { s.taken with store := { s.store with hold := false } } .global
      else s.taken))
    ∧ (∀ (ss : Session) (awaited : Bank → Prop), w.toNat / 4096 = 10 → s.store.engine = .receiving →
      s.store.session = some ss →
      (∀ b, awaited b ↔ (s.store.buf b).state = .ready ∧ (s.store.buf b).chunk = ss.nextProg) →
      (s.store.hold = false → exec (.storeResume w) s = .next s.taken)
      ∧ (s.store.hold = true → (∀ b, ¬ awaited b) →
        exec (.storeResume w) s = .next (State.mark { s.taken with store := { s.store with hold := false } } .global))
      ∧ (∀ b, s.store.hold = true → awaited b → b = .A ∨ ¬ awaited .A →
        exec (.storeResume w) s = .next (State.mark (State.mark { s.taken with store := {
          s.store.setBuf b { s.store.buf b with state := .programming } with
          hold := false, engine := .programming
          session := some { ss with nextCode := 2048 * ss.nextProg } } } .storeStatus) .global)))
    ∧ (w.toNat / 4096 = 11 →
      exec (.clearStoreStatus w) s = .next (State.mark (State.mark { s.taken with store := { s.store with
        eraseFail := false, programFail := false, supplyAbort := false, lastRefusal := none
        lamp := if s.store.eraseFail || s.store.programFail || s.store.supplyAbort then ⟨.idle, 0, false⟩
          else s.store.lamp } } .storeStatus) .global)))
  ∧ (∀ (b : Bool) (s : State), s.running = true →
    exec (.storeLockChange b) s = .next
      (if b = s.store.lock then s else State.mark { s with store := { s.store with lock := b } } .global))
  ∧ (∀ (s : State) (r : RecNo) (rest : List RecNo) (j : RetireJob), s.running = true →
    s.players.withdrawnAnswers = r :: rest → s.store.retire = some j → j.recording = r → j.answered = false →
    exec .withdrawnAnswer s = .next (State.mark { s with
      players := { s.players with withdrawnAnswers := rest }
      store := { s.store with
        retire := some { j with answered := true }
        dir := s.store.dir.set r { s.store.dir[r] with state := .retiring } } } (.directory r)))

/-- Refill service. A request joins the refill queue in place of one its player has waiting, and suspends an erase pulse in
progress. With the port free the arbiter takes the request of the player with the lowest FIFO level, then the lowest number,
and reads if its recording is AVAILABLE, else discards it. At the end of the read the codes of the recording go to the
player with the request's generation; a read that a reset has cancelled is not delivered. These clauses are the model's
choices: that the request taken is the oldest in flight, whatever player sent it (log 47), that the end of the read runs the
local clock to its moment (log 2), and that the recording is not tested again then (log 17). -/
def Obligations.RefillsAreServed : Prop :=
  (∀ (s : State) (q : RefillReq) (rest : List RefillReq), s.running = true → s.players.refillReqs = q :: rest →
    exec .refillRequest s = .next { s with
      players := { s.players with refillReqs := rest }
      store := (match s.store.port with
        | some ⟨.erasePulse g, us⟩ => { s.store with
            refillQ := (s.store.refillQ.filter fun x => x.player != q.player) ++ [q], port := none
            suspended := some ⟨g, us⟩ }
        | _ => { s.store with refillQ := (s.store.refillQ.filter fun x => x.player != q.player) ++ [q] }) })
  ∧ (∀ (s : State) (q : RefillReq) (level : PlayNo → Nat), s.running = true → s.store.port = none →
    (level = fun n => s.players.players[n].fifo.length) → q ∈ s.store.refillQ →
    (s.store.refillQ.map RefillReq.player).Nodup →
    (∀ x ∈ s.store.refillQ, x ≠ q → level q.player < level x.player
      ∨ level q.player = level x.player ∧ q.player < x.player) →
    exec .refillReadStart s = .next { s with store := { s.store with
      refillQ := s.store.refillQ.filter fun x => x != q
      port := if s.store.dir[q.recording].state = .available then some ⟨.refill q true, 40⟩ else none } })
  ∧ (∀ (s u : State) (q : RefillReq) (us : Nat) (send : Bool) (codes : List Byte), s.running = true →
    s.store.port = some ⟨.refill q send, us⟩ → u = s.runClock us →
    (send = false →
      exec .refillReadDone s = .next { u with store := { u.store with port := none } })
    ∧ (send = true → codes.length = q.count →
      (∀ (j : Nat) (c : Byte), codes[j]? = some c → ∃ g : SegNo,
        s.store.segMap[g] = .used q.recording ((q.start + j) / 8176)
        ∧ (∀ h : SegNo, s.store.segMap[h] = .used q.recording ((q.start + j) / 8176) → h = g)
        ∧ c = s.storeRead g (16 + (q.start + j) % 8176)) →
      exec .refillReadDone s = .next { u with store := { u.store with
        port := none, deliveries := s.store.deliveries ++ [⟨q.player, q.gen, codes⟩] } }))

/-- The erase of a segment. The engine, not held, with the port free and no refill waiting, starts a pulse of 5 ms on the
segment to be erased; a suspended pulse resumes for its remaining time. The pulse leaves the segment with what the device
left, every other byte as before, and its verify of 1 ms follows. A verify that finds a byte not FFh, before the 100th
pulse, leads to another pulse; one that reads FFh everywhere completes the erase: of a retiring recording, RETIRED when it
was the last segment; of a load, RECEIVING when it was the last; of segment 0, the values are next. For an abandoned load the
step in progress is its last: no step follows it, and at its end the segments settle and the engine becomes IDLE, the segment
of a verify that reads FFh everywhere having its verified erase. These clauses are the model's choices: that what the device
leaves is an operand (log 8), that the ends of pulse and verify run the local clock to their moment (log 2), and that a pulse
and its verify are two steps, so that no verify follows the pulse of an abandoned load (log 16). -/
def Obligations.EraseStepsRun : Prop :=
  (∀ (s : State) (g : SegNo), s.running = true → s.store.eraseTarget = some g → s.store.port = none →
    s.store.suspended = none → s.store.refillQ = [] → s.store.settling = none →
    (s.store.hold = true → ∀ good, exec (.erasePulseStart good) s = .next s)
    ∧ (s.store.hold = false →
      exec (.erasePulseStart true) s = .next { s with store := { s.store with
        port := some ⟨.erasePulse g, 5000⟩, pulses := s.store.pulses + 1, supplyGood := true
        session := s.store.session.map fun ss => { ss with
          segs := ss.segs.map fun x => if x.seg = g then { x with touched := true } else x } } }))
  ∧ (∀ (s : State) (g : SegNo) (us : Nat) (left : List (Nat × Byte)), s.running = true →
    s.store.suspended = some ⟨g, us⟩ → s.store.port = none → s.store.refillQ = [] →
    exec (.erasePulseResume true left) s = .next { s with store := { s.store with
      port := some ⟨.erasePulse g, us⟩, suspended := none, supplyGood := true } })
  ∧ (∀ (s u : State) (g : SegNo) (us : Nat) (left : List (Nat × Byte)), s.running = true →
    s.store.port = some ⟨.erasePulse g, us⟩ → s.store.settling = none → memWf 0xFF#8 s.store.bytes = true →
    memWf 0xFF#8 left = true → (∀ c ∈ left, c.1 < 8192) → u = s.runClock us →
    ∃ t, exec (.erasePulseDone left) s = .next t
      ∧ (∀ (h : SegNo) (off : Nat), off < 8192 →
          t.storeRead h off = if h = g then memRead 0xFF#8 left off else s.storeRead h off)
      ∧ t = { u with store := { u.store with bytes := t.store.bytes, port := some ⟨.eraseVerify g, 1000⟩ } })
  ∧ (∀ (s u : State) (g : SegNo) (us : Nat), s.running = true → s.store.port = some ⟨.eraseVerify g, us⟩ →
    s.store.settling = none → memWf 0xFF#8 s.store.bytes = true → u = s.runClock us →
    ((∃ off, off < 8192 ∧ s.storeRead g off ≠ 0xFF#8) → s.store.pulses < 100 →
      exec .eraseVerifyDone s = .next { u with store := { u.store with port := none } })
    ∧ ((∀ off, off < 8192 → s.storeRead g off = 0xFF#8) →
      (∀ j, s.store.session = none → s.store.retire = none → s.store.config = some j →
        exec .eraseVerifyDone s = .next { u with store := { u.store with
          port := none, pulses := 0, attempts := 0, config := some { j with phase := .values } } })
      ∧ (∀ j, s.store.session = none → s.store.retire = some j →
        (j.remaining.filter (fun x => x != g) ≠ [] →
          exec .eraseVerifyDone s = .next { u with store := { u.store with
            port := none, pulses := 0, attempts := 0, segMap := s.store.segMap.set g .erased
            retire := some { j with remaining := j.remaining.filter fun x => x != g } } })
        ∧ (j.remaining.filter (fun x => x != g) = [] → s.store.engine = .retiring →
          exec .eraseVerifyDone s = .next ((State.mark (State.mark { u with store := { u.store with
            port := none, pulses := 0, attempts := 0, segMap := s.store.segMap.set g .erased, retire := none
            dir := s.store.dir.set j.recording DirRecord.absent, engine := .idle } } (.directory j.recording)) .global).submit
              .storeController .retired j.recording.val j.segCount)))
      ∧ (∀ (ss ss' : Session), s.store.session = some ss →
        ss' = { ss with segs := ss.segs.map fun x =>
          if x.seg = g then { x with toErase := false, touched := false } else x } →
        ((∃ x ∈ ss'.segs, x.toErase = true) →
          exec .eraseVerifyDone s = .next { u with store := { u.store with
            port := none, pulses := 0, attempts := 0, session := some ss' } })
        ∧ ((∀ x ∈ ss'.segs, x.toErase = false) → s.store.engine = .preparing →
          exec .eraseVerifyDone s = .next ((State.mark (State.mark { u with store := { u.store with
            port := none, pulses := 0, attempts := 0, engine := .receiving, bufA := ⟨.filling, [], 0⟩
            session := some { ss' with busyReported := false } } } .storeStatus) .global).submit
              .storeController .loadStep ss.recording.val 0)))))
  ∧ (∀ (s : State) (ss : Session) (good : Bool), s.store.settling = some ss → exec (.erasePulseStart good) s = .next s)
  ∧ (∀ (s u : State) (ss : Session) (g : SegNo) (us : Nat), s.running = true → s.store.settling = some ss →
    s.store.engine ≠ .idle → (ss.segs.map SessionSeg.seg).Nodup → memWf 0xFF#8 s.store.bytes = true → u = s.runClock us →
    (∀ left : List (Nat × Byte), s.store.port = some ⟨.erasePulse g, us⟩ → memWf 0xFF#8 left = true →
      (∀ c ∈ left, c.1 < 8192) →
      ∃ t, exec (.erasePulseDone left) s = .next t
        ∧ (∀ (h : SegNo) (off : Nat), off < 8192 →
            t.storeRead h off = if h = g then memRead 0xFF#8 left off else s.storeRead h off)
        ∧ State.settles { u with store := { u.store with bytes := t.store.bytes, port := none } } ss t)
    ∧ (s.store.port = some ⟨.eraseVerify g, us⟩ → s.store.session = none →
      ((∀ off, off < 8192 → s.storeRead g off = 0xFF#8) →
        ∃ t, exec .eraseVerifyDone s = .next t
          ∧ State.settles { u with store := { u.store with port := none } }
            { ss with segs := ss.segs.map fun x => if x.seg = g then { x with toErase := false, touched := false } else x } t)
      ∧ ((∃ off, off < 8192 ∧ s.storeRead g off ≠ 0xFF#8) → s.store.pulses < 100 →
        ∃ t, exec .eraseVerifyDone s = .next t
          ∧ State.settles { u with store := { u.store with port := none } } ss t)))

/-- A program step. The engine, not held, with the port free and no refill waiting, starts an attempt of 250 µs; it turns to
0 the bits of the named bytes that are 1 in the byte and 0 in the value, but those the device missed, every other byte
standing. One that does not verify, before the 8th, leads to another; one that verifies ends the step: a header is done,
codes advance; a chunk's end frees its buffer, which turns FILLING for the next chunk to receive when the other is not FILLING
and chunks are left, with LOAD_STEP and a lamp pulse, the engine going to FINISHING after the last chunk and otherwise to
RECEIVING, or on to the next chunk when the other buffer is READY with it and no hold is set; the completion mark makes the
recording AVAILABLE with LOAD_DONE, and so for the configuration record. For an abandoned load the attempt in progress is its
last: verified or not, before the 8th, its end settles the segments, and the engine becomes IDLE. These clauses are the model's
choices: that what the device missed is an operand (log 8), that the attempt's end runs the local clock to its moment (log 2),
that an attempt and not the page is the step in progress (log 16), and the contents of an EMPTY buffer (log 40). -/
def Obligations.ProgramStepsRun : Prop :=
  (∀ (s : State) (x : ProgramStep), s.running = true → s.store.programTarget = some x → s.store.port = none →
    s.store.suspended = none → s.store.refillQ = [] → s.store.settling = none →
    (s.store.hold = true → ∀ good, exec (.programAttemptStart good) s = .next s)
    ∧ (s.store.hold = false →
      exec (.programAttemptStart true) s = .next { s with store := { s.store with
        port := some ⟨.attempt x, 250⟩, attempts := s.store.attempts + 1, supplyGood := true
        session := s.store.session.map fun ss => { ss with
          segs := ss.segs.map fun y => if y.seg = x.seg then { y with touched := true } else y } } }))
  ∧ (∀ (s u : State) (x : ProgramStep) (us : Nat) (missed : List Byte), s.running = true →
    s.store.port = some ⟨.attempt x, us⟩ → s.store.settling = none → memWf 0xFF#8 s.store.bytes = true →
    (x.bytes.map Prod.fst).Nodup → (∀ c ∈ x.bytes, c.1 < 8192) → u = s.runClock us →
    ∃ t m, exec (.programAttemptDone missed) s = .next t ∧ t.store.bytes = m
      ∧ (∀ (j off : Nat) (v : Byte), x.bytes[j]? = some (off, v) →
          t.storeRead x.seg off = s.storeRead x.seg off &&& (v ||| missed.getD j 0))
      ∧ (∀ (g : SegNo) (off : Nat), off < 8192 → (g ≠ x.seg ∨ ∀ c ∈ x.bytes, c.1 ≠ off) →
          t.storeRead g off = s.storeRead g off)
      ∧ ((∃ (j off : Nat) (v : Byte), x.bytes[j]? = some (off, v)
            ∧ s.storeRead x.seg off &&& (v ||| missed.getD j 0) ≠ v) → s.store.attempts < 8 →
          t = { u with store := { u.store with bytes := m, port := none } })
      ∧ ((∀ (j off : Nat) (v : Byte), x.bytes[j]? = some (off, v) →
            s.storeRead x.seg off &&& (v ||| missed.getD j 0) = v) →
          ∀ c : StoreController, c = { u.store with bytes := m, port := none, pulses := 0, attempts := 0 } →
          (∀ (i : Nat) (ss : Session), x.what = .header i → s.store.session = some ss →
            ∃ ss', t = { u with store := { c with session := some ss' } }
              ∧ ss' = { ss with segs := ss'.segs } ∧ ss'.segs.length = ss.segs.length
              ∧ ∀ (j : Nat) (y : SessionSeg), ss.segs[j]? = some y →
                  ss'.segs[j]? = some (if j = i then { y with headerDone := true } else y))
          ∧ (∀ (upTo : Nat) (ss : Session), x.what = .codes upTo → s.store.session = some ss →
            upTo < min ss.length (2048 * (ss.nextProg + 1)) →
            t = { u with store := { c with session := some { ss with nextCode := upTo } } })
          ∧ (∀ (upTo : Nat) (ss : Session) (b o : Bank) (y : ChunkBuf) (refill more : Bool), x.what = .codes upTo →
            s.store.session = some ss → min ss.length (2048 * (ss.nextProg + 1)) ≤ upTo →
            s.store.bufIn .programming = some b → s.store.engine = .programming → o ≠ b → y = s.store.buf o →
            (refill = true ↔ y.state ≠ .filling ∧ ss.nextRecv < ss.chunks) →
            (more = true ↔ ss.nextProg + 1 < ss.chunks ∧ s.store.hold = false ∧ y.state = .ready
              ∧ y.chunk = ss.nextProg + 1) →
            t = (State.mark (State.mark { u with store :=
                ((({ c with
                  engine := if ss.chunks ≤ ss.nextProg + 1 then .finishing else if more then .programming else .receiving
                  lamp := if s.store.eraseFail || s.store.programFail || s.store.supplyAbort then u.store.lamp
                    else u.store.lamp.request
                  session := some { ss with
                    nextProg := ss.nextProg + 1, busyReported := !refill && ss.busyReported
                    nextCode := if more then 2048 * (ss.nextProg + 1) else upTo } } : StoreController).setBuf b
                  (if refill then ⟨.filling, [], ss.nextRecv⟩ else ⟨.empty, [], 0⟩)).setBuf o
                  (if more then { y with state := .programming } else y)) } .storeStatus) .global).submit
                .storeController .loadStep ss.recording.val (ss.nextProg + 1))
          ∧ (∀ (ss : Session) (d : DirRecord), x.what = .completionMark → s.store.session = some ss →
            d = s.store.dir[ss.recording] → s.store.engine ≠ .idle →
            t = (State.mark (State.mark (State.mark { u with store := { c with
              dir := s.store.dir.set ss.recording { d with state := .available }, session := none, engine := .idle
              bufA := ⟨.empty, [], 0⟩, bufB := ⟨.empty, [], 0⟩
              poolNotices := s.store.poolNotices ++ [.madeAvailable ss.recording ⟨d.length, d.bargeIn, d.gap⟩] } }
                (.directory ss.recording)) .storeStatus) .global).submit .storeController .loadDone ss.recording.val d.segCount)
          ∧ (∀ j : ConfigJob, x.what = .configValues → s.store.config = some j →
            t = { u with store := { c with config := some { j with phase := .mark } } })
          ∧ (x.what = .configMark → s.store.engine ≠ .idle →
            t = (State.mark { u with store := { c with
              segMap := s.store.segMap.set 0 .configValid, config := none, engine := .idle } } .global).submit
                .storeController .loadDone 32 0)))
  ∧ (∀ (s : State) (ss : Session) (good : Bool), s.store.settling = some ss → exec (.programAttemptStart good) s = .next s)
  ∧ (∀ (s u : State) (ss : Session) (x : ProgramStep) (us : Nat) (missed : List Byte), s.running = true →
    s.store.port = some ⟨.attempt x, us⟩ → s.store.settling = some ss → s.store.engine ≠ .idle →
    (ss.segs.map SessionSeg.seg).Nodup → memWf 0xFF#8 s.store.bytes = true → (x.bytes.map Prod.fst).Nodup →
    (∀ c ∈ x.bytes, c.1 < 8192) → u = s.runClock us →
    (s.store.attempts < 8 ∨ ∀ (j off : Nat) (v : Byte), x.bytes[j]? = some (off, v) →
      s.storeRead x.seg off &&& (v ||| missed.getD j 0) = v) →
    ∃ t, exec (.programAttemptDone missed) s = .next t
      ∧ (∀ (j off : Nat) (v : Byte), x.bytes[j]? = some (off, v) →
          t.storeRead x.seg off = s.storeRead x.seg off &&& (v ||| missed.getD j 0))
      ∧ (∀ (g : SegNo) (off : Nat), off < 8192 → (g ≠ x.seg ∨ ∀ c ∈ x.bytes, c.1 ≠ off) →
          t.storeRead g off = s.storeRead g off)
      ∧ State.settles { u with store := { u.store with bytes := t.store.bytes, port := none } } ss t)

/-- A failure ends the work in hand: supply low at the start or resumption of a step or falling during one (SUPPLY_ABORT),
the 100th verify not FFh (ERASE_FAIL), the 8th attempt not verified (PROGRAM_FAIL). The flag is set, STORE_ERROR names
recording, flag and segment, the engine becomes IDLE, the recording ABSENT, and the segment concerned DIRTY, BAD after a
failed erase, or CONFIG absent. The other segments of a load settle as for an abandoned session, those of a retirement not
yet erased become DIRTY, every other segment and every byte outside the segment concerned stands. A failing step of an abandoned
load does the same, its segments settling as for the abandonment. With no pulse or attempt in progress a fall of the supply
does nothing else. These clauses are the model's choices: that what the device left or missed is an operand (log 8), that the
ends of verify and attempt run the local clock to their moment (log 2), what counts as the abandoned load's step in progress
(log 16), and the contents of an EMPTY buffer (log 40). -/
def Obligations.FailuresEndTheWork : Prop :=
  (∀ (s : State) (left : List (Nat × Byte)) (missed : List Byte),
    (∀ q, s.store.port = some q → q.step.isPulse = false ∧ q.step.isAttempt = false) →
    exec (.storeSupplyGoodFall left missed) s = .next { s with store := { s.store with supplyGood := false } })
  ∧ (∀ (s : State) (i : Instr) (g : SegNo) (flag : StoreFlag) (us : Nat) (x : ProgramStep) (left : List (Nat × Byte))
    (missed : List Byte), s.running = true → s.store.engine ≠ .idle →
    ((s.store.port = none ∧ s.store.suspended = none ∧ s.store.refillQ = [] ∧ s.store.hold = false ∧ s.store.settling = none
          ∧ flag = .supplyAbort ∧ (i = .erasePulseStart false ∧ s.store.eraseTarget = some g
            ∨ i = .programAttemptStart false ∧ s.store.programTarget = some x ∧ x.seg = g))
      ∨ s.store.port = none ∧ s.store.suspended = some ⟨g, us⟩ ∧ s.store.refillQ = [] ∧ flag = .supplyAbort
          ∧ i = .erasePulseResume false left
      ∨ (s.store.port = some ⟨.erasePulse g, us⟩ ∨ s.store.port = some ⟨.attempt x, us⟩ ∧ x.seg = g)
          ∧ flag = .supplyAbort ∧ i = .storeSupplyGoodFall left missed
      ∨ s.store.port = some ⟨.eraseVerify g, us⟩ ∧ memWf 0xFF#8 s.store.bytes = true
          ∧ (∃ off, off < 8192 ∧ s.storeRead g off ≠ 0xFF#8) ∧ 100 ≤ s.store.pulses ∧ flag = .eraseFail
          ∧ i = .eraseVerifyDone
      ∨ s.store.port = some ⟨.attempt x, us⟩ ∧ x.seg = g ∧ (x.bytes.map Prod.fst).Nodup ∧ (∀ c ∈ x.bytes, c.1 < 8192)
          ∧ (∃ (j off : Nat) (v : Byte), x.bytes[j]? = some (off, v)
            ∧ s.storeRead g off &&& (v ||| missed.getD j 0) ≠ v)
          ∧ memWf 0xFF#8 s.store.bytes = true ∧ 8 ≤ s.store.attempts ∧ flag = .programFail
          ∧ i = .programAttemptDone missed) →
    ∃ t u, exec i s = .next t
      ∧ u = (if i = .eraseVerifyDone ∨ i = .programAttemptDone missed then s.runClock us else s)
      ∧ t = { u with wire := t.wire, store := { s.store with
          engine := .idle, port := none, suspended := none, lamp := ⟨.idle, 0, false⟩, pulses := 0, attempts := 0
          eraseFail := s.store.eraseFail || flag == .eraseFail
          programFail := s.store.programFail || flag == .programFail
          supplyAbort := s.store.supplyAbort || flag == .supplyAbort
          supplyGood := s.store.supplyGood && flag != .supplyAbort
          bytes := t.store.bytes, segMap := t.store.segMap, dir := t.store.dir, session := t.store.session
          settling := t.store.settling, retire := t.store.retire, config := t.store.config
          bufA := t.store.bufA, bufB := t.store.bufB } }
      ∧ (s.store.settling = none → t.store.settling = none)
      ∧ (i = .erasePulseStart false ∨ i = .programAttemptStart false ∨ i = .eraseVerifyDone →
        t.store.bytes = s.store.bytes)
      ∧ (memWf 0xFF#8 s.store.bytes = true → (∀ c ∈ x.bytes, c.1 < 8192) →
        ∀ (h : SegNo) (off : Nat), h ≠ g → off < 8192 → t.storeRead h off = s.storeRead h off)
      ∧ t.store.segMap[g] = (if g = 0 then .configAbsent else if flag = .eraseFail then .bad else .dirty)
      ∧ (∀ report : Nat → List Submission,
        (report = fun subject => s.wire.submitted ++ [⟨.storeController,
          ⟨.storeError, BitVec.ofNat 6 subject, BitVec.ofNat 16 (0x100 * flag.code + g.val)⟩⟩]) →
        (∀ ss, s.store.session = some ss →
          t.store.session = none ∧ t.store.bufA = ⟨.empty, [], 0⟩ ∧ t.store.bufB = ⟨.empty, [], 0⟩
          ∧ t.store.retire = s.store.retire ∧ t.store.config = s.store.config
          ∧ t.store.dir = s.store.dir.set ss.recording DirRecord.absent ∧ t.wire.submitted = report ss.recording.val
          ∧ t.wire.dirty = ((s.wire.dirty.put (.directory ss.recording) true).put .storeStatus true).put .global true
          ∧ ((ss.segs.map SessionSeg.seg).Nodup → ∀ y ∈ ss.segs, y.seg ≠ g → t.store.segMap[y.seg] =
              if s.store.segMap[y.seg] = .bad then .bad
              else if y.headerDone = false ∧ y.touched = false ∧ y.toErase = false then .erased else .dirty)
          ∧ (∀ h : SegNo, h ≠ g → (∀ y ∈ ss.segs, y.seg ≠ h) → t.store.segMap[h] = s.store.segMap[h]))
        ∧ (s.store.session = none → t.store.session = none ∧ t.store.bufA = s.store.bufA ∧ t.store.bufB = s.store.bufB)
        ∧ (∀ ss, s.store.session = none → s.store.settling = some ss →
          t.store.settling = none ∧ t.store.retire = s.store.retire ∧ t.store.config = s.store.config
          ∧ t.store.dir = s.store.dir ∧ t.wire.submitted = report ss.recording.val
          ∧ t.wire.dirty = s.wire.dirty.put .global true
          ∧ ((ss.segs.map SessionSeg.seg).Nodup → ∀ y ∈ ss.segs, y.seg ≠ g → t.store.segMap[y.seg] =
              if s.store.segMap[y.seg] = .bad then .bad
              else if y.headerDone = false ∧ y.touched = false ∧ y.toErase = false then .erased else .dirty)
          ∧ (∀ h : SegNo, h ≠ g → (∀ y ∈ ss.segs, y.seg ≠ h) → t.store.segMap[h] = s.store.segMap[h]))
        ∧ (∀ j, s.store.session = none → s.store.settling = none → s.store.retire = some j →
          t.store.retire = none ∧ t.store.config = s.store.config
          ∧ t.store.dir = s.store.dir.set j.recording DirRecord.absent ∧ t.wire.submitted = report j.recording.val
          ∧ t.wire.dirty = (s.wire.dirty.put (.directory j.recording) true).put .global true
          ∧ (∀ h : SegNo, h ≠ g → t.store.segMap[h] = if h ∈ j.remaining then .dirty else s.store.segMap[h]))
        ∧ (s.store.session = none → s.store.settling = none → s.store.retire = none →
          t.store.retire = none ∧ t.store.config = none ∧ t.store.dir = s.store.dir ∧ t.wire.submitted = report 32
          ∧ t.wire.dirty = s.wire.dirty.put .global true
          ∧ ∀ h : SegNo, h ≠ g → t.store.segMap[h] = s.store.segMap[h])))

/-- The end of the store scan. Of a store with every segment erased: every segment is ERASED, no recording is AVAILABLE, the
settings stand. Of any store: segment 0 is CONFIG valid when format mark and completion mark stand, and its recorded words
are then clamped and applied to the setting fields without a host-set mark, the owners holding them; a complete recording, of
two with one number the one with the lower first segment, is AVAILABLE with the fields of its first header, its segments USED;
every other recording is ABSENT; a segment no kept recording claims is ERASED when all its bytes read FFh and DIRTY otherwise.
The engine is IDLE, the scan complete, SCAN_DONE submitted with the count of AVAILABLE recordings, the player pool told, and
every directory word and the global status word marked. The places of the bytes in headers and record follow logs 6 and 7,
that only changed fields are handed over log 31, that the player pool's change stays in flight log 42, that an unlisted byte of
the store reads FFh log 5: these are the model's choices. -/
def Obligations.ScanOfAnErasedStore : Prop :=
  (∀ s : State, s.running = true → s.store.engine = .scanning → s.store.bytes = [] →
    ∃ t, exec .storeScanEnd s = .next t
      ∧ t = { s with store := t.store, wire := t.wire }
      ∧ t.store = { s.store with
          engine := .idle, scanComplete := true, dir := t.store.dir, segMap := t.store.segMap
          poolNotices := s.store.poolNotices ++ [.scanDone (Vector.replicate 32 none)] }
      ∧ (∀ r : RecNo, t.store.dir[r].state = .absent)
      ∧ (∀ g : SegNo, t.store.segMap[g] = if g = 0 then .configAbsent else .erased)
      ∧ t.wire.submitted = s.wire.submitted ++ [⟨.storeController, ⟨.scanDone, 0, 0⟩⟩]
      ∧ (∀ x : PostedWord, t.wire.dirty.get x =
          (s.wire.dirty.get x || x == .global || decide (∃ r, x = .directory r))))
  ∧ (∀ (s : State) (valid : Bool) (W : Nat → Nat) (old T : Settings) (m : SettingMarks), s.running = true →
    s.store.engine = .scanning → memWf 0xFF#8 s.store.bytes = true → old = s.bus.settings → m = s.bus.marks →
    (valid = true ↔ s.storeRead 0 0 = 0x3C#8 ∧ s.storeRead 0 1 = 0xC3#8 ∧ s.storeRead 0 28 = 0#8) →
    (∀ k, W k = (s.storeRead 0 (2 + 2 * k)).toNat + 256 * (s.storeRead 0 (3 + 2 * k)).toNat) →
    (valid = false → T = old) →
    (valid = true →
      T.gap = (if m.gap then old.gap else min (W 0 % 32) 20)
      ∧ T.fanout = (if m.fanout then old.fanout else min (max (W 0 / 256 % 128) 1) 64)
      ∧ T.waitLimit = (if m.waitLimit then old.waitLimit else max (W 1 % 256) 1)
      ∧ T.holdoff = (if m.holdoff then old.holdoff else W 1 / 256)
      ∧ (∀ g : Fin 3, T.up[g] = (if m.up[g] then old.up[g] else min (W (2 + g.val) / 256 % 128) 64)
        ∧ T.down[g] = if m.down[g] then old.down[g] else min (W (2 + g.val) % 128) 64)
      ∧ (∀ g : Cls,
        T.recording[g] = (if m.recording[g] then old.recording[g]
          else if W (5 + 2 * g.val) / 2 ^ 15 = 1 then some (Fin.ofNat 32 (W (5 + 2 * g.val) % 32)) else none)
        ∧ T.plan[g] = (if m.plan[g] then old.plan[g]
          else if W (6 + 2 * g.val) / 2 ^ 15 = 1 then some (Fin.ofNat 16 (W (6 + 2 * g.val) / 256 % 16)) else none)
        ∧ T.repeats[g] = if m.repeats[g] then old.repeats[g] else Fin.ofNat 16 (W (6 + 2 * g.val) % 16))) →
    ∃ t view, exec .storeScanEnd s = .next t
      ∧ t = { s with
          bus := { s.bus with
            settings := T
            fanoutChanges := s.bus.fanoutChanges ++ if T.fanout = old.fanout then [] else [⟨T.fanout, false⟩] }
          orders := { s.orders with gapSetting := t.orders.gapSetting, waitLimit := t.orders.waitLimit }
          reports := { s.reports with
            holdoffSetting := t.reports.holdoffSetting, holdoffRunning := t.reports.holdoffRunning
            holdoffUs := t.reports.holdoffUs, attention := t.reports.attention }
          cong := { s.cong with up := t.cong.up, down := t.cong.down, table := t.cong.table }
          store := { s.store with
            engine := .idle, scanComplete := true, dir := t.store.dir, segMap := t.store.segMap
            poolNotices := s.store.poolNotices ++ [.scanDone view] }
          wire := t.wire }
      ∧ (OwnersOk s → OwnersOk t) ∧ (T.holdoff = old.holdoff → t.reports = s.reports)
      ∧ (valid = false → t.orders = s.orders ∧ t.cong = s.cong)
      ∧ t.store.segMap[(0 : SegNo)] = (if valid then .configValid else .configAbsent)
      ∧ (∀ (r : RecNo) (n len : Nat) (f : SegNo), s.keptRecording r n len f →
        t.store.dir[r] = {
            state := .available, firstSeg := f, segCount := n, length := len
            permanent := (s.storeRead f 6).getLsbD 7, bargeIn := (s.storeRead f 6).getLsbD 6
            gap := min (s.storeRead f 7).toNat 50 }
          ∧ t.store.segMap[f] = .used r 0
          ∧ ∀ (j : Nat) (g : SegNo), 1 ≤ j → j < n → s.indexSegment r n j g → t.store.segMap[g] = .used r j)
      ∧ (∀ r : RecNo, (∀ n len f, ¬ s.completeRecording r n len f) → t.store.dir[r] = DirRecord.absent)
      ∧ (∀ g : SegNo, g ≠ 0 →
        (∀ r n len f, s.keptRecording r n len f → g ≠ f ∧ ∀ j, 1 ≤ j → j < n → ¬ s.indexSegment r n j g) →
        ((∀ off, off < 8192 → s.storeRead g off = 0xFF#8) → t.store.segMap[g] = .erased)
        ∧ ((∃ off, off < 8192 ∧ s.storeRead g off ≠ 0xFF#8) → t.store.segMap[g] = .dirty))
      ∧ (∀ (r : RecNo) (d : DirRecord), d = t.store.dir[r] →
        view[r] = if d.state = .available then some ⟨d.length, d.bargeIn, d.gap⟩ else none)
      ∧ t.wire.submitted = s.wire.submitted ++ [⟨.storeController, ⟨.scanDone, 0, BitVec.ofNat 16
          (((List.finRange 32).filter fun r => t.store.dir[r].state == .available).length + if valid then 0x100 else 0)⟩⟩]
      ∧ (∀ x : PostedWord, t.wire.dirty.get x =
          (s.wire.dirty.get x || x == .global || decide (∃ r, x = .directory r))))

/-! ### What every step keeps -/

/-- The machine right after reset meets every invariant below. The reset state is that of log 3, with the memories of logs 4
and 5. -/
def Obligations.InvariantsHoldAtReset : Prop :=
  MemoryOk State.reset ∧ QueuesOk State.reset ∧ SlotsOk State.reset ∧ AttentionOk State.reset ∧ CountsOk State.reset
    ∧ SettingsOk State.reset ∧ OwnersOk State.reset ∧ BanksOk State.reset ∧ CircuitsOk State.reset

/-- Every step keeps the forms of the bus and the port: the memories canonical, the snoop queue within 32 entries, the
report queue within 16, a write waiting only behind a posting cycle or a full queue, no slot held twice in a map, attention
as the posted producer, the consumer shadow and the holdoff give it, and the counts of the port in their ranges. The
canonical form of the memories and the list of waiting writes are the model's own (logs 4, 5 and 14). -/
def Obligations.StepsKeepMemoryQueuesSlotsAndAttention : Prop :=
  ∀ s t : State, MemoryOk s → QueuesOk s → SlotsOk s → AttentionOk s → CountsOk s → step s = .next t →
    MemoryOk t ∧ QueuesOk t ∧ SlotsOk t ∧ AttentionOk t ∧ CountsOk t

/-- Every step keeps the settings in their ranges and the owners holding them, and the live-bank selector naming the one
LIVE bank. That the scan hands over only changed fields, and that the player pool holds the fan-out limit once it has taken
the changes in flight, are the model's choices (logs 31 and 42). -/
def Obligations.StepsKeepSettingsOwnersAndBanks : Prop :=
  ∀ s t : State, SettingsOk s → OwnersOk s → BanksOk s → step s = .next t → SettingsOk t ∧ OwnersOk t ∧ BanksOk t

/-- Every step keeps every circuit record consistent: its binding goes with its state, it is QUIET exactly when its set is
empty, and its latched grade is that of the active entry's origin. -/
def Obligations.StepsKeepCircuitsConsistent : Prop :=
  ∀ s t : State, CircuitsOk s → step s = .next t → CircuitsOk t
end

