-- ==== Sys2Proof/Laws/Memory.lean ====
section
/-!
SUPPORT. The laws of the sparse memories: a read after a write, and that every operation keeps the canonical form.
-/
namespace Sys2Proof.Machine

variable {w : Nat} {fill : BitVec w}

/-- Every address of the list is above `a`. -/
def memAbove (a : Nat) (m : List (Nat × BitVec w)) : Prop := ∀ c ∈ m, a < c.1

theorem memRead_above {m : List (Nat × BitVec w)} {a : Nat} (h : memAbove a m) : memRead fill m a = fill := by
  induction m with
  | nil => rfl
  | cons c m ih =>
    have hc := h c (by simp)
    have hm : memAbove a m := fun d hd => h d (by simp [hd])
    simp [memRead, Nat.ne_of_gt hc, ih hm]

/-- The canonical form, unfolded one entry at a time. -/
theorem memWf_cons {c : Nat × BitVec w} {m : List (Nat × BitVec w)} :
    memWf fill (c :: m) = true ↔ c.2 ≠ fill ∧ memAbove c.1 m ∧ memWf fill m = true := by
  induction m generalizing c with
  | nil => simp [memWf, memAbove]
  | cons d m ih =>
    have ih' := @ih d
    constructor
    · intro h
      simp only [memWf, Bool.and_eq_true, decide_eq_true_eq, bne_iff_ne, ne_eq] at h
      obtain ⟨⟨hlt, hne⟩, hrest⟩ := h
      refine ⟨hne, ?_, hrest⟩
      intro x hx
      rcases List.mem_cons.mp hx with rfl | hx
      · exact hlt
      · exact Nat.lt_trans hlt ((ih'.mp hrest).2.1 x hx)
    · rintro ⟨hne, hab, hrest⟩
      simp only [memWf, Bool.and_eq_true, decide_eq_true_eq, bne_iff_ne, ne_eq]
      exact ⟨⟨hab d (by simp), hne⟩, hrest⟩

/-- A write leaves every address above a bound that the address itself is above. -/
theorem memWrite_above {m : List (Nat × BitVec w)} {a b : Nat} {v : BitVec w} (h : memAbove b m) (hb : b < a) :
    memAbove b (memWrite fill m a v) := by
  induction m with
  | nil =>
    intro c hc
    unfold memWrite at hc
    split at hc
    · simp at hc
    · simp only [List.mem_singleton] at hc; rw [hc]; exact hb
  | cons d m ih =>
    have hm : memAbove b m := fun x hx => h x (by simp [hx])
    intro c hc
    simp only [memWrite] at hc
    have hrest : ∀ x ∈ (if d.1 = a then m else d :: m), b < x.1 := by
      intro x hx
      split at hx
      · exact hm x hx
      · exact h x hx
    split at hc
    · rcases List.mem_cons.mp hc with rfl | hc
      · exact h _ (by simp)
      · exact ih hm c hc
    · split at hc
      · exact hrest c hc
      · rcases List.mem_cons.mp hc with rfl | hc
        · exact hb
        · exact hrest c hc

/-- A write keeps the canonical form. -/
theorem memWrite_wf {m : List (Nat × BitVec w)} {a : Nat} {v : BitVec w} (h : memWf fill m = true) :
    memWf fill (memWrite fill m a v) = true := by
  induction m with
  | nil =>
    unfold memWrite
    split
    · rfl
    · rename_i hv; exact memWf_cons.mpr ⟨hv, by simp [memAbove], rfl⟩
  | cons d m ih =>
    obtain ⟨hd, hab, hm⟩ := memWf_cons.mp h
    simp only [memWrite]
    split
    · rename_i hlt
      exact memWf_cons.mpr ⟨hd, memWrite_above hab hlt, ih hm⟩
    · rename_i hnlt
      have hrest : memWf fill (if d.1 = a then m else d :: m) = true := by split <;> assumption
      split
      · exact hrest
      · rename_i hv
        refine memWf_cons.mpr ⟨hv, ?_, hrest⟩
        intro x hx
        split at hx
        · rename_i heq; have := hab x hx; simp only at *; omega
        · rename_i hne
          rcases List.mem_cons.mp hx with rfl | hx
          · simp only at *; omega
          · have := hab x hx; simp only at *; omega

/-- A read after a write gives the value written at its address and what stood there elsewhere. -/
theorem memRead_memWrite {m : List (Nat × BitVec w)} {a b : Nat} {v : BitVec w} (h : memWf fill m = true) :
    memRead fill (memWrite fill m a v) b = if b = a then v else memRead fill m b := by
  induction m with
  | nil =>
    unfold memWrite
    split
    · rename_i hv; subst hv; simp [memRead]
    · simp only [memRead]; split <;> split <;> simp_all
  | cons d m ih =>
    obtain ⟨hd, hab, hm⟩ := memWf_cons.mp h
    have hih := ih hm
    by_cases h1 : d.1 < a
    · have e : memWrite fill (d :: m) a v = d :: memWrite fill m a v := by
        rw [show d = (d.1, d.2) from rfl, memWrite, if_pos h1]
      rw [e]
      simp only [memRead]
      split
      · rename_i hdb; rw [if_neg (by omega)]
      · exact hih
    · have e : memWrite fill (d :: m) a v
          = if v = fill then (if d.1 = a then m else d :: m) else (a, v) :: (if d.1 = a then m else d :: m) := by
        rw [show d = (d.1, d.2) from rfl, memWrite, if_neg h1]
      rw [e]
      have key : memRead fill (if d.1 = a then m else d :: m) b
          = if d.1 = a ∧ b = a then fill else memRead fill (d :: m) b := by
        by_cases hda : d.1 = a
        · rw [if_pos hda]
          by_cases hba : b = a
          · rw [if_pos ⟨hda, hba⟩, hba, ← hda]; exact memRead_above hab
          · rw [if_neg (by tauto)]; simp only [memRead]; rw [if_neg (by omega)]
        · rw [if_neg hda, if_neg (by tauto)]
      by_cases hba : b = a
      · rw [if_pos hba]
        by_cases hv : v = fill
        · rw [if_pos hv, key]
          by_cases hda : d.1 = a
          · rw [if_pos ⟨hda, hba⟩, hv]
          · rw [if_neg (by tauto), hv, hba]
            refine memRead_above ?_
            intro x hx
            rcases List.mem_cons.mp hx with rfl | hx
            · omega
            · have := hab x hx; omega
        · rw [if_neg hv]; simp [memRead, hba]
      · rw [if_neg hba]
        by_cases hv : v = fill
        · rw [if_pos hv, key, if_neg (by tauto)]
        · rw [if_neg hv]; simp only [memRead]; rw [if_neg (by omega), key, if_neg (by tauto)]; rfl

/-- A run of writes keeps the canonical form. -/
theorem memWriteAll_wf {m cells : List (Nat × BitVec w)} (h : memWf fill m = true) :
    memWf fill (memWriteAll fill m cells) = true := by
  unfold memWriteAll
  induction cells generalizing m with
  | nil => exact h
  | cons c l ih => exact ih (memWrite_wf h)

/-- Leaving entries out keeps the canonical form. -/
theorem memWf_filter {m : List (Nat × BitVec w)} {p : Nat × BitVec w → Bool} (h : memWf fill m = true) :
    memWf fill (m.filter p) = true := by
  induction m with
  | nil => rfl
  | cons d m ih =>
    obtain ⟨hd, hab, hm⟩ := memWf_cons.mp h
    rw [List.filter_cons]
    split
    · exact memWf_cons.mpr ⟨hd, fun x hx => hab x (List.mem_of_mem_filter hx), ih hm⟩
    · exact ih hm

/-- A pulse’s residue keeps the store’s canonical form. -/
theorem leaveResidue_wf {m : List Host.Cell} {g : SegNo} {left : List (Nat × Byte)}
    (h : memWf Config.erasedByte m = true) : memWf Config.erasedByte (leaveResidue g left m) = true :=
  memWriteAll_wf (memWf_filter h)

/-- A program attempt keeps the store’s canonical form. -/
theorem programBytes_wf {cells : List Host.Cell} {missed : List Byte} {m : List Host.Cell} {g : SegNo}
    (h : memWf Config.erasedByte m = true) : memWf Config.erasedByte (programBytes g cells missed m) = true := by
  induction cells generalizing m missed with
  | nil => exact h
  | cons c l ih => exact ih (memWrite_wf h)

/-- A load buffer word keeps a buffer’s canonical form. -/
theorem writeWord_wf {x : ChunkBuf} {k : Nat} {v : Word} (h : memWf Config.erasedByte x.bytes = true) :
    memWf Config.erasedByte (x.writeWord k v).bytes = true :=
  memWrite_wf (memWrite_wf h)

/-- A step cut short keeps the store’s canonical form. -/
theorem damage_wf {x : PortStep} {left : List (Nat × Byte)} {missed : List Byte} {m : List Host.Cell}
    (h : memWf Config.erasedByte m = true) : memWf Config.erasedByte (x.damage left missed m) = true := by
  cases x with
  | refill _ _ => exact h
  | erasePulse g => exact leaveResidue_wf h
  | eraseVerify _ => exact h
  | attempt t => exact programBytes_wf h

end Sys2Proof.Machine
end

