-- ==== Sys2Proof/Laws/State.lean ====
section
/-!
SUPPORT. What each update of the state, of the exchange and of the store side leaves as it was, field by field.
-/
namespace Sys2Proof.Machine

variable (s : State) (e : Exchange) (v : StoreSide)

/-! ### The state -/

@[simp] theorem State.mark_pending (w : PostedWord) : (s.mark w).pending = s.pending := rfl
@[simp] theorem State.submit_pending (b : Block) (k : ReportKind) (x y : Nat) : (s.submit b k x y).pending = s.pending := rfl
@[simp] theorem State.mark_bus (w : PostedWord) : (s.mark w).bus = s.bus := rfl
@[simp] theorem State.submit_bus (b : Block) (k : ReportKind) (x y : Nat) : (s.submit b k x y).bus = s.bus := rfl
@[simp] theorem State.mark_reports (w : PostedWord) : (s.mark w).reports = s.reports := rfl
@[simp] theorem State.submit_reports (b : Block) (k : ReportKind) (x y : Nat) : (s.submit b k x y).reports = s.reports := rfl
@[simp] theorem State.mark_orders (w : PostedWord) : (s.mark w).orders = s.orders := rfl
@[simp] theorem State.submit_orders (b : Block) (k : ReportKind) (x y : Nat) : (s.submit b k x y).orders = s.orders := rfl
@[simp] theorem State.mark_plans (w : PostedWord) : (s.mark w).plans = s.plans := rfl
@[simp] theorem State.submit_plans (b : Block) (k : ReportKind) (x y : Nat) : (s.submit b k x y).plans = s.plans := rfl
@[simp] theorem State.mark_chans (w : PostedWord) : (s.mark w).chans = s.chans := rfl
@[simp] theorem State.submit_chans (b : Block) (k : ReportKind) (x y : Nat) : (s.submit b k x y).chans = s.chans := rfl
@[simp] theorem State.mark_sample (w : PostedWord) : (s.mark w).sample = s.sample := rfl
@[simp] theorem State.submit_sample (b : Block) (k : ReportKind) (x y : Nat) : (s.submit b k x y).sample = s.sample := rfl
@[simp] theorem State.mark_highway (w : PostedWord) : (s.mark w).highway = s.highway := rfl
@[simp] theorem State.submit_highway (b : Block) (k : ReportKind) (x y : Nat) : (s.submit b k x y).highway = s.highway := rfl
@[simp] theorem State.mark_players (w : PostedWord) : (s.mark w).players = s.players := rfl
@[simp] theorem State.submit_players (b : Block) (k : ReportKind) (x y : Nat) : (s.submit b k x y).players = s.players := rfl
@[simp] theorem State.mark_cong (w : PostedWord) : (s.mark w).cong = s.cong := rfl
@[simp] theorem State.submit_cong (b : Block) (k : ReportKind) (x y : Nat) : (s.submit b k x y).cong = s.cong := rfl
@[simp] theorem State.mark_store (w : PostedWord) : (s.mark w).store = s.store := rfl
@[simp] theorem State.submit_store (b : Block) (k : ReportKind) (x y : Nat) : (s.submit b k x y).store = s.store := rfl
@[simp] theorem State.mark_wire (w : PostedWord) : (s.mark w).wire = s.wire.mark w := rfl
@[simp] theorem State.submit_wire (b : Block) (k : ReportKind) (x y : Nat) : (s.submit b k x y).wire = s.wire.submit b k x y := rfl
@[simp] theorem State.withExchange_pending : (s.withExchange e).pending = s.pending := rfl
@[simp] theorem State.onExchange_pending (f : Exchange → Exchange) : (s.onExchange f).pending = s.pending := rfl
@[simp] theorem State.withExchange_bus : (s.withExchange e).bus = s.bus := rfl
@[simp] theorem State.onExchange_bus (f : Exchange → Exchange) : (s.onExchange f).bus = s.bus := rfl
@[simp] theorem State.withExchange_reports : (s.withExchange e).reports = s.reports := rfl
@[simp] theorem State.onExchange_reports (f : Exchange → Exchange) : (s.onExchange f).reports = s.reports := rfl
@[simp] theorem State.withExchange_wire : (s.withExchange e).wire = e.wire := rfl
@[simp] theorem State.onExchange_wire (f : Exchange → Exchange) : (s.onExchange f).wire = (f s.exchange).wire := rfl
@[simp] theorem State.exchange_wire : s.exchange.wire = s.wire := rfl
@[simp] theorem State.withExchange_orders : (s.withExchange e).orders = e.orders := rfl
@[simp] theorem State.onExchange_orders (f : Exchange → Exchange) : (s.onExchange f).orders = (f s.exchange).orders := rfl
@[simp] theorem State.exchange_orders : s.exchange.orders = s.orders := rfl
@[simp] theorem State.withExchange_plans : (s.withExchange e).plans = e.plans := rfl
@[simp] theorem State.onExchange_plans (f : Exchange → Exchange) : (s.onExchange f).plans = (f s.exchange).plans := rfl
@[simp] theorem State.exchange_plans : s.exchange.plans = s.plans := rfl
@[simp] theorem State.withExchange_chans : (s.withExchange e).chans = e.chans := rfl
@[simp] theorem State.onExchange_chans (f : Exchange → Exchange) : (s.onExchange f).chans = (f s.exchange).chans := rfl
@[simp] theorem State.exchange_chans : s.exchange.chans = s.chans := rfl
@[simp] theorem State.withExchange_sample : (s.withExchange e).sample = s.sample := rfl
@[simp] theorem State.onExchange_sample (f : Exchange → Exchange) : (s.onExchange f).sample = s.sample := rfl
@[simp] theorem State.withExchange_highway : (s.withExchange e).highway = s.highway := rfl
@[simp] theorem State.onExchange_highway (f : Exchange → Exchange) : (s.onExchange f).highway = s.highway := rfl
@[simp] theorem State.withExchange_players : (s.withExchange e).players = e.players := rfl
@[simp] theorem State.onExchange_players (f : Exchange → Exchange) : (s.onExchange f).players = (f s.exchange).players := rfl
@[simp] theorem State.exchange_players : s.exchange.players = s.players := rfl
@[simp] theorem State.withExchange_cong : (s.withExchange e).cong = e.cong := rfl
@[simp] theorem State.onExchange_cong (f : Exchange → Exchange) : (s.onExchange f).cong = (f s.exchange).cong := rfl
@[simp] theorem State.exchange_cong : s.exchange.cong = s.cong := rfl
@[simp] theorem State.withExchange_store : (s.withExchange e).store = s.store := rfl
@[simp] theorem State.onExchange_store (f : Exchange → Exchange) : (s.onExchange f).store = s.store := rfl
@[simp] theorem State.withStoreSide_pending : (s.withStoreSide v).pending = s.pending := rfl
@[simp] theorem State.onStore_pending (f : StoreSide → StoreSide) : (s.onStore f).pending = s.pending := rfl
@[simp] theorem State.withStoreSide_bus : (s.withStoreSide v).bus = s.bus := rfl
@[simp] theorem State.onStore_bus (f : StoreSide → StoreSide) : (s.onStore f).bus = s.bus := rfl
@[simp] theorem State.withStoreSide_reports : (s.withStoreSide v).reports = s.reports := rfl
@[simp] theorem State.onStore_reports (f : StoreSide → StoreSide) : (s.onStore f).reports = s.reports := rfl
@[simp] theorem State.withStoreSide_wire : (s.withStoreSide v).wire = v.wire := rfl
@[simp] theorem State.onStore_wire (f : StoreSide → StoreSide) : (s.onStore f).wire = (f s.storeSide).wire := rfl
@[simp] theorem State.storeSide_wire : s.storeSide.wire = s.wire := rfl
@[simp] theorem State.withStoreSide_orders : (s.withStoreSide v).orders = s.orders := rfl
@[simp] theorem State.onStore_orders (f : StoreSide → StoreSide) : (s.onStore f).orders = s.orders := rfl
@[simp] theorem State.withStoreSide_plans : (s.withStoreSide v).plans = s.plans := rfl
@[simp] theorem State.onStore_plans (f : StoreSide → StoreSide) : (s.onStore f).plans = s.plans := rfl
@[simp] theorem State.withStoreSide_chans : (s.withStoreSide v).chans = s.chans := rfl
@[simp] theorem State.onStore_chans (f : StoreSide → StoreSide) : (s.onStore f).chans = s.chans := rfl
@[simp] theorem State.withStoreSide_sample : (s.withStoreSide v).sample = s.sample := rfl
@[simp] theorem State.onStore_sample (f : StoreSide → StoreSide) : (s.onStore f).sample = s.sample := rfl
@[simp] theorem State.withStoreSide_highway : (s.withStoreSide v).highway = s.highway := rfl
@[simp] theorem State.onStore_highway (f : StoreSide → StoreSide) : (s.onStore f).highway = s.highway := rfl
@[simp] theorem State.withStoreSide_players : (s.withStoreSide v).players = s.players := rfl
@[simp] theorem State.onStore_players (f : StoreSide → StoreSide) : (s.onStore f).players = s.players := rfl
@[simp] theorem State.withStoreSide_cong : (s.withStoreSide v).cong = s.cong := rfl
@[simp] theorem State.onStore_cong (f : StoreSide → StoreSide) : (s.onStore f).cong = s.cong := rfl
@[simp] theorem State.withStoreSide_store : (s.withStoreSide v).store = v.store := rfl
@[simp] theorem State.onStore_store (f : StoreSide → StoreSide) : (s.onStore f).store = (f s.storeSide).store := rfl
@[simp] theorem State.storeSide_store : s.storeSide.store = s.store := rfl
@[simp] theorem Wire.mark_submitted (x : Wire) (w : PostedWord) : (x.mark w).submitted = x.submitted := rfl
@[simp] theorem Wire.submit_dirty (x : Wire) (b : Block) (k : ReportKind) (m n : Nat) : (x.submit b k m n).dirty = x.dirty := rfl

/-! ### Settings -/

@[simp] theorem State.setSettings_pending (t : Settings) : (s.setSettings t).pending = s.pending := rfl
@[simp] theorem State.setSettings_reports (t : Settings) : (s.setSettings t).reports = s.reports := rfl
@[simp] theorem State.setSettings_wire (t : Settings) : (s.setSettings t).wire = s.wire := rfl
@[simp] theorem State.setSettings_orders (t : Settings) : (s.setSettings t).orders = s.orders := rfl
@[simp] theorem State.setSettings_plans (t : Settings) : (s.setSettings t).plans = s.plans := rfl
@[simp] theorem State.setSettings_chans (t : Settings) : (s.setSettings t).chans = s.chans := rfl
@[simp] theorem State.setSettings_sample (t : Settings) : (s.setSettings t).sample = s.sample := rfl
@[simp] theorem State.setSettings_highway (t : Settings) : (s.setSettings t).highway = s.highway := rfl
@[simp] theorem State.setSettings_players (t : Settings) : (s.setSettings t).players = s.players := rfl
@[simp] theorem State.setSettings_cong (t : Settings) : (s.setSettings t).cong = s.cong := rfl
@[simp] theorem State.setSettings_store (t : Settings) : (s.setSettings t).store = s.store := rfl
@[simp] theorem State.setMarks_pending (m : SettingMarks) : (s.setMarks m).pending = s.pending := rfl
@[simp] theorem State.setMarks_reports (m : SettingMarks) : (s.setMarks m).reports = s.reports := rfl
@[simp] theorem State.setMarks_wire (m : SettingMarks) : (s.setMarks m).wire = s.wire := rfl
@[simp] theorem State.setMarks_orders (m : SettingMarks) : (s.setMarks m).orders = s.orders := rfl
@[simp] theorem State.setMarks_plans (m : SettingMarks) : (s.setMarks m).plans = s.plans := rfl
@[simp] theorem State.setMarks_chans (m : SettingMarks) : (s.setMarks m).chans = s.chans := rfl
@[simp] theorem State.setMarks_sample (m : SettingMarks) : (s.setMarks m).sample = s.sample := rfl
@[simp] theorem State.setMarks_highway (m : SettingMarks) : (s.setMarks m).highway = s.highway := rfl
@[simp] theorem State.setMarks_players (m : SettingMarks) : (s.setMarks m).players = s.players := rfl
@[simp] theorem State.setMarks_cong (m : SettingMarks) : (s.setMarks m).cong = s.cong := rfl
@[simp] theorem State.setMarks_store (m : SettingMarks) : (s.setMarks m).store = s.store := rfl
@[simp] theorem State.giveGap_pending (n : Nat) : (s.giveGap n).pending = s.pending := rfl
@[simp] theorem State.giveGap_reports (n : Nat) : (s.giveGap n).reports = s.reports := rfl
@[simp] theorem State.giveGap_wire (n : Nat) : (s.giveGap n).wire = s.wire := rfl
@[simp] theorem State.giveGap_plans (n : Nat) : (s.giveGap n).plans = s.plans := rfl
@[simp] theorem State.giveGap_chans (n : Nat) : (s.giveGap n).chans = s.chans := rfl
@[simp] theorem State.giveGap_sample (n : Nat) : (s.giveGap n).sample = s.sample := rfl
@[simp] theorem State.giveGap_highway (n : Nat) : (s.giveGap n).highway = s.highway := rfl
@[simp] theorem State.giveGap_players (n : Nat) : (s.giveGap n).players = s.players := rfl
@[simp] theorem State.giveGap_cong (n : Nat) : (s.giveGap n).cong = s.cong := rfl
@[simp] theorem State.giveGap_store (n : Nat) : (s.giveGap n).store = s.store := rfl
@[simp] theorem State.giveFanout_pending (b : Bool) (n : Nat) : (s.giveFanout b n).pending = s.pending := rfl
@[simp] theorem State.giveFanout_reports (b : Bool) (n : Nat) : (s.giveFanout b n).reports = s.reports := rfl
@[simp] theorem State.giveFanout_wire (b : Bool) (n : Nat) : (s.giveFanout b n).wire = s.wire := rfl
@[simp] theorem State.giveFanout_orders (b : Bool) (n : Nat) : (s.giveFanout b n).orders = s.orders := rfl
@[simp] theorem State.giveFanout_plans (b : Bool) (n : Nat) : (s.giveFanout b n).plans = s.plans := rfl
@[simp] theorem State.giveFanout_chans (b : Bool) (n : Nat) : (s.giveFanout b n).chans = s.chans := rfl
@[simp] theorem State.giveFanout_sample (b : Bool) (n : Nat) : (s.giveFanout b n).sample = s.sample := rfl
@[simp] theorem State.giveFanout_highway (b : Bool) (n : Nat) : (s.giveFanout b n).highway = s.highway := rfl
@[simp] theorem State.giveFanout_players (b : Bool) (n : Nat) : (s.giveFanout b n).players = s.players := rfl
@[simp] theorem State.giveFanout_cong (b : Bool) (n : Nat) : (s.giveFanout b n).cong = s.cong := rfl
@[simp] theorem State.giveFanout_store (b : Bool) (n : Nat) : (s.giveFanout b n).store = s.store := rfl
@[simp] theorem State.giveWaitLimit_pending (n : Nat) : (s.giveWaitLimit n).pending = s.pending := rfl
@[simp] theorem State.giveWaitLimit_reports (n : Nat) : (s.giveWaitLimit n).reports = s.reports := rfl
@[simp] theorem State.giveWaitLimit_wire (n : Nat) : (s.giveWaitLimit n).wire = s.wire := rfl
@[simp] theorem State.giveWaitLimit_plans (n : Nat) : (s.giveWaitLimit n).plans = s.plans := rfl
@[simp] theorem State.giveWaitLimit_chans (n : Nat) : (s.giveWaitLimit n).chans = s.chans := rfl
@[simp] theorem State.giveWaitLimit_sample (n : Nat) : (s.giveWaitLimit n).sample = s.sample := rfl
@[simp] theorem State.giveWaitLimit_highway (n : Nat) : (s.giveWaitLimit n).highway = s.highway := rfl
@[simp] theorem State.giveWaitLimit_players (n : Nat) : (s.giveWaitLimit n).players = s.players := rfl
@[simp] theorem State.giveWaitLimit_cong (n : Nat) : (s.giveWaitLimit n).cong = s.cong := rfl
@[simp] theorem State.giveWaitLimit_store (n : Nat) : (s.giveWaitLimit n).store = s.store := rfl
@[simp] theorem State.giveHoldoff_pending (n : Nat) : (s.giveHoldoff n).pending = s.pending := rfl
@[simp] theorem State.giveHoldoff_wire (n : Nat) : (s.giveHoldoff n).wire = s.wire := rfl
@[simp] theorem State.giveHoldoff_orders (n : Nat) : (s.giveHoldoff n).orders = s.orders := rfl
@[simp] theorem State.giveHoldoff_plans (n : Nat) : (s.giveHoldoff n).plans = s.plans := rfl
@[simp] theorem State.giveHoldoff_chans (n : Nat) : (s.giveHoldoff n).chans = s.chans := rfl
@[simp] theorem State.giveHoldoff_sample (n : Nat) : (s.giveHoldoff n).sample = s.sample := rfl
@[simp] theorem State.giveHoldoff_highway (n : Nat) : (s.giveHoldoff n).highway = s.highway := rfl
@[simp] theorem State.giveHoldoff_players (n : Nat) : (s.giveHoldoff n).players = s.players := rfl
@[simp] theorem State.giveHoldoff_cong (n : Nat) : (s.giveHoldoff n).cong = s.cong := rfl
@[simp] theorem State.giveHoldoff_store (n : Nat) : (s.giveHoldoff n).store = s.store := rfl
@[simp] theorem State.giveThreshold_pending (g : Fin 3) (up down : Nat) : (s.giveThreshold g up down).pending = s.pending := rfl
@[simp] theorem State.giveThreshold_reports (g : Fin 3) (up down : Nat) : (s.giveThreshold g up down).reports = s.reports := rfl
@[simp] theorem State.giveThreshold_wire (g : Fin 3) (up down : Nat) : (s.giveThreshold g up down).wire = s.wire := rfl
@[simp] theorem State.giveThreshold_orders (g : Fin 3) (up down : Nat) : (s.giveThreshold g up down).orders = s.orders := rfl
@[simp] theorem State.giveThreshold_plans (g : Fin 3) (up down : Nat) : (s.giveThreshold g up down).plans = s.plans := rfl
@[simp] theorem State.giveThreshold_chans (g : Fin 3) (up down : Nat) : (s.giveThreshold g up down).chans = s.chans := rfl
@[simp] theorem State.giveThreshold_sample (g : Fin 3) (up down : Nat) : (s.giveThreshold g up down).sample = s.sample := rfl
@[simp] theorem State.giveThreshold_highway (g : Fin 3) (up down : Nat) : (s.giveThreshold g up down).highway = s.highway := rfl
@[simp] theorem State.giveThreshold_players (g : Fin 3) (up down : Nat) : (s.giveThreshold g up down).players = s.players := rfl
@[simp] theorem State.giveThreshold_store (g : Fin 3) (up down : Nat) : (s.giveThreshold g up down).store = s.store := rfl
@[simp] theorem State.giveRecording_pending (g : Cls) (r : Option RecNo) : (s.giveRecording g r).pending = s.pending := rfl
@[simp] theorem State.giveRecording_reports (g : Cls) (r : Option RecNo) : (s.giveRecording g r).reports = s.reports := rfl
@[simp] theorem State.giveRecording_wire (g : Cls) (r : Option RecNo) : (s.giveRecording g r).wire = s.wire := rfl
@[simp] theorem State.giveRecording_orders (g : Cls) (r : Option RecNo) : (s.giveRecording g r).orders = s.orders := rfl
@[simp] theorem State.giveRecording_plans (g : Cls) (r : Option RecNo) : (s.giveRecording g r).plans = s.plans := rfl
@[simp] theorem State.giveRecording_chans (g : Cls) (r : Option RecNo) : (s.giveRecording g r).chans = s.chans := rfl
@[simp] theorem State.giveRecording_sample (g : Cls) (r : Option RecNo) : (s.giveRecording g r).sample = s.sample := rfl
@[simp] theorem State.giveRecording_highway (g : Cls) (r : Option RecNo) : (s.giveRecording g r).highway = s.highway := rfl
@[simp] theorem State.giveRecording_players (g : Cls) (r : Option RecNo) : (s.giveRecording g r).players = s.players := rfl
@[simp] theorem State.giveRecording_store (g : Cls) (r : Option RecNo) : (s.giveRecording g r).store = s.store := rfl
@[simp] theorem State.givePlan_pending (g : Cls) (p : Option PlanNo) (n : Fin 16) : (s.givePlan g p n).pending = s.pending := rfl
@[simp] theorem State.givePlan_reports (g : Cls) (p : Option PlanNo) (n : Fin 16) : (s.givePlan g p n).reports = s.reports := rfl
@[simp] theorem State.givePlan_wire (g : Cls) (p : Option PlanNo) (n : Fin 16) : (s.givePlan g p n).wire = s.wire := rfl
@[simp] theorem State.givePlan_orders (g : Cls) (p : Option PlanNo) (n : Fin 16) : (s.givePlan g p n).orders = s.orders := rfl
@[simp] theorem State.givePlan_plans (g : Cls) (p : Option PlanNo) (n : Fin 16) : (s.givePlan g p n).plans = s.plans := rfl
@[simp] theorem State.givePlan_chans (g : Cls) (p : Option PlanNo) (n : Fin 16) : (s.givePlan g p n).chans = s.chans := rfl
@[simp] theorem State.givePlan_sample (g : Cls) (p : Option PlanNo) (n : Fin 16) : (s.givePlan g p n).sample = s.sample := rfl
@[simp] theorem State.givePlan_highway (g : Cls) (p : Option PlanNo) (n : Fin 16) : (s.givePlan g p n).highway = s.highway := rfl
@[simp] theorem State.givePlan_players (g : Cls) (p : Option PlanNo) (n : Fin 16) : (s.givePlan g p n).players = s.players := rfl
@[simp] theorem State.givePlan_store (g : Cls) (p : Option PlanNo) (n : Fin 16) : (s.givePlan g p n).store = s.store := rfl
@[simp] theorem State.writeTiming1_pending (w : Word) : (s.writeTiming1 w).pending = s.pending := rfl
@[simp] theorem State.writeTiming1_reports (w : Word) : (s.writeTiming1 w).reports = s.reports := rfl
@[simp] theorem State.writeTiming1_wire (w : Word) : (s.writeTiming1 w).wire = s.wire := rfl
@[simp] theorem State.writeTiming1_plans (w : Word) : (s.writeTiming1 w).plans = s.plans := rfl
@[simp] theorem State.writeTiming1_chans (w : Word) : (s.writeTiming1 w).chans = s.chans := rfl
@[simp] theorem State.writeTiming1_sample (w : Word) : (s.writeTiming1 w).sample = s.sample := rfl
@[simp] theorem State.writeTiming1_highway (w : Word) : (s.writeTiming1 w).highway = s.highway := rfl
@[simp] theorem State.writeTiming1_players (w : Word) : (s.writeTiming1 w).players = s.players := rfl
@[simp] theorem State.writeTiming1_cong (w : Word) : (s.writeTiming1 w).cong = s.cong := rfl
@[simp] theorem State.writeTiming1_store (w : Word) : (s.writeTiming1 w).store = s.store := rfl
@[simp] theorem State.writeTiming2_pending (w : Word) : (s.writeTiming2 w).pending = s.pending := rfl
@[simp] theorem State.writeTiming2_wire (w : Word) : (s.writeTiming2 w).wire = s.wire := rfl
@[simp] theorem State.writeTiming2_plans (w : Word) : (s.writeTiming2 w).plans = s.plans := rfl
@[simp] theorem State.writeTiming2_chans (w : Word) : (s.writeTiming2 w).chans = s.chans := rfl
@[simp] theorem State.writeTiming2_sample (w : Word) : (s.writeTiming2 w).sample = s.sample := rfl
@[simp] theorem State.writeTiming2_highway (w : Word) : (s.writeTiming2 w).highway = s.highway := rfl
@[simp] theorem State.writeTiming2_players (w : Word) : (s.writeTiming2 w).players = s.players := rfl
@[simp] theorem State.writeTiming2_cong (w : Word) : (s.writeTiming2 w).cong = s.cong := rfl
@[simp] theorem State.writeTiming2_store (w : Word) : (s.writeTiming2 w).store = s.store := rfl
@[simp] theorem State.writeThreshold_pending (g : Fin 3) (w : Word) : (s.writeThreshold g w).pending = s.pending := rfl
@[simp] theorem State.writeThreshold_reports (g : Fin 3) (w : Word) : (s.writeThreshold g w).reports = s.reports := rfl
@[simp] theorem State.writeThreshold_wire (g : Fin 3) (w : Word) : (s.writeThreshold g w).wire = s.wire := rfl
@[simp] theorem State.writeThreshold_orders (g : Fin 3) (w : Word) : (s.writeThreshold g w).orders = s.orders := rfl
@[simp] theorem State.writeThreshold_plans (g : Fin 3) (w : Word) : (s.writeThreshold g w).plans = s.plans := rfl
@[simp] theorem State.writeThreshold_chans (g : Fin 3) (w : Word) : (s.writeThreshold g w).chans = s.chans := rfl
@[simp] theorem State.writeThreshold_sample (g : Fin 3) (w : Word) : (s.writeThreshold g w).sample = s.sample := rfl
@[simp] theorem State.writeThreshold_highway (g : Fin 3) (w : Word) : (s.writeThreshold g w).highway = s.highway := rfl
@[simp] theorem State.writeThreshold_players (g : Fin 3) (w : Word) : (s.writeThreshold g w).players = s.players := rfl
@[simp] theorem State.writeThreshold_store (g : Fin 3) (w : Word) : (s.writeThreshold g w).store = s.store := rfl
@[simp] theorem State.writeLevels_pending (w : Word) : (s.writeLevels w).pending = s.pending := rfl
@[simp] theorem State.writeLevels_bus (w : Word) : (s.writeLevels w).bus = s.bus := rfl
@[simp] theorem State.writeLevels_reports (w : Word) : (s.writeLevels w).reports = s.reports := rfl
@[simp] theorem State.writeLevels_wire (w : Word) : (s.writeLevels w).wire = s.wire := rfl
@[simp] theorem State.writeLevels_orders (w : Word) : (s.writeLevels w).orders = s.orders := rfl
@[simp] theorem State.writeLevels_plans (w : Word) : (s.writeLevels w).plans = s.plans := rfl
@[simp] theorem State.writeLevels_chans (w : Word) : (s.writeLevels w).chans = s.chans := rfl
@[simp] theorem State.writeLevels_sample (w : Word) : (s.writeLevels w).sample = s.sample := rfl
@[simp] theorem State.writeLevels_highway (w : Word) : (s.writeLevels w).highway = s.highway := rfl
@[simp] theorem State.writeLevels_players (w : Word) : (s.writeLevels w).players = s.players := rfl
@[simp] theorem State.writeLevels_store (w : Word) : (s.writeLevels w).store = s.store := rfl
@[simp] theorem State.writeTable_pending (k : Fin 8) (w : Word) : (s.writeTable k w).pending = s.pending := by
  unfold State.writeTable; dsimp only; split <;> rfl
@[simp] theorem State.writeTable_reports (k : Fin 8) (w : Word) : (s.writeTable k w).reports = s.reports := by
  unfold State.writeTable; dsimp only; split <;> rfl
@[simp] theorem State.writeTable_wire (k : Fin 8) (w : Word) : (s.writeTable k w).wire = s.wire := by
  unfold State.writeTable; dsimp only; split <;> rfl
@[simp] theorem State.writeTable_orders (k : Fin 8) (w : Word) : (s.writeTable k w).orders = s.orders := by
  unfold State.writeTable; dsimp only; split <;> rfl
@[simp] theorem State.writeTable_plans (k : Fin 8) (w : Word) : (s.writeTable k w).plans = s.plans := by
  unfold State.writeTable; dsimp only; split <;> rfl
@[simp] theorem State.writeTable_chans (k : Fin 8) (w : Word) : (s.writeTable k w).chans = s.chans := by
  unfold State.writeTable; dsimp only; split <;> rfl
@[simp] theorem State.writeTable_sample (k : Fin 8) (w : Word) : (s.writeTable k w).sample = s.sample := by
  unfold State.writeTable; dsimp only; split <;> rfl
@[simp] theorem State.writeTable_highway (k : Fin 8) (w : Word) : (s.writeTable k w).highway = s.highway := by
  unfold State.writeTable; dsimp only; split <;> rfl
@[simp] theorem State.writeTable_players (k : Fin 8) (w : Word) : (s.writeTable k w).players = s.players := by
  unfold State.writeTable; dsimp only; split <;> rfl
@[simp] theorem State.writeTable_store (k : Fin 8) (w : Word) : (s.writeTable k w).store = s.store := by
  unfold State.writeTable; dsimp only; split <;> rfl
@[simp] theorem State.acknowledge_pending (w : Word) : (s.acknowledge w).pending = s.pending := by
  unfold State.acknowledge; dsimp only; split <;> split <;> rfl
@[simp] theorem State.acknowledge_orders (w : Word) : (s.acknowledge w).orders = s.orders := by
  unfold State.acknowledge; dsimp only; split <;> split <;> rfl
@[simp] theorem State.acknowledge_plans (w : Word) : (s.acknowledge w).plans = s.plans := by
  unfold State.acknowledge; dsimp only; split <;> split <;> rfl
@[simp] theorem State.acknowledge_chans (w : Word) : (s.acknowledge w).chans = s.chans := by
  unfold State.acknowledge; dsimp only; split <;> split <;> rfl
@[simp] theorem State.acknowledge_sample (w : Word) : (s.acknowledge w).sample = s.sample := by
  unfold State.acknowledge; dsimp only; split <;> split <;> rfl
@[simp] theorem State.acknowledge_highway (w : Word) : (s.acknowledge w).highway = s.highway := by
  unfold State.acknowledge; dsimp only; split <;> split <;> rfl
@[simp] theorem State.acknowledge_players (w : Word) : (s.acknowledge w).players = s.players := by
  unfold State.acknowledge; dsimp only; split <;> split <;> rfl
@[simp] theorem State.acknowledge_cong (w : Word) : (s.acknowledge w).cong = s.cong := by
  unfold State.acknowledge; dsimp only; split <;> split <;> rfl
@[simp] theorem State.acknowledge_store (w : Word) : (s.acknowledge w).store = s.store := by
  unfold State.acknowledge; dsimp only; split <;> split <;> rfl

/-! ### The bus -/

@[simp] theorem Bus.passWrite_resetLine (b : Bus) (x : BusWrite) : (b.passWrite x).resetLine = b.resetLine := by
  unfold Bus.passWrite; dsimp only; split <;> rfl
@[simp] theorem Bus.passWrite_straps (b : Bus) (x : BusWrite) : (b.passWrite x).straps = b.straps := by
  unfold Bus.passWrite; dsimp only; split <;> rfl
@[simp] theorem Bus.passWrite_posting (b : Bus) (x : BusWrite) : (b.passWrite x).posting = b.posting := by
  unfold Bus.passWrite; dsimp only; split <;> rfl
@[simp] theorem Bus.passWrite_settings (b : Bus) (x : BusWrite) : (b.passWrite x).settings = b.settings := by
  unfold Bus.passWrite; dsimp only; split <;> rfl
@[simp] theorem Bus.passWrite_marks (b : Bus) (x : BusWrite) : (b.passWrite x).marks = b.marks := by
  unfold Bus.passWrite; dsimp only; split <;> rfl
@[simp] theorem Bus.passWrite_causePower (b : Bus) (x : BusWrite) : (b.passWrite x).causePower = b.causePower := by
  unfold Bus.passWrite; dsimp only; split <;> rfl
@[simp] theorem Bus.passWrite_causePin (b : Bus) (x : BusWrite) : (b.passWrite x).causePin = b.causePin := by
  unfold Bus.passWrite; dsimp only; split <;> rfl
@[simp] theorem Bus.passWrite_causeSoft (b : Bus) (x : BusWrite) : (b.passWrite x).causeSoft = b.causeSoft := by
  unfold Bus.passWrite; dsimp only; split <;> rfl
@[simp] theorem Bus.passWrite_fanoutChanges (b : Bus) (x : BusWrite) : (b.passWrite x).fanoutChanges = b.fanoutChanges := by
  unfold Bus.passWrite; dsimp only; split <;> rfl
@[simp] theorem Bus.passWaiting_resetLine (l : List BusWrite) (b : Bus) : (Bus.passWaiting l b).resetLine = b.resetLine := by
  induction l generalizing b with
  | nil => rfl
  | cons x l ih =>
    unfold Bus.passWaiting
    split
    · simp [ih]
    · rfl
@[simp] theorem Bus.passWaiting_straps (l : List BusWrite) (b : Bus) : (Bus.passWaiting l b).straps = b.straps := by
  induction l generalizing b with
  | nil => rfl
  | cons x l ih =>
    unfold Bus.passWaiting
    split
    · simp [ih]
    · rfl
@[simp] theorem Bus.passWaiting_posting (l : List BusWrite) (b : Bus) : (Bus.passWaiting l b).posting = b.posting := by
  induction l generalizing b with
  | nil => rfl
  | cons x l ih =>
    unfold Bus.passWaiting
    split
    · simp [ih]
    · rfl
@[simp] theorem Bus.passWaiting_settings (l : List BusWrite) (b : Bus) : (Bus.passWaiting l b).settings = b.settings := by
  induction l generalizing b with
  | nil => rfl
  | cons x l ih =>
    unfold Bus.passWaiting
    split
    · simp [ih]
    · rfl
@[simp] theorem Bus.passWaiting_marks (l : List BusWrite) (b : Bus) : (Bus.passWaiting l b).marks = b.marks := by
  induction l generalizing b with
  | nil => rfl
  | cons x l ih =>
    unfold Bus.passWaiting
    split
    · simp [ih]
    · rfl
@[simp] theorem Bus.passWaiting_causePower (l : List BusWrite) (b : Bus) : (Bus.passWaiting l b).causePower = b.causePower := by
  induction l generalizing b with
  | nil => rfl
  | cons x l ih =>
    unfold Bus.passWaiting
    split
    · simp [ih]
    · rfl
@[simp] theorem Bus.passWaiting_causePin (l : List BusWrite) (b : Bus) : (Bus.passWaiting l b).causePin = b.causePin := by
  induction l generalizing b with
  | nil => rfl
  | cons x l ih =>
    unfold Bus.passWaiting
    split
    · simp [ih]
    · rfl
@[simp] theorem Bus.passWaiting_causeSoft (l : List BusWrite) (b : Bus) : (Bus.passWaiting l b).causeSoft = b.causeSoft := by
  induction l generalizing b with
  | nil => rfl
  | cons x l ih =>
    unfold Bus.passWaiting
    split
    · simp [ih]
    · rfl
@[simp] theorem Bus.passWaiting_fanoutChanges (l : List BusWrite) (b : Bus) : (Bus.passWaiting l b).fanoutChanges = b.fanoutChanges := by
  induction l generalizing b with
  | nil => rfl
  | cons x l ih =>
    unfold Bus.passWaiting
    split
    · simp [ih]
    · rfl
@[simp] theorem Bus.giveWay_resetLine (b : Bus) : b.giveWay.resetLine = b.resetLine := by simp [Bus.giveWay]
@[simp] theorem Bus.giveWay_straps (b : Bus) : b.giveWay.straps = b.straps := by simp [Bus.giveWay]
@[simp] theorem Bus.giveWay_posting (b : Bus) : b.giveWay.posting = b.posting := by simp [Bus.giveWay]
@[simp] theorem Bus.giveWay_settings (b : Bus) : b.giveWay.settings = b.settings := by simp [Bus.giveWay]
@[simp] theorem Bus.giveWay_marks (b : Bus) : b.giveWay.marks = b.marks := by simp [Bus.giveWay]
@[simp] theorem Bus.giveWay_causePower (b : Bus) : b.giveWay.causePower = b.causePower := by simp [Bus.giveWay]
@[simp] theorem Bus.giveWay_causePin (b : Bus) : b.giveWay.causePin = b.causePin := by simp [Bus.giveWay]
@[simp] theorem Bus.giveWay_causeSoft (b : Bus) : b.giveWay.causeSoft = b.causeSoft := by simp [Bus.giveWay]
@[simp] theorem Bus.giveWay_fanoutChanges (b : Bus) : b.giveWay.fanoutChanges = b.fanoutChanges := by simp [Bus.giveWay]
@[simp] theorem Bus.request_resetLine (b : Bus) (a : BusAddr) (v : Word) : (b.request a v).resetLine = b.resetLine := by simp [Bus.request]
@[simp] theorem Bus.request_straps (b : Bus) (a : BusAddr) (v : Word) : (b.request a v).straps = b.straps := by simp [Bus.request]
@[simp] theorem Bus.request_posting (b : Bus) (a : BusAddr) (v : Word) : (b.request a v).posting = b.posting := by simp [Bus.request]
@[simp] theorem Bus.request_settings (b : Bus) (a : BusAddr) (v : Word) : (b.request a v).settings = b.settings := by simp [Bus.request]
@[simp] theorem Bus.request_marks (b : Bus) (a : BusAddr) (v : Word) : (b.request a v).marks = b.marks := by simp [Bus.request]
@[simp] theorem Bus.request_causePower (b : Bus) (a : BusAddr) (v : Word) : (b.request a v).causePower = b.causePower := by simp [Bus.request]
@[simp] theorem Bus.request_causePin (b : Bus) (a : BusAddr) (v : Word) : (b.request a v).causePin = b.causePin := by simp [Bus.request]
@[simp] theorem Bus.request_causeSoft (b : Bus) (a : BusAddr) (v : Word) : (b.request a v).causeSoft = b.causeSoft := by simp [Bus.request]
@[simp] theorem Bus.request_fanoutChanges (b : Bus) (a : BusAddr) (v : Word) : (b.request a v).fanoutChanges = b.fanoutChanges := by simp [Bus.request]
@[simp] theorem Bus.post_resetLine (b : Bus) (o : Nat) (x : Word) : (b.post o x).resetLine = b.resetLine := rfl
@[simp] theorem Bus.post_straps (b : Bus) (o : Nat) (x : Word) : (b.post o x).straps = b.straps := rfl
@[simp] theorem Bus.post_posting (b : Bus) (o : Nat) (x : Word) : (b.post o x).posting = b.posting := rfl
@[simp] theorem Bus.post_settings (b : Bus) (o : Nat) (x : Word) : (b.post o x).settings = b.settings := rfl
@[simp] theorem Bus.post_marks (b : Bus) (o : Nat) (x : Word) : (b.post o x).marks = b.marks := rfl
@[simp] theorem Bus.post_causePower (b : Bus) (o : Nat) (x : Word) : (b.post o x).causePower = b.causePower := rfl
@[simp] theorem Bus.post_causePin (b : Bus) (o : Nat) (x : Word) : (b.post o x).causePin = b.causePin := rfl
@[simp] theorem Bus.post_causeSoft (b : Bus) (o : Nat) (x : Word) : (b.post o x).causeSoft = b.causeSoft := rfl
@[simp] theorem Bus.post_fanoutChanges (b : Bus) (o : Nat) (x : Word) : (b.post o x).fanoutChanges = b.fanoutChanges := rfl
@[simp] theorem Bus.post_snoop (b : Bus) (o : Nat) (x : Word) : (b.post o x).snoop = b.snoop := rfl
@[simp] theorem Bus.post_waiting (b : Bus) (o : Nat) (x : Word) : (b.post o x).waiting = b.waiting := rfl

/-! ### The exchange -/

@[simp] theorem Exchange.mark_orders (w : PostedWord) : (e.mark w).orders = e.orders := rfl
@[simp] theorem Exchange.mark_plans (w : PostedWord) : (e.mark w).plans = e.plans := rfl
@[simp] theorem Exchange.mark_chans (w : PostedWord) : (e.mark w).chans = e.chans := rfl
@[simp] theorem Exchange.mark_players (w : PostedWord) : (e.mark w).players = e.players := rfl
@[simp] theorem Exchange.mark_cong (w : PostedWord) : (e.mark w).cong = e.cong := rfl
@[simp] theorem Exchange.submit_orders (b : Block) (k : ReportKind) (x y : Nat) : (e.submit b k x y).orders = e.orders := rfl
@[simp] theorem Exchange.submit_plans (b : Block) (k : ReportKind) (x y : Nat) : (e.submit b k x y).plans = e.plans := rfl
@[simp] theorem Exchange.submit_chans (b : Block) (k : ReportKind) (x y : Nat) : (e.submit b k x y).chans = e.chans := rfl
@[simp] theorem Exchange.submit_players (b : Block) (k : ReportKind) (x y : Nat) : (e.submit b k x y).players = e.players := rfl
@[simp] theorem Exchange.submit_cong (b : Block) (k : ReportKind) (x y : Nat) : (e.submit b k x y).cong = e.cong := rfl
@[simp] theorem Exchange.setChan_wire (k : ChanNo) (c : Channel) : (e.setChan k c).wire = e.wire := rfl
@[simp] theorem Exchange.setChan_orders (k : ChanNo) (c : Channel) : (e.setChan k c).orders = e.orders := rfl
@[simp] theorem Exchange.setChan_plans (k : ChanNo) (c : Channel) : (e.setChan k c).plans = e.plans := rfl
@[simp] theorem Exchange.setChan_players (k : ChanNo) (c : Channel) : (e.setChan k c).players = e.players := rfl
@[simp] theorem Exchange.setChan_cong (k : ChanNo) (c : Channel) : (e.setChan k c).cong = e.cong := rfl
@[simp] theorem Exchange.chanNotify_wire (c : Circ) (t : Tag) (m : ChannelMessage) : (e.chanNotify c t m).wire = e.wire := rfl
@[simp] theorem Exchange.chanNotify_orders (c : Circ) (t : Tag) (m : ChannelMessage) : (e.chanNotify c t m).orders = e.orders := rfl
@[simp] theorem Exchange.chanNotify_plans (c : Circ) (t : Tag) (m : ChannelMessage) : (e.chanNotify c t m).plans = e.plans := rfl
@[simp] theorem Exchange.chanNotify_players (c : Circ) (t : Tag) (m : ChannelMessage) : (e.chanNotify c t m).players = e.players := rfl
@[simp] theorem Exchange.chanNotify_cong (c : Circ) (t : Tag) (m : ChannelMessage) : (e.chanNotify c t m).cong = e.cong := rfl
@[simp] theorem Exchange.setToneQueue_wire (q : List ToneWaiter) : (e.setToneQueue q).wire = e.wire := rfl
@[simp] theorem Exchange.setToneQueue_orders (q : List ToneWaiter) : (e.setToneQueue q).orders = e.orders := rfl
@[simp] theorem Exchange.setToneQueue_plans (q : List ToneWaiter) : (e.setToneQueue q).plans = e.plans := rfl
@[simp] theorem Exchange.setToneQueue_players (q : List ToneWaiter) : (e.setToneQueue q).players = e.players := rfl
@[simp] theorem Exchange.setToneQueue_cong (q : List ToneWaiter) : (e.setToneQueue q).cong = e.cong := rfl
@[simp] theorem Exchange.queueTone_orders (c : Circ) (t : Tag) (b : Bool) (p : PlanNo) : (e.queueTone c t b p).orders = e.orders := rfl
@[simp] theorem Exchange.queueTone_plans (c : Circ) (t : Tag) (b : Bool) (p : PlanNo) : (e.queueTone c t b p).plans = e.plans := rfl
@[simp] theorem Exchange.queueTone_players (c : Circ) (t : Tag) (b : Bool) (p : PlanNo) : (e.queueTone c t b p).players = e.players := rfl
@[simp] theorem Exchange.queueTone_cong (c : Circ) (t : Tag) (b : Bool) (p : PlanNo) : (e.queueTone c t b p).cong = e.cong := rfl
@[simp] theorem Exchange.playNotify_wire (c : Circ) (t : Tag) (m : PlayerMessage) : (e.playNotify c t m).wire = e.wire := rfl
@[simp] theorem Exchange.playNotify_orders (c : Circ) (t : Tag) (m : PlayerMessage) : (e.playNotify c t m).orders = e.orders := rfl
@[simp] theorem Exchange.playNotify_plans (c : Circ) (t : Tag) (m : PlayerMessage) : (e.playNotify c t m).plans = e.plans := rfl
@[simp] theorem Exchange.playNotify_chans (c : Circ) (t : Tag) (m : PlayerMessage) : (e.playNotify c t m).chans = e.chans := rfl
@[simp] theorem Exchange.playNotify_cong (c : Circ) (t : Tag) (m : PlayerMessage) : (e.playNotify c t m).cong = e.cong := rfl
@[simp] theorem Exchange.setWaitList_wire (l : List AnnWaiter) : (e.setWaitList l).wire = e.wire := rfl
@[simp] theorem Exchange.setWaitList_orders (l : List AnnWaiter) : (e.setWaitList l).orders = e.orders := rfl
@[simp] theorem Exchange.setWaitList_plans (l : List AnnWaiter) : (e.setWaitList l).plans = e.plans := rfl
@[simp] theorem Exchange.setWaitList_chans (l : List AnnWaiter) : (e.setWaitList l).chans = e.chans := rfl
@[simp] theorem Exchange.setWaitList_cong (l : List AnnWaiter) : (e.setWaitList l).cong = e.cong := rfl
@[simp] theorem Exchange.setPlayer_orders (n : PlayNo) (p : Player) : (e.setPlayer n p).orders = e.orders := by
  unfold Exchange.setPlayer; dsimp only; split <;> rfl
@[simp] theorem Exchange.setPlayer_plans (n : PlayNo) (p : Player) : (e.setPlayer n p).plans = e.plans := by
  unfold Exchange.setPlayer; dsimp only; split <;> rfl
@[simp] theorem Exchange.setPlayer_chans (n : PlayNo) (p : Player) : (e.setPlayer n p).chans = e.chans := by
  unfold Exchange.setPlayer; dsimp only; split <;> rfl
@[simp] theorem Exchange.setPlayer_cong (n : PlayNo) (p : Player) : (e.setPlayer n p).cong = e.cong := by
  unfold Exchange.setPlayer; dsimp only; split <;> rfl
@[simp] theorem Exchange.setCircuit_plans (p : Circ) (c : Circuit) : (e.setCircuit p c).plans = e.plans := by
  unfold Exchange.setCircuit; dsimp only; split <;> rfl
@[simp] theorem Exchange.setCircuit_chans (p : Circ) (c : Circuit) : (e.setCircuit p c).chans = e.chans := by
  unfold Exchange.setCircuit; dsimp only; split <;> rfl
@[simp] theorem Exchange.setCircuit_players (p : Circ) (c : Circuit) : (e.setCircuit p c).players = e.players := by
  unfold Exchange.setCircuit; dsimp only; split <;> rfl
@[simp] theorem Exchange.setCircuit_cong (p : Circ) (c : Circuit) : (e.setCircuit p c).cong = e.cong := by
  unfold Exchange.setCircuit; dsimp only; split <;> rfl
@[simp] theorem Exchange.setCircuit_circuits (p : Circ) (c : Circuit) : (e.setCircuit p c).orders.circuits = e.orders.circuits.set p c := by
  unfold Exchange.setCircuit; dsimp only; split <;> rfl
@[simp] theorem Exchange.setCircuit_gapSetting (p : Circ) (c : Circuit) : (e.setCircuit p c).orders.gapSetting = e.orders.gapSetting := by
  unfold Exchange.setCircuit; dsimp only; split <;> rfl
@[simp] theorem Exchange.setCircuit_waitLimit (p : Circ) (c : Circuit) : (e.setCircuit p c).orders.waitLimit = e.orders.waitLimit := by
  unfold Exchange.setCircuit; dsimp only; split <;> rfl
@[simp] theorem Exchange.setCircuit_expiryReqs (p : Circ) (c : Circuit) : (e.setCircuit p c).orders.expiryReqs = e.orders.expiryReqs := by
  unfold Exchange.setCircuit; dsimp only; split <;> rfl
@[simp] theorem Exchange.setCircuit_circuit (p : Circ) (c : Circuit) : (e.setCircuit p c).circuit p = c := by
  simp [Exchange.circuit]
theorem Exchange.setCircuit_circuit_ne {p q : Circ} (h : q ≠ p) (c : Circuit) :
    (e.setCircuit p c).circuit q = e.circuit q := by
  simp only [Exchange.circuit, Exchange.setCircuit_circuits, Fin.getElem_fin]
  exact Vector.getElem_set_ne _ _ (fun hv => h (Fin.ext hv.symm))
@[simp] theorem Exchange.setPlayer_players_waitList (n : PlayNo) (p : Player) : (e.setPlayer n p).players.waitList = e.players.waitList := by
  unfold Exchange.setPlayer; dsimp only; split <;> rfl
@[simp] theorem Exchange.setPlayer_players_fanout (n : PlayNo) (p : Player) : (e.setPlayer n p).players.fanout = e.players.fanout := by
  unfold Exchange.setPlayer; dsimp only; split <;> rfl
@[simp] theorem Exchange.setPlayer_players_scanning (n : PlayNo) (p : Player) : (e.setPlayer n p).players.scanning = e.players.scanning := by
  unfold Exchange.setPlayer; dsimp only; split <;> rfl
@[simp] theorem Exchange.setPlayer_players_view (n : PlayNo) (p : Player) : (e.setPlayer n p).players.view = e.players.view := by
  unfold Exchange.setPlayer; dsimp only; split <;> rfl
@[simp] theorem Exchange.setPlayer_players_notices (n : PlayNo) (p : Player) : (e.setPlayer n p).players.notices = e.players.notices := by
  unfold Exchange.setPlayer; dsimp only; split <;> rfl
@[simp] theorem Exchange.setPlayer_players_refillReqs (n : PlayNo) (p : Player) : (e.setPlayer n p).players.refillReqs = e.players.refillReqs := by
  unfold Exchange.setPlayer; dsimp only; split <;> rfl
@[simp] theorem Exchange.setPlayer_players_withdrawnAnswers (n : PlayNo) (p : Player) : (e.setPlayer n p).players.withdrawnAnswers = e.players.withdrawnAnswers := by
  unfold Exchange.setPlayer; dsimp only; split <;> rfl
@[simp] theorem Exchange.setPlayer_player (n : PlayNo) (p : Player) : (e.setPlayer n p).player n = p := by
  unfold Exchange.setPlayer Exchange.player; dsimp only; split <;> simp
@[simp] theorem Exchange.dropRef_orders (b : Bank) : (e.dropRef b).orders = e.orders := by
  unfold Exchange.dropRef; dsimp only; split <;> rfl
@[simp] theorem Exchange.dropRef_chans (b : Bank) : (e.dropRef b).chans = e.chans := by
  unfold Exchange.dropRef; dsimp only; split <;> rfl
@[simp] theorem Exchange.dropRef_players (b : Bank) : (e.dropRef b).players = e.players := by
  unfold Exchange.dropRef; dsimp only; split <;> rfl
@[simp] theorem Exchange.dropRef_cong (b : Bank) : (e.dropRef b).cong = e.cong := by
  unfold Exchange.dropRef; dsimp only; split <;> rfl

/-! ### The store side -/

@[simp] theorem StoreSide.mark_store (w : PostedWord) : (v.mark w).store = v.store := rfl
@[simp] theorem StoreSide.submit_store (k : ReportKind) (x y : Nat) : (v.submit k x y).store = v.store := rfl
@[simp] theorem StoreSide.on_wire (f : StoreController → StoreController) : (v.on f).wire = v.wire := rfl
@[simp] theorem StoreSide.on_store (f : StoreController → StoreController) : (v.on f).store = f v.store := rfl
@[simp] theorem StoreSide.status_store (f : StoreController → StoreController) : (v.status f).store = f v.store := rfl
@[simp] theorem StoreSide.sequenceError_store (w : Word) : (v.sequenceError w).store = v.store := rfl
@[simp] theorem StoreSide.setDir_bytes (r : RecNo) (d : DirRecord) : (v.setDir r d).store.bytes = v.store.bytes := rfl
@[simp] theorem StoreSide.setDir_segMap (r : RecNo) (d : DirRecord) : (v.setDir r d).store.segMap = v.store.segMap := rfl
@[simp] theorem StoreSide.setDir_engine (r : RecNo) (d : DirRecord) : (v.setDir r d).store.engine = v.store.engine := rfl
@[simp] theorem StoreSide.setDir_hold (r : RecNo) (d : DirRecord) : (v.setDir r d).store.hold = v.store.hold := rfl
@[simp] theorem StoreSide.setDir_session (r : RecNo) (d : DirRecord) : (v.setDir r d).store.session = v.store.session := rfl
@[simp] theorem StoreSide.setDir_settling (r : RecNo) (d : DirRecord) : (v.setDir r d).store.settling = v.store.settling := rfl
@[simp] theorem StoreSide.setDir_retire (r : RecNo) (d : DirRecord) : (v.setDir r d).store.retire = v.store.retire := rfl
@[simp] theorem StoreSide.setDir_config (r : RecNo) (d : DirRecord) : (v.setDir r d).store.config = v.store.config := rfl
@[simp] theorem StoreSide.setDir_pulses (r : RecNo) (d : DirRecord) : (v.setDir r d).store.pulses = v.store.pulses := rfl
@[simp] theorem StoreSide.setDir_attempts (r : RecNo) (d : DirRecord) : (v.setDir r d).store.attempts = v.store.attempts := rfl
@[simp] theorem StoreSide.setDir_bufA (r : RecNo) (d : DirRecord) : (v.setDir r d).store.bufA = v.store.bufA := rfl
@[simp] theorem StoreSide.setDir_bufB (r : RecNo) (d : DirRecord) : (v.setDir r d).store.bufB = v.store.bufB := rfl
@[simp] theorem StoreSide.setDir_eraseFail (r : RecNo) (d : DirRecord) : (v.setDir r d).store.eraseFail = v.store.eraseFail := rfl
@[simp] theorem StoreSide.setDir_programFail (r : RecNo) (d : DirRecord) : (v.setDir r d).store.programFail = v.store.programFail := rfl
@[simp] theorem StoreSide.setDir_supplyAbort (r : RecNo) (d : DirRecord) : (v.setDir r d).store.supplyAbort = v.store.supplyAbort := rfl
@[simp] theorem StoreSide.setDir_pendingBegin (r : RecNo) (d : DirRecord) : (v.setDir r d).store.pendingBegin = v.store.pendingBegin := rfl
@[simp] theorem StoreSide.setDir_paramHigh (r : RecNo) (d : DirRecord) : (v.setDir r d).store.paramHigh = v.store.paramHigh := rfl
@[simp] theorem StoreSide.setDir_paramLow (r : RecNo) (d : DirRecord) : (v.setDir r d).store.paramLow = v.store.paramLow := rfl
@[simp] theorem StoreSide.setDir_paramFlags (r : RecNo) (d : DirRecord) : (v.setDir r d).store.paramFlags = v.store.paramFlags := rfl
@[simp] theorem StoreSide.setDir_lastRefusal (r : RecNo) (d : DirRecord) : (v.setDir r d).store.lastRefusal = v.store.lastRefusal := rfl
@[simp] theorem StoreSide.setDir_refillQ (r : RecNo) (d : DirRecord) : (v.setDir r d).store.refillQ = v.store.refillQ := rfl
@[simp] theorem StoreSide.setDir_lamp (r : RecNo) (d : DirRecord) : (v.setDir r d).store.lamp = v.store.lamp := rfl
@[simp] theorem StoreSide.setDir_port (r : RecNo) (d : DirRecord) : (v.setDir r d).store.port = v.store.port := rfl
@[simp] theorem StoreSide.setDir_suspended (r : RecNo) (d : DirRecord) : (v.setDir r d).store.suspended = v.store.suspended := rfl
@[simp] theorem StoreSide.setDir_deliveries (r : RecNo) (d : DirRecord) : (v.setDir r d).store.deliveries = v.store.deliveries := rfl
@[simp] theorem StoreSide.setDir_poolNotices (r : RecNo) (d : DirRecord) : (v.setDir r d).store.poolNotices = v.store.poolNotices := rfl
@[simp] theorem StoreSide.setDir_scanComplete (r : RecNo) (d : DirRecord) : (v.setDir r d).store.scanComplete = v.store.scanComplete := rfl
@[simp] theorem StoreSide.setDir_lock (r : RecNo) (d : DirRecord) : (v.setDir r d).store.lock = v.store.lock := rfl
@[simp] theorem StoreSide.setDir_supplyGood (r : RecNo) (d : DirRecord) : (v.setDir r d).store.supplyGood = v.store.supplyGood := rfl
@[simp] theorem StoreSide.setDir_dir (r : RecNo) (d : DirRecord) : (v.setDir r d).store.dir = v.store.dir.set r d := rfl
@[simp] theorem StoreSide.setEngine_bytes (x : Engine) : (v.setEngine x).store.bytes = v.store.bytes := by
  unfold StoreSide.setEngine; split <;> rfl
@[simp] theorem StoreSide.setEngine_dir (x : Engine) : (v.setEngine x).store.dir = v.store.dir := by
  unfold StoreSide.setEngine; split <;> rfl
@[simp] theorem StoreSide.setEngine_segMap (x : Engine) : (v.setEngine x).store.segMap = v.store.segMap := by
  unfold StoreSide.setEngine; split <;> rfl
@[simp] theorem StoreSide.setEngine_hold (x : Engine) : (v.setEngine x).store.hold = v.store.hold := by
  unfold StoreSide.setEngine; split <;> rfl
@[simp] theorem StoreSide.setEngine_session (x : Engine) : (v.setEngine x).store.session = v.store.session := by
  unfold StoreSide.setEngine; split <;> rfl
@[simp] theorem StoreSide.setEngine_settling (x : Engine) : (v.setEngine x).store.settling = v.store.settling := by
  unfold StoreSide.setEngine; split <;> rfl
@[simp] theorem StoreSide.setEngine_retire (x : Engine) : (v.setEngine x).store.retire = v.store.retire := by
  unfold StoreSide.setEngine; split <;> rfl
@[simp] theorem StoreSide.setEngine_config (x : Engine) : (v.setEngine x).store.config = v.store.config := by
  unfold StoreSide.setEngine; split <;> rfl
@[simp] theorem StoreSide.setEngine_pulses (x : Engine) : (v.setEngine x).store.pulses = v.store.pulses := by
  unfold StoreSide.setEngine; split <;> rfl
@[simp] theorem StoreSide.setEngine_attempts (x : Engine) : (v.setEngine x).store.attempts = v.store.attempts := by
  unfold StoreSide.setEngine; split <;> rfl
@[simp] theorem StoreSide.setEngine_bufA (x : Engine) : (v.setEngine x).store.bufA = v.store.bufA := by
  unfold StoreSide.setEngine; split <;> rfl
@[simp] theorem StoreSide.setEngine_bufB (x : Engine) : (v.setEngine x).store.bufB = v.store.bufB := by
  unfold StoreSide.setEngine; split <;> rfl
@[simp] theorem StoreSide.setEngine_eraseFail (x : Engine) : (v.setEngine x).store.eraseFail = v.store.eraseFail := by
  unfold StoreSide.setEngine; split <;> rfl
@[simp] theorem StoreSide.setEngine_programFail (x : Engine) : (v.setEngine x).store.programFail = v.store.programFail := by
  unfold StoreSide.setEngine; split <;> rfl
@[simp] theorem StoreSide.setEngine_supplyAbort (x : Engine) : (v.setEngine x).store.supplyAbort = v.store.supplyAbort := by
  unfold StoreSide.setEngine; split <;> rfl
@[simp] theorem StoreSide.setEngine_pendingBegin (x : Engine) : (v.setEngine x).store.pendingBegin = v.store.pendingBegin := by
  unfold StoreSide.setEngine; split <;> rfl
@[simp] theorem StoreSide.setEngine_paramHigh (x : Engine) : (v.setEngine x).store.paramHigh = v.store.paramHigh := by
  unfold StoreSide.setEngine; split <;> rfl
@[simp] theorem StoreSide.setEngine_paramLow (x : Engine) : (v.setEngine x).store.paramLow = v.store.paramLow := by
  unfold StoreSide.setEngine; split <;> rfl
@[simp] theorem StoreSide.setEngine_paramFlags (x : Engine) : (v.setEngine x).store.paramFlags = v.store.paramFlags := by
  unfold StoreSide.setEngine; split <;> rfl
@[simp] theorem StoreSide.setEngine_lastRefusal (x : Engine) : (v.setEngine x).store.lastRefusal = v.store.lastRefusal := by
  unfold StoreSide.setEngine; split <;> rfl
@[simp] theorem StoreSide.setEngine_refillQ (x : Engine) : (v.setEngine x).store.refillQ = v.store.refillQ := by
  unfold StoreSide.setEngine; split <;> rfl
@[simp] theorem StoreSide.setEngine_lamp (x : Engine) : (v.setEngine x).store.lamp = v.store.lamp := by
  unfold StoreSide.setEngine; split <;> rfl
@[simp] theorem StoreSide.setEngine_port (x : Engine) : (v.setEngine x).store.port = v.store.port := by
  unfold StoreSide.setEngine; split <;> rfl
@[simp] theorem StoreSide.setEngine_suspended (x : Engine) : (v.setEngine x).store.suspended = v.store.suspended := by
  unfold StoreSide.setEngine; split <;> rfl
@[simp] theorem StoreSide.setEngine_deliveries (x : Engine) : (v.setEngine x).store.deliveries = v.store.deliveries := by
  unfold StoreSide.setEngine; split <;> rfl
@[simp] theorem StoreSide.setEngine_poolNotices (x : Engine) : (v.setEngine x).store.poolNotices = v.store.poolNotices := by
  unfold StoreSide.setEngine; split <;> rfl
@[simp] theorem StoreSide.setEngine_scanComplete (x : Engine) : (v.setEngine x).store.scanComplete = v.store.scanComplete := by
  unfold StoreSide.setEngine; split <;> rfl
@[simp] theorem StoreSide.setEngine_lock (x : Engine) : (v.setEngine x).store.lock = v.store.lock := by
  unfold StoreSide.setEngine; split <;> rfl
@[simp] theorem StoreSide.setEngine_supplyGood (x : Engine) : (v.setEngine x).store.supplyGood = v.store.supplyGood := by
  unfold StoreSide.setEngine; split <;> rfl
@[simp] theorem StoreSide.setEngine_engine (x : Engine) : (v.setEngine x).store.engine = x := by
  unfold StoreSide.setEngine; split <;> first | assumption | rfl
@[simp] theorem StoreController.setSeg_bytes (c : StoreController) (g : SegNo) (x : SegState) : (c.setSeg g x).bytes = c.bytes := rfl
@[simp] theorem StoreController.setSeg_dir (c : StoreController) (g : SegNo) (x : SegState) : (c.setSeg g x).dir = c.dir := rfl
@[simp] theorem StoreController.setSeg_engine (c : StoreController) (g : SegNo) (x : SegState) : (c.setSeg g x).engine = c.engine := rfl
@[simp] theorem StoreController.setSeg_hold (c : StoreController) (g : SegNo) (x : SegState) : (c.setSeg g x).hold = c.hold := rfl
@[simp] theorem StoreController.setSeg_session (c : StoreController) (g : SegNo) (x : SegState) : (c.setSeg g x).session = c.session := rfl
@[simp] theorem StoreController.setSeg_settling (c : StoreController) (g : SegNo) (x : SegState) : (c.setSeg g x).settling = c.settling := rfl
@[simp] theorem StoreController.setSeg_retire (c : StoreController) (g : SegNo) (x : SegState) : (c.setSeg g x).retire = c.retire := rfl
@[simp] theorem StoreController.setSeg_config (c : StoreController) (g : SegNo) (x : SegState) : (c.setSeg g x).config = c.config := rfl
@[simp] theorem StoreController.setSeg_pulses (c : StoreController) (g : SegNo) (x : SegState) : (c.setSeg g x).pulses = c.pulses := rfl
@[simp] theorem StoreController.setSeg_attempts (c : StoreController) (g : SegNo) (x : SegState) : (c.setSeg g x).attempts = c.attempts := rfl
@[simp] theorem StoreController.setSeg_bufA (c : StoreController) (g : SegNo) (x : SegState) : (c.setSeg g x).bufA = c.bufA := rfl
@[simp] theorem StoreController.setSeg_bufB (c : StoreController) (g : SegNo) (x : SegState) : (c.setSeg g x).bufB = c.bufB := rfl
@[simp] theorem StoreController.setSeg_eraseFail (c : StoreController) (g : SegNo) (x : SegState) : (c.setSeg g x).eraseFail = c.eraseFail := rfl
@[simp] theorem StoreController.setSeg_programFail (c : StoreController) (g : SegNo) (x : SegState) : (c.setSeg g x).programFail = c.programFail := rfl
@[simp] theorem StoreController.setSeg_supplyAbort (c : StoreController) (g : SegNo) (x : SegState) : (c.setSeg g x).supplyAbort = c.supplyAbort := rfl
@[simp] theorem StoreController.setSeg_pendingBegin (c : StoreController) (g : SegNo) (x : SegState) : (c.setSeg g x).pendingBegin = c.pendingBegin := rfl
@[simp] theorem StoreController.setSeg_paramHigh (c : StoreController) (g : SegNo) (x : SegState) : (c.setSeg g x).paramHigh = c.paramHigh := rfl
@[simp] theorem StoreController.setSeg_paramLow (c : StoreController) (g : SegNo) (x : SegState) : (c.setSeg g x).paramLow = c.paramLow := rfl
@[simp] theorem StoreController.setSeg_paramFlags (c : StoreController) (g : SegNo) (x : SegState) : (c.setSeg g x).paramFlags = c.paramFlags := rfl
@[simp] theorem StoreController.setSeg_lastRefusal (c : StoreController) (g : SegNo) (x : SegState) : (c.setSeg g x).lastRefusal = c.lastRefusal := rfl
@[simp] theorem StoreController.setSeg_refillQ (c : StoreController) (g : SegNo) (x : SegState) : (c.setSeg g x).refillQ = c.refillQ := rfl
@[simp] theorem StoreController.setSeg_lamp (c : StoreController) (g : SegNo) (x : SegState) : (c.setSeg g x).lamp = c.lamp := rfl
@[simp] theorem StoreController.setSeg_port (c : StoreController) (g : SegNo) (x : SegState) : (c.setSeg g x).port = c.port := rfl
@[simp] theorem StoreController.setSeg_suspended (c : StoreController) (g : SegNo) (x : SegState) : (c.setSeg g x).suspended = c.suspended := rfl
@[simp] theorem StoreController.setSeg_deliveries (c : StoreController) (g : SegNo) (x : SegState) : (c.setSeg g x).deliveries = c.deliveries := rfl
@[simp] theorem StoreController.setSeg_poolNotices (c : StoreController) (g : SegNo) (x : SegState) : (c.setSeg g x).poolNotices = c.poolNotices := rfl
@[simp] theorem StoreController.setSeg_scanComplete (c : StoreController) (g : SegNo) (x : SegState) : (c.setSeg g x).scanComplete = c.scanComplete := rfl
@[simp] theorem StoreController.setSeg_lock (c : StoreController) (g : SegNo) (x : SegState) : (c.setSeg g x).lock = c.lock := rfl
@[simp] theorem StoreController.setSeg_supplyGood (c : StoreController) (g : SegNo) (x : SegState) : (c.setSeg g x).supplyGood = c.supplyGood := rfl

end Sys2Proof.Machine
end

