-- ==== Sys2Proof/Laws/Bus.lean ====
section
/-!
SUPPORT. What the shared operations of the bus can do: handing a captured word over, an event outside a reset, and passing
waiting processor writes.
-/
namespace Sys2Proof.Machine

/-! ### Handing over and events -/

/-- With the word at the head of the queue, taking it gives `State.taken`. -/
theorem takeEntry_of_headIs {s : State} {off : Nat} {w : Word} (h : s.headIs off w = true) :
    s.takeEntry off w = some s.taken := by
  unfold State.headIs at h
  unfold State.takeEntry State.taken
  rcases hq : s.bus.snoop with _ | ⟨e, l⟩ <;> simp_all

/-- Without it, nothing is taken. -/
theorem takeEntry_of_not_headIs {s : State} {off : Nat} {w : Word} (h : s.headIs off w = false) :
    s.takeEntry off w = none := by
  unfold State.headIs at h
  unfold State.takeEntry
  rcases hq : s.bus.snoop with _ | ⟨e, l⟩ <;> simp_all

/-- A captured word at the head is handed to its owner (R160). -/
theorem handOver_of_headIs {s : State} {off : Nat} {w : Word} {f : State → State} (h : s.headIs off w = true) :
    handOver off w f s = .next (f s.taken) := by
  simp [handOver, takeEntry_of_headIs h]

/-- A captured word that is not at the head is not handed over. -/
theorem handOver_of_not_headIs {s : State} {off : Nat} {w : Word} {f : State → State} (h : s.headIs off w = false) :
    handOver off w f s = .next s := by
  simp [handOver, takeEntry_of_not_headIs h]

/-- While an owner has yet to take the entry before it, no captured word is handed over (R160). -/
theorem handOver_of_not_ownersTook {s : State} {off : Nat} {w : Word} {f : State → State} (h : s.bus.ownersTook = false) :
    handOver off w f s = .next s := handOver_of_not_headIs (by simp [State.headIs, h])

theorem ownersTook_of_headIs {s : State} {off : Nat} {w : Word} (h : s.headIs off w = true) : s.bus.ownersTook = true := by
  unfold State.headIs at h
  simp_all

/-- Every way a hand-over can answer. -/
theorem handOver_cases {off : Nat} {w : Word} {f : State → State} {s t : State} (h : handOver off w f s = .next t) :
    (s.headIs off w = true ∧ t = f s.taken) ∨ (s.headIs off w = false ∧ t = s) := by
  cases hh : s.headIs off w with
  | true => rw [handOver_of_headIs hh] at h; cases h; exact .inl ⟨rfl, rfl⟩
  | false => rw [handOver_of_not_headIs hh] at h; cases h; exact .inr ⟨rfl, rfl⟩

/-- An event of the part outside a power-on or pin reset. -/
theorem event_of_running {f : State → State} {s : State} (h : s.running = true) : event f s = .next (f s) := by
  simp [event, h]

/-- Every way an event can answer. -/
theorem event_cases {f : State → State} {s t : State} (h : event f s = .next t) :
    (s.running = true ∧ t = f s) ∨ (s.running = false ∧ t = s) := by
  unfold event at h
  cases hr : s.running <;> simp_all

theorem running_of_headIs {s : State} {off : Nat} {w : Word} (h : s.headIs off w = true) : s.running = true := by
  unfold State.headIs at h
  simp_all

/-! ### What taking an entry leaves -/

section
variable (s : State)
@[simp] theorem State.taken_pending : s.taken.pending = s.pending := rfl
@[simp] theorem State.taken_reports : s.taken.reports = s.reports := rfl
@[simp] theorem State.taken_wire : s.taken.wire = s.wire := rfl
@[simp] theorem State.taken_orders : s.taken.orders = s.orders := rfl
@[simp] theorem State.taken_plans : s.taken.plans = s.plans := rfl
@[simp] theorem State.taken_chans : s.taken.chans = s.chans := rfl
@[simp] theorem State.taken_sample : s.taken.sample = s.sample := rfl
@[simp] theorem State.taken_highway : s.taken.highway = s.highway := rfl
@[simp] theorem State.taken_players : s.taken.players = s.players := rfl
@[simp] theorem State.taken_cong : s.taken.cong = s.cong := rfl
@[simp] theorem State.taken_store : s.taken.store = s.store := rfl
@[simp] theorem State.taken_exchange : s.taken.exchange = s.exchange := rfl
@[simp] theorem State.taken_settings : s.taken.bus.settings = s.bus.settings := by simp [State.taken]
@[simp] theorem State.taken_marks : s.taken.bus.marks = s.bus.marks := by simp [State.taken]
@[simp] theorem State.taken_posting : s.taken.bus.posting = s.bus.posting := by simp [State.taken]
@[simp] theorem State.taken_resetLine : s.taken.bus.resetLine = s.bus.resetLine := by simp [State.taken]
@[simp] theorem State.taken_straps : s.taken.bus.straps = s.bus.straps := by simp [State.taken]
@[simp] theorem State.taken_fanoutChanges : s.taken.bus.fanoutChanges = s.bus.fanoutChanges := by simp [State.taken]
@[simp] theorem State.taken_ownersTook : s.taken.bus.ownersTook = s.bus.ownersTook := by simp [Bus.ownersTook]
@[simp] theorem State.taken_causePower : s.taken.bus.causePower = s.bus.causePower := by simp [State.taken]
@[simp] theorem State.taken_causePin : s.taken.bus.causePin = s.bus.causePin := by simp [State.taken]
@[simp] theorem State.taken_causeSoft : s.taken.bus.causeSoft = s.bus.causeSoft := by simp [State.taken]
@[simp] theorem State.taken_running : s.taken.running = s.running := by simp [State.running]
end

/-- A fan-out change given by an entry holds the next entry up; one of the scan's end does not (R160, log 42). -/
@[simp] theorem State.giveFanout_ownersTook (s : State) (fromEntry : Bool) (n : Nat) :
    (s.giveFanout fromEntry n).bus.ownersTook = (s.bus.ownersTook && !fromEntry) := by
  simp [State.giveFanout, State.setSettings, Bus.ownersTook, List.all_append]

/-! ### Passing processor writes -/

/-- With nothing waiting, giving way changes nothing. -/
theorem Bus.giveWay_nil {b : Bus} (h : b.waiting = []) : b.giveWay = b := by
  unfold Bus.giveWay Bus.passWaiting
  rw [h]
  cases b; simp_all

theorem Bus.passWrite_waiting (b : Bus) (x : BusWrite) : (b.passWrite x).waiting = b.waiting := by
  unfold Bus.passWrite; dsimp only; split <;> rfl

/-- Passing one write that can pass: where it goes in memory, and how the snoop queue grows (R158, R159). -/
theorem Bus.passWrite_spec (b : Bus) (x : BusWrite) :
    (b.passWrite x).callStore = memWrite Config.callStoreFill b.callStore x.addr.toNat x.value
      ∧ (b.passWrite x).snoop
        = b.snoop ++ ((b.capturedAt x).map fun off => Capture.mk off x.value).toList := by
  unfold Bus.passWrite
  dsimp only
  split <;> simp_all

/-- A write passed with room keeps the snoop queue within its depth. -/
theorem Bus.passWrite_snoop_le {b : Bus} {x : BusWrite} (h : b.snoop.length ≤ Config.snoopDepth)
    (hc : b.canPass x = true) : (b.passWrite x).snoop.length ≤ Config.snoopDepth := by
  rw [(Bus.passWrite_spec b x).2]
  unfold Bus.canPass at hc
  cases ho : b.capturedAt x <;> simp_all

/-- Everything passing the waiting writes can do: memory stays canonical, the snoop queue stays within its depth, and a
write is left waiting only while a posting cycle is in progress or the queue is full (R159, R165). -/
theorem Bus.passWaiting_spec {l : List BusWrite} {b : Bus}
    (hq : b.snoop.length ≤ Config.snoopDepth) (hm : memWf Config.callStoreFill b.callStore = true) :
    memWf Config.callStoreFill (Bus.passWaiting l b).callStore = true
      ∧ (Bus.passWaiting l b).snoop.length ≤ Config.snoopDepth
      ∧ ((Bus.passWaiting l b).waiting ≠ [] →
          (Bus.passWaiting l b).posting ≠ none ∨ (Bus.passWaiting l b).snoop.length = Config.snoopDepth) := by
  induction l generalizing b with
  | nil => exact ⟨hm, hq, fun h => absurd rfl h⟩
  | cons x l ih =>
    unfold Bus.passWaiting
    split
    · rename_i hc
      exact ih (Bus.passWrite_snoop_le hq hc) (by rw [(Bus.passWrite_spec b x).1]; exact memWrite_wf hm)
    · rename_i hc
      refine ⟨hm, hq, fun _ => ?_⟩
      simp only [Bus.canPass, Bool.and_eq_true, beq_iff_eq, Bool.or_eq_true, decide_eq_true_eq, not_and_or, not_or] at hc
      rcases hc with hc | ⟨_, hc⟩
      · exact .inl hc
      · exact .inr (by simp only; omega)

/-- The same of giving way. -/
theorem Bus.giveWay_spec {b : Bus} (hq : b.snoop.length ≤ Config.snoopDepth)
    (hm : memWf Config.callStoreFill b.callStore = true) :
    memWf Config.callStoreFill b.giveWay.callStore = true ∧ b.giveWay.snoop.length ≤ Config.snoopDepth
      ∧ (b.giveWay.waiting ≠ [] → b.giveWay.posting ≠ none ∨ b.giveWay.snoop.length = Config.snoopDepth) :=
  Bus.passWaiting_spec hq hm

end Sys2Proof.Machine
end

