-- ==== Sys2Proof/Laws/Exchange.lean ====
section
/-!
SUPPORT. What the shared operations of the exchange leave alone: no request to a pool and no event of a pool changes a circuit
record or the congestion unit, and the close of an event with the players at rest changes nothing.
-/
namespace Sys2Proof.Machine

/-! ### Dirty marks -/

/-- Setting or clearing a mark twice is setting or clearing it once. -/
@[simp] theorem DirtyMarks.put_put (d : DirtyMarks) (w : PostedWord) (b : Bool) : (d.put w b).put w b = d.put w b := by
  cases w <;> simp [DirtyMarks.put]

/-- Every mark after one is put. -/
theorem DirtyMarks.get_put (d : DirtyMarks) (w x : PostedWord) (b : Bool) :
    (d.put w b).get x = if x = w then b else d.get x := by
  cases w <;> cases x <;> simp [DirtyMarks.put, DirtyMarks.get, Vector.getElem_set, Fin.ext_iff, eq_comm]

/-! ### A frame carried through a list -/

/-- A measure that no step of a fold changes is unchanged by the fold. -/
theorem foldl_frame {α β γ : Type} (g : β → γ) (f : β → α → β) (h : ∀ b a, g (f b a) = g b) (l : List α) (b : β) :
    g (l.foldl f b) = g b := by
  induction l generalizing b with
  | nil => rfl
  | cons a l ih => rw [List.foldl_cons, ih, h]

/-- What a pool leaves alone: the order unit and the congestion unit. -/
def Exchange.outer (e : Exchange) : OrderUnit × CongestionUnit := (e.orders, e.cong)

theorem Exchange.outer_eq {e f : Exchange} (h : f.outer = e.outer) : f.orders = e.orders ∧ f.cong = e.cong := by
  simpa [Exchange.outer] using h

/-! ### Channel pool and plan table -/

section
variable (e : Exchange)

@[simp] theorem Exchange.outer_mark (w : PostedWord) : (e.mark w).outer = e.outer := rfl
@[simp] theorem Exchange.outer_submit (b : Block) (k : ReportKind) (x v : Nat) : (e.submit b k x v).outer = e.outer := rfl
@[simp] theorem Exchange.outer_setChan (k : ChanNo) (c : Channel) : (e.setChan k c).outer = e.outer := rfl
@[simp] theorem Exchange.outer_chanNotify (c : Circ) (g : Tag) (m : ChannelMessage) : (e.chanNotify c g m).outer = e.outer :=
  rfl
@[simp] theorem Exchange.outer_setToneQueue (q : List ToneWaiter) : (e.setToneQueue q).outer = e.outer := rfl
@[simp] theorem Exchange.outer_queueTone (c : Circ) (g : Tag) (b : Bool) (p : PlanNo) : (e.queueTone c g b p).outer = e.outer :=
  rfl

@[simp] theorem Exchange.outer_joinChan (k : ChanNo) (l : ToneListener) : (e.joinChan k l).outer = e.outer := by
  unfold Exchange.joinChan; split <;> rfl

@[simp] theorem Exchange.outer_dropRef (b : Bank) : (e.dropRef b).outer = e.outer := by
  unfold Exchange.dropRef; dsimp only; split <;> rfl

/-- A granted allocation changes the plan table and the one channel. -/
theorem Exchange.outer_allocChan {k : ChanNo} {p : PlanNo} {l : ToneListener} {e' : Exchange}
    (h : e.allocChan k p l = some e') : e'.outer = e.outer := by
  unfold Exchange.allocChan at h
  split at h
  · cases h
  · cases h; rfl

@[simp] theorem Exchange.outer_startTone (c : Circ) (g : Tag) (b : Bool) (p : PlanNo) : (e.startTone c g b p).2.outer = e.outer := by
  have free : ∀ k p l, (e.startFree k p l).2.outer = e.outer := by
    intro k p l
    unfold Exchange.startFree
    split
    · rename_i h; exact e.outer_allocChan h
    · rfl
  unfold Exchange.startTone Exchange.startPrivate Exchange.startShared
  split
  · split
    · simp [free]
    · split
      · rw [Exchange.outer_submit, Exchange.outer_joinChan]
      · simp
  · split
    · simp
    · split <;> simp [free]

@[simp] theorem Exchange.outer_serveInto (k : ChanNo) (w : ToneWaiter) : (e.serveInto k w).outer = e.outer := by
  simp [Exchange.serveInto]

@[simp] theorem Exchange.outer_serveShared (k : ChanNo) (p : PlanNo) : (e.serveShared k p).outer = e.outer := by
  unfold Exchange.serveShared
  dsimp only
  rw [foldl_frame Exchange.outer _ (fun b a => b.outer_serveInto k a)]
  rfl

theorem Exchange.outer_serveQueueFrom (k : ChanNo) (q : List ToneWaiter) : (Exchange.serveQueueFrom k q e).outer = e.outer := by
  induction q generalizing e with
  | nil => rfl
  | cons w rest ih =>
    unfold Exchange.serveQueueFrom
    split
    · rw [ih]; rfl
    · rename_i h
      have := (e.setToneQueue rest).outer_allocChan h
      dsimp only
      split <;> simp [this]

@[simp] theorem Exchange.outer_freeChan (k : ChanNo) (r : Bool) : (e.freeChan k r).outer = e.outer := by
  unfold Exchange.freeChan Exchange.serveToneQueue
  split
  · rfl
  · dsimp only; rw [Exchange.outer_serveQueueFrom]; split <;> simp

@[simp] theorem Exchange.outer_leaveTone (c : Circ) : (e.leaveTone c).outer = e.outer := by
  unfold Exchange.leaveTone
  split
  · rfl
  · split
    · rfl
    · split
      · rfl
      · dsimp only; split <;> simp

@[simp] theorem Exchange.outer_unitEnd (k : ChanNo) : (e.unitEnd k).outer = e.outer := by
  unfold Exchange.unitEnd; split
  · split <;> rfl
  · rfl

@[simp] theorem Exchange.outer_segmentEnd (k : ChanNo) : (e.segmentEnd k).outer = e.outer := by
  unfold Exchange.segmentEnd; split
  · split <;> rfl
  · rfl

@[simp] theorem Exchange.outer_dismiss (k : ChanNo) (m : ChannelMessage) : (e.dismiss k m).outer = e.outer := by
  unfold Exchange.dismiss
  split
  · rfl
  · rw [Exchange.outer_setChan, foldl_frame Exchange.outer _ (fun b a => b.outer_chanNotify _ _ _)]

@[simp] theorem Exchange.outer_cycleOn (k : ChanNo) (r : Run) : (e.cycleOn k r).outer = e.outer := by
  have final : ∀ (pl : Plan) (r : Run), (e.finalAction k r pl).outer = e.outer := by
    intro pl r
    unfold Exchange.finalAction Exchange.silence
    split <;> (try split) <;> simp
  unfold Exchange.cycleOn
  dsimp only
  split
  · split <;> simp [final]
  · simp

@[simp] theorem Exchange.outer_cycleEnd (k : ChanNo) : (e.cycleEnd k).outer = e.outer := by
  have moved : ∀ (b : Bank) (t : PlanTable), (Exchange.dropRef b { e with plans := t }).outer = e.outer := fun b t => by simp; rfl
  unfold Exchange.cycleEnd
  split
  · rfl
  · split
    · rfl
    · split
      · split
        · simp
        · dsimp only
          split
          · split <;> simp [moved]
          · split <;> simp [moved]
        · simp
      · simp

@[simp] theorem Exchange.outer_settleChannels : e.settleChannels.outer = e.outer := by
  unfold Exchange.settleChannels
  exact foldl_frame Exchange.outer _ (fun b a => by simp [Exchange.settleChannel]) _ _

/-! ### Player pool -/

@[simp] theorem Exchange.outer_setPlayer (n : PlayNo) (p : Player) : (e.setPlayer n p).outer = e.outer := by
  unfold Exchange.setPlayer; dsimp only; split <;> rfl
@[simp] theorem Exchange.outer_playNotify (c : Circ) (g : Tag) (m : PlayerMessage) : (e.playNotify c g m).outer = e.outer := rfl
@[simp] theorem Exchange.outer_setWaitList (l : List AnnWaiter) : (e.setWaitList l).outer = e.outer := rfl

@[simp] theorem Exchange.outer_closePlayer (n : PlayNo) : (e.closePlayer n).outer = e.outer := by
  unfold Exchange.closePlayer
  dsimp only
  split
  · simp
  · split
    · exact e.outer_setPlayer n _
    · simp

@[simp] theorem Exchange.outer_moveWaiters (n : PlayNo) (r : RecNo) (m : Nat) : (e.moveWaiters n r m).outer = e.outer := by
  unfold Exchange.moveWaiters
  dsimp only
  rw [foldl_frame Exchange.outer _ (fun b a => b.outer_playNotify _ _ _)]
  simp

@[simp] theorem Exchange.outer_serveRoom (n : PlayNo) : (e.serveRoom n).outer = e.outer := by
  unfold Exchange.serveRoom; split <;> simp
@[simp] theorem Exchange.outer_bindPlayer (n : PlayNo) (r : RecNo) : (e.bindPlayer n r).outer = e.outer := by
  simp [Exchange.bindPlayer]
@[simp] theorem Exchange.outer_serveIdle (n : PlayNo) : (e.serveIdle n).outer = e.outer := by
  unfold Exchange.serveIdle; split
  · split <;> simp
  · rfl
@[simp] theorem Exchange.outer_serveRooms : e.serveRooms.outer = e.outer := by
  unfold Exchange.serveRooms; split
  · rfl
  · exact foldl_frame Exchange.outer _ Exchange.outer_serveRoom _ _
@[simp] theorem Exchange.outer_serveIdles : e.serveIdles.outer = e.outer := by
  unfold Exchange.serveIdles; split
  · rfl
  · exact foldl_frame Exchange.outer _ Exchange.outer_serveIdle _ _

@[simp] theorem Exchange.outer_closePool : e.closePool.outer = e.outer := by
  unfold Exchange.closePool
  rw [foldl_frame Exchange.outer _ Exchange.outer_closePlayer]
  simp

@[simp] theorem Exchange.outer_addJoin (n : PlayNo) (j : JoinEntry) : (e.addJoin n j).outer = e.outer := by
  simp [Exchange.addJoin]

@[simp] theorem Exchange.outer_startAnn (c : Circ) (r : RecNo) (m : Fin 16) (g : Tag) : (e.startAnn c r m g).2.outer = e.outer := by
  unfold Exchange.startAnn Exchange.placeAnn
  dsimp only
  rw [Exchange.outer_closePool]
  split
  · rfl
  · split
    · rfl
    · split
      · split <;> simp
      · split <;> simp

@[simp] theorem Exchange.outer_startCycle (n : PlayNo) : (e.startCycle n).outer = e.outer := by
  unfold Exchange.startCycle
  dsimp only
  rw [Exchange.outer_mark, foldl_frame Exchange.outer _ (fun b a => b.outer_playNotify _ _ _), Exchange.outer_setPlayer]

@[simp] theorem Exchange.outer_afterCycle (n : PlayNo) : (e.afterCycle n).outer = e.outer := by
  unfold Exchange.afterCycle
  dsimp only
  split
  · simp
  · split
    · simp
    · split <;> simp

@[simp] theorem Exchange.outer_annCycleEnd (n : PlayNo) : (e.annCycleEnd n).outer = e.outer := by
  unfold Exchange.annCycleEnd Exchange.endAnnCycle
  dsimp only
  split
  · rw [Exchange.outer_closePool, Exchange.outer_afterCycle, Exchange.outer_serveRooms,
      foldl_frame Exchange.outer _ (fun b a => b.outer_playNotify _ _ _), Exchange.outer_setPlayer]
  · rfl

@[simp] theorem Exchange.outer_handOverCode (n : PlayNo) : (e.handOverCode n).outer = e.outer := by
  unfold Exchange.handOverCode
  dsimp only
  split
  · split
    · simp
    · split <;> simp
  · simp

@[simp] theorem Exchange.outer_framePlayers : e.framePlayers.outer = e.outer := by
  unfold Exchange.framePlayers
  rw [Exchange.outer_closePool]
  exact foldl_frame Exchange.outer _ Exchange.outer_handOverCode _ _

@[simp] theorem Exchange.outer_playerGapEnd (n : PlayNo) : (e.playerGapEnd n).outer = e.outer := by
  unfold Exchange.playerGapEnd
  dsimp only
  split
  · rw [Exchange.outer_closePool]; split <;> simp
  · rfl

@[simp] theorem Exchange.outer_deliver (d : Delivery) : (e.deliver d).outer = e.outer := by
  unfold Exchange.deliver
  dsimp only
  split
  · rw [Exchange.outer_closePool]; split <;> simp
  · rfl

@[simp] theorem Exchange.outer_removeFrom (n : PlayNo) (c : Circ) : (e.removeFrom n c).outer = e.outer := by
  unfold Exchange.removeFrom Exchange.afterRemoval
  dsimp only
  rw [Exchange.outer_mark]
  split
  · simp
  · split <;> simp

@[simp] theorem Exchange.outer_leaveAnn (c : Circ) : (e.leaveAnn c).2.outer = e.outer := by
  unfold Exchange.leaveAnn
  split
  · simp
  · split <;> simp

@[simp] theorem Exchange.outer_takeExpiry (q : ExpiryReq) : (e.takeExpiry q).outer = e.outer := by
  unfold Exchange.takeExpiry
  split
  · simp
  · split
    · simp
    · split <;> simp

/-- Draining the expiry requests leaves every circuit record, the order unit's settings and the congestion unit. -/
theorem Exchange.drainExpiry_frame : e.drainExpiry.orders = { e.orders with expiryReqs := [] } ∧ e.drainExpiry.cong = e.cong := by
  unfold Exchange.drainExpiry
  exact Exchange.outer_eq (foldl_frame Exchange.outer _ (fun b a => b.outer_takeExpiry a) _ _)

end

/-! ### The close of an event with the players at rest -/

/-- Replacing a player by itself changes nothing. -/
theorem Exchange.setPlayer_self (e : Exchange) (n : PlayNo) : e.setPlayer n (e.player n) = e := by
  unfold Exchange.setPlayer
  have h : e.players.players.set n (e.player n) = e.players.players := by simp [Exchange.player]
  simp [Player.sameShown, h]

/-- A player at rest is left as it is by the close of an event. -/
theorem Exchange.closePlayer_rest {e : Exchange} {n : PlayNo} (h : (e.player n).atRest e.players = true) :
    e.closePlayer n = e := by
  unfold Player.atRest at h
  unfold Exchange.closePlayer
  cases hr : (e.player n).recording with
  | none =>
    rw [hr] at h
    simp only [beq_iff_eq] at h
    have hw : e.players.wrapCheck (e.player n) = e.player n := by simp [PlayerPool.wrapCheck, h]
    simp only [hw, hr, Exchange.setPlayer_self]
  | some r =>
    rw [hr] at h
    simp only [Bool.and_eq_true, Bool.or_eq_true, bne_iff_ne, ne_eq, decide_eq_true_eq] at h
    have hw : e.players.wrapCheck (e.player n) = e.player n := by
      unfold PlayerPool.wrapCheck
      rw [if_neg]
      rintro ⟨h1, h2, h3, h4, -⟩
      simp_all
    have hq : e.players.wantsRefill (e.player n) = false := by
      unfold PlayerPool.wantsRefill
      rcases h.2 with (h2 | h2) | h2
      · simp [h2]
      · simp [Nat.not_le.2 h2]
      · simp [Nat.not_lt.2 h2]
    simp only [hw, hr, hq, Exchange.setPlayer_self]
    rfl

/-- With nothing waiting and every player at rest, the close of an event changes nothing (R106, R114, R115). -/
theorem Exchange.closePool_rest {e : Exchange} (hw : e.players.waitList = [])
    (h : ∀ n : PlayNo, (e.player n).atRest e.players = true) : e.closePool = e := by
  have room : ∀ n, e.serveRoom n = e := by
    intro n
    unfold Exchange.serveRoom Exchange.moveWaiters
    split
    · rfl
    · rename_i r _
      have : takeMatching (fun w : AnnWaiter => w.recording == r) (e.players.fanout - (e.player n).fanCount)
          e.players.waitList = ([], []) := by rw [hw]; unfold takeMatching; split <;> simp_all
      simp only [this, List.map_nil, List.append_nil, List.foldl_nil]
      have hs : e.setWaitList [] = e := by
        have : ({ e.players with waitList := [] } : PlayerPool) = e.players := by rw [← hw]
        simp [Exchange.setWaitList, this]
      rw [hs]
      exact e.setPlayer_self n
  have idle : ∀ n, e.serveIdle n = e := by
    intro n; unfold Exchange.serveIdle; rw [hw]; simp
  have rooms : e.serveRooms = e := by
    unfold Exchange.serveRooms
    split
    · rfl
    · simp [allPlayers, room]
  have idles : e.serveIdles = e := by
    unfold Exchange.serveIdles
    split
    · rfl
    · simp [allPlayers, idle]
  unfold Exchange.closePool
  rw [rooms, idles]
  simp [allPlayers, Exchange.closePlayer_rest, h]

end Sys2Proof.Machine
end

