-- ==== Sys2Proof/Laws/Frames.lean ====
section
/-!
SUPPORT. What settling does when nothing is left to take: a loss or a pulse then finds the state as it stands (log 9).
-/
namespace Sys2Proof.Machine

/-- A fold of steps that change nothing changes nothing. -/
theorem foldl_idle {α β : Type} {f : β → α → β} {b : β} (h : ∀ a, f b a = b) (l : List α) : l.foldl f b = b := by
  induction l with
  | nil => rfl
  | cons a l ih => rw [List.foldl_cons, h, ih]

theorem State.onExchange_idle {s : State} {f : Exchange → Exchange} (h : f s.exchange = s.exchange) : s.onExchange f = s := by
  rw [State.onExchange, h]; rfl

theorem Exchange.settleChannel_idle {e : Exchange} {k : ChanNo} (h : ∀ r, e.chans.chans[k] = some r → r.due = .none) :
    e.settleChannel k = e := by
  have u : e.unitEnd k = e := by unfold Exchange.unitEnd Exchange.chan; split <;> simp_all
  have g : e.segmentEnd k = e := by unfold Exchange.segmentEnd Exchange.chan; split <;> simp_all
  have c : e.cycleEnd k = e := by unfold Exchange.cycleEnd Exchange.chan; split <;> simp_all
  rw [Exchange.settleChannel, u, g, c]

theorem Exchange.annCycleEnd_idle {e : Exchange} {n : PlayNo} (h : e.cycleEndDue n = false) : e.annCycleEnd n = e := by
  simp [Exchange.annCycleEnd, h]

/-- A frame start counts the frame of a channel computed for it, whose count is then taken (R53). -/
theorem Run.takeFrame_of_computed {r : Run} (h : r.computed = true) : r.takeFrame = { r.countFrame with computed := false } :=
  if_pos h

/-- A channel not computed for the frame does not count it (R53). -/
theorem Run.takeFrame_of_not_computed {r : Run} (h : r.computed = false) : r.takeFrame = r := by simp [Run.takeFrame, h]

@[simp] theorem Run.compute_computed (pl : Plan) (r : Run) : (r.compute pl).computed = true := rfl

@[simp] theorem Run.start_computed (v : Bool) (b : Bank) (p : PlanNo) (pl : Plan) (l : ToneListener) :
    (Run.start v b p pl l).computed = false := rfl

/-- With no delivery, no cadence event and no cycle end left, settling the frame changes nothing. -/
theorem State.settleFrame_idle {s : State} (h1 : s.highway.sampleDue = false) (h2 : s.highway.channelsDue = false)
    (h3 : s.highway.playersDue = false) (hc : ∀ (k : ChanNo) (r : Run), s.chans.chans[k] = some r → r.due = .none)
    (hp : ∀ m : PlayNo, s.exchange.cycleEndDue m = false) : s.settleFrame = s := by
  have e1 : s.takeComputation = s := by simp [State.takeComputation, h1]
  have e2 : s.takePlayersFrame = s := by simp [State.takePlayersFrame, h3]
  have e3 : s.takeChannelsFrame = s := by simp [State.takeChannelsFrame, h2]
  rw [State.settleFrame, e1, e2, e3]
  have c : s.exchange.settleChannels = s.exchange := foldl_idle (fun k => Exchange.settleChannel_idle (hc k)) _
  have p : allPlayers.foldl (fun e n => Exchange.annCycleEnd n e) s.exchange = s.exchange :=
    foldl_idle (f := fun e n => Exchange.annCycleEnd n e) (fun m => by exact Exchange.annCycleEnd_idle (hp m)) _
  exact State.onExchange_idle ((congrArg (allPlayers.foldl fun e n => Exchange.annCycleEnd n e) c).trans p)

/-- With no boundary and no ended gap or wait left, settling the boundaries changes nothing. -/
theorem State.settleBoundaries_idle {s : State} (h1 : s.highway.cadenceDue = 0) (h2 : s.highway.waitOrdersDue = 0)
    (h3 : s.highway.waitPlayersDue = 0) (h4 : s.highway.waitGradeDue = 0)
    (hc : ∀ p : Circ, s.orders.circuits[p].limit ≠ .reached
      ∧ ¬ (s.orders.circuits[p].state = .gap ∧ s.orders.circuits[p].gapLeft = 0))
    (hp : ∀ m : PlayNo, ¬ (s.players.players[m].state = .gap ∧ s.players.players[m].gapLeft = 0)) :
    s.settleBoundaries = s := by
  have g : (s.onExchange fun e => allCircuits.foldl (fun e p => Exchange.gapEnd p e) e) = s :=
    State.onExchange_idle (foldl_idle (fun p => if_neg (hc p).2) _)
  have x : (s.onExchange fun e => allCircuits.foldl (fun e p => Exchange.sendExpiry p e) e) = s :=
    State.onExchange_idle (foldl_idle (fun p => if_neg (hc p).1) _)
  have q : (s.onExchange fun e => allPlayers.foldl (fun e n => Exchange.playerGapEnd n e) e) = s :=
    State.onExchange_idle (foldl_idle (fun m => if_neg (hp m)) _)
  simp [State.settleBoundaries, h1, h2, h3, h4, g, x, q]

/-- With no fan-out change in flight the player pool takes none. -/
theorem State.drainFanout_nil {s : State} (h : s.bus.fanoutChanges = []) : s.drainFanout = s := by
  cases s with
  | mk p b => cases b; simp only at h; subst h; rfl

end Sys2Proof.Machine
end

