-- ==== Sys2Proof/Laws/Orders.lean ====
section
/-!
SUPPORT. What the order unit's shared operations do: the fields of a hearing word, accepted orders, records replaced, and the
start of the one entry of a circuit.
-/
namespace Sys2Proof.Machine

/-! ### Fields of a hearing word -/

theorem orderArg_eq (w : Word) : orderArg w = w.toNat / 16 % 64 := by simp [orderArg, field]
theorem orderCode_eq (w : Word) : orderCode w = w.toNat / 4096 := by
  have := w.isLt; simp [orderCode, field]; omega
theorem orderClass_eq (w : Word) (c : Cls) (h : c.val = w.toNat / 1024 % 4) : orderClass w = c := by
  apply Fin.ext; simp [orderClass, field, Fin.ofNat, h]
theorem orderRepeats_eq (w : Word) : orderRepeats w = Fin.ofNat 16 (w.toNat % 16) := by
  apply Fin.ext; simp [orderRepeats, field, Fin.ofNat]
/-- Validity of a plan as a start request sees it (R42). -/
theorem State.validLive_iff (s : State) (q : PlanNo) : s.plans.validLive q = true ↔ s.planUsable q := by
  unfold PlanTable.validLive State.planUsable; cases s.plans.live <;> simp

/-- An accepted order places its entry (R10). -/
theorem exec_of_accepts {s : State} {p w i k} (h : s.headIs p.val w = true) (ha : s.accepts p w i k) :
    exec i s = .next (s.taken.onExchange (Exchange.place p (orderClass w) k)) := by
  rcases ha with ⟨q, hq, hu, (⟨hc, rfl, rfl⟩ | ⟨hc, rfl, rfl⟩)⟩ | ⟨r, hr, hc, rfl, rfl⟩ | ⟨q, hq, hc, rfl, rfl⟩
  all_goals
    simp only [exec, execToneShared, execTonePrivate, execAnnounce, execCongestion, hearingWord]
    rw [orderCode_eq, if_pos hc, handOver_of_headIs h]
    simp only [State.onExchange, Exchange.orderTone, Exchange.orderAnnounce, Exchange.orderCongestion, orderArg_eq, orderRepeats_eq]
  · have hv := (State.validLive_iff s q).2 hu
    have hq' := q.isLt
    rw [← hq]
    simp [Nat.not_le.2 hq', State.exchange, hv]
  · have hv := (State.validLive_iff s q).2 hu
    have hq' := q.isLt
    rw [← hq]
    simp [Nat.not_le.2 hq', State.exchange, hv]
  · have hq' := r.isLt
    rw [← hr]
    simp [Nat.not_le.2 hq', State.exchange]
  · have hq' := q.isLt
    rw [← hq]
    simp [Nat.not_le.2 hq', State.exchange]

/-! ### The active entry -/

/-- Case analysis on a class. -/
theorem cls_cases {P : Cls → Prop} (h0 : P 0) (h1 : P 1) (h2 : P 2) (h3 : P 3) : ∀ c, P c := by
  intro c; match c with | 0 => exact h0 | 1 => exact h1 | 2 => exact h2 | 3 => exact h3

/-- Writing a class below the active one changes neither the active class nor its entry. -/
theorem activeClass_set_below {t : TreatmentSet} {c d : Cls} (x : Option Entry) (h : activeClass t = some d) (hc : c < d) :
    activeClass (t.set c x) = some d ∧ (t.set c x)[d] = t[d] := by
  have hne : c.val ≠ d.val := by have := Fin.lt_def.1 hc; omega
  constructor
  · unfold activeClass at h ⊢
    simp only [Vector.getElem_set]
    revert h hc hne
    revert c; revert d
    apply cls_cases <;> apply cls_cases <;> simp <;> (intros; split_ifs at * <;> simp_all)
  · exact Vector.getElem_set_ne _ _ hne

/-- Writing a class below the active one leaves the latched grade of a consistent record. -/
theorem Circuit.withSet_below {C : Circuit} {c d : Cls} (x : Option Entry) (hC : C.consistent = true) (h : activeClass C.set = some d) (hc : c < d) :
    C.withSet (C.set.set c x) = { C with set := C.set.set c x } := by
  obtain ⟨h1, h2⟩ := activeClass_set_below x h hc
  unfold Circuit.withSet activeEntry
  unfold Circuit.consistent activeEntry at hC
  rw [h] at hC
  rw [h1]
  simp only [Option.bind_some]
  simp at hC
  have := hC.2
  simp only [h2]
  have h2' : (C.set.set c x)[d] = C.set[d] := h2
  simp [this]

/-! ### Circuit records replaced -/

/-- Circuit `p` has record `c`, and its status word is marked. -/
def Exchange.showCircuit (p : Circ) (c : Circuit) (e : Exchange) : Exchange :=
  { e with orders := { e.orders with circuits := e.orders.circuits.set p c }
           wire := { e.wire with dirty := e.wire.dirty.put (.circuit p) true } }

@[simp] theorem Exchange.showCircuit_circuit (p c e) : (Exchange.showCircuit p c e).circuit p = c := by simp [Exchange.showCircuit, Exchange.circuit]
/-- A record replaced twice, once marked. -/
theorem Exchange.setCircuit_showCircuit (p c d e) : (Exchange.showCircuit p c e).setCircuit p d = Exchange.showCircuit p d e := by
  unfold Exchange.setCircuit
  dsimp only
  split <;> simp [Exchange.showCircuit, Exchange.mark, Wire.mark, DirtyMarks.put_put]
/-- A change that shows marks the status word (R26). -/
theorem Exchange.setCircuit_of_shown {p c e} (h : (e.circuit p).sameShown c = false) : Exchange.setCircuit p c e = Exchange.showCircuit p c e := by
  unfold Exchange.setCircuit; simp [h, Exchange.showCircuit, Exchange.mark, Wire.mark]
/-- A change that does not show marks nothing. -/
theorem Exchange.setCircuit_of_same {p c e} (h : (e.circuit p).sameShown c = true) : Exchange.setCircuit p c e = { e with orders := { e.orders with circuits := e.orders.circuits.set p c } } := by
  unfold Exchange.setCircuit; simp [h]
theorem Exchange.showCircuit_replaced (p c d e) : Exchange.showCircuit p d { e with orders := { e.orders with circuits := e.orders.circuits.set p c } } = Exchange.showCircuit p d e := by
  simp [Exchange.showCircuit]
theorem Exchange.circuit_replaced (p : Circ) (c : Circuit) (e : Exchange) : Exchange.circuit { e with orders := { e.orders with circuits := e.orders.circuits.set p c } } p = c := by
  simp [Exchange.circuit]

/-- A consistent record in QUIET has an empty set, no binding and no latched grade. -/
theorem Circuit.quiet_of_consistent {C : Circuit} (hC : C.consistent = true) (hq : C.state = .quiet) :
    C.set = Vector.replicate 4 none ∧ C.binding = .none ∧ C.latched = none := by
  unfold Circuit.consistent bindingFits at hC
  rw [hq] at hC
  simp at hC
  obtain ⟨⟨h1, h2⟩, h3⟩ := hC
  have : C.set = Vector.replicate 4 none := by
    unfold activeClass at h2
    apply Vector.ext
    intro i hi
    split_ifs at h2
    simp_all
    have : i = 0 ∨ i = 1 ∨ i = 2 ∨ i = 3 := by omega
    rcases this with rfl|rfl|rfl|rfl <;> assumption
  refine ⟨this, ?_, ?_⟩
  · cases hb : C.binding <;> simp_all
  · rw [h3]; unfold activeEntry; rw [h2]; rfl

/-! ### Starts on a circuit with one entry -/

theorem activeClass_single (c : Cls) (x : Entry) : activeClass ((Vector.replicate 4 none).set c (some x)) = some c := by
  revert c; apply cls_cases <;> simp [activeClass]

/-- The start of the only entry: bound, or completed with the set left empty (R16). -/
theorem Exchange.startActive_single (p : Circ) (c : Cls) (x : Entry) (e : Exchange) (h : (e.circuit p).set = (Vector.replicate 4 none).set c (some x)) :
   (∀ e', e.startEntry p c x = (true, e') → e.startActive p = e') ∧
   (∀ e', e.startEntry p c x = (false, e') → (e'.circuit p).set = Vector.replicate 4 none → e.startActive p = e'.enterQuiet p) := by
  unfold Exchange.startActive
  constructor
  · intro e' he
    revert c; apply cls_cases <;> (intro h he; simp [Exchange.startBelow, h, Fin.ofNat, he])
  · intro e' he h2
    revert c; apply cls_cases <;> (intro h he; simp [Exchange.startBelow, h, Fin.ofNat, he, h2])

/-- An order placed on a QUIET circuit starts its entry at once (R10, R11). -/
theorem Exchange.place_quiet (p : Circ) (c : Cls) (k : Treatment) (e : Exchange) (C : Circuit) (hp : e.circuit p = C) (hC : C.consistent = true) (hq : C.state = .quiet) :
   let x := C.newEntry k
   let D : Circuit := { C with set := (Vector.replicate 4 none).set c (some x), waited := 0, limit := .counting, latched := none }
   e.place p c k = (Exchange.showCircuit p D e).startActive p := by
  intro x D
  obtain ⟨h1, h2, h3⟩ := Circuit.quiet_of_consistent hC hq
  unfold Exchange.place Exchange.changeSet
  rw [hp]
  dsimp only
  have ha : activeClass C.set = none := by rw [h1]; simp [activeClass]
  have h4 : activeClass (C.set.set c (some (C.newEntry k))) = some c := by rw [h1]; exact activeClass_single c _
  rw [ha, h4]
  rw [if_neg (by simp)]
  unfold Exchange.release Exchange.leave
  rw [hp, h2]
  dsimp only
  rw [hp]
  unfold TreatmentSet.makeDormant
  simp only [reduceCtorEq, if_false, h4]
  have s1 : (e.circuit p).sameShown { C with binding := .none, waited := 0, limit := .counting } = true := by
    rw [hp]; simp [Circuit.sameShown, h2]
  rw [Exchange.setCircuit_of_same s1, Exchange.circuit_replaced]
  have s2 : ∀ d : Circuit, d.set = C.set.set c (some x) → (Exchange.circuit { e with orders := { e.orders with circuits := e.orders.circuits.set p { C with binding := .none, waited := 0, limit := .counting } } } p).sameShown d = false := by
    intro d hd
    rw [Exchange.circuit_replaced]
    simp only [Circuit.sameShown, hd]
    have : (C.set == C.set.set c (some x)) = false := by
      simp
      intro h
      have := congrArg (fun t : TreatmentSet => t[c]) h
      simp [h1] at this
    simp [this]
  rw [Exchange.setCircuit_of_shown (s2 _ rfl), Exchange.showCircuit_replaced]
  rw [hq]
  simp only [reduceCtorEq, if_false]
  unfold Exchange.proceed
  rw [Exchange.showCircuit_circuit]
  have h5 : (Circuit.withSet (C.set.set c (some (C.newEntry k))) { C with binding := .none, waited := 0, limit := .counting }) = D := by
    unfold Circuit.withSet activeEntry
    rw [h4]
    simp [D, x, h1, h2, Circuit.newEntry, hq]
  have : activeClass D.set = some c := activeClass_single c _
  have hh : ¬ (CircuitState.quiet.hears = true ∧ 1 ≤ (Exchange.showCircuit p D e).orders.gapSetting) := by simp [CircuitState.hears]
  rw [hq] at h5
  rw [h5, this, if_neg (by simp), if_neg hh]

end Sys2Proof.Machine
end

