-- ==== Sys2Proof/Laws/Tables.lean ====
section
/-!
SUPPORT. The fixed tables against the formulas of their rules: the sine table (R70), the gain table (R71), the trim table
(R78). The sine entries are held against the powers of a Gaussian rational near exp(iπ/512), computed in whole numbers.
-/
namespace Sys2Proof.Machine
/-! ### The gain and trim tables: each entry the nearest integer, both sides raised to the 40th power -/

/-- R71: g[A] is 32767 × 10^(−A/40) rounded to the nearest integer. -/
theorem gainOf_nearest : ∀ a : BitVec 6, 1 ≤ gainOf a ∧ (2 * gainOf a - 1) ^ 40 * 10 ^ a.toNat < 65534 ^ 40
    ∧ 65534 ^ 40 < (2 * gainOf a + 1) ^ 40 * 10 ^ a.toNat := by decide +kernel

/-- R78: the gain of trim code Ap is 16384 × 10^(−(Ap − 12)/40) rounded to the nearest integer. -/
theorem trimOf_nearest : ∀ a : Fin 48, 1 ≤ trimOf a ∧ (2 * trimOf a - 1) ^ 40 * 10 ^ a.val < 32768 ^ 40 * 10 ^ 12
    ∧ 32768 ^ 40 * 10 ^ 12 < (2 * trimOf a + 1) ^ 40 * 10 ^ a.val := by decide +kernel

/-! ### The sine table -/

open Complex

/-- `10^(12 k)` times the `k`-th power of a Gaussian rational near `exp (i π / 512)`. -/
def turn : Nat → Int × Int
  | 0 => (1, 0)
  | k + 1 => ((turn k).1 * 999981175282 - (turn k).2 * 6135884649, (turn k).1 * 6135884649 + (turn k).2 * 999981175282)

/-- A Gaussian rational of norm at most 1 near exp(iπ/512). -/
noncomputable def nearTurn : ℂ := ⟨999981175282 / 10 ^ 12, 6135884649 / 10 ^ 12⟩

/-- The integers of `turn` are the powers of `nearTurn`, scaled. -/
theorem turn_eq (k : Nat) : (⟨(turn k).1, (turn k).2⟩ : ℂ) = (10 ^ 12 : ℂ) ^ k * nearTurn ^ k := by
  induction k with
  | zero => simp [turn, Complex.ext_iff]
  | succ k ih =>
    rw [pow_succ ((10 : ℂ) ^ 12) k, pow_succ nearTurn k, mul_mul_mul_comm, ← ih]
    have h : (10 ^ 12 : ℂ) * nearTurn = ⟨999981175282, 6135884649⟩ := by
      have : (10 ^ 12 : ℂ) = ((10 ^ 12 : ℝ) : ℂ) := by push_cast; rfl
      rw [this]; apply Complex.ext <;> simp [nearTurn] <;> norm_num
    rw [h]; apply Complex.ext <;> simp [turn]

theorem norm_nearTurn_le : ‖nearTurn‖ ≤ 1 := by
  rw [← sq_le_one_iff₀ (norm_nonneg _), ← Complex.normSq_eq_norm_sq, Complex.normSq_apply]
  norm_num [nearTurn]

theorem nearTurn_near : ‖nearTurn - exp (((Real.pi / 512 : ℝ) : ℂ) * I)‖ ≤ 2 / 10 ^ 10 := by
  have hp := Real.pi_gt_d20; have hq := Real.pi_lt_d20
  set x : ℝ := Real.pi / 512 with hx
  have h1 : 0.0061359231515 ≤ x := by rw [hx]; linarith
  have h2 : x ≤ 0.0061359231516 := by rw [hx]; linarith
  have habs : |x| = x := abs_of_nonneg (by linarith)
  have hs := Real.sin_bound (x := x) (by rw [habs]; linarith)
  have hc := Real.cos_bound (x := x) (by rw [habs]; linarith)
  rw [habs] at hs hc
  have p2l : (0.0061359231515:ℝ)^2 ≤ x^2 := by gcongr
  have p2u : x^2 ≤ (0.0061359231516:ℝ)^2 := by gcongr
  have p3l : (0.0061359231515:ℝ)^3 ≤ x^3 := by gcongr
  have p3u : x^3 ≤ (0.0061359231516:ℝ)^3 := by gcongr
  have p4u : x^4 ≤ (0.0061359231516:ℝ)^4 := by gcongr
  have p5u : x^5 ≤ (0.0061359231516:ℝ)^5 := by gcongr
  rw [abs_le] at hs hc
  refine (Complex.norm_le_abs_re_add_abs_im _).trans ?_
  rw [Complex.sub_re, Complex.sub_im, Complex.exp_ofReal_mul_I_re, Complex.exp_ofReal_mul_I_im]
  have e1 : |nearTurn.re - Real.cos x| ≤ 19 / 10 ^ 11 := by
    rw [abs_le]; simp only [nearTurn]; norm_num at *; constructor <;> linarith [hc.1, hc.2]
  have e2 : |nearTurn.im - Real.sin x| ≤ 1 / 10 ^ 11 := by
    rw [abs_le]; simp only [nearTurn]; norm_num at *; constructor <;> linarith [hs.1, hs.2]
  linarith

/-- Powers of near numbers, one of norm 1 and one of norm at most 1, stay near. -/
theorem pow_near (w e : ℂ) (d : ℝ) (hw : ‖w‖ ≤ 1) (he : ‖e‖ = 1) (h : ‖w - e‖ ≤ d) (k : Nat) : ‖w ^ k - e ^ k‖ ≤ k * d := by
  induction k with
  | zero => simp
  | succ k ih =>
    have : w ^ (k + 1) - e ^ (k + 1) = (w ^ k - e ^ k) * w + e ^ k * (w - e) := by ring
    rw [this]
    calc _ ≤ ‖(w ^ k - e ^ k) * w‖ + ‖e ^ k * (w - e)‖ := norm_add_le _ _
      _ ≤ k * d * 1 + 1 * d := by
          rw [norm_mul, norm_mul, norm_pow, he, one_pow]
          have := (norm_nonneg _).trans ih
          gcongr
      _ = _ := by push_cast; ring

/-- The imaginary part of `turn` against the sine. -/
theorem turn_near (k : Nat) :
    |((turn k).2 : ℝ) - ((10 : ℝ) ^ 12) ^ k * Real.sin (k * (Real.pi / 512))| ≤ ((10 : ℝ) ^ 12) ^ k * (k * (2 / 10 ^ 10)) := by
  have h := pow_near nearTurn (exp (((Real.pi / 512 : ℝ) : ℂ) * I)) _ norm_nearTurn_le (Complex.norm_exp_ofReal_mul_I _)
    nearTurn_near k
  have hz := turn_eq k
  rw [← Complex.exp_nat_mul, ← mul_assoc] at h
  have hsin : (exp ((k : ℂ) * ((Real.pi / 512 : ℝ) : ℂ) * I)).im = Real.sin (k * (Real.pi / 512)) := by
    rw [← Complex.exp_ofReal_mul_I_im]; push_cast; rfl
  have him : ((turn k).2 : ℝ) = ((10 : ℝ) ^ 12) ^ k * (nearTurn ^ k).im := by
    have := congrArg Complex.im hz
    have c : (10 ^ 12 : ℂ) ^ k = ((((10 : ℝ) ^ 12) ^ k : ℝ) : ℂ) := by push_cast; rfl
    rw [c, Complex.im_ofReal_mul] at this
    exact this
  rw [him, ← hsin, ← mul_sub, abs_mul, abs_of_nonneg (by positivity)]
  gcongr
  rw [← Complex.sub_im]
  exact (Complex.abs_im_le_norm _).trans h

/-- Entry `k` of the first quarter lies within 1/2 of the turn, the turn's own error counted. -/
def quarterOk (k : Nat) : Bool :=
  ((10 ^ 12) ^ k * quarterSine.getD k 0 - 2047 * (turn k).2).natAbs * 10 ^ 10 * 2 + (10 ^ 12) ^ k * 2047 * k * 4
    < (10 ^ 12) ^ k * 10 ^ 10

theorem quarter_ok : ∀ k < 257, quarterOk k = true := by decide +kernel

/-- An entry of the first quarter is the nearest integer. -/
theorem quarterSine_near {k : Nat} (hk : k < 257) : |(quarterSine.getD k 0 : ℝ) - 2047 * Real.sin (k * (Real.pi / 512))| < 1 / 2 := by
  have hq := quarter_ok k hk
  have ht := turn_near k
  simp only [quarterOk, decide_eq_true_eq] at hq
  set D : ℝ := ((10 : ℝ) ^ 12) ^ k with hD
  have hD0 : 0 < D := by positivity
  set q : ℝ := (quarterSine.getD k 0 : ℝ) with hqd
  set t : ℝ := ((turn k).2 : ℝ) with htd
  set y := Real.sin (k * (Real.pi / 512)) with hy
  have hq' : |D * q - 2047 * t| * 10 ^ 10 * 2 + D * 2047 * k * 4 < D * 10 ^ 10 := by
    have := (Nat.cast_lt (α := ℝ)).2 hq
    rw [hD, hqd, htd]
    norm_num [Nat.cast_natAbs] at this ⊢
    linarith
  have h1 : |D * q - D * (2047 * y)| ≤ |D * q - 2047 * t| + 2047 * (D * (k * (2 / 10 ^ 10))) := by
    have : D * q - D * (2047 * y) = (D * q - 2047 * t) + 2047 * (t - D * y) := by ring
    rw [this]
    refine (abs_add_le _ _).trans ?_
    rw [abs_mul 2047, abs_of_pos (by norm_num : (0 : ℝ) < 2047)]
    gcongr
  rw [← mul_sub, abs_mul, abs_of_pos hD0] at h1
  have h2 : D * |q - 2047 * y| < D * (1 / 2) := by linarith
  exact lt_of_mul_lt_mul_left h2 hD0.le

/-- R70: T[k] is 2047 × sin(2πk / 1024) rounded to the nearest integer; no entry lies half-way. -/
theorem sineTable_nearest {k : Nat} (hk : k < 1024) : |(sineTable k : ℝ) - 2047 * Real.sin (2 * Real.pi * k / 1024)| < 1 / 2 := by
  have e : 2 * Real.pi * k / 1024 = k * (Real.pi / 512) := by ring
  rw [e]; unfold sineTable
  split_ifs with h1 h2 h3
  · exact quarterSine_near (by omega)
  · have := quarterSine_near (k := 512 - k) (by omega)
    rw [Nat.cast_sub (by omega)] at this
    rwa [← Real.sin_pi_sub, show Real.pi - k * (Real.pi / 512) = ((512 : Nat) - k : ℝ) * (Real.pi / 512) by push_cast; ring]
  · have := quarterSine_near (k := k - 512) (by omega)
    rw [Nat.cast_sub (by omega)] at this
    rw [show (k : ℝ) * (Real.pi / 512) = (k - (512 : Nat) : ℝ) * (Real.pi / 512) + Real.pi by push_cast; ring, Real.sin_add_pi]
    rw [← abs_neg] at this; push_cast at this ⊢; convert this using 2; ring
  · have := quarterSine_near (k := 1024 - k) (by omega)
    rw [Nat.cast_sub (by omega)] at this
    rw [show (k : ℝ) * (Real.pi / 512) = 2 * Real.pi - ((1024 : Nat) - k : ℝ) * (Real.pi / 512) by push_cast; ring,
      Real.sin_two_pi_sub]
    rw [← abs_neg] at this; push_cast at this ⊢; convert this using 2; ring

end Sys2Proof.Machine
end

