-- ==== Sys2Proof/WellFormed.lean ====
section
/-!
DEFINITION. Which commands are well formed: the word a command carries has the code of its row (R6, R138, R167), a plan
offset is a plan word (R166), and a device answer fits the segment or page it is about (R135).
-/
namespace Sys2Proof

open Sys2Proof.Machine

/-- Every byte of a device answer lies in a segment (R135). -/
def residueWf (left : List (Nat × Byte)) : Bool := left.all fun c => c.1 < Config.segmentBytes

/-- A device answer to an attempt concerns at most one page (R135). -/
def missedWf (missed : List Byte) : Bool := missed.length ≤ Config.pageBytes

/-- Well-formedness of a command. Operands not named here have every value of their type. -/
def WellFormed : Instr → Bool
  | .quiet _ w => orderCode w == 0
  | .toneShared _ w => orderCode w == 1
  | .tonePrivate _ w => orderCode w == 2
  | .announce _ w => orderCode w == 3
  | .congestion _ w => orderCode w == 4
  | .clearAll _ w => orderCode w == 5
  | .orderInvalidCode _ w => 6 ≤ orderCode w
  | .planWordWrite off _ => 0x100 ≤ off.toNat && off.toNat < 0x300
  | .loadBegin w => storeCode w == 1
  | .loadConfirm w => storeCode w == 2
  | .chunkReady w => storeCode w == 3
  | .loadAbandon w => storeCode w == 4
  | .retireBegin w => storeCode w == 5
  | .retireConfirm w => storeCode w == 6
  | .configBegin w => storeCode w == 7
  | .configConfirm w => storeCode w == 8
  | .storeHold w => storeCode w == 9
  | .storeResume w => storeCode w == 10
  | .clearStoreStatus w => storeCode w == 11
  | .invalidStoreCommand w => storeCode w == 0 || 12 ≤ storeCode w
  | .erasePulseResume _ left => residueWf left
  | .erasePulseDone left => residueWf left
  | .programAttemptDone missed => missedWf missed
  | .storeSupplyGoodFall left missed => residueWf left && missedWf missed
  | .powerOnReset left missed => residueWf left && missedWf missed
  | .pinReset left missed => residueWf left && missedWf missed
  | .processorWrite _ _ | .otherRegionWrite _ _ | .detailWordWrite _ _ | .slotWordWrite _ _ | .liveBankWordWrite _
  | .congestionTableWordWrite _ _ | .routeLevelWordWrite _ | .thresholdWordWrite _ _ | .timingWord1Write _
  | .timingWord2Write _ | .consumerIndexWordWrite _ | .acknowledgeWordWrite _ | .softResetWordWrite _
  | .storeParameterWrite _ _ | .loadBufferWrite _ _ | .framePulse | .frameLoss | .frameComputation | .frameStartChannels
  | .cadenceUnitEnd _ | .segmentEnd _ | .cycleEnd _ | .drainingNotice | .cadenceBoundary | .gapEnd _
  | .waitBoundaryOrders | .waitLimitReached _ | .expiryRequest | .expiryAnswer | .servedNotice _ | .doneNotice
  | .withdrawnNotice | .repeatsExhaustedNotice | .unavailableNotice | .frameStartPlayers | .annCycleEnd _
  | .waitBoundaryPlayers | .playerGapEnd _ | .refillDelivery | .fanoutLimitChange | .recordingWithdrawal
  | .madeAvailableNotice | .scanDoneNotice | .loadGradeEvaluation | .loadLampTimerExpiry | .withdrawnAnswer
  | .refillRequest | .refillReadStart | .refillReadDone | .erasePulseStart _ | .eraseVerifyDone
  | .programAttemptStart _ | .storeLockChange _ | .storeLampTimerExpiry | .storeScanEnd | .reportSubmit _
  | .ringWordPost | .producerIndexWordPost | .statusWordPost | .postingCycleEnd | .holdoffExpiry | .resetRelease _
  | .highwayClockBitTime => true

end Sys2Proof
end

