-- ==== Sys2Proof/Tests/Slice0.lean ====
section
/-!
SUPPORT. Tests: the well-formedness checks, worked examples of the spec, and for every statement with hypotheses a concrete
state and operands that meet them.
-/
namespace Sys2Proof.Tests

open Sys2Proof Sys2Proof.Machine

/-! ### Small states, each the reset state with a few fields changed -/

/-- Word `w`, captured at offset `off`, is at the head of the snoop queue. -/
def wordAt (off : Nat) (w : Word) (s : State) : State := { s with bus := { s.bus with snoop := [⟨BitVec.ofNat 12 off, w⟩] } }

/-- Circuit `p` has record `c`. -/
def withCircuit (p : Circ) (c : Circuit) (s : State) : State :=
  { s with orders := { s.orders with circuits := s.orders.circuits.set p c } }

/-- A set with the one entry `x` of class 1. -/
def setOne (x : Entry) : TreatmentSet := (Vector.replicate 4 none).set 1 (some x)

/-- A set with `x` in class 1 above `y` in class 0. -/
def setTwo (x y : Entry) : TreatmentSet := (setOne x).set 0 (some y)

def toneEntry : Entry := ⟨.toneShared 2, none, none, none⟩
def annEntry : Entry := ⟨.announce 7 1, some 2, none, none⟩

/-- A usable plan of one ON_BOTH segment, VALID. -/
def plan (n : BitVec 8) (f : FinalAction) : Plan :=
  { Plan.initial with
    validFlag := true, segCount := 2, f1 := 700, segs := Vector.replicate 6 ⟨.onBoth, 3⟩, repeats := n, final := f
    chainPlan := 2, status := .valid }

/-- Bank A LIVE with plan 2 VALID, `n` references. -/
def withPlan (n : Nat) (s : State) : State :=
  { s with plans := { s.plans with
      live := some .A
      bankA := { BankRecord.initial with
        state := .live, refs := n, plans := BankRecord.initial.plans.set 2 (plan 0 .silence) } } }

/-- A channel running plan 2 of bank A for the listeners given. -/
def run (priv : Bool) (l : List ToneListener) : Run :=
  { isPrivate := priv, bank := .A, plan := 2, listeners := l, segIndex := 0, segLeft := 3, unitFrames := 0, cycles := 0
    phase1 := 0, phase2 := 0, movePending := false, holding := false, value := none, computed := false, due := .none }

def withChan (k : ChanNo) (r : Run) (s : State) : State :=
  { s with chans := { s.chans with chans := s.chans.chans.set k (some r) } }

/-- Every channel taken by a PRIVATE run. -/
def allTaken (s : State) : State := { s with chans := { s.chans with chans := Vector.replicate 16 (some (run true [⟨9, 1, true⟩])) } }

/-- Recording 7, of 2000 codes, in the recording view, the scan being over. -/
def withView (v : ViewRecord) (s : State) : State :=
  { s with players := { s.players with scanning := false, view := s.players.view.set 7 (some v) } }

/-- Player `n` has record `p`. -/
def withPlayer (n : PlayNo) (p : Player) (s : State) : State :=
  { s with players := { s.players with players := s.players.players.set n p } }

/-- A player bound to recording 7 with a refill outstanding. -/
def player (st : PlayerState) (l : List AnnListener) (j : List JoinEntry) : Player :=
  { Player.idleWith 5 with state := st, recording := some 7, refillOut := true, listeners := l, joins := j }

/-- The store controller changed. -/
def st (f : StoreController → StoreController) : State := { State.reset with store := f State.reset.store }

/-- A store command word at the head of the snoop queue. -/
def cmd (w : Word) (f : StoreController → StoreController) : State := wordAt 0x312 w (st f)

/-- A circuit in TONE on channel `k`. -/
def onTone (k : ChanNo) (t : TreatmentSet) : Circuit :=
  { Circuit.initial with set := t, state := .tone, binding := .channel k, tag := 1 }

/-- A circuit in HEAR on player 2, with the entry `x`. -/
def hearing (x : Entry) : Circuit :=
  { Circuit.initial with set := setOne x, state := .hear, binding := .listener 2, tag := 1 }

/-- The slot map of reset holds no slot twice. -/
theorem initialMap_ok : MapOk initialMap := by
  intro p q _ _ h
  have hs : ∀ r : Circ, initialMap[r].slot = r := by intro r; simp [initialMap]
  rwa [hs, hs] at h

/-! ### Well-formedness: each check refuses an ill-formed command -/

theorem test_wf_quiet : WellFormed (.quiet 5 0x1400#16) = false := by decide
theorem test_wf_toneShared : WellFormed (.toneShared 5 0x2400#16) = false := by decide
theorem test_wf_tonePrivate : WellFormed (.tonePrivate 5 0x1400#16) = false := by decide
theorem test_wf_announce : WellFormed (.announce 5 0x4400#16) = false := by decide
theorem test_wf_congestion : WellFormed (.congestion 5 0x3400#16) = false := by decide
theorem test_wf_clearAll : WellFormed (.clearAll 5 0x6400#16) = false := by decide
theorem test_wf_orderInvalidCode : WellFormed (.orderInvalidCode 5 0x5000#16) = false := by decide
theorem test_wf_planWord_low : WellFormed (.planWordWrite 0x0FF#12 0) = false := by decide
theorem test_wf_planWord_high : WellFormed (.planWordWrite 0x300#12 0) = false := by decide
theorem test_wf_loadBegin : WellFormed (.loadBegin 0x2003#16) = false := by decide
theorem test_wf_loadConfirm : WellFormed (.loadConfirm 0x1003#16) = false := by decide
theorem test_wf_chunkReady : WellFormed (.chunkReady 0x4000#16) = false := by decide
theorem test_wf_loadAbandon : WellFormed (.loadAbandon 0x3000#16) = false := by decide
theorem test_wf_retireBegin : WellFormed (.retireBegin 0x6003#16) = false := by decide
theorem test_wf_retireConfirm : WellFormed (.retireConfirm 0x5003#16) = false := by decide
theorem test_wf_configBegin : WellFormed (.configBegin 0x8000#16) = false := by decide
theorem test_wf_configConfirm : WellFormed (.configConfirm 0x7000#16) = false := by decide
theorem test_wf_storeHold : WellFormed (.storeHold 0xA000#16) = false := by decide
theorem test_wf_storeResume : WellFormed (.storeResume 0x9000#16) = false := by decide
theorem test_wf_clearStoreStatus : WellFormed (.clearStoreStatus 0xC000#16) = false := by decide
theorem test_wf_invalidStoreCommand : WellFormed (.invalidStoreCommand 0xB000#16) = false := by decide
theorem test_wf_pulseResidue : WellFormed (.erasePulseDone [(8192, 0#8)]) = false := by decide
theorem test_wf_resumeResidue : WellFormed (.erasePulseResume false [(8192, 0#8)]) = false := by decide
theorem test_wf_missed : WellFormed (.programAttemptDone (List.replicate 65 0#8)) = false := by decide
theorem test_wf_supplyFall : WellFormed (.storeSupplyGoodFall [(9000, 0#8)] []) = false := by decide
theorem test_wf_powerOn : WellFormed (.powerOnReset [] (List.replicate 65 0#8)) = false := by decide
theorem test_wf_pinReset : WellFormed (.pinReset [(8192, 0#8)] []) = false := by decide

/-! ### Worked examples of the spec -/

/-- The first rows of the table of R68. -/
theorem test_phaseStep : phaseStep 700 = 2867 ∧ phaseStep 800 = 3277 ∧ phaseStep 7000 = 28672 := by decide
/-- Rows of the table of R70. -/
theorem test_sineTable : sineTable 1 = 13 ∧ sineTable 64 = 783 ∧ sineTable 272 = 2037 ∧ sineTable 784 = -2037 := by decide
/-- Rows of the table of R71. -/
theorem test_gainTable : gainOf 0 = 32767 ∧ gainOf 20 = 10362 ∧ gainOf 63 = 872 := by decide
/-- A positive and a negative peak at attenuation 0 (R72). -/
theorem test_componentBias : componentValue 0x4000#16 0 = 2046 ∧ componentValue 0xC000#16 0 = -2047 := by decide
/-- Magnitudes 644 and 645 of R80's worked values, and the largest code. -/
theorem test_encode : encodeValue 644 = 0x54#8 ∧ encodeValue (-645) = 0xD4#8 ∧ encodeValue 4095 = 0x7F#8 := by decide
/-- The 40,000-code load of section 8.11: five segments, twenty chunks. -/
theorem test_loadSizes : segmentsFor 40000 = 5 ∧ chunksFor 40000 = 20 := by decide
/-- The slot word 8A0Eh maps slot 10 with trim 14 (R8). -/
theorem test_slotWord : slotEntry 0x8A0E#16 = ⟨true, 10, 14⟩ := by decide
/-- A trim of 48–63 is taken as 47 (R8). -/
theorem test_slotTrimClamp : slotEntry 0x853F#16 = ⟨true, 5, 47⟩ := by decide
/-- Hearing word fields: code 15:12, class 11:10, argument 9:4, repeats 3:0 (R6). -/
theorem test_hearingWord :
    orderCode 0x3C72#16 = 3 ∧ orderClass 0x3C72#16 = 3 ∧ orderArg 0x3C72#16 = 7 ∧ orderRepeats 0x3C72#16 = 2 := by decide
/-- Timing word 1 with fields 0 and 31: the fan-out limit becomes 1 and the gap 20 (R161). -/
theorem test_timingClamp : timingGap 0x001F#16 = 20 ∧ timingFanout 0x001F#16 = 1 := by decide
/-- Plan 3 word 5 of bank B lies at offset 235h (R166). -/
theorem test_planOffset : planOffset 0x235#12 = (.B, 3, 5) := by decide
/-- The region base for straps 7 is FF000h (R158). -/
theorem test_regionBase : regionBase 7 = 0xFF000 := by decide
/-- Ring entry word 0 of CHANNEL_WAIT for circuit 5 (R167, R168). -/
theorem test_ringWord0 : (Report.word0 ⟨.channelWait, 5, 0x102#16⟩) = 0x0705#16 := by decide
/-- The circuit status word of a QUIET circuit is 0, and of one in TONE on channel 3 with class 1 active 4918h, by the layout of R167. -/
theorem test_circuitStatus : Circuit.initial.status = 0#16
    ∧ Circuit.status { Circuit.initial with set := setOne toneEntry, state := .tone, binding := .channel 3 } = 0x4918#16 := by
  decide
/-- The refused CONFIG_CONFIRM of section 8.12 reports value 206h. -/
theorem test_configProtected : 0x100 * 2 + RefusalReason.code .lockProtected = 0x206 := by decide
/-- No word spells a command (log 24). -/
theorem test_decodeNone : decodeTableWord 16 0x5000 = none := rfl
/-- The command at the front of the queue runs first. -/
theorem test_stepFront :
    step { State.reset with pending := [.storeLockChange true, .framePulse] }
      = exec (.storeLockChange true) { State.reset with pending := [.framePulse] } := rfl

/-! ### Witnesses: states and operands that meet the hypotheses of the statements, clause by clause. A hypothesis that is an
equation naming a value (the record written, the state reported) is met by that value and is not repeated here. -/

/-- A state whose command queue holds one command. -/
def queued (c : Instr) : State := { State.reset with pending := [c] }

theorem witness_StepRunsFrontCommand : (queued .framePulse).pending = .framePulse :: [] := rfl

/-- The monitor and the base frame count as given. -/
def frames (m : Monitor) (n : Nat) : State :=
  { State.reset with highway := { Highway.initial with monitor := m, baseCount := n, pulseUs := 250 } }

/-- In LOST, the loss duration count at its end. -/
def lostLong : State := { State.reset with highway := { Highway.initial with monitor := .lost, lossMs := 65535, lossUs := 999 } }

theorem witness_IdleStepPassesOneMicrosecond :
    State.reset.pending = [] ∧ State.reset.running = true ∧ (frames .running 79).pending = []
      ∧ (frames .running 79).running = true ∧ (frames .running 79).highway.monitor = .running
      ∧ lostLong.pending = [] ∧ lostLong.running = true ∧ lostLong.highway.monitor = .lost
      ∧ ({ State.reset with bus := { State.reset.bus with resetLine := .pin } } : State).running = false := by decide

theorem witness_ProcessorWritePassesAndIsCaptured :
    memWf Config.callStoreFill State.reset.bus.callStore = true ∧ State.reset.bus.posting = none
      ∧ State.reset.bus.waiting = [] ∧ State.reset.bus.snoop.length < 32
      ∧ State.reset.bus.captureOffset 0xF8315#20 = some 0x315#12 ∧ State.reset.bus.captureOffset 0xF8316#20 = none := by
  decide

theorem witness_CapturedWordsOfTheRegion :
    State.reset.running = true ∧ (0xF80BF#20).toNat = 0xF8000 + State.reset.bus.straps.val * 0x1000 + (0x0BF#12).toNat
      ∧ (0xF7FFF#20).toNat < 0xF8000 + State.reset.bus.straps.val * 0x1000
      ∧ 0xF8000 + State.reset.bus.straps.val * 0x1000 + 0x1000 ≤ (0xF9000#20).toNat
      ∧ ({ State.reset with bus := { State.reset.bus with resetLine := .powerOn } } : State).running = false := by decide

/-- The snoop queue full, a store parameter word at its head; with `w`, a held write behind it. -/
def fullQueue (w : List BusWrite) : State :=
  { State.reset with bus := { State.reset.bus with
      snoop := ⟨0x315#12, 7⟩ :: List.replicate 31 ⟨0x300#12, 1⟩, waiting := w } }

theorem witness_HeldWritePassesWhenAnEntryLeaves :
    (fullQueue []).bus.snoop.length = 32 ∧ (fullQueue []).bus.waiting = []
      ∧ (fullQueue []).bus.captureOffset 0xF8000#20 ≠ none
      ∧ (fullQueue []).headIs (0x313 + (2 : Fin 3).val) 7 = true
      ∧ (fullQueue [⟨0xF8000#20, 9, false⟩]).headIs (0x313 + (2 : Fin 3).val) 7 = true
      ∧ (fullQueue [⟨0xF8000#20, 9, false⟩]).bus.waiting = [⟨0xF8000#20, 9, false⟩]
      ∧ (fullQueue [⟨0xF8000#20, 9, false⟩]).bus.posting = none ∧ (fullQueue [⟨0xF8000#20, 9, false⟩]).bus.snoop.length = 32
      ∧ (fullQueue [⟨0xF8000#20, 9, false⟩]).bus.captureOffset 0xF8000#20 = some 0
      ∧ memWf Config.callStoreFill (fullQueue [⟨0xF8000#20, 9, false⟩]).bus.callStore = true := by decide

/-- A write held as a pin reset is asserted during a posting cycle that outlasts the reset goes to memory uncaptured (R159). -/
theorem test_heldWriteAtAPinReset :
    let b := Bus.assertReset .pin (some .ringWord1) (fullQueue [⟨0xF8000#20, 9, false⟩]).bus
    let c := Bus.giveWay { b with resetLine := .released, posting := none }
    b.waiting = [⟨0xF8000#20, 9, true⟩] ∧ c.waiting = [] ∧ c.snoop = [] ∧ memRead 0 c.callStore 0xF8000 = 9#16 := by decide

/-- The fan-out change of a timing word 1 is in flight to the player pool. -/
def fanoutInFlight (s : State) : State := { s with bus := { s.bus with fanoutChanges := [⟨5, true⟩] } }

theorem witness_SettingWordsReachTheirOwners :
    (wordAt 0x30C 0x7F1F#16 State.reset).headIs 0x30C 0x7F1F#16 = true
      ∧ (wordAt 0x30D 0#16 State.reset).headIs 0x30D 0#16 = true
      ∧ (wordAt 0x30B 0x4040#16 State.reset).headIs (0x309 + (2 : Fin 3).val) 0x4040#16 = true
      ∧ (wordAt 0x307 0x8F0F#16 State.reset).headIs (0x300 + (7 : Fin 8).val) 0x8F0F#16 = true
      ∧ (3 : Cls).val = (7 : Fin 8).val / 2
      ∧ (wordAt 0x308 0xFFFF#16 State.reset).headIs 0x308 0xFFFF#16 = true
      ∧ (∃ c ∈ (fanoutInFlight State.reset).bus.fanoutChanges, c.fromEntry = true)
      ∧ Instr.loadBufferWrite 1023 0#16 ∈ [Instr.quiet 5 0#16, .storeParameterWrite 2 0#16, .loadBufferWrite 1023 0#16] := by
  decide

/-- An entry behind timing word 1 is not handed over until the player pool has taken the new limit (R160); a change of the
scan's end holds no entry up (log 42). -/
theorem test_entryWaitsForTheFanoutChange :
    (fanoutInFlight (wordAt 0x30D 7#16 State.reset)).headIs 0x30D 7#16 = false
      ∧ (fanoutInFlight (wordAt 0x30D 7#16 State.reset)).takeFanout.headIs 0x30D 7#16 = true
      ∧ (State.giveFanout false 5 (wordAt 0x30D 7#16 State.reset)).headIs 0x30D 7#16 = true := by decide

theorem witness_AcknowledgeClearsNamedFlags : (wordAt 0x310 0x107#16 State.reset).headIs 0x310 0x107#16 = true := by decide

theorem witness_ConsumerWriteMovesShadowAndHoldoff :
    (wordAt 0x30F 0x7F#16 State.reset).headIs 0x30F 0x7F#16 = true := by decide

/-! Reports and posting -/

def someReport : Report := ⟨.channelWait, 5, 2⟩

/-- The report queue full of `q`, one report of the channel pool in flight behind one of another block. -/
def reporting (q : Report) (n : Nat) : State :=
  { State.reset with
    reports := { ReportUnit.initial with queue := List.replicate n q }
    wire := { State.reset.wire with submitted := [⟨.orderUnit, someReport⟩, ⟨.channelPool, someReport⟩] } }

theorem witness_ReportJoinsCoalescesOrIsLost :
    (reporting someReport 15).running = true
      ∧ (reporting someReport 15).wire.submitted = [⟨.orderUnit, someReport⟩] ++ ⟨.channelPool, someReport⟩ :: []
      ∧ (∀ y ∈ [(⟨.orderUnit, someReport⟩ : Submission)], y.block ≠ .channelPool)
      ∧ (reporting someReport 15).reports.queue.length < 16 ∧ 16 ≤ (reporting someReport 16).reports.queue.length
      ∧ (reporting someReport 16).reports.queue = List.replicate 15 someReport ++ someReport :: []
      ∧ (∀ z ∈ (reporting ⟨.channelWait, 6, 2⟩ 16).reports.queue,
          z.kind ≠ someReport.kind ∨ z.subject ≠ someReport.subject) := by decide

/-- An entry in progress with `n` cycles ended, or none with a report queued; `p` is the posting cycle in progress. -/
def posting (e : Option RingEntry) (p : Option Posting) : State :=
  { State.reset with
    bus := { State.reset.bus with posting := p }
    reports := { ReportUnit.initial with queue := [someReport], entry := e, producer := 127, consumer := 127 } }

theorem witness_RingEntryIsPostedInThreeCycles :
    (posting none none).running = true ∧ (posting none none).bus.posting = none ∧ (posting none none).bus.waiting = []
      ∧ memWf Config.callStoreFill (posting none none).bus.callStore = true
      ∧ (posting none none).reports.entry = none ∧ (posting none none).reports.queue = someReport :: []
      ∧ ((posting none none).reports.producer.val + 1) % 128 ≠ (posting none none).reports.consumer.val
      ∧ (posting (some ⟨someReport, 1⟩) none).reports.entry = some ⟨someReport, 1⟩
      ∧ (posting (some ⟨someReport, 2⟩) none).reports.entry = some ⟨someReport, 2⟩ := by decide

theorem witness_PostingCycleEndAdvancesTheEntry :
    (posting (some ⟨someReport, 0⟩) (some .ringWord0)).bus.posting = some .ringWord0
      ∧ (posting (some ⟨someReport, 0⟩) (some .ringWord0)).reports.entry = some ⟨someReport, 0⟩
      ∧ (posting (some ⟨someReport, 1⟩) (some .ringWord1)).reports.entry = some ⟨someReport, 1⟩
      ∧ (posting (some ⟨someReport, 2⟩) (some .producerIndex)).bus.posting = some .producerIndex
      ∧ (posting none (some (.status .global))).bus.posting = some (.status .global) := by decide

/-- Only the mark of directory word 31 is set. -/
def oneMark : State := { State.reset with wire := ⟨[], (DirtyMarks.all false).put (.directory 31) true⟩ }

theorem witness_LowestMarkedStatusWordIsPosted :
    oneMark.running = true ∧ oneMark.bus.posting = none ∧ oneMark.bus.waiting = []
      ∧ memWf Config.callStoreFill oneMark.bus.callStore = true ∧ oneMark.reports.entry = none
      ∧ oneMark.reports.queue = [] ∧ oneMark.wire.dirty.get (.directory 31) = true
      ∧ ∀ x, oneMark.wire.dirty.get x = true → (PostedWord.directory 31).offset ≤ x.offset := by
  refine ⟨by decide, by decide, by decide, by decide, by decide, by decide, by decide, ?_⟩
  intro x
  cases x with
  | circuit p => revert p; decide
  | player n => revert n; decide
  | directory r => revert r; decide
  | _ => decide

theorem witness_TimersExpire :
    State.running { State.reset with reports := { ReportUnit.initial with holdoffRunning := true, holdoffSetting := 255 } } = true
      ∧ ({ State.reset with cong := { CongestionUnit.initial with lamp := ⟨.darkened, 100000, true⟩ } } : State).cong.lamp
        = ⟨.darkened, 100000, true⟩ ∧ LampPhase.darkened ≠ .idle
      ∧ (st fun c => { c with lamp := ⟨.lit, 5, true⟩ }).store.lamp = ⟨.lit, 5, true⟩ := by decide

/-- A wait boundary due, grade 1, sixteen circuits in CHANNEL_WAIT. -/
def loaded : State :=
  { State.reset with
    highway := { Highway.initial with waitGradeDue := 1 }
    orders := { OrderUnit.initial with
      circuits := Vector.ofFn fun p => if p.val < 16 then { Circuit.initial with state := .channelWait } else Circuit.initial }
    cong := { CongestionUnit.initial with grade := 1 } }

theorem witness_LoadGradeMovesByOneStep :
    loaded.running = true ∧ 0 < loaded.highway.waitGradeDue
      ∧ (loaded.orders.circuits.toList.filter fun c => c.state == .channelWait || c.state == .annWait).length = 16
      ∧ (∃ i : Fin 3, i.val = loaded.cong.grade.val ∧ loaded.cong.up[i] ≤ 16) := by decide

/-- The port as given, a processor write waiting, the posting cycle as given. -/
def interrupted (q : Option Port) (p : Option Posting) : State :=
  { State.reset with
    bus := { State.reset.bus with posting := p, waiting := [⟨0xF8005#20, 7#16, false⟩] }
    store := { State.reset.store with port := q } }

theorem witness_PowerOnAndPinReset :
    State.reset.bus.waiting = [] ∧ State.reset.store.port = none ∧ State.reset.store.suspended = none
      ∧ State.reset.running = true ∧ memWf 0xFF#8 State.reset.store.bytes = true
      ∧ memWf Config.callStoreFill State.reset.bus.callStore = true
      ∧ (∀ us, (interrupted (some ⟨.erasePulse 40, 33⟩) none).store.port ≠ some ⟨.erasePulse 12, us⟩)
      ∧ (∀ us, (interrupted (some ⟨.erasePulse 40, 33⟩) none).store.suspended ≠ some ⟨12, us⟩)
      ∧ (∀ x us, (interrupted (some ⟨.erasePulse 40, 33⟩) none).store.port = some ⟨.attempt x, us⟩ →
          x.seg ≠ 12 ∧ ∀ c ∈ x.bytes, c.1 < 8192)
      ∧ (interrupted none none).running = true ∧ (interrupted none none).bus.posting = none
      ∧ (interrupted none (some .ringWord1)).bus.posting ≠ none
      ∧ ({ State.reset with bus := { State.reset.bus with resetLine := .pin } } : State).running = false := by
  refine ⟨by decide, by decide, by decide, by decide, by decide, by decide, fun us h => ?_, fun us h => ?_,
    fun x us h => ?_, by decide, by decide, by decide, by decide⟩
  · exact absurd (congrArg (Option.map Port.step) h) (by simp [interrupted])
  · exact absurd h (by simp [interrupted, State.reset, StoreController.initial])
  · exact absurd (congrArg (Option.map Port.step) h) (by simp [interrupted])

/-! Sample path and highway port -/

theorem witness_CodesAndValuesAgree :
    (-4095 : Int) ≤ -4095 ∧ (-4095 : Int) ≤ 4095 ∧ (encodeValue (-4095)).toNat / 16 % 8 = 7
      ∧ (encodeValue (-4095)).toNat % 16 = 15 ∧ 32 ≤ (-4095 : Int).natAbs ∧ (31 : Int).natAbs < 32
      ∧ (0xF3#8).toNat / 16 % 8 = 7 ∧ (0xF3#8).toNat % 16 = 3 ∧ (0x8F#8).toNat / 16 % 8 = 0 := by decide

/-- F3h is segment 7, step 3, negative: 2048 + 3 × 128 + 64 (R76). -/
theorem test_decodesTheMiddleOfTheStep : decodeCode 0xF3#8 = -2496 ∧ decodeCode 0x8F#8 = -31 := by decide

/-- A frame start to be computed: circuit 6 in TONE on channel 3, circuit 7 in HEAR on player 2, circuit 9 unmapped. -/
def frameDue : State :=
  let s := withPlan 1 (withChan 3 (run false [⟨6, 1, false⟩]) (withPlayer 2 (player .playing [⟨7, 1, 0, true⟩] [])
    (withCircuit 7 (hearing annEntry) (withCircuit 6 (onTone 3 (setOne toneEntry)) State.reset))))
  { s with highway := { Highway.initial with sampleDue := true, map := initialMap.set 9 ⟨false, 9, 12⟩ } }

/-- Circuit 8 still in TONE on channel 0, which has become FREE: its notice is in flight. -/
def onFree : State := withCircuit 8 (onTone 0 (setOne toneEntry)) frameDue

theorem witness_FrameComputationFormsTheCodes :
    frameDue.running = true ∧ frameDue.highway.sampleDue = true ∧ frameDue.highway.playersDue = false
      ∧ frameDue.chans.chans[(0 : ChanNo)] = none
      ∧ frameDue.chans.chans[(3 : ChanNo)] = some (run false [⟨6, 1, false⟩])
      ∧ frameDue.highway.map[(6 : Circ)].mapped = true ∧ frameDue.orders.circuits[(5 : Circ)].state ≠ .tone
      ∧ frameDue.orders.circuits[(5 : Circ)].state ≠ .hear ∧ frameDue.orders.circuits[(6 : Circ)].state = .tone
      ∧ frameDue.orders.circuits[(6 : Circ)].binding = .channel 3 ∧ frameDue.orders.circuits[(7 : Circ)].state = .hear
      ∧ frameDue.orders.circuits[(7 : Circ)].binding = .listener 2 ∧ frameDue.highway.map[(9 : Circ)].mapped = false
      ∧ (onFree).highway.map[(8 : Circ)].mapped = true
      ∧ (onFree).orders.circuits[(8 : Circ)].state = .tone
      ∧ (onFree).orders.circuits[(8 : Circ)].binding = .channel 0
      ∧ (onFree).chans.chans[(0 : ChanNo)] = none := by
  decide

theorem witness_FramePulseAndFrameLoss :
    (frames .lost 799).running = true ∧ (frames .lost 799).highway.monitor = .lost
      ∧ (frames .running 79).running = true ∧ (frames .running 79).highway.pulseUs ≤ 250
      ∧ (frames .running 79).highway.monitor = .running ∧ (frames .running 79).highway.pulseUs ≤ 251
      ∧ (frames .running 79).highway.sampleDue = false ∧ (frames .running 79).highway.channelsDue = false
      ∧ (frames .running 79).highway.playersDue = false ∧ (∀ k : ChanNo, (frames .running 79).chans.chans[k] = none)
      ∧ (∀ m : PlayNo, (frames .running 79).exchange.cycleEndDue m = false
          ∧ ¬ ((frames .running 79).players.players[m].state = .gap ∧ (frames .running 79).players.players[m].gapLeft = 0))
      ∧ (frames .running 79).highway.cadenceDue = 0 ∧ (frames .running 79).highway.waitOrdersDue = 0
      ∧ (frames .running 79).highway.waitPlayersDue = 0 ∧ (frames .running 79).highway.waitGradeDue = 0
      ∧ ∀ p : Circ, (frames .running 79).orders.circuits[p].limit ≠ .reached
          ∧ ¬ ((frames .running 79).orders.circuits[p].state = .gap ∧ (frames .running 79).orders.circuits[p].gapLeft = 0) := by
  decide

/-- A boundary not yet taken is taken at a frame loss: in LOST none is due (log 9). -/
theorem test_lossTakesTheBoundary :
    (({ frames .running 80 with highway := { (frames .running 80).highway with cadenceDue := 1 } } : State).declareLoss).highway.cadenceDue
      = 0 := by decide

/-- Bit time `n` of a frame comes next. -/
def sending (n : Option Nat) : State :=
  { State.reset with
    highway := { Highway.initial with sending := n }
    sample := { SamplePath.initial with outCodes := SamplePath.initial.outCodes.set 63 0x41#8 } }

theorem witness_HighwayClockCarriesOneBit :
    (sending (some 511)).running = true ∧ (sending (some 511)).highway.sampleDue = false
      ∧ (sending (some 511)).highway.sending = some 511
      ∧ (sending (some 511)).highway.map[(63 : Circ)].mapped = true
      ∧ (sending (some 511)).highway.map[(63 : Circ)].slot.val = 511 / 8
      ∧ true = (sending (some 511)).sample.outCodes[(63 : Circ)].getLsbD (7 - 511 % 8)
      ∧ MapOk (sending (some 511)).highway.map ∧ (sending none).highway.sending = none
      ∧ (sending (some 512)).highway.sending = some 512 := by
  refine ⟨by decide, by decide, by decide, by decide, by decide, by decide, initialMap_ok, by decide, by decide⟩

theorem witness_SlotWordChangesTheNextMap :
    (wordAt 0x085 0x8A0E#16 State.reset).headIs (0x080 + (5 : Circ).val) 0x8A0E#16 = true
      ∧ true = decide ((0x8A0E#16).toNat / 2 ^ 15 = 1) ∧ (10 : Fin 64).val = (0x8A0E#16).toNat / 256 % 64
      ∧ (14 : Fin 48).val = min ((0x8A0E#16).toNat % 64) 47 ∧ MapOk State.reset.highway.next
      ∧ (10 : Circ) ≠ 5 ∧ State.reset.highway.next[(10 : Circ)].mapped = true
      ∧ State.reset.highway.next[(10 : Circ)].slot = 10
      ∧ (wordAt 0x085 0x853F#16 State.reset).headIs (0x080 + (5 : Circ).val) 0x853F#16 = true
      ∧ (∀ q : Circ, q ≠ 5 → State.reset.highway.next[q].mapped = true → State.reset.highway.next[q].slot ≠ 5) := by
  refine ⟨by decide, by decide, by decide, by decide, initialMap_ok, by decide, by decide, by decide, by decide, by decide⟩

/-! Orders -/

/-- Hearing word `w` of circuit 5 at the head, the circuit's record `c`. -/
def ordered (w : Word) (c : Circuit) (s : State) : State := withCircuit 5 c (wordAt 5 w s)

theorem witness_RefusedOrdersAreReported :
    (ordered 0x6000#16 Circuit.initial State.reset).headIs (5 : Circ).val 0x6000#16 = true ∧ 6 ≤ (0x6000#16).toNat / 4096
      ∧ (ordered 0x1100#16 Circuit.initial State.reset).headIs (5 : Circ).val 0x1100#16 = true
      ∧ 1 = (0x1100#16).toNat / 4096 ∧ 16 ≤ (0x1100#16).toNat / 16 % 64
      ∧ 2 = (0x2100#16).toNat / 4096 ∧ 16 ≤ (0x2100#16).toNat / 16 % 64
      ∧ 3 = (0x3200#16).toNat / 4096 ∧ 32 ≤ (0x3200#16).toNat / 16 % 64
      ∧ 4 = (0x4080#16).toNat / 4096 ∧ 8 ≤ (0x4080#16).toNat / 16 % 64
      ∧ (15 : PlanNo).val = (0x10F0#16).toNat / 16 % 64 ∧ 1 = (0x10F0#16).toNat / 4096
      ∧ ¬ (ordered 0x10F0#16 Circuit.initial State.reset).planUsable 15 := by
  refine ⟨by decide, by decide, by decide, by decide, by decide, by decide, by decide, by decide, by decide, by decide,
    by decide, by decide, by decide, ?_⟩
  rintro ⟨b, hb, -⟩
  cases hb

theorem witness_DetailWordSetsThePlans :
    (wordAt 0x045 0x131F#16 State.reset).headIs (0x040 + (5 : Circ).val) 0x131F#16 = true := by decide

def inGap : Circuit := { Circuit.initial with set := setOne toneEntry, state := .gap, gapLeft := 0, tag := 1 }
def inQueue : Circuit :=
  { Circuit.initial with set := setOne toneEntry, state := .channelWait, binding := .channelQueue, tag := 1 }

theorem witness_OrderChangesOnlyTheSet :
    (ordered 0x0000#16 (onTone 3 (setOne toneEntry)) State.reset).headIs (5 : Circ).val 0x0000#16 = true
      ∧ (onTone 3 (setOne toneEntry)).consistent = true ∧ (0 : Cls).val = (0x0000#16).toNat / 1024 % 4
      ∧ activeClass (setOne toneEntry) = some 1 ∧ (0 : Cls) < 1 ∧ (0x0000#16).toNat / 4096 = 0
      ∧ (ordered 0x31F2#16 (onTone 3 (setOne toneEntry)) State.reset).headIs (5 : Circ).val 0x31F2#16 = true
      ∧ (0 : Cls).val = (0x31F2#16).toNat / 1024 % 4
      ∧ (ordered 0x31F2#16 (onTone 3 (setOne toneEntry)) State.reset).accepts 5 0x31F2#16 (.announce 5 0x31F2#16)
        (.announce 31 2) := by
  refine ⟨by decide, by decide, by decide, by decide, by decide, by decide, by decide, by decide, ?_⟩
  exact .inr (.inl ⟨31, by decide, by decide, rfl, by decide⟩)

/-- Circuit 5 in GAP with a tone in class 1 above another in class 0. -/
def gapTwo : Circuit := { inGap with set := setTwo toneEntry toneEntry, gapLeft := 3 }

theorem witness_OrderChangesOnlyTheSet_gap :
    (withPlan 1 (ordered 0x0400#16 gapTwo State.reset)).headIs (5 : Circ).val 0x0400#16 = true ∧ gapTwo.consistent = true
      ∧ gapTwo.state = .gap ∧ activeClass gapTwo.set = some 1 ∧ (1 : Cls).val = (0x0400#16).toNat / 1024 % 4
      ∧ (withPlan 1 (ordered 0x0400#16 gapTwo State.reset)).supersedes 5 0x0400#16 (.quiet 5 0x0400#16) gapTwo 1 none
          (gapTwo.set.set (1 : Cls) none)
      ∧ activeClass (gapTwo.set.set (1 : Cls) none) ≠ none ∧ gapTwo.set.set (1 : Cls) none ≠ gapTwo.set
      ∧ (withPlan 1 (ordered 0x1420#16 gapTwo State.reset)).supersedes 5 0x1420#16 (.toneShared 5 0x1420#16) gapTwo 1 none
          gapTwo.set := by
  refine ⟨by decide, by decide, by decide, by decide, by decide, .inr (.inl ⟨by decide, rfl, by decide, rfl⟩), by decide,
    by decide, .inr (.inr ⟨.toneShared 2, 1, .inl ⟨2, by decide, ⟨.A, by decide, by decide⟩, .inl ⟨by decide, rfl, rfl⟩⟩,
      by decide, by decide, by decide⟩)⟩

/-- CLEAR_ALL for circuit 5, a listener of channel 3 with the listeners `l`. -/
def clearTone (l : List ToneListener) : State :=
  withPlan 1 (withChan 3 (run false l) (ordered 0x5000#16 (onTone 3 (setOne toneEntry)) State.reset))

/-- CLEAR_ALL for circuit 5, waiting in the channel queue. -/
def clearQueue : State :=
  { ordered 0x5000#16 inQueue State.reset with
    chans := { ChannelPool.initial with queue := [⟨1, true, 3, 1⟩, ⟨5, false, 2, 1⟩] } }

/-- No channel but `k` holds circuit `p`. -/
theorem onlyListener {s : State} {k : ChanNo} {p : Circ}
    (h : ∀ j : ChanNo, j ≠ k → (s.chans.chans[j]).all (fun u => u.listeners.all fun l => l.circ != p) = true) :
    ∀ (j : ChanNo) (u : Run), j ≠ k → s.chans.chans[j] = some u → ∀ l ∈ u.listeners, l.circ ≠ p := by
  intro j u hj hu l hl
  have hp := h j hj
  rw [hu, Option.all_some, List.all_eq_true] at hp
  simpa using hp l hl

/-- A plan that is not valid in the live bank is not usable. -/
theorem notUsable {s : State} {b : Bank} {l : List ToneWaiter} (hb : s.plans.live = some b)
    (h : ∀ y ∈ l, (s.plans.plan b y.plan).status ≠ .valid) : ∀ y ∈ l, ¬ s.planUsable y.plan := by
  rintro y hy ⟨c, hc, hv⟩
  rw [hb] at hc
  cases hc
  exact h y hy hv

/-- A start that takes FREE channel `k`, one that joins it, and one that waits. -/
theorem startsFree {s : State} {p : Circ} {C : Circuit} {priv : Bool} {q : PlanNo} (b : Bank) (k : ChanNo)
    (hb : s.plans.live = some b) (hv : (s.plans.plan b q).status = .valid) (hk : s.chans.chans[k] = none)
    (hl : ∀ j : ChanNo, j < k → s.chans.chans[j] ≠ none) (hj : priv = true ∨ ∀ j, s.joinable q j = false) :
    ∃ t, s.startsTone p C priv q t := ⟨_, b, hb, hv, .inl ⟨k, hk, hl, hj, rfl⟩⟩

theorem startsJoin {s : State} {p : Circ} {C : Circuit} {priv : Bool} {q : PlanNo} (b : Bank) (k : ChanNo) (r : Run)
    (hb : s.plans.live = some b) (hv : (s.plans.plan b q).status = .valid) (hk : s.chans.chans[k] = some r)
    (hj : s.joinable q k = true) (hl : ∀ j : ChanNo, j < k → s.joinable q j = false)
    (hf : priv = true → ∀ j : ChanNo, s.chans.chans[j] ≠ none) : ∃ t, s.startsTone p C priv q t :=
  ⟨_, b, hb, hv, .inr (.inl ⟨k, r, _, hk, hj, hl, hf, rfl, rfl⟩)⟩

theorem startsWait {s : State} {p : Circ} {C : Circuit} {priv : Bool} {q : PlanNo} (b : Bank)
    (hb : s.plans.live = some b) (hv : (s.plans.plan b q).status = .valid) (hj : ∀ j, s.joinable q j = false)
    (hf : ∀ j : ChanNo, s.chans.chans[j] ≠ none) : ∃ t, s.startsTone p C priv q t :=
  ⟨_, b, hb, hv, .inr (.inr ⟨hj, hf, rfl⟩)⟩

theorem witness_EmptyingOrderEntersQuiet :
    (clearTone [⟨5, 1, false⟩]).headIs (5 : Circ).val 0x5000#16 = true
      ∧ (clearTone [⟨5, 1, false⟩]).orders.circuits[(5 : Circ)] = onTone 3 (setOne toneEntry)
      ∧ (onTone 3 (setOne toneEntry)).consistent = true ∧ (0x5000#16).toNat / 4096 = 5
      ∧ (∀ x ∈ (clearTone [⟨5, 1, false⟩]).chans.queue, x.circ ≠ 5)
      ∧ (∃ l ∈ (run false [⟨5, 1, false⟩]).listeners, l.circ = 5)
      ∧ (run false [⟨5, 1, false⟩]).listeners.filter (fun l => l.circ != 5) = []
      ∧ (clearTone [⟨5, 1, false⟩]).chans.queue = []
      ∧ ((clearTone [⟨5, 1, false⟩]).plans.bank .A).state = .live
      ∧ (run false [⟨5, 1, false⟩, ⟨9, 1, false⟩]).listeners.filter (fun l => l.circ != 5) ≠ []
      ∧ (∀ (j : ChanNo) (u : Run), j ≠ 3 → (clearTone [⟨5, 1, false⟩]).chans.chans[j] = some u →
          ∀ l ∈ u.listeners, l.circ ≠ 5)
      ∧ inGap.consistent = true ∧ (0x0400#16).toNat / 4096 = 0
      ∧ (∀ d : Cls, d.val ≠ (0x0400#16).toNat / 1024 % 4 → inGap.set[d] = none)
      ∧ clearQueue.headIs (5 : Circ).val 0x5000#16 = true ∧ inQueue.consistent = true
      ∧ (∃ x ∈ clearQueue.chans.queue, x.circ = 5) ∧ Circuit.initial.consistent = true := by
  refine ⟨by decide, by decide, by decide, by decide, by decide, by decide, by decide, by decide, by decide, by decide,
    onlyListener (by decide), by decide, by decide, by decide, by decide, by decide, by decide, by decide⟩

/-- A shared order on plan 2 (1420h) or a private one (2420h) for circuit 5, plan 2 VALID in live bank A. -/
def toneOrder (w : Word) (s : State) : State := withPlan 4 (ordered w Circuit.initial s)

theorem witness_ToneOrderOnAQuietCircuit :
    (toneOrder 0x1420#16 State.reset).headIs (5 : Circ).val 0x1420#16 = true ∧ Circuit.initial.consistent = true
      ∧ Circuit.initial.state = .quiet ∧ (1 : Cls).val = (0x1420#16).toNat / 1024 % 4
      ∧ (2 : PlanNo).val = (0x1420#16).toNat / 16 % 64 ∧ (toneOrder 0x1420#16 State.reset).plans.live = some .A
      ∧ ((toneOrder 0x1420#16 State.reset).plans.plan .A 2).status = .valid ∧ (0x1420#16).toNat / 4096 = 1
      ∧ (0x2420#16).toNat / 4096 = 2
      ∧ (toneOrder 0x1420#16 State.reset).chans.chans[(0 : ChanNo)] = none
      ∧ (∀ k, (toneOrder 0x1420#16 State.reset).joinable 2 k = false)
      ∧ (toneOrder 0x2420#16 (withChan 15 (run false [⟨9, 1, false⟩]) (allTaken State.reset))).joinable 2 15 = true
      ∧ (∀ j : ChanNo, j < 15 →
          (toneOrder 0x2420#16 (withChan 15 (run false [⟨9, 1, false⟩]) (allTaken State.reset))).joinable 2 j = false)
      ∧ (∀ k : ChanNo, (toneOrder 0x2420#16 (allTaken State.reset)).chans.chans[k] ≠ none)
      ∧ (∀ k, (toneOrder 0x2420#16 (allTaken State.reset)).joinable 2 k = false) := by decide

/-- ANNOUNCE on recording 7 with two repeats for circuit 5. -/
def annOrder (s : State) : State := ordered 0x3472#16 Circuit.initial s
def bargeIn : ViewRecord := ⟨2000, true, 3⟩
/-- A player busy with recording 9, at rest. -/
def busy : Player := { player .playing [⟨1, 1, 0, true⟩] [] with recording := some 9, wrapped := true }
/-- Every player but player 3 busy with recording 9. -/
def threeBusy : State := withPlayer 0 busy (withPlayer 1 busy (withPlayer 2 busy (annOrder (withView bargeIn State.reset))))

/-- Every player but those named is at rest, checked. -/
theorem restOf {s : State} {l : List PlayNo}
    (h : ∀ m : PlayNo, m ∉ l → (s.players.players[m]).atRest s.players = true) : s.playersRest l := h

theorem witness_AnnounceOrderOnAQuietCircuit :
    (annOrder State.reset).headIs (5 : Circ).val 0x3472#16 = true ∧ (0x3472#16).toNat / 4096 = 3
      ∧ (1 : Cls).val = (0x3472#16).toNat / 1024 % 4 ∧ (7 : RecNo).val = (0x3472#16).toNat / 16 % 64
      ∧ (2 : Fin 16).val = (0x3472#16).toNat % 16 ∧ threeBusy.orders.expiryReqs = [] ∧ threeBusy.players.waitList = []
      ∧ threeBusy.playersRest [] ∧ (annOrder State.reset).players.scanning = true
      ∧ (withView bargeIn State.reset).players.view[(6 : RecNo)] = none
      ∧ (withView bargeIn State.reset).players.scanning = false
      ∧ (∀ m : PlayNo, (withPlayer 3 busy threeBusy).players.players[m].state ≠ .idle)
      ∧ (withPlayer 3 (player .playing [] [⟨1, 1, 0⟩]) threeBusy).playersRest []
      ∧ (player .playing [] [⟨1, 1, 0⟩]).fanCount < threeBusy.players.fanout
      ∧ (∀ m : PlayNo, m < 3 → threeBusy.players.players[m].recording ≠ some 7) ∧ threeBusy.players.view[(7 : RecNo)] = some bargeIn
      ∧ threeBusy.players.players[(3 : PlayNo)] = { Player.idleWith 0 with handed := none } ∧ 0 < bargeIn.length
      ∧ (∀ m : PlayNo, threeBusy.players.players[m].recording ≠ some 7)
      ∧ (∀ m : PlayNo, m < 3 → threeBusy.players.players[m].state ≠ .idle) := by
  refine ⟨by decide, by decide, by decide, by decide, by decide, by decide, by decide, restOf (by decide), by decide,
    by decide, by decide, by decide, restOf (by decide), by decide, by decide, by decide, by decide, by decide, by decide,
    by decide⟩

/-- CONGESTION on route 6 for circuit 5, with level `g` and the table row `r` for grade 2. -/
def congOrder (g : Cls) (r : TableEntry) (s : State) : State :=
  let t := withPlan 4 (ordered 0x4460#16 Circuit.initial s)
  { t with cong := { t.cong with levels := t.cong.levels.set 6 g, grade := 1, table := t.cong.table.set 2 r } }

theorem witness_CongestionOrderOnAQuietCircuit :
    (congOrder 2 ⟨some 7, some 2, 3⟩ State.reset).headIs (5 : Circ).val 0x4460#16 = true ∧ (0x4460#16).toNat / 4096 = 4
      ∧ (6 : Route).val = (0x4460#16).toNat / 16 % 64
      ∧ (2 : Cls) = max (congOrder 2 ⟨some 7, some 2, 3⟩ State.reset).cong.levels[(6 : Route)]
          (congOrder 2 ⟨some 7, some 2, 3⟩ State.reset).cong.grade
      ∧ (congOrder 2 ⟨some 7, some 2, 3⟩ State.reset).players.scanning = true
      ∧ (congOrder 2 ⟨some 7, some 2, 3⟩ State.reset).plans.live = some .A
      ∧ ((congOrder 2 ⟨some 7, some 2, 3⟩ State.reset).plans.plan .A 2).status = .valid
      ∧ (∀ j, (congOrder 2 ⟨some 7, some 2, 3⟩ State.reset).joinable 2 j = false)
      ∧ (congOrder 2 ⟨some 7, some 2, 3⟩ State.reset).chans.chans[(0 : ChanNo)] = none
      ∧ (congOrder 0 ⟨none, none, 0⟩ State.reset).cong.table[(1 : Cls)] = ⟨none, none, 0⟩
      ∧ (congOrder 2 ⟨some 7, some 2, 3⟩ (withView bargeIn State.reset)).players.view[(7 : RecNo)] ≠ none
      ∧ (withPlayer 0 (player .priming [] [⟨1, 1, 0⟩])
          (congOrder 2 ⟨some 7, some 2, 3⟩ (withView bargeIn State.reset))).playersRest []
      ∧ (player .priming [] [⟨1, 1, 0⟩]).fanCount < State.reset.players.fanout := by
  refine ⟨by decide, by decide, by decide, by decide, by decide, by decide, by decide, by decide, by decide, by decide,
    by decide, restOf (by decide), by decide⟩

/-- Circuit 5 in TONE on channel 3 beside circuit 9, the word `w` at the head. -/
def leaving (w : Word) (t : TreatmentSet) (g : Option Cls) : State :=
  withPlan 1 (withChan 3 (run false [⟨5, 1, false⟩, ⟨9, 1, false⟩])
    (ordered w { onTone 3 t with latched := g } State.reset))

theorem witness_LeavingATreatment :
    (leaving 0x0400#16 (setTwo toneEntry toneEntry) none).headIs (5 : Circ).val 0x0400#16 = true
      ∧ (onTone 3 (setTwo toneEntry toneEntry)).consistent = true ∧ activeClass (setTwo toneEntry toneEntry) = some 1
      ∧ (leaving 0x0400#16 (setTwo toneEntry toneEntry) none).supersedes 5 0x0400#16 (.quiet 5 0x0400#16)
          (onTone 3 (setTwo toneEntry toneEntry)) 1 none ((setTwo toneEntry toneEntry).set (1 : Cls) none)
      ∧ 1 ≤ (leaving 0x0400#16 (setTwo toneEntry toneEntry) none).orders.gapSetting
      ∧ activeClass ((setTwo toneEntry toneEntry).set (1 : Cls) none) = some 0
      ∧ (∃ t, (leaving 0x0400#16 (setTwo toneEntry toneEntry) none).taken.releasesBinding 5 .tone none t)
      ∧ ({ onTone 3 (setOne ⟨.toneShared 2, none, none, some ⟨3, 1⟩⟩) with latched := some 1 } : Circuit).consistent = true
      ∧ (leaving 0x3C72#16 (setOne ⟨.toneShared 2, none, none, some ⟨3, 1⟩⟩) (some 1)).accepts 5 0x3C72#16
          (.announce 5 0x3C72#16) (.announce 7 2) ∧ (1 : Cls) ≤ 3 := by
  refine ⟨by decide, by decide, by decide, .inr (.inl ⟨by decide, rfl, by decide, rfl⟩), by decide, by decide,
    ⟨_, .inl ⟨.inl rfl, rfl, .inr ⟨by decide, .inr ⟨3, run false [⟨5, 1, false⟩, ⟨9, 1, false⟩], [⟨9, 1, false⟩], by decide,
      by decide, onlyListener (by decide), by decide, .inl ⟨by decide, rfl⟩⟩⟩⟩⟩, by decide,
    .inr (.inl ⟨7, by decide, by decide, rfl, by decide⟩), by decide⟩

/-- Circuit 5 alone on channel 3, no gap set, QUIET of class 1 at the head, another tone below; circuit 8 waits for plan 2. -/
def leavingAlone : State :=
  let s := withPlan 1 (withChan 3 (run false [⟨5, 1, false⟩]) (ordered 0x0400#16 (onTone 3 (setTwo toneEntry toneEntry)) State.reset))
  { s with orders := { s.orders with gapSetting := 0 }, chans := { s.chans with queue := [⟨8, true, 2, 1⟩] } }

theorem witness_LeavingATreatment_lastListener :
    leavingAlone.headIs (5 : Circ).val 0x0400#16 = true ∧ leavingAlone.orders.gapSetting = 0
      ∧ ((setTwo toneEntry toneEntry).set (1 : Cls) none)[(0 : Cls)] = some toneEntry
      ∧ ∃ t, leavingAlone.taken.releasesBinding 5 .tone none t
          ∧ ∃ u, t.startsEntry 5 { onTone 3 ((setTwo toneEntry toneEntry).set (1 : Cls) none) with binding := .none } 0 toneEntry u := by
  refine ⟨by decide, by decide, by decide, _, .inl ⟨.inl rfl, rfl, .inr ⟨by decide, .inr ⟨3, run false [⟨5, 1, false⟩], [],
    by decide, by decide, onlyListener (by decide), by decide, .inr ⟨rfl, _, .inl ⟨by decide, rfl⟩,
      .inr ⟨.A, [], [], [], ⟨8, true, 2, 1⟩, by decide, by decide, by decide, by decide, by decide, rfl⟩⟩⟩⟩⟩, ?_⟩
  exact ⟨_, .A, by decide, by decide, .inl ⟨0, by decide, by decide, .inr (by decide), rfl⟩⟩

/-- Circuit 5 waiting in the channel queue with two tones, QUIET of class 1 at the head. -/
def leavingQueue : State :=
  let s := withPlan 1 (ordered 0x0400#16 { inQueue with set := setTwo toneEntry toneEntry } State.reset)
  { s with chans := { s.chans with queue := [⟨1, true, 3, 1⟩, ⟨5, false, 2, 1⟩] } }

theorem witness_LeavingATreatment_waiter :
    leavingQueue.headIs (5 : Circ).val 0x0400#16 = true ∧ ({ inQueue with set := setTwo toneEntry toneEntry } : Circuit).consistent = true
      ∧ ∃ t, leavingQueue.taken.releasesBinding 5 .channelWait none t
          ∧ ∃ u, t.startsEntry 5 { inQueue with set := (setTwo toneEntry toneEntry).set (1 : Cls) none } 0 toneEntry u := by
  refine ⟨by decide, by decide, _, .inl ⟨.inr rfl, rfl, .inl ⟨by decide, rfl⟩⟩, ?_⟩
  exact ⟨_, .A, by decide, by decide, .inl ⟨0, by decide, by decide, .inr (by decide), rfl⟩⟩

/-- Circuit 5 with record `c`, player 2 with record `q`, recording 7 in the view, the word `w` at the head. -/
def leavingPlayer (w : Word) (c : Circuit) (q : Player) : State :=
  withPlan 1 (withPlayer 2 q (withView bargeIn (ordered w c State.reset)))

/-- Circuit 5 waits for recording 7 in player 2's join list, or in the wait list. -/
def joining : Circuit := { hearing annEntry with state := .annWait, binding := .joinList 2 }
def onWaitList (w : Word) : State :=
  let s := leavingPlayer w { joining with binding := .waitList } (Player.idleWith 0)
  { s with players := { s.players with waitList := [⟨5, 7, 1, 1⟩] } }

theorem witness_LeavingATreatment_players :
    (leavingPlayer 0x5000#16 (hearing annEntry) (player .playing [⟨5, 1, 3, true⟩] [])).headIs (5 : Circ).val 0x5000#16 = true
      ∧ (hearing annEntry).consistent = true ∧ joining.consistent = true ∧ activeClass (setOne annEntry) = some 1
      ∧ (∃ t, (leavingPlayer 0x5000#16 (hearing annEntry) (player .playing [⟨5, 1, 3, true⟩] [])).taken.releasesBinding 5 .hear
          (some 3) t)
      ∧ (∃ t, (leavingPlayer 0x5000#16 (hearing annEntry)
          (player .playing [⟨5, 1, 3, true⟩] [⟨9, 1, 2⟩])).taken.releasesBinding 5 .hear (some 3) t)
      ∧ (∃ t, (leavingPlayer 0x5000#16 joining (player .priming [] [⟨5, 1, 3⟩, ⟨9, 1, 2⟩])).taken.releasesBinding 5 .annWait none t)
      ∧ (onWaitList 0x2820#16).headIs (5 : Circ).val 0x2820#16 = true
      ∧ (∃ t, (onWaitList 0x2820#16).taken.releasesBinding 5 .annWait none t
          ∧ ∃ u, t.startsEntry 5 joining 2 ⟨.tonePrivate 2, none, none, none⟩ u)
      ∧ (leavingPlayer 0x5000#16 (hearing annEntry) (player .playing [⟨5, 1, 3, true⟩] [])).supersedes 5 0x5000#16
          (.clearAll 5 0x5000#16) (hearing annEntry) 1 (some 3) (Vector.replicate 4 none)
      ∧ activeClass (Vector.replicate 4 none : TreatmentSet) = none
      ∧ (leavingPlayer 0x2820#16 (hearing annEntry) (player .playing [⟨5, 1, 3, true⟩] [])).accepts 5 0x2820#16
          (.tonePrivate 5 0x2820#16) (.tonePrivate 2) ∧ (1 : Cls) ≤ 2 ∧ 1 ≤ State.reset.orders.gapSetting := by
  refine ⟨by decide, by decide, by decide, by decide,
    ⟨_, .inr ⟨.inl rfl, by decide, restOf (by decide), .inl ⟨2, player .playing [⟨5, 1, 3, true⟩] [], _, [], [], _, by decide,
      by decide, .inl (by decide), by decide, by decide, by decide, by decide, .inl ⟨rfl, rfl, rfl, rfl⟩, rfl⟩⟩⟩,
    ⟨_, .inr ⟨.inl rfl, by decide, restOf (by decide), .inl ⟨2, player .playing [⟨5, 1, 3, true⟩] [⟨9, 1, 2⟩], _, [],
      [⟨9, 1, 2⟩], _, by decide, by decide, .inl (by decide), by decide, by decide, by decide, by decide,
      .inr (.inl ⟨7, bargeIn, rfl, by decide, rfl, rfl, by decide, by decide, rfl, rfl⟩), rfl⟩⟩⟩,
    ⟨_, .inr ⟨.inr rfl, by decide, restOf (by decide), .inl ⟨2, player .priming [] [⟨5, 1, 3⟩, ⟨9, 1, 2⟩], _, [],
      [⟨9, 1, 2⟩], _, by decide, by decide, .inr (by decide), by decide, by decide, by decide, by decide,
      .inr (.inr ⟨.inr (by decide), rfl, rfl⟩), rfl⟩⟩⟩, by decide, ?_, .inl ⟨by decide, rfl, rfl⟩, by decide,
    .inl ⟨2, by decide, ⟨.A, by decide, by decide⟩, .inr ⟨by decide, rfl, rfl⟩⟩, by decide, by decide⟩
  refine ⟨_, .inr ⟨.inr rfl, by decide, restOf (by decide), .inr ⟨rfl, by decide, by decide, rfl⟩⟩, ?_⟩
  exact ⟨_, .A, by decide, by decide, .inl ⟨0, by decide, by decide, .inl rfl, rfl⟩⟩

/-- A dormant announcement takes the repeats its player answers (R12, R17). -/
theorem test_dormantRepeats :
    let s := leavingPlayer 0x2820#16 (hearing annEntry) (player .playing [⟨5, 1, 3, true⟩] [])
    ((s.exchange.orderTone 5 0x2820#16 Treatment.tonePrivate).circuit 5).set[(1 : Cls)]
      = some { annEntry with treat := .announce 7 3 } := by decide

/-! Gaps, waits and notices -/

def waiting : Circuit :=
  { Circuit.initial with set := setOne annEntry, state := .annWait, binding := .waitList, tag := 1, waited := 99 }

/-- Every boundary due; circuit 5 in GAP, circuit 6 in ANN_WAIT one unit short of the limit, player 1 in GAP. -/
def boundaries : State :=
  let s := withPlayer 1 { player .gap [⟨5, 1, 0, true⟩] [] with gapLeft := 3 }
    (withView bargeIn (withCircuit 6 waiting (withCircuit 5 { inGap with gapLeft := 1 } State.reset)))
  { s with highway := { Highway.initial with cadenceDue := 1, waitOrdersDue := 1, waitPlayersDue := 1 } }

theorem witness_BoundariesCountGapsAndWaits :
    boundaries.running = true ∧ boundaries.highway.sampleDue = false ∧ 0 < boundaries.highway.cadenceDue
      ∧ 0 < boundaries.highway.waitOrdersDue ∧ 0 < boundaries.highway.waitPlayersDue ∧ boundaries.players.waitList = []
      ∧ boundaries.playersRest [] := by
  refine ⟨by decide, by decide, by decide, by decide, by decide, by decide, restOf (by decide)⟩

/-- Circuit 5 in GAP with the one entry `x`, plan 2 VALID in live bank A. -/
def gapWith (x : Entry) (s : State) : State := withPlan 4 (withCircuit 5 { inGap with set := setOne x } s)
def gapC (x : Entry) : Circuit := { inGap with set := setOne x }
def congEntry : Entry := ⟨.congestion 6, none, none, none⟩
/-- Every channel taken, channel 15 SHARED on plan 2. -/
def joinAt15 (s : State) : State := withChan 15 (run false [⟨9, 1, false⟩]) (allTaken s)
/-- Route 6 at level 2, load grade 1, the table entry `r` for grade 2. -/
def congested (r : TableEntry) (s : State) : State :=
  { s with cong := { s.cong with levels := s.cong.levels.set 6 2, grade := 1, table := s.cong.table.set 2 r } }

theorem witness_GapEndStartsTheEntry :
    (gapWith toneEntry State.reset).running = true
      ∧ (gapWith toneEntry State.reset).orders.circuits[(5 : Circ)] = gapC toneEntry ∧ (gapC toneEntry).consistent = true
      ∧ (gapC toneEntry).state = .gap ∧ (gapC toneEntry).gapLeft = 0 ∧ activeClass (gapC toneEntry).set = some 1
      ∧ (gapC toneEntry).set[(1 : Cls)] = some toneEntry
      ∧ (∃ t, (gapWith toneEntry State.reset).startsEntry 5 (gapC toneEntry) 1 toneEntry t)
      ∧ (∃ t, (gapWith toneEntry (joinAt15 State.reset)).startsEntry 5 (gapC toneEntry) 1 toneEntry t)
      ∧ (∃ t, (gapWith toneEntry (allTaken State.reset)).startsEntry 5 (gapC toneEntry) 1 toneEntry t)
      ∧ (gapC congEntry).consistent = true
      ∧ (∃ t, (congested ⟨some 7, some 2, 3⟩ (gapWith congEntry State.reset)).startsEntry 5 (gapC congEntry) 1 congEntry t)
      ∧ (∃ t, (congested ⟨some 7, some 2, 3⟩ (gapWith congEntry (withView bargeIn State.reset))).startsEntry 5 (gapC congEntry) 1
          congEntry t) := by
  refine ⟨by decide, by decide, by decide, by decide, by decide, by decide, by decide,
    startsFree .A 0 (by decide) (by decide) (by decide) (by decide) (.inr (by decide)),
    startsJoin .A 15 (run false [⟨9, 1, false⟩]) (by decide) (by decide) (by decide) (by decide) (by decide) (by decide),
    startsWait .A (by decide) (by decide) (by decide) (by decide), by decide, ?_, ?_⟩
  · exact ⟨_, _, _, rfl, rfl, .inr ⟨2, by decide, by decide, .A, by decide, by decide,
      .inl ⟨0, by decide, by decide, .inr (by decide), rfl⟩⟩⟩
  · exact ⟨_, _, _, rfl, rfl, .inl ⟨7, by decide, by decide, by decide, restOf (by decide),
      .inr (.inr ⟨0, bargeIn, Player.idleWith 0, by decide, by decide, by decide, by decide, by decide, by decide, rfl⟩)⟩⟩

/-- Circuit 5 in GAP with an announcement of recording 7, all players but player 3 busy with recording 9. -/
def gapAnn (s : State) : State := withPlayer 0 busy (withPlayer 1 busy (withPlayer 2 busy (gapWith annEntry (withView bargeIn s))))

theorem witness_GapEndStartsTheEntry_announcement :
    (gapC annEntry).consistent = true ∧ (gapC annEntry).set[(1 : Cls)] = some annEntry
      ∧ (∃ t, (gapAnn State.reset).startsEntry 5 (gapC annEntry) 1 annEntry t)
      ∧ (∃ t, (withPlayer 3 busy (gapAnn State.reset)).startsEntry 5 (gapC annEntry) 1 annEntry t)
      ∧ (∃ t, (withPlayer 3 (player .playing [] [⟨1, 1, 0⟩]) (gapAnn State.reset)).startsEntry 5 (gapC annEntry) 1 annEntry t)
      ∧ (∃ t, (withPlayer 3 (player .priming [] [⟨1, 1, 0⟩]) (gapAnn State.reset)).startsEntry 5 (gapC annEntry) 1 annEntry t) := by
  refine ⟨by decide, by decide, ?_, ?_, ?_, ?_⟩
  · exact ⟨_, by decide, by decide, restOf (by decide), .inr (.inr ⟨3, bargeIn, Player.idleWith 0, by decide, by decide,
      by decide, by decide, by decide, by decide, rfl⟩)⟩
  · exact ⟨_, by decide, by decide, restOf (by decide), .inl ⟨.inr (by decide), rfl⟩⟩
  · exact ⟨_, by decide, by decide, restOf (by decide), .inr (.inl ⟨3, bargeIn, player .playing [] [⟨1, 1, 0⟩], by decide,
      by decide, by decide, by decide, by decide, by decide, .inl ⟨by decide, by decide, by decide, rfl⟩⟩)⟩
  · exact ⟨_, by decide, by decide, restOf (by decide), .inr (.inl ⟨3, bargeIn, player .priming [] [⟨1, 1, 0⟩], by decide,
      by decide, by decide, by decide, by decide, by decide, .inr ⟨.inl (by decide), rfl⟩⟩)⟩

/-- The scan over and recording 6 not in the view. -/
def unheard (x : Entry) : State := gapWith x (withView bargeIn State.reset)

theorem witness_GapEndStartsTheEntry_fails :
    (∀ d : Cls, d ≠ 1 → (gapC ⟨.toneShared 3, none, none, none⟩).set[d] = none)
      ∧ ¬ (gapWith ⟨.toneShared 3, none, none, none⟩ State.reset).planUsable 3
      ∧ (unheard ⟨.announce 6 1, none, some 2, none⟩).players.scanning = false
      ∧ (unheard ⟨.announce 6 1, none, some 2, none⟩).players.view[(6 : RecNo)] = none
      ∧ (unheard ⟨.announce 6 1, none, some 2, none⟩).orders.expiryReqs = []
      ∧ (unheard ⟨.announce 6 1, none, some 2, none⟩).players.waitList = []
      ∧ (unheard ⟨.announce 6 1, none, some 2, none⟩).playersRest []
      ∧ (∃ t, ((unheard ⟨.announce 6 1, none, some 2, none⟩).submit .orderUnit .annUnavailable (5 : Circ).val
          (0x100 * (1 : Cls).val + (6 : RecNo).val)).startsTone 5 (gapC toneEntry) false 2 t)
      ∧ (congested ⟨some 7, none, 3⟩ (gapWith congEntry State.reset)).servedRecording 6 = none
      ∧ (congested ⟨some 7, none, 3⟩ (gapWith congEntry State.reset)).cong.table[
          (congested ⟨some 7, none, 3⟩ (gapWith congEntry State.reset)).gradeFor 6].plan = none := by
  refine ⟨by decide, ?_, by decide, by decide, by decide, by decide, restOf (by decide),
    startsFree .A 0 (by decide) (by decide) (by decide) (by decide) (.inr (by decide)), by decide, by decide⟩
  rintro ⟨b, hb, hv⟩
  cases hb
  exact absurd hv (by decide)

/-- Two expiry requests in flight, the first of circuit 6. -/
def expiring (s : State) : State := { s with orders := { s.orders with expiryReqs := [⟨6, 1⟩, ⟨8, 2⟩] } }
/-- Circuit 6 waits for recording 7 in the wait list. -/
def listed (s : State) : State := { s with players := { s.players with waitList := [⟨6, 7, 2, 1⟩] } }

theorem witness_ExpiryRequestsAreAnswered :
    (withCircuit 6 { waiting with limit := .reached } State.reset).orders.circuits[(6 : Circ)].limit = .reached
      ∧ (expiring State.reset).orders.expiryReqs = ⟨6, 1⟩ :: [⟨8, 2⟩]
      ∧ (expiring (withPlayer 2 (player .playing [⟨6, 1, 0, true⟩] []) (withView bargeIn State.reset))).playersRest []
      ∧ (∃ l ∈ (player .playing [⟨6, 1, 0, true⟩] []).listeners, l.circ = 6)
      ∧ (expiring (withPlayer 2 (player .playing [⟨9, 1, 0, true⟩] [⟨6, 1, 2⟩]) (withView bargeIn State.reset))).playersRest []
      ∧ (∃ j ∈ (player .playing [⟨9, 1, 0, true⟩] [⟨6, 1, 2⟩]).joins, j.circ = 6)
      ∧ (player .playing [⟨9, 1, 0, true⟩] [⟨6, 1, 2⟩]).listeners ≠ []
      ∧ (expiring (listed State.reset)).playersRest [] ∧ (expiring (listed State.reset)).players.waitList = [⟨6, 7, 2, 1⟩]
      ∧ (expiring State.reset).players.waitList = [] := by
  refine ⟨by decide, by decide, restOf (by decide), by decide, restOf (by decide), by decide, by decide, restOf (by decide),
    by decide, by decide⟩

/-- The channel pool's and the player pool's oldest notices, both for circuit 6. -/
def noticed (c : Circuit) (m : ChannelMessage) (n : PlayerMessage) : State :=
  let s := withCircuit 6 c State.reset
  { s with
    chans := { s.chans with notices := [⟨6, 1, m⟩] }
    players := { s.players with notices := [⟨6, 1, n⟩] } }

theorem witness_ServedAndStaleNotices :
    (noticed inQueue (.served 15 .degraded) (.moved 3)).running = true
      ∧ (noticed inQueue (.served 15 .degraded) (.moved 3)).orders.circuits[(6 : Circ)] = inQueue
      ∧ (noticed inQueue (.served 15 .degraded) (.moved 3)).chans.notices = ⟨6, 1, .served 15 .degraded⟩ :: []
      ∧ inQueue.tag = 1 ∧ inQueue.state = .channelWait
      ∧ (noticed waiting .done (.moved 3)).players.notices = ⟨6, 1, .moved 3⟩ :: []
      ∧ waiting.tag = 1 ∧ waiting.state = .annWait ∧ waiting.binding = .waitList
      ∧ ({ waiting with tag := 255 } : Circuit).tag ≠ 1 := by decide

theorem witness_NoticesThatEndAnEntry :
    (noticed (onTone 3 (setTwo toneEntry toneEntry)) .done .exhausted).chans.notices = ⟨6, 1, .done⟩ :: []
      ∧ (onTone 3 (setTwo toneEntry toneEntry)).consistent = true
      ∧ activeClass (setTwo toneEntry toneEntry) = some 1 ∧ (setTwo toneEntry toneEntry)[(1 : Cls)] = some toneEntry
      ∧ (onTone 3 (setTwo toneEntry toneEntry)).state = .tone ∧ (onTone 3 (setTwo toneEntry toneEntry)).tag = 1
      ∧ activeClass ((setTwo toneEntry toneEntry).set (1 : Cls) none) ≠ none
      ∧ 1 ≤ (noticed (onTone 3 (setTwo toneEntry toneEntry)) .done .exhausted).orders.gapSetting
      ∧ (noticed inQueue .withdrawn .exhausted).chans.notices = ⟨6, 1, .withdrawn⟩ :: [] ∧ inQueue.consistent = true
      ∧ activeClass ((setOne toneEntry).set (1 : Cls) none) = none
      ∧ (noticed (hearing annEntry) .done .exhausted).players.notices = ⟨6, 1, .exhausted⟩ :: []
      ∧ (hearing annEntry).consistent = true ∧ (hearing annEntry).state = .hear
      ∧ (noticed (hearing annEntry) .done .unavailable).players.notices = ⟨6, 1, .unavailable⟩ :: []
      ∧ (noticed waiting .done .expired).players.notices = ⟨6, 1, .expired⟩ :: [] ∧ waiting.consistent = true := by decide

/-- The same with plan 2 VALID in bank A. -/
def noticedPlan (c : Circuit) (m : ChannelMessage) (n : PlayerMessage) : State := withPlan 1 (noticed c m n)

theorem witness_NoticesThatEndAnEntry_atOnce :
    ({ inQueue with set := setTwo toneEntry toneEntry } : Circuit).consistent = true ∧ inQueue.state = .channelWait
      ∧ activeClass ((setTwo toneEntry toneEntry).set (1 : Cls) none) = some 0
      ∧ ((setTwo toneEntry toneEntry).set (1 : Cls) none)[(0 : Cls)] = some toneEntry
      ∧ toneEntry.treat = .toneShared 2 ∧ waiting.state = .annWait
      ∧ (noticedPlan waiting .done .expired).plans.live = some .A
      ∧ ((noticedPlan waiting .done .expired).plans.plan .A 2).status = .valid
      ∧ (∀ j, (noticedPlan waiting .done .expired).joinable 2 j = false)
      ∧ (noticedPlan waiting .done .expired).chans.chans[(0 : ChanNo)] = none
      ∧ (∀ k : ChanNo, (allTaken (noticedPlan waiting .done .expired)).chans.chans[k] ≠ none)
      ∧ (∀ j, (allTaken (noticedPlan waiting .done .expired)).joinable 2 j = false)
      ∧ (allTaken (noticedPlan waiting .done .expired)).planUsable 2 ∧ ¬ (noticed waiting .done .expired).planUsable 2
      ∧ activeClass (((setTwo toneEntry toneEntry).set (1 : Cls) none).set (0 : Cls) none) = none := by
  refine ⟨by decide, by decide, by decide, by decide, by decide, by decide, by decide, by decide, by decide, by decide,
    by decide, by decide, ⟨.A, by decide, by decide⟩, ?_, by decide⟩
  rintro ⟨b, hb, -⟩
  cases hb

/-! Plans and channels -/

theorem witness_PlanWordIntoAnIdleBank :
    0x100 ≤ (0x2FB#12).toNat ∧ (0x2FB#12).toNat < 0x300 ∧ (wordAt 0x2FB 0x2A07#16 State.reset).headIs (0x2FB#12).toNat 0x2A07#16 = true
      ∧ (Bank.B = .A ↔ (0x2FB#12).toNat < 0x200) ∧ (15 : PlanNo).val = (0x2FB#12).toNat / 16 % 16
      ∧ 11 = (0x2FB#12).toNat % 16 ∧ (State.reset.plans.bank .B).state = .idle
      ∧ 12 ≤ (0x10C#12).toNat % 16 ∧ (wordAt 0x10C 0#16 State.reset).headIs (0x10C#12).toNat 0#16 = true
      ∧ ((withPlan 0 State.reset).plans.bank .A).state ≠ .idle := by decide

/-- Bank B IDLE with unvalidated plans: one to be clamped, one not usable, one without its valid flag. -/
def incoming (n : Nat) : State :=
  let s := withPlan n (wordAt 0x30E 1#16 State.reset)
  let p := { plan 0 .silence with status := .unvalidated }
  { s with plans := { s.plans with bankB := { BankRecord.initial with
      plans := ((BankRecord.initial.plans.set 1 { p with f1 := 7001 }).set 4 { p with f1 := 0 }).set 15 { p with validFlag := false } } } }

theorem witness_LiveBankWordSwitchesBanks :
    (incoming 0).headIs 0x30E 1#16 = true ∧ Bank.B = (if (1#16).getLsbD 0 then .B else .A)
      ∧ ((incoming 0).plans.bank .B).state = .idle ∧ (incoming 0).plans.live ≠ some .B
      ∧ ((incoming 3).plans.bank .A).refs ≠ 0 ∧ ((incoming 0).plans.bank .A).refs = 0
      ∧ (withPlan 0 (wordAt 0x30E 0#16 State.reset)).headIs 0x30E 0#16 = true
      ∧ ((withPlan 0 State.reset).plans.bank .A).state = .live := by decide

/-- The reports of that switch, plan by plan. -/
def incomingReports : List (List Report) :=
  [[], [⟨.planClamped, 1, 0x101⟩], [], [], [⟨.planInvalid, 4, 1⟩]] ++ List.replicate 11 []

theorem witness_LiveBankWord_reports :
    incomingReports.length = 16
      ∧ ((incoming 0).plans.bank .B).plans[(1 : PlanNo)].passes = true
      ∧ ((incoming 0).plans.bank .B).plans[(1 : PlanNo)].clampFlags = 1
      ∧ ((incoming 0).plans.bank .B).plans[(4 : PlanNo)].passes = false
      ∧ (∀ p : PlanNo, p ≠ 1 → p ≠ 4 → incomingReports[p.val]? = some []
        ∧ (((incoming 0).plans.bank .B).plans[p].status ≠ .unvalidated
          ∨ ((incoming 0).plans.bank .B).plans[p].validFlag = false)) := by decide

/-- Channel 3 running `r`, plan 2 of bank A having `n` repeats and the final action `f`. -/
def cycling (r : Run) (n : BitVec 8) (f : FinalAction) : State :=
  let s := withChan 3 r (withPlan 1 State.reset)
  { s with
    highway := { s.highway with channelsDue := true }
    plans := { s.plans with
      bankA := { s.plans.bankA with plans := s.plans.bankA.plans.set 2 (plan n f) }
      drainNotices := [.A, .B] } }

def due (d : CadenceDue) (i : Fin 6) : Run := { run true [⟨5, 1, true⟩] with due := d, segIndex := i, cycles := 2 }

theorem witness_CadenceRunsByFramesUnitsAndSegments :
    (cycling (due .none 0) 3 .silence).running = true ∧ (cycling (due .none 0) 3 .silence).highway.channelsDue = true
      ∧ (cycling (due .none 0) 3 .silence).highway.sampleDue = false
      ∧ (cycling (due .unitEnd 0) 3 .silence).chans.chans[(3 : ChanNo)] = some (due .unitEnd 0)
      ∧ (due .segmentEnd 0).due = .segmentEnd ∧ (1 : Fin 6).val = (due .segmentEnd 0).segIndex.val + 1
      ∧ (1 : Fin 6).val < (plan 3 .silence).segCount.toNat ∧ (plan 3 .silence).segCount.toNat ≤ (due .segmentEnd 1).segIndex.val + 1
      ∧ (cycling (due .none 0) 3 .silence).plans.drainNotices = .A :: [.B] := by decide

/-- A channel counts a frame start that it has been computed for, and a channel allocated since does not (R53). -/
theorem test_countsTheFramesComputed :
    ((run false []).compute (plan 0 .silence)).takeFrame.unitFrames = 1 ∧ (run false []).takeFrame.unitFrames = 0 := by decide

theorem witness_CycleEndRepeatsOrTakesTheFinalAction :
    (cycling (due .cycleEnd 1) 0 .silence).chans.chans[(3 : ChanNo)] = some (due .cycleEnd 1)
      ∧ (due .cycleEnd 1).movePending = false ∧ (due .cycleEnd 1).isPrivate = true
      ∧ ((cycling (due .cycleEnd 1) 0 .silence).plans.plan .A 2).repeats = 0
      ∧ (due .cycleEnd 1).cycles + 1 < (plan 4 .silence).repeats.toNat
      ∧ (plan 3 .silence).repeats ≠ 0 ∧ (plan 3 .silence).repeats.toNat ≤ (due .cycleEnd 1).cycles + 1
      ∧ (plan 3 .holdLast).final = .holdLast ∧ (plan 3 .chain).final = .chain
      ∧ (plan 3 .chain).chainPlan.toNat = (2 : PlanNo).val
      ∧ ((cycling (due .cycleEnd 1) 3 .chain).plans.plan .A 2).status = .valid
      ∧ (∀ q : PlanNo, (18#5 : BitVec 5).toNat = q.val → ((cycling (due .cycleEnd 1) 3 .chain).plans.plan .A q).status ≠ .valid)
      ∧ (∀ q : PlanNo, (9#5 : BitVec 5).toNat = q.val → ((cycling (due .cycleEnd 1) 3 .chain).plans.plan .A q).status ≠ .valid)
      ∧ (cycling (due .cycleEnd 1) 3 .silence).chans.queue = []
      ∧ ((cycling (due .cycleEnd 1) 3 .silence).plans.bank .A).state = .live := by decide

/-- A run with a move pending, in segment 4, bank A DRAINING with `n` references, bank B LIVE with plan 2 of status `p`: three
cycles of two segments, then HOLD_LAST. -/
def moving (priv : Bool) (n : Nat) (p : PlanStatus) : State :=
  let s := withChan 3 { run priv [⟨5, 1, priv⟩] with due := .cycleEnd, movePending := true, segIndex := 4, cycles := 2 } State.reset
  { s with plans := { s.plans with
      live := some .B
      bankA := { BankRecord.initial with state := .draining, refs := n }
      bankB := { BankRecord.initial with
        state := .live, plans := BankRecord.initial.plans.set 2 { plan 3 .holdLast with status := p } } } }

theorem witness_CycleEndMovesToTheLiveBank :
    (moving true 1 .valid).chans.chans[(3 : ChanNo)]
        = some { run true [⟨5, 1, true⟩] with due := .cycleEnd, movePending := true, segIndex := 4, cycles := 2 }
      ∧ (moving false 2 .invalid).chans.queue = [] ∧ ((moving true 1 .valid).plans.bank .A).state = .draining
      ∧ (moving true 1 .valid).plans.live = some .B ∧ Bank.B ≠ .A ∧ ((moving true 1 .valid).plans.plan .B 2).status = .valid
      ∧ ((moving true 1 .valid).plans.plan .B 2).repeats ≠ 0 ∧ ((moving true 1 .valid).plans.plan .B 2).repeats.toNat ≤ 2 + 1
      ∧ ((moving true 1 .valid).plans.plan .B 2).final = .holdLast
      ∧ (1 : Fin 6).val + 1 = ((moving true 1 .valid).plans.plan .B 2).segCount.toNat
      ∧ ((moving false 2 .invalid).plans.plan .B 2).status ≠ .valid := by decide

/-- A SHARED channel that has moved takes the shared waiters on its plan and leaves the others (R57). -/
theorem test_movedChannelTakesWaiters :
    let s := moving false 2 .valid
    let q := { s.chans with queue := [⟨8, true, 2, 1⟩, ⟨4, false, 2, 3⟩, ⟨3, false, 5, 1⟩] }
    let e := ({ s with chans := q } : State).exchange.cycleEnd 3
    e.chans.queue = [⟨8, true, 2, 1⟩, ⟨3, false, 5, 1⟩] ∧ e.chans.notices = [⟨4, 3, .served 3 .joined⟩]
      ∧ (e.chan 3).map Run.listeners = some [⟨4, 3, false⟩, ⟨5, 1, false⟩] := by decide

/-- HOLD_LAST right after a move holds the last used segment of the new plan, 1, not the old plan's 4 (R56, R60, log 35). -/
theorem test_holdLastAfterAMove :
    (((moving true 1 .valid).exchange.cycleEnd 3).chans.chans[(3 : ChanNo)]).map Run.segIndex = some 1 := by decide

/-- The cycle end of a PRIVATE channel that will be freed, four circuits waiting. -/
def serving : State :=
  let s := cycling (due .cycleEnd 1) 3 .silence
  { s with chans := { s.chans with
      queue := [⟨1, true, 5, 1⟩] ++ ⟨2, false, 2, 2⟩ :: [⟨3, true, 2, 3⟩, ⟨4, false, 2, 4⟩] } }

/-- The same with bank A DRAINING with `n` references and bank B LIVE. -/
def servingB (n : Nat) : State :=
  { serving with plans := { serving.plans with
      live := some .B, bankA := { serving.plans.bankA with state := .draining, refs := n }
      bankB := { serving.plans.bankA with state := .live } } }

/-- The listeners `l` are sent `m`. -/
def sent (l : List ToneListener) (m : ChannelMessage) (u : State) : State :=
  { u with chans := { u.chans with notices := u.chans.notices ++ l.map fun x => ⟨x.circ, x.tag, m⟩ } }

/-- A chain to plan 9, which is not valid. -/
def chaining : State :=
  { serving with plans := { serving.plans with
      bankA := { serving.plans.bankA with plans := serving.plans.bankA.plans.set 2 { plan 3 .chain with chainPlan := 9 } } } }

/-- Circuits 1 and 2 wait for plans 5 and 6, which are not valid. -/
def hopeless (s : State) : State := { s with chans := { s.chans with queue := [⟨1, true, 5, 1⟩, ⟨2, false, 6, 2⟩] } }

/-- Channel 3 being FREE, the queue of `serving` is served with it, `b` being the live bank. -/
theorem servesTheQueue {s : State} (b : Bank) (hb : s.plans.live = some b) (hq : s.chans.queue = serving.chans.queue)
    (h5 : (s.plans.plan b 5).status ≠ .valid) (h2 : (s.plans.plan b 2).status = .valid) : ∃ t, s.servesWaiters 3 t :=
  ⟨_, .inr ⟨b, [⟨1, true, 5, 1⟩], [⟨3, true, 2, 3⟩, ⟨4, false, 2, 4⟩], _, ⟨2, false, 2, 2⟩, hb, hq, by simpa using h5, h2, rfl,
    rfl⟩⟩

/-- A channel whose reference is given up in `u` and whose queue `u` serves has been freed. -/
theorem freedServing {s u : State} {k : ChanNo} {r : Run}
    (hg : State.givesUp { s with chans := { s.chans with chans := s.chans.chans.set k none } } r.bank u)
    (hq : ∃ t, u.servesWaiters k t) : ∃ t, s.freesChannel k r t := hq.elim fun t h => ⟨t, u, hg, h⟩

theorem witness_FreedChannelServesTheQueue :
    serving.running = true ∧ serving.chans.chans[(3 : ChanNo)] = some (due .cycleEnd 1)
      ∧ (serving.plans.plan .A 2).repeats ≠ 0 ∧ (serving.plans.plan .A 2).repeats.toNat ≤ (due .cycleEnd 1).cycles + 1
      ∧ (serving.plans.plan .A 2).final = .silence
      ∧ (∃ t, (sent [⟨5, 1, true⟩] .done serving).freesChannel 3 (due .cycleEnd 1) t)
      ∧ (∃ t, (sent [⟨5, 1, true⟩] .done (servingB 1)).freesChannel 3 (due .cycleEnd 1) t)
      ∧ (∃ t, (sent [⟨5, 1, true⟩] .done (servingB 2)).freesChannel 3 (due .cycleEnd 1) t)
      ∧ (∃ t, (sent [⟨5, 1, true⟩] .done (hopeless serving)).freesChannel 3 (due .cycleEnd 1) t)
      ∧ (chaining.plans.plan .A 2).final = .chain
      ∧ (∀ q : PlanNo, (chaining.plans.plan .A 2).chainPlan.toNat = q.val → (chaining.plans.plan .A q).status ≠ .valid)
      ∧ (∃ t, (sent [⟨5, 1, true⟩] .done (chaining.submit .channelPool .planInvalid 9 0x103)).freesChannel 3 (due .cycleEnd 1) t) := by
  refine ⟨by decide, by decide, by decide, by decide, by decide, ?_, ?_, ?_, ?_, by decide, by decide, ?_⟩
  · exact freedServing (.inl ⟨.inl (by decide), rfl⟩) (servesTheQueue .A rfl rfl (by decide) (by decide))
  · exact freedServing (.inr ⟨.B, by decide, by decide, by decide, rfl⟩) (servesTheQueue .B rfl rfl (by decide) (by decide))
  · exact freedServing (.inl ⟨.inr (by decide), rfl⟩) (servesTheQueue .B rfl rfl (by decide) (by decide))
  · exact freedServing (.inl ⟨.inl (by decide), rfl⟩) ⟨_, .inl ⟨notUsable (b := .A) (by decide) (by decide), rfl⟩⟩
  · exact freedServing (.inl ⟨.inl (by decide), rfl⟩) (servesTheQueue .A rfl rfl (by decide) (by decide))

/-- A withdrawn move, and the last listener leaving by CLEAR_ALL, with circuits waiting. -/
theorem witness_FreedChannelServesTheQueue_others :
    ((hopeless (moving false 1 .invalid)).plans.bank .A).state = .draining
      ∧ (hopeless (moving false 1 .invalid)).plans.live = some .B ∧ Bank.B ≠ .A
      ∧ ((hopeless (moving false 1 .invalid)).plans.plan .B 2).status ≠ .valid
      ∧ (∃ t, (sent [⟨5, 1, false⟩] .withdrawn (hopeless (moving false 1 .invalid))).freesChannel 3 (run false [⟨5, 1, false⟩]) t)
      ∧ (hopeless (clearTone [⟨5, 1, false⟩])).headIs (5 : Circ).val 0x5000#16 = true
      ∧ (∀ x ∈ (hopeless (clearTone [⟨5, 1, false⟩])).chans.queue, x.circ ≠ 5)
      ∧ (∀ (j : ChanNo) (u : Run), j ≠ 3 → (hopeless (clearTone [⟨5, 1, false⟩])).chans.chans[j] = some u →
          ∀ l ∈ u.listeners, l.circ ≠ 5)
      ∧ ∃ t, (hopeless (clearTone [⟨5, 1, false⟩])).taken.freesChannel 3 (run false [⟨5, 1, false⟩]) t := by
  refine ⟨by decide, by decide, by decide, by decide, ?_, by decide, by decide, onlyListener (by decide), ?_⟩
  · exact freedServing (.inr ⟨.B, by decide, by decide, by decide, rfl⟩)
      ⟨_, .inl ⟨notUsable (b := .B) (by decide) (by decide), rfl⟩⟩
  · exact freedServing (.inl ⟨.inl (by decide), rfl⟩) ⟨_, .inl ⟨notUsable (b := .A) (by decide) (by decide), rfl⟩⟩

/-! Announcement players -/

/-- A frame start, player 2 having record `q`. -/
def frame (q : Player) (v : ViewRecord) : State :=
  let s := withPlayer 2 q (withView v State.reset)
  { s with highway := { Highway.initial with playersDue := true } }

/-- Player 2 playing with `n` codes in its FIFO and the next code to fetch at 600. -/
def sounding (n : Nat) : Player := { player .playing [⟨5, 1, 0, true⟩] [] with fifo := List.replicate n 7#8, fetch := 600, pos := 10 }

theorem witness_PlayersHandOverOneCode :
    (frame (sounding 2) bargeIn).running = true ∧ (frame (sounding 2) bargeIn).highway.playersDue = true
      ∧ (frame (sounding 2) bargeIn).players.waitList = [] ∧ (sounding 2).state = .playing
      ∧ (sounding 2).recording = some 7 ∧ (frame (sounding 2) bargeIn).players.view[(7 : RecNo)] = some bargeIn
      ∧ (frame (sounding 2) bargeIn).playersRest [2]
      ∧ (∀ m : PlayNo, m ≠ 2 → (frame (sounding 2) bargeIn).players.players[m].state ≠ .playing)
      ∧ (sounding 2).fifo = 7#8 :: [7#8] ∧ (sounding 2).fetch ≠ bargeIn.length ∧ (sounding 2).refillOut = true
      ∧ ({ sounding 513 with refillOut := false } : Player).fifo = 7#8 :: List.replicate 512 7#8
      ∧ (List.replicate 512 7#8).length ≤ 512 ∧ (sounding 513).fetch < bargeIn.length
      ∧ (sounding 0).fifo = [] := by
  refine ⟨by decide, by decide, by decide, by decide, by decide, by decide, restOf (by decide), by decide, rfl, by decide,
    by decide, rfl, List.length_replicate.le, by decide, rfl⟩

/-- Player 2 at the end of a cycle of recording 7, with the listeners and joins given. -/
def ending (l : List AnnListener) (j : List JoinEntry) : Player :=
  { player .playing l j with pos := 2000, fetch := 2000, refillOut := false, handed := some 3#8 }
def noGap : ViewRecord := ⟨2000, true, 0⟩
/-- The same without a gap, the FIFO refilled from the start of the recording. -/
def wrapping : Player := { ending [⟨5, 1, 0, true⟩] [] with wrapped := true, fetch := 1024, fifo := List.replicate 1024 7#8 }

theorem witness_AnnouncementCycleEnds :
    (withPlayer 2 (ending [⟨5, 1, 1, true⟩] []) (withView bargeIn State.reset)).running = true
      ∧ State.reset.highway.sampleDue = false ∧ (ending [⟨5, 1, 1, true⟩] []).state = .playing
      ∧ (ending [⟨5, 1, 1, true⟩] []).pos = bargeIn.length
      ∧ (withPlayer 2 (ending [⟨5, 1, 1, true⟩] []) (withView bargeIn State.reset)).playersRest [2]
      ∧ (ending [⟨5, 1, 1, true⟩] []).joins = []
      ∧ (ending [⟨5, 1, 2, true⟩] [⟨9, 1, 0⟩]).joins ≠ [] ∧ 1 ≤ bargeIn.gap
      ∧ (ending [⟨5, 1, 2, true⟩] [⟨9, 1, 0⟩]).wrapped = false
      ∧ (ending [⟨5, 1, 2, true⟩] [⟨9, 1, 0⟩]).refillOut = false ∧ 0 < bargeIn.length
      ∧ (ending [⟨5, 1, 2, true⟩] [⟨9, 1, 0⟩]).pos = noGap.length ∧ 0 ≠ min 1024 noGap.length
      ∧ ({ wrapping with fifo := List.replicate 600 7#8 } : Player).fifo.length ≠ min 1024 noGap.length
      ∧ 512 < ({ wrapping with fifo := List.replicate 600 7#8 } : Player).fifo.length
      ∧ noGap.gap = 0 ∧ wrapping.wrapped = true ∧ wrapping.fifo.length = 1024 ∧ 1024 ≤ noGap.length
      ∧ wrapping.fetch < noGap.length ∧ wrapping.pos = noGap.length := by
  refine ⟨by decide, by decide, by decide, by decide, restOf (by decide), by decide, by decide, by decide, by decide,
    by decide, by decide, by decide, by decide, List.length_replicate.trans_ne (by decide), List.length_replicate.symm ▸ by decide,
    by decide, by decide, List.length_replicate, by decide, by decide, by decide⟩

/-- With no gap and the next cycle's codes not all there, the player is PRIMING and asks for them (R110). -/
theorem test_primesForTheNextCycle :
    let e := (withPlayer 2 (ending [⟨5, 1, 2, true⟩] []) (withView noGap State.reset)).exchange.annCycleEnd 2
    (e.player 2).state = .priming ∧ e.players.refillReqs = [⟨2, 7, 0, 512, 5⟩] := by decide

/-- Player 2 in GAP with its gap over, `n` codes fetched; and the same player PRIMING. -/
def gapOver (n : Nat) : Player := { player .gap [⟨5, 1, 1, true⟩] [⟨13, 1, 2⟩] with fetch := n, fifo := List.replicate n 7#8 }
def priming (n : Nat) : Player := { gapOver n with state := .priming }
/-- A delivery of `n` codes to player 2 arrives. -/
def delivered (q : Player) (g : Tag) (n : Nat) : State :=
  let s := withPlayer 2 q (withView bargeIn State.reset)
  { s with store := { s.store with deliveries := [⟨2, g, List.replicate n 9#8⟩] } }

theorem witness_GapEndsAndRefillsArrive :
    (delivered (gapOver 1024) 5 0).running = true ∧ (delivered (gapOver 1024) 5 0).playersRest [2]
      ∧ (gapOver 1024).state = .gap ∧ (gapOver 1024).gapLeft = 0 ∧ (gapOver 1024).pos = 0
      ∧ (gapOver 1024).fifo.length = min 1024 bargeIn.length ∧ bargeIn.gap ≠ 0 ∧ (gapOver 1024).refillOut = true
      ∧ (gapOver 3).fifo.length < min 1024 bargeIn.length
      ∧ (delivered (gapOver 3) 6 1).store.deliveries = ⟨2, 6, [9#8]⟩ :: [] ∧ (gapOver 3).gen ≠ 6
      ∧ (delivered (priming 0) 5 512).store.deliveries = ⟨2, 5, List.replicate 512 9#8⟩ :: []
      ∧ (priming 0).gen = 5 ∧ (priming 0).state = .priming
      ∧ ((priming 0).fifo ++ List.replicate 512 9#8).length ≤ 512
      ∧ ((priming 0).fifo ++ List.replicate 512 9#8).length < bargeIn.length
      ∧ (priming 0).fetch + (List.replicate 512 9#8).length < bargeIn.length
      ∧ ((priming 512).fifo ++ List.replicate 512 9#8).length = min 1024 bargeIn.length := by
  refine ⟨by decide, restOf (by decide), by decide, by decide, by decide, List.length_replicate.trans (by decide), by decide, by decide,
    by decide, rfl, by decide, rfl, by decide, by decide, List.length_replicate.le,
    List.length_replicate.trans_lt (by decide), by decide +kernel, ?_⟩
  rw [List.length_append, show (priming 512).fifo.length = 512 from List.length_replicate, List.length_replicate]
  decide

/-- Player 2 PLAYING recording 7 without a gap, its refill at the end of the recording arriving, with the lists given. -/
def sounded (st : PlayerState) (l : List AnnListener) (j : List JoinEntry) : State :=
  let s := withPlayer 2 { player st l j with fetch := 1997, pos := 1000 } (withView noGap State.reset)
  { s with store := { s.store with deliveries := [⟨2, 5, [9#8, 9#8, 9#8]⟩] } }

theorem witness_GapEndsAndRefillsArrive_running :
    (sounded .playing [⟨5, 1, 0, true⟩] []).running = true ∧ (sounded .playing [⟨5, 1, 0, true⟩] []).playersRest [2]
      ∧ (sounded .playing [⟨5, 1, 0, true⟩] []).players.waitList = []
      ∧ (sounded .playing [⟨5, 1, 0, true⟩] []).players.players[(2 : PlayNo)].gen = 5
      ∧ (sounded .playing [⟨5, 1, 0, true⟩] []).store.deliveries = ⟨2, 5, [9#8, 9#8, 9#8]⟩ :: []
      ∧ 1997 + [9#8, 9#8, 9#8].length = noGap.length ∧ noGap.gap = 0
      ∧ (∃ l ∈ [(⟨5, 1, 0, true⟩ : AnnListener)], l.repeats = 0 ∨ 2 ≤ l.repeats.val ∨ l.atStart = false)
      ∧ (∃ l ∈ [(⟨5, 1, 2, true⟩ : AnnListener)], l.repeats = 0 ∨ 2 ≤ l.repeats.val ∨ l.atStart = false)
      ∧ ¬ (∃ l ∈ [(⟨5, 1, 1, true⟩ : AnnListener)], l.repeats = 0 ∨ 2 ≤ l.repeats.val ∨ l.atStart = false)
      ∧ (sounded .gap [⟨5, 1, 1, true⟩] []).players.players[(2 : PlayNo)].state = .gap := by
  refine ⟨by decide, restOf (by decide), by decide, by decide, by decide, by decide, by decide, by decide, by decide,
    by decide, by decide⟩

/-- The fetch point wraps for a listener with repeats 2, and the next request starts at 0; not for one with repeats 1 (R106). -/
theorem test_fetchWraps :
    (sounded .playing [⟨5, 1, 2, true⟩] []).takeDelivery.players.refillReqs.map RefillReq.start = [0]
      ∧ (sounded .playing [⟨5, 1, 1, true⟩] []).takeDelivery.players.refillReqs = [] := by decide

/-- A notice of the store controller to the player pool, circuit 4 waiting for recording `r`. -/
def told (n : PoolNotice) (r : Option RecNo) (s : State) : State :=
  { s with
    store := { s.store with poolNotices := [n] }
    players := { s.players with waitList := (r.map fun x => (⟨4, x, 2, 3⟩ : AnnWaiter)).toList } }

theorem witness_RecordingViewAndFanout :
    ({ State.reset with bus := { State.reset.bus with fanoutChanges := [⟨3, true⟩, ⟨4, false⟩] } } : State).bus.fanoutChanges
        = ⟨3, true⟩ :: [⟨4, false⟩]
      ∧ State.reset.running = true ∧ State.reset.players.waitList = [] ∧ State.reset.playersRest []
      ∧ (told (.madeAvailable 9 noGap) none State.reset).store.poolNotices = .madeAvailable 9 noGap :: []
      ∧ (told (.madeAvailable 9 noGap) none State.reset).playersRest []
      ∧ (∀ m : PlayNo, (told (.madeAvailable 9 noGap) none State.reset).players.players[m].recording ≠ some 9)
      ∧ (∀ m : PlayNo, (told (.scanDone (Vector.replicate 32 none)) (some 7) State.reset).players.players[m].recording = none
          ∧ (told (.scanDone (Vector.replicate 32 none)) (some 7) State.reset).players.players[m].state = .idle)
      ∧ (∀ x ∈ (told (.scanDone (Vector.replicate 32 none)) (some 7) State.reset).players.waitList,
          (Vector.replicate 32 none : Vector (Option ViewRecord) 32)[x.recording] = none)
      ∧ State.reset.players.scanning = true ∧ (withView bargeIn State.reset).bus.fanoutChanges = []
      ∧ (ending [⟨5, 1, 1, true⟩] []).recording = some 7
      ∧ (told (.withdrawal 7) (some 7) (withPlayer 2 (ending [⟨5, 1, 1, true⟩] []) (withView bargeIn State.reset))).playersRest [2]
      ∧ (∀ m : PlayNo, m ≠ 2 → (told (.withdrawal 7) (some 7)
          (withPlayer 2 (ending [⟨5, 1, 1, true⟩] []) (withView bargeIn State.reset))).players.players[m].recording ≠ some 7)
      ∧ (∀ x ∈ (told (.withdrawal 7) (some 7)
          (withPlayer 2 (ending [⟨5, 1, 1, true⟩] []) (withView bargeIn State.reset))).players.waitList, x.recording = 7) := by
  refine ⟨by decide, by decide, by decide, restOf (by decide), by decide, restOf (by decide), by decide, by decide,
    by decide, by decide, by decide, by decide, restOf (by decide), by decide, by decide⟩

/-- Circuits 4 and 6 wait for recording 7 and circuit 5 for recording 9, in that order: 4, 5, 6. -/
def threeWait (s : State) : State := { s with players := { s.players with waitList := [⟨4, 7, 2, 3⟩, ⟨5, 9, 1, 1⟩, ⟨6, 7, 0, 1⟩] } }
/-- Every player busy with recording 3, but player 2, which plays recording 7; the fan-out limit `n` on its way. -/
def raising (n : Nat) : State :=
  let other := { busy with recording := some 3 }
  let s := threeWait (withPlayer 0 other (withPlayer 1 other (withPlayer 3 other
    (withPlayer 2 (player .playing [⟨8, 1, 0, true⟩] []) (withView bargeIn State.reset)))))
  { s with bus := { s.bus with fanoutChanges := [⟨n, true⟩] } }
/-- Players 0 and 1 busy with recording 3, player 2 IDLE; recording 7 becomes available. -/
def offering : State :=
  let s := threeWait (withPlayer 0 { busy with recording := some 3 } (withPlayer 1 { busy with recording := some 3 } State.reset))
  { s with
    store := { s.store with poolNotices := [.madeAvailable 7 bargeIn] }
    players := { s.players with scanning := false } }
/-- The end of the scan, circuits waiting. -/
def scanned : State :=
  let s := threeWait State.reset
  { s with store := { s.store with poolNotices := [.scanDone ((Vector.replicate 32 none).set 7 (some bargeIn))] } }

theorem witness_RecordingViewAndFanout_waiters :
    (raising 3).running = true ∧ (raising 3).players.scanning = false
      ∧ (raising 3).players.waitList = [⟨4, 7, 2, 3⟩, ⟨5, 9, 1, 1⟩, ⟨6, 7, 0, 1⟩] ++ []
      ∧ ([⟨4, 7, 2, 3⟩, ⟨5, 9, 1, 1⟩, ⟨6, 7, 0, 1⟩] : List AnnWaiter).filter (fun x => x.recording == 7) ≠ []
      ∧ (raising 3).playersRest [] ∧ (raising 3).bus.fanoutChanges = ⟨3, true⟩ :: []
      ∧ (player .playing [⟨8, 1, 0, true⟩] []).recording = some 7 ∧ 2 + (player .playing [⟨8, 1, 0, true⟩] []).fanCount = 3
      ∧ (∀ j : PlayNo, (raising 3).players.players[j].state ≠ .idle
          ∧ (j ≠ 2 → ∀ x ∈ (raising 3).players.waitList, (raising 3).players.players[j].recording ≠ some x.recording))
      ∧ (raising 2).players.waitList = [⟨4, 7, 2, 3⟩, ⟨5, 9, 1, 1⟩] ++ [⟨6, 7, 0, 1⟩]
      ∧ 1 + (player .playing [⟨8, 1, 0, true⟩] []).fanCount = 2
      ∧ offering.store.poolNotices = .madeAvailable 7 bargeIn :: [] ∧ 0 < bargeIn.length ∧ offering.playersRest []
      ∧ offering.players.players[(2 : PlayNo)] = { Player.idleWith 0 with handed := none }
      ∧ (∀ j : PlayNo, j < 2 → offering.players.players[j].state ≠ .idle) ∧ 2 ≤ offering.players.fanout
      ∧ offering.players.view[(9 : RecNo)] = none
      ∧ (∀ (j : PlayNo), ∀ x ∈ offering.players.waitList, offering.players.players[j].recording ≠ some x.recording)
      ∧ scanned.players.scanning = true ∧ scanned.players.players[(0 : PlayNo)] = { Player.idleWith 0 with handed := none }
      ∧ (∀ m : PlayNo, scanned.players.players[m].recording = none ∧ scanned.players.players[m].state = .idle)
      ∧ ((Vector.replicate 32 none).set 7 (some bargeIn) : Vector (Option ViewRecord) 32)[(9 : RecNo)] = none
      ∧ 2 ≤ ((scanned.bus.fanoutChanges.getLast?).map FanoutChange.limit).getD scanned.players.fanout := by
  refine ⟨by decide, by decide, by decide, by decide, restOf (by decide), by decide, by decide, by decide, by decide,
    by decide, by decide, by decide, by decide, restOf (by decide), by decide, by decide, by decide, by decide, by decide,
    by decide, by decide, by decide, by decide, by decide⟩

/-- With room for one more, the oldest waiter for player 2's recording moves and the others keep their order (R114). -/
theorem test_oldestWaiterMoves : (raising 2).takeFanout.players.waitList = [⟨5, 9, 1, 1⟩, ⟨6, 7, 0, 1⟩] := by decide

/-! The announcement store -/

/-- A begin of kind `k` for recording `r` is pending. -/
def begun (k : BeginKind) (r : RecNo) (c : StoreController) : StoreController := { c with pendingBegin := some ⟨k, r⟩ }

theorem witness_StoreCommandPairing :
    (cmd 0x1003#16 (begun .retire 4)).headIs 0x312 0x1003#16 = true ∧ (3 : RecNo).val = (0x1003#16).toNat % 32
      ∧ 1 = (0x1003#16).toNat / 4096 ∧ (cmd 0x1003#16 (begun .retire 4)).store.pendingBegin ≠ none
      ∧ 5 = (0x5003#16).toNat / 4096 ∧ 7 = (0x7003#16).toNat / 4096 ∧ 0 = (0x0FFF#16).toNat / 4096
      ∧ 12 ≤ (0xC003#16).toNat / 4096 ∧ State.reset.store.session = none ∧ 3 = (0x3003#16).toNat / 4096
      ∧ 4 = (0x4003#16).toNat / 4096 ∧ 2 = (0x2003#16).toNat / 4096 ∧ 6 = (0x6003#16).toNat / 4096
      ∧ 8 = (0x8003#16).toNat / 4096 ∧ (cmd 0x2003#16 id).headIs 0x312 0x2003#16 = true
      ∧ (cmd 0x2003#16 id).store.pendingBegin = none ∧ BeginKind.retire ≠ .load ∧ (4 : RecNo) ≠ 3
      ∧ 9 = (0x9003#16).toNat / 4096 ∧ 10 = (0xA003#16).toNat / 4096 ∧ 11 = (0xB003#16).toNat / 4096
      ∧ (cmd 0xA003#16 (begun .retire 4)).store.engine ≠ .receiving
      ∧ (cmd 0x9003#16 (begun .retire 4)).headIs 0x312 0x9003#16 = true := by decide

/-- STORE_HOLD between a begin and its confirm breaks the begin with SEQUENCE_ERROR and sets hold (R139, 8.12). -/
theorem test_holdBreaksABegin :
    let v := StoreSide.holdStore 0x9000#16 ⟨State.reset.wire, begun .load 3 State.reset.store⟩
    v.store.pendingBegin = none ∧ v.store.hold = true
      ∧ v.wire.submitted = [⟨.storeController, ⟨.sequenceError, 0, 0x9000#16⟩⟩] := by decide

/-- The engine IDLE, a load of 2084880 codes begun, segment 255 BAD; the lock engaged. -/
def largeLoad (c : StoreController) : StoreController :=
  { begun .load 3 c with paramHigh := 0x1F, paramLow := 0xD010, engine := .idle, lock := true, segMap := c.segMap.set 255 .bad }

theorem witness_ConfirmsAreCheckedInOrder :
    (cmd 0x2003#16 largeLoad).headIs 0x312 0x2003#16 = true
      ∧ (cmd 0x2003#16 largeLoad).store.pendingBegin = some ⟨.load, 3⟩
      ∧ 2084880 = (cmd 0x2003#16 largeLoad).store.paramHigh.toNat * 65536 + (cmd 0x2003#16 largeLoad).store.paramLow.toNat
      ∧ (cmd 0x2003#16 largeLoad).store.dir[(3 : RecNo)].state = .absent ∧ (cmd 0x2003#16 largeLoad).store.engine = .idle
      ∧ (cmd 0x2003#16 largeLoad).store.session = none
      ∧ ((List.finRange 256).filter fun g => g != 0 && ((cmd 0x2003#16 largeLoad).store.segMap[g] == .erased
          || (cmd 0x2003#16 largeLoad).store.segMap[g] == .dirty)).length < (2084880 + 8175) / 8176
      ∧ 0 = (cmd 0x2003#16 (begun .load 3)).store.paramHigh.toNat * 65536 + (cmd 0x2003#16 (begun .load 3)).store.paramLow.toNat
      ∧ (cmd 0x6003#16 (begun .retire 3)).store.dir[(3 : RecNo)].state ≠ .available
      ∧ (cmd 0x8003#16 (fun c => { begun .config 3 c with engine := .idle, lock := true })).store.lock = true := by decide +kernel

/-- Recording 3, of 9000 codes in segments 40 and 12. -/
def recorded : DirRecord := ⟨.available, 40, 2, 9000, false, true, 4⟩
def recordedMap : Vector SegState 256 := ((Vector.replicate 256 .erased).set 40 (.used 3 0)).set 12 (.used 3 1)
def stored (c : StoreController) : StoreController :=
  { begun .retire 3 c with engine := .idle, lock := true, dir := c.dir.set 3 recorded, segMap := recordedMap }

/-- A load of `n` codes begun, two segments ERASED and two DIRTY. -/
def loading (n : Nat) (c : StoreController) : StoreController :=
  { begun .load 14 c with
    paramLow := BitVec.ofNat 16 n, paramFlags := 0x4045, engine := .idle
    segMap := ((((Vector.replicate 256 .bad).set 40 .erased).set 41 .erased).set 12 .dirty).set 90 .dirty }

theorem witness_AcceptedConfirmsBeginTheirWork :
    (cmd 0x200E#16 (loading 8177)).headIs 0x312 0x200E#16 = true ∧ (14 : RecNo).val = (0x200E#16).toNat % 32
      ∧ (cmd 0x200E#16 (loading 8177)).store.eraseFail = false ∧ (cmd 0x200E#16 (loading 8177)).store.programFail = false
      ∧ (cmd 0x200E#16 (loading 8177)).store.supplyAbort = false ∧ (cmd 0x200E#16 (loading 8177)).store.engine = .idle
      ∧ 8177 = (cmd 0x200E#16 (loading 8177)).store.paramHigh.toNat * 65536 + (cmd 0x200E#16 (loading 8177)).store.paramLow.toNat
      ∧ (cmd 0x200E#16 (loading 8177)).store.pendingBegin = some ⟨.load, 14⟩
      ∧ (cmd 0x200E#16 (loading 8177)).store.dir[(14 : RecNo)].state = .absent
      ∧ (cmd 0x200E#16 (loading 8177)).store.session = none
      ∧ (cmd 0x200E#16 (loading 8177)).store.paramFlags.getLsbD 15 = false
      ∧ [40, 41, 12, 90] = ((List.finRange 256).filter fun g => g != 0 && (cmd 0x200E#16 (loading 8177)).store.segMap[g] == .erased)
          ++ ((List.finRange 256).filter fun g => g != 0 && (cmd 0x200E#16 (loading 8177)).store.segMap[g] == .dirty)
      ∧ ([40, 41] : List SegNo) = [40, 41, 12, 90].take ((8177 + 8175) / 8176)
      ∧ ([40, 41, 12] : List SegNo) = [40, 41, 12, 90].take ((16353 + 8175) / 8176)
      ∧ (cmd 0x6003#16 stored).store.pendingBegin = some ⟨.retire, 3⟩
      ∧ (cmd 0x6003#16 stored).store.dir[(3 : RecNo)].state = .available
      ∧ (cmd 0x6003#16 stored).store.dir[(3 : RecNo)].permanent = false ∧ (cmd 0x6003#16 stored).store.engine = .idle
      ∧ ([40, 12] : List SegNo).length = (cmd 0x6003#16 stored).store.dir[(3 : RecNo)].segCount
      ∧ (∀ h : SegNo, (cmd 0x6003#16 stored).store.segMap[h] = .used 3 0 ↔ h = 40)
      ∧ (∀ h : SegNo, (cmd 0x6003#16 stored).store.segMap[h] = .used 3 1 ↔ h = 12)
      ∧ (cmd 0x8003#16 (fun c => { begun .config 3 c with engine := .idle })).store.lock = false := by decide +kernel

/-- A session for recording 3 with one chunk received. -/
def session : Session :=
  { recording := 3, length := 9000, chunks := 5, nextRecv := 1, nextProg := 0, busyReported := false, nextCode := 64
    segs := [⟨40, false, true, true⟩, ⟨12, true, false, false⟩, ⟨13, false, false, false⟩] }

/-- That session, the chunk buffers in the states given. -/
def buffers (a b : BufState) (ss : Session) (c : StoreController) : StoreController :=
  { c with session := some ss, bufA := ⟨a, [(5, 3#8)], 1⟩, bufB := ⟨b, [], 1⟩, engine := .receiving }

theorem witness_ChunkBuffersFillAndTurnReady :
    (wordAt 0xBFF 0xABCD#16 State.reset).headIs (0x800 + (1023 : Fin 1024).val) 0xABCD#16 = true
      ∧ State.reset.store.session = none
      ∧ (st (buffers .filling .empty session)).store.bufIn .filling = some .A
      ∧ memWf 0xFF#8 ((st (buffers .filling .empty session)).store.buf .A).bytes = true
      ∧ (st (buffers .ready .programming session)).store.bufA.state ≠ .filling
      ∧ (st (buffers .ready .programming session)).store.bufB.state ≠ .filling ∧ session.busyReported = false
      ∧ (cmd 0x3003#16 (buffers .filling .empty session)).headIs 0x312 0x3003#16 = true ∧ (0x3003#16).toNat / 4096 = 3
      ∧ (cmd 0x3003#16 (buffers .filling .empty session)).store.pendingBegin = none
      ∧ (st (buffers .filling .empty session)).store.bufA.state = .filling
      ∧ (st (buffers .filling .empty session)).store.bufA.chunk = session.nextRecv
      ∧ (st (buffers .filling .empty session)).store.engine = .receiving
      ∧ (st (buffers .filling .empty session)).store.hold = false
      ∧ (st fun c => { buffers .filling .ready session c with hold := true }).store.hold = true
      ∧ ({ session with nextProg := 1 } : Session).nextProg = ({ session with nextProg := 1 } : Session).nextRecv
      ∧ (st (buffers .ready .filling session)).store.bufIn .filling = some .B
      ∧ ((st (buffers .ready .filling session)).store.buf .B).chunk = session.nextRecv
      ∧ ((st (buffers .empty .filling session)).store.buf Bank.B.other).state ≠ .ready := by decide

theorem witness_LoadAbandonEndsTheSession :
    (cmd 0x4003#16 (buffers .filling .empty session)).headIs 0x312 0x4003#16 = true ∧ (0x4003#16).toNat / 4096 = 4
      ∧ (cmd 0x4003#16 (buffers .filling .empty session)).store.session = some session
      ∧ (cmd 0x4003#16 (buffers .filling .empty session)).store.engine ≠ .idle ∧ (session.segs.map SessionSeg.seg).Nodup
      ∧ (cmd 0x4003#16 (buffers .filling .empty session)).store.stepInProgress = false
      ∧ (cmd 0x4003#16 (fun c => { buffers .filling .empty session c with suspended := some ⟨4, 3⟩ })).store.stepInProgress
        = true := by decide

theorem witness_HoldStatusLockAndWithdrawnAnswer :
    (cmd 0x9003#16 id).headIs 0x312 0x9003#16 = true ∧ (0x9003#16).toNat / 4096 = 9
      ∧ (cmd 0xA003#16 (fun c => { c with hold := true })).headIs 0x312 0xA003#16 = true ∧ (0xA003#16).toNat / 4096 = 10
      ∧ (cmd 0xA003#16 (fun c => { c with hold := true })).store.engine ≠ .receiving
      ∧ (st fun c => { buffers .empty .ready { session with nextProg := 1 } c with hold := true }).store.engine = .receiving
      ∧ ((st fun c => { buffers .empty .ready { session with nextProg := 1 } c with hold := true }).store.buf .B).state = .ready
      ∧ ((st fun c => { buffers .empty .ready { session with nextProg := 1 } c with hold := true }).store.buf .B).chunk = 1
      ∧ ((st fun c => { buffers .empty .ready { session with nextProg := 1 } c with hold := true }).store.buf .A).state ≠ .ready
      ∧ (cmd 0xB003#16 (fun c => { c with eraseFail := true })).headIs 0x312 0xB003#16 = true
      ∧ (0xB003#16).toNat / 4096 = 11 ∧ (cmd 0xB003#16 (fun c => { c with eraseFail := true })).store.pendingBegin = none
      ∧ ({ State.reset with players := { State.reset.players with withdrawnAnswers := [3, 4] } } : State).players.withdrawnAnswers
        = 3 :: [4]
      ∧ (st fun c => { stored c with retire := some ⟨3, 2, [40, 12], false⟩ }).store.retire = some ⟨3, 2, [40, 12], false⟩ := by
  decide

/-- STORE_RESUME lets an engine in RECEIVING take the READY chunk it waits for (R152). -/
theorem test_resumeTakesTheChunk :
    let c := { buffers .empty .ready { session with nextProg := 1 } State.reset.store with hold := true }
    let v := StoreSide.resumeStore 0xA000#16 ⟨State.reset.wire, c⟩
    v.store.engine = .programming ∧ v.store.bufB.state = .programming ∧ v.store.hold = false
      ∧ v.store.session.map Session.nextCode = some 2048 := by decide

/-- Recording 3 stored with its first bytes programmed; player 1 and 2 wait for refills across the segment boundary. -/
def refillFor (n : PlayNo) : RefillReq := ⟨n, 3, 8174, 3, 4⟩
def someBytes : List Host.Cell := [(12 * 8192 + 16, 1#8), (12 * 8192 + 17, 2#8), (40 * 8192 + 16 + 8175, 9#8)]
def refilling (p : Option Port) : State :=
  st fun c => { stored c with refillQ := [refillFor 1, refillFor 2], port := p, bytes := someBytes }

theorem witness_RefillsAreServed :
    ({ refilling (some ⟨.erasePulse 40, 300⟩) with
        players := { State.reset.players with refillReqs := [refillFor 2] } } : State).players.refillReqs = refillFor 2 :: []
      ∧ (refilling none).running = true ∧ (refilling none).store.port = none ∧ refillFor 1 ∈ (refilling none).store.refillQ
      ∧ ((refilling none).store.refillQ.map RefillReq.player).Nodup
      ∧ (∀ x ∈ (refilling none).store.refillQ, x ≠ refillFor 1 →
          (refilling none).players.players[(refillFor 1).player].fifo.length < (refilling none).players.players[x.player].fifo.length
            ∨ (refilling none).players.players[(refillFor 1).player].fifo.length
                = (refilling none).players.players[x.player].fifo.length ∧ (refillFor 1).player < x.player)
      ∧ (refilling (some ⟨.refill (refillFor 1) true, 7⟩)).store.port = some ⟨.refill (refillFor 1) true, 7⟩
      ∧ [0xFF#8, 9#8, 1#8].length = (refillFor 1).count
      ∧ (∀ h : SegNo, (refilling none).store.segMap[h] = .used 3 0 → h = 40)
      ∧ (∀ h : SegNo, (refilling none).store.segMap[h] = .used 3 1 → h = 12)
      ∧ 0xFF#8 = (refilling none).storeRead 40 (16 + 8174) ∧ 9#8 = (refilling none).storeRead 40 (16 + 8175)
      ∧ 1#8 = (refilling none).storeRead 12 16 := by decide +kernel

/-- Recording 3 retiring, the port as given, segments `r` still to erase. -/
def retiring (p : Option Port) (r : List SegNo) : State :=
  st fun c => { stored c with retire := some ⟨3, 2, r, true⟩, engine := .retiring, pulses := 3, port := p, bytes := someBytes }

/-- A load preparing, segment 12 to be erased. -/
def preparing (p : Option Port) : State :=
  st fun c => { c with session := some { session with segs := [⟨12, true, false, true⟩] }, engine := .preparing, port := p }

theorem erased_all (s : State) (g : SegNo) (h : s.store.bytes = []) : ∀ off, off < 8192 → s.storeRead g off = 0xFF#8 := by
  intro off _
  rw [State.storeRead, h]
  rfl

theorem witness_EraseStepsRun :
    (retiring none [40, 12]).running = true ∧ (retiring none [40, 12]).store.eraseTarget = some 40
      ∧ (retiring none [40, 12]).store.suspended = none ∧ (retiring none [40, 12]).store.refillQ = []
      ∧ (retiring none [40, 12]).store.settling = none ∧ (retiring none [40, 12]).store.hold = false
      ∧ (preparing none).store.eraseTarget = some 12
      ∧ (st fun c => { c with suspended := some ⟨40, 33⟩ }).store.suspended = some ⟨40, 33⟩
      ∧ (retiring (some ⟨.erasePulse 40, 33⟩) [40, 12]).store.port = some ⟨.erasePulse 40, 33⟩
      ∧ memWf 0xFF#8 (retiring none [40, 12]).store.bytes = true ∧ memWf 0xFF#8 [(3, 4#8), (8191, 5#8)] = true
      ∧ (∀ c ∈ [(3, 4#8), (8191, 5#8)], c.1 < 8192)
      ∧ (∃ off, off < 8192 ∧ (retiring none [40, 12]).storeRead 40 off ≠ 0xFF#8)
      ∧ (retiring none [40, 12]).store.pulses < 100
      ∧ (∀ off, off < 8192 → (preparing (some ⟨.eraseVerify 12, 5⟩)).storeRead 12 off = 0xFF#8)
      ∧ (st fun c => { c with config := some ⟨[3], .erase⟩ }).store.config = some ⟨[3], .erase⟩
      ∧ [40, 12].filter (fun x : SegNo => x != 40) ≠ [] ∧ [40].filter (fun x : SegNo => x != 40) = []
      ∧ (preparing none).store.engine = .preparing ∧ (retiring none [40]).store.engine = .retiring := by
  refine ⟨by decide, by decide, by decide, by decide, by decide, by decide, by decide, by decide, by decide, by decide,
    by decide, by decide, ⟨16 + 8175, by decide, by decide⟩, by decide, erased_all _ _ rfl, by decide, by decide, by decide,
    by decide, by decide⟩

/-- The header of segment 40 of recording 3, its eight bytes. -/
def headerStep : ProgramStep := ⟨40, .header 0, [(0, 3), (1, 0), (2, 2), (3, 0x28), (4, 0x23), (5, 0), (6, 0x40), (7, 4)]⟩
def codesStep (n : Nat) : ProgramStep := ⟨40, .codes n, [(80, 5)]⟩
def markStep : ProgramStep := ⟨40, .completionMark, [(8, 0)]⟩
def valuesStep : ProgramStep := ⟨0, .configValues, [(2, 5)]⟩
def configMarkStep : ProgramStep := ⟨0, .configMark, [(28, 0)]⟩

/-- Recording 3 being programmed, its first segment's header next, or the attempt `p` in progress, the 4th. -/
def programming (p : Option Port) : State :=
  st fun c => { c with
    engine := .programming, port := p, attempts := 4, bytes := [(40 * 8192 + 1, 0xF0#8)]
    session := some { session with segs := [⟨40, false, false, false⟩, ⟨12, false, false, false⟩] }
    bufA := ⟨.programming, [(1, 2#8)], 0⟩, dir := c.dir.set 3 { recorded with state := .loading } }

/-- A step on the one byte `c` whose stored value is FFh verifies when the device misses nothing. -/
theorem verifies {s : State} {g : SegNo} {o : Nat} {w : Byte} {x : ProgramStep} (hx : x.seg = g ∧ x.bytes = [(o, w)])
    (h : s.storeRead g o &&& (w ||| 0) = w) :
    ∀ (j off : Nat) (v : Byte), x.bytes[j]? = some (off, v) →
      s.storeRead x.seg off &&& (v ||| ([] : List Byte).getD j 0) = v := by
  rintro j off v hj
  rw [hx.2] at hj
  match j, hj with
  | 0, hj => cases hj; rw [hx.1]; simpa using h
  | j + 1, hj => simp at hj

theorem witness_ProgramStepsRun :
    (programming none).running = true ∧ (programming none).store.programTarget = some headerStep
      ∧ (programming none).store.port = none ∧ (programming none).store.suspended = none
      ∧ (programming none).store.refillQ = [] ∧ (programming none).store.settling = none
      ∧ (programming none).store.hold = false
      ∧ (programming (some ⟨.attempt headerStep, 33⟩)).store.port = some ⟨.attempt headerStep, 33⟩
      ∧ memWf 0xFF#8 (programming none).store.bytes = true ∧ (headerStep.bytes.map Prod.fst).Nodup
      ∧ (∀ c ∈ headerStep.bytes, c.1 < 8192)
      ∧ (∃ (j off : Nat) (v : Byte), headerStep.bytes[j]? = some (off, v)
          ∧ (programming none).storeRead 40 off &&& (v ||| ([4#8] : List Byte).getD j 0) ≠ v)
      ∧ (programming none).store.attempts < 8
      ∧ (∀ (j off : Nat) (v : Byte), (codesStep 70).bytes[j]? = some (off, v) →
          (programming none).storeRead 40 off &&& (v ||| ([] : List Byte).getD j 0) = v)
      ∧ (∀ (j off : Nat) (v : Byte), markStep.bytes[j]? = some (off, v) →
          (programming none).storeRead 40 off &&& (v ||| ([] : List Byte).getD j 0) = v)
      ∧ 70 < min session.length (2048 * (session.nextProg + 1)) ∧ min session.length (2048 * (session.nextProg + 1)) ≤ 2048
      ∧ (programming none).store.bufIn .programming = some .A ∧ (programming none).store.engine = .programming
      ∧ Bank.B ≠ .A
      ∧ (∀ (j off : Nat) (v : Byte), valuesStep.bytes[j]? = some (off, v) →
          (programming none).storeRead 0 off &&& (v ||| ([] : List Byte).getD j 0) = v)
      ∧ (∀ (j off : Nat) (v : Byte), configMarkStep.bytes[j]? = some (off, v) →
          (programming none).storeRead 0 off &&& (v ||| ([] : List Byte).getD j 0) = v) := by
  refine ⟨by decide, by decide, by decide, by decide, by decide, by decide, by decide, by decide, by decide, by decide,
    by decide, ⟨0, 0, 3, by decide, by decide⟩, by decide, verifies ⟨rfl, rfl⟩ (by decide), verifies ⟨rfl, rfl⟩ (by decide),
    by decide, by decide, by decide, by decide, by decide, verifies ⟨rfl, rfl⟩ (by decide), verifies ⟨rfl, rfl⟩ (by decide)⟩

theorem witness_FailuresEndTheWork :
    (∀ q, State.reset.store.port = some q → q.step.isPulse = false ∧ q.step.isAttempt = false)
      ∧ (retiring none [40, 12]).store.engine ≠ .idle ∧ (retiring none [40, 12]).store.settling = none
      ∧ (retiring none [40, 12]).store.port = none ∧ (retiring none [40, 12]).store.suspended = none
      ∧ (retiring none [40, 12]).store.refillQ = [] ∧ (retiring none [40, 12]).store.hold = false
      ∧ (retiring none [40, 12]).store.eraseTarget = some 40 ∧ (programming none).store.programTarget = some headerStep
      ∧ (st fun c => { c with suspended := some ⟨40, 33⟩ }).store.suspended = some ⟨40, 33⟩
      ∧ (retiring (some ⟨.erasePulse 40, 33⟩) [40]).store.port = some ⟨.erasePulse 40, 33⟩
      ∧ (retiring (some ⟨.eraseVerify 40, 33⟩) [40]).store.port = some ⟨.eraseVerify 40, 33⟩
      ∧ 100 ≤ (st fun c => { c with pulses := 100 }).store.pulses
      ∧ (programming (some ⟨.attempt headerStep, 33⟩)).store.port = some ⟨.attempt headerStep, 33⟩
      ∧ 8 ≤ (st fun c => { c with attempts := 8 }).store.attempts
      ∧ (∃ ss, (programming none).store.session = some ss ∧ (ss.segs.map SessionSeg.seg).Nodup ∧ ss.recording = 3)
      ∧ (retiring none [40, 12]).store.session = none ∧ (retiring none [40, 12]).store.retire = some ⟨3, 2, [40, 12], true⟩
      ∧ (st fun c => { c with config := some ⟨[3], .erase⟩, engine := .configWriting }).store.retire = none := by
  refine ⟨fun q h => (by cases h), by decide, by decide, by decide, by decide, by decide, by decide, by decide, by decide,
    by decide, by decide, by decide, by decide, by decide, by decide, ⟨_, rfl, by decide, rfl⟩, by decide, by decide, by decide⟩

/-- A load of recording 3 abandoned while segment 12 was being verified for the 100th time. -/
def settlingOne : State :=
  st fun c => { c with settling := some { session with segs := [⟨12, true, false, true⟩] }, engine := .preparing, pulses := 100
                       port := some ⟨.eraseVerify 12, 33⟩, bytes := someBytes }

theorem witness_FailuresEndTheWork_abandoned :
    settlingOne.running = true ∧ settlingOne.store.engine ≠ .idle ∧ settlingOne.store.session = none
      ∧ settlingOne.store.settling = some { session with segs := [⟨12, true, false, true⟩] }
      ∧ settlingOne.store.port = some ⟨.eraseVerify 12, 33⟩ ∧ memWf 0xFF#8 settlingOne.store.bytes = true
      ∧ 100 ≤ settlingOne.store.pulses
      ∧ ([(⟨12, true, false, true⟩ : SessionSeg)].map SessionSeg.seg).Nodup := by decide

/-- The same load with the step `p` in progress, the 4th of its kind. -/
def settlingAt (p : PortStep) : State :=
  { settlingOne with store := { settlingOne.store with pulses := 4, attempts := 4, port := some ⟨p, 33⟩ } }
/-- An attempt on segment 12 at a byte that reads 01h: the value 00h verifies when the device misses nothing. -/
def lastAttempt : ProgramStep := ⟨12, .codes 70, [(16, 0)]⟩

theorem witness_EraseStepsRun_abandoned :
    (settlingAt (.erasePulse 12)).running = true ∧ (settlingAt (.erasePulse 12)).store.engine ≠ .idle
      ∧ (settlingAt (.erasePulse 12)).store.settling = some { session with segs := [⟨12, true, false, true⟩] }
      ∧ ([(⟨12, true, false, true⟩ : SessionSeg)].map SessionSeg.seg).Nodup
      ∧ memWf 0xFF#8 (settlingAt (.erasePulse 12)).store.bytes = true
      ∧ (settlingAt (.erasePulse 12)).store.port = some ⟨.erasePulse 12, 33⟩ ∧ memWf 0xFF#8 [(8191, 5#8)] = true
      ∧ (∀ c ∈ [(8191, 5#8)], c.1 < 8192) ∧ (settlingAt (.eraseVerify 13)).store.port = some ⟨.eraseVerify 13, 33⟩
      ∧ (settlingAt (.eraseVerify 13)).store.session = none
      ∧ (∀ off, off < 8192 → ({ settlingAt (.eraseVerify 12) with
          store := { (settlingAt (.eraseVerify 12)).store with bytes := [] } } : State).storeRead 12 off = 0xFF#8)
      ∧ (∃ off, off < 8192 ∧ (settlingAt (.eraseVerify 12)).storeRead 12 off ≠ 0xFF#8)
      ∧ (settlingAt (.eraseVerify 12)).store.pulses < 100 := by
  refine ⟨by decide, by decide, by decide, by decide, by decide, by decide, by decide, by decide, by decide, by decide,
    erased_all _ _ rfl, ⟨16, by decide, by decide⟩, by decide⟩

theorem witness_ProgramStepsRun_abandoned :
    (settlingAt (.attempt lastAttempt)).running = true ∧ (settlingAt (.attempt lastAttempt)).store.engine ≠ .idle
      ∧ (settlingAt (.attempt lastAttempt)).store.port = some ⟨.attempt lastAttempt, 33⟩
      ∧ (settlingAt (.attempt lastAttempt)).store.settling = some { session with segs := [⟨12, true, false, true⟩] }
      ∧ memWf 0xFF#8 (settlingAt (.attempt lastAttempt)).store.bytes = true
      ∧ (lastAttempt.bytes.map Prod.fst).Nodup ∧ (∀ c ∈ lastAttempt.bytes, c.1 < 8192)
      ∧ (settlingAt (.attempt lastAttempt)).store.attempts < 8
      ∧ (∀ (j off : Nat) (v : Byte), lastAttempt.bytes[j]? = some (off, v) →
          (settlingAt (.attempt lastAttempt)).storeRead 12 off &&& (v ||| ([] : List Byte).getD j 0) = v) :=
  ⟨by decide, by decide, by decide, by decide, by decide, by decide, by decide, by decide, verifies ⟨rfl, rfl⟩ (by decide)⟩

/-- The last step of an abandoned load settles its segment: DIRTY after a pulse with no verify, and after an attempt (R144). -/
theorem test_lastStepOfAnAbandonedLoad :
    let settled (v : StoreSide) : SegState × Engine × Bool := (v.store.segMap[(12 : SegNo)], v.store.engine, v.store.settling.isSome)
    settled (StoreSide.pulseDone [] ⟨State.reset.wire, (settlingAt (.erasePulse 12)).store⟩) = (.dirty, .idle, false)
      ∧ settled (StoreSide.attemptDone [1#8] ⟨State.reset.wire, (settlingAt (.attempt lastAttempt)).store⟩)
        = (.dirty, .idle, false) := by decide

/-- A soft reset word with a session open, the port as given. -/
def resetting (p : Option Port) : State := wordAt 0x311 0xC3A5#16 (preparing p)

theorem witness_SoftResetWord :
    (wordAt 0x311 0xC3A5#16 State.reset).headIs 0x311 0xC3A5#16 = true
      ∧ (wordAt 0x311 0xC3A4#16 State.reset).headIs 0x311 0xC3A4#16 = true ∧ State.reset.store.session = none
      ∧ (resetting none).headIs 0x311 0xC3A5#16 = true
      ∧ (resetting none).store.session = some { session with segs := [⟨12, true, false, true⟩] }
      ∧ (resetting none).store.stepInProgress = false
      ∧ (resetting (some ⟨.erasePulse 12, 9⟩)).store.stepInProgress = true
      ∧ (∀ g ∈ [(⟨12, true, false, true⟩ : SessionSeg)], g.seg ≠ 40) := by decide

/-- A store that holds recording 3 in segments 40 and 12, a stray byte in segment 50 and a configuration record whose words
are all FFFFh. -/
def loadedStore : State :=
  let header (g index : Nat) : List Host.Cell :=
    [(g * 8192, 3#8), (g * 8192 + 1, BitVec.ofNat 8 index), (g * 8192 + 2, 2#8), (g * 8192 + 3, 0x28#8),
      (g * 8192 + 4, 0x23#8), (g * 8192 + 5, 0#8), (g * 8192 + 6, 0x40#8), (g * 8192 + 7, 4#8), (g * 8192 + 8, 0#8)]
  st fun c => { c with
    engine := .scanning
    bytes := [(0, 0x3C#8), (1, 0xC3#8), (28, 0#8)] ++ header 12 1 ++ header 40 0 ++ [(50 * 8192 + 100, 5#8)] }

/-- The settings that record gives, each field clamped. -/
def clampedSettings : Settings :=
  ⟨20, 64, 255, 255, Vector.replicate 3 64, Vector.replicate 3 64, Vector.replicate 4 (some 31), Vector.replicate 4 (some 15),
    Vector.replicate 4 15⟩

/-- Segment 40 is the first of recording 3, kept. -/
theorem keeps : loadedStore.keptRecording 3 2 9000 40 := by
  have low : ∀ h : SegNo, h < 40 → loadedStore.storeRead h 1 ≠ 0 := by decide +kernel
  refine ⟨⟨by unfold State.firstSegment; decide +kernel, fun j h1 h2 => ⟨12, ?_⟩⟩, fun h hh n l hc => low h hh hc.1.2.2.1⟩
  obtain rfl : j = 1 := by omega
  refine ⟨by decide, fun h hh hg => ?_⟩
  have : ∀ h : SegNo, h < 12 → (loadedStore.storeRead h 0).toNat ≠ 3 := by decide +kernel
  exact this h hh hg.2.1

/-- A segment whose first byte reads FFh belongs to no recording. -/
theorem unclaimed {s : State} {g : SegNo} (h : s.storeRead g 0 = 0xFF#8) :
    ∀ r n len f, s.keptRecording r n len f → g ≠ f ∧ ∀ j, 1 ≤ j → j < n → ¬ s.indexSegment r n j g := by
  intro r n len f hk
  have no : (s.storeRead g 0).toNat ≠ r.val := by rw [h]; exact fun e => absurd r.isLt (by rw [← e]; decide)
  exact ⟨fun e => no (e ▸ hk.1.1.2.1), fun j _ _ hj => no hj.1.2.1⟩

theorem witness_ScanOfAnErasedStore :
    State.reset.running = true ∧ State.reset.store.engine = .scanning ∧ State.reset.store.bytes = []
      ∧ loadedStore.running = true ∧ loadedStore.store.engine = .scanning ∧ memWf 0xFF#8 loadedStore.store.bytes = true
      ∧ loadedStore.storeRead 0 0 = 0x3C#8 ∧ loadedStore.storeRead 0 1 = 0xC3#8 ∧ loadedStore.storeRead 0 28 = 0#8
      ∧ (∀ k, k < 13 → (loadedStore.storeRead 0 (2 + 2 * k)).toNat + 256 * (loadedStore.storeRead 0 (3 + 2 * k)).toNat = 0xFFFF)
      ∧ clampedSettings.gap = min (0xFFFF % 32) 20 ∧ clampedSettings.fanout = min (max (0xFFFF / 256 % 128) 1) 64
      ∧ clampedSettings.waitLimit = max (0xFFFF % 256) 1 ∧ clampedSettings.up[(2 : Fin 3)] = min (0xFFFF / 256 % 128) 64
      ∧ clampedSettings.recording[(3 : Cls)] = some (Fin.ofNat 32 (0xFFFF % 32))
      ∧ loadedStore.keptRecording 3 2 9000 40 ∧ loadedStore.storeRead 1 0 = 0xFF#8
      ∧ (∀ r n len f, loadedStore.keptRecording r n len f →
          (50 : SegNo) ≠ f ∧ ∀ j, 1 ≤ j → j < n → ¬ loadedStore.indexSegment r n j 50)
      ∧ loadedStore.storeRead 50 100 ≠ 0xFF#8 ∧ (∀ c ∈ loadedStore.store.bytes, c.1 / 8192 ≠ 1) := by
  refine ⟨by decide, by decide, by decide, by decide, by decide, by decide, by decide, by decide, by decide, by decide, by decide,
    by decide, by decide, by decide, by decide, keeps, by decide, unclaimed (by decide), by decide, by decide⟩

/-! The invariants are met together by a state, and the step from it answers a next state. -/

theorem witness_StepsKeepMemoryQueuesSlotsAndAttention :
    MemoryOk (queued .framePulse) ∧ QueuesOk (queued .framePulse) ∧ SlotsOk (queued .framePulse)
      ∧ AttentionOk (queued .framePulse) ∧ CountsOk (queued .framePulse)
      ∧ ∃ t, step (queued .framePulse) = .next t := by
  refine ⟨by simp only [MemoryOk]; decide, by simp only [QueuesOk]; decide, ⟨initialMap_ok, initialMap_ok⟩,
    by simp only [AttentionOk]; decide, ⟨by decide, by decide, fun n h => (by cases h)⟩, _, rfl⟩

theorem witness_StepsKeepSettingsOwnersAndBanks :
    SettingsOk (queued .framePulse) ∧ OwnersOk (queued .framePulse) ∧ BanksOk (queued .framePulse)
      ∧ ∃ t, step (queued .framePulse) = .next t := by
  refine ⟨by simp only [SettingsOk]; decide, by simp only [OwnersOk]; decide, fun b => ?_, _, rfl⟩
  cases b <;> decide

theorem witness_StepsKeepCircuitsConsistent :
    CircuitsOk (queued .framePulse) ∧ ∃ t, step (queued .framePulse) = .next t := by
  refine ⟨by simp only [CircuitsOk]; decide, _, rfl⟩

end Sys2Proof.Tests
end

