-- ==== Sys2Proof/Proofs/HearingOrders.lean ====
section
/-!
PROOF. Refused hearing orders and the detail word: the checks of an arriving order (R9), what a refusal submits, and what the
detail word writes (R7).
-/
namespace Sys2Proof.Machine

/-! ### Handing a hearing word over -/

/-- A hearing word at the head whose code is the command's is handed over to the order unit (R6, R160). -/
theorem hearingWord_of_headIs {s : State} {code : Nat} {p : Circ} {w : Word} {f : Exchange → Exchange}
    (h : s.headIs p.val w = true) (hc : code = w.toNat / 4096) :
    hearingWord code p w f s = .next (s.taken.onExchange f) := by
  rw [hearingWord, orderCode_eq, if_pos hc.symm, handOver_of_headIs h]

/-! ### The checks of an arriving order (R9) -/

section
variable {w : Word} {e : Exchange}

theorem Exchange.orderTone_of_invalid_arg (p : Circ) (k : PlanNo → Treatment) (h : 16 ≤ w.toNat / 16 % 64) :
    e.orderTone p w k = e.refuseOrder p .orderInvalid w := by
  rw [Exchange.orderTone, orderArg_eq, if_pos h]

theorem Exchange.orderTone_of_invalid_plan (p : Circ) (k : PlanNo → Treatment) {q : PlanNo}
    (hq : q.val = w.toNat / 16 % 64) (h : e.plans.validLive q = false) :
    e.orderTone p w k = e.refuseOrder p .planInvalid w := by
  have hplan : Fin.ofNat 16 (w.toNat / 16 % 64) = q := by rw [← hq]; exact Fin.ofNat_val_eq_self q
  have hrange : ¬ 16 ≤ w.toNat / 16 % 64 := by rw [← hq]; exact Nat.not_le.2 q.isLt
  rw [Exchange.orderTone, orderArg_eq, if_neg hrange, hplan, if_pos h]

theorem Exchange.orderAnnounce_of_invalid_arg (p : Circ) (h : 32 ≤ w.toNat / 16 % 64) :
    e.orderAnnounce p w = e.refuseOrder p .orderInvalid w := by
  rw [Exchange.orderAnnounce, orderArg_eq, if_pos h]

theorem Exchange.orderCongestion_of_invalid_arg (p : Circ) (h : 8 ≤ w.toNat / 16 % 64) :
    e.orderCongestion p w = e.refuseOrder p .orderInvalid w := by
  rw [Exchange.orderCongestion, orderArg_eq, if_pos h]

end

/-! ### What a refusal does to the state -/

/-- The state with a refusal of hearing word `w` of circuit `p` submitted, nothing else changed (R9). -/
def State.refused (p : Circ) (k : ReportKind) (w : Word) (s : State) : State :=
  { s with wire := { s.wire with
      submitted := s.wire.submitted ++ [⟨.orderUnit, ⟨k, BitVec.ofNat 6 p.val, w⟩⟩] } }

/-- An exchange function that refuses the order at this state submits the report alone. -/
theorem State.onExchange_of_refuseOrder {s : State} {f : Exchange → Exchange} {p : Circ} {k : ReportKind} {w : Word}
    (h : f s.exchange = s.exchange.refuseOrder p k w) : s.onExchange f = s.refused p k w := by
  have hw : BitVec.ofNat 16 w.toNat = w := by simp
  simp only [State.onExchange, h, Exchange.refuseOrder, Wire.submitWord, Wire.submit, hw]
  rfl

/-- A hearing word handed over to an order that refuses it answers with the refusal submitted and the entry taken. -/
theorem hearingWord_of_refuseOrder {s : State} {code : Nat} {p : Circ} {k : ReportKind} {w : Word} {f : Exchange → Exchange}
    (h : s.headIs p.val w = true) (hc : code = w.toNat / 4096) (hf : f s.exchange = s.exchange.refuseOrder p k w) :
    hearingWord code p w f s = .next (s.taken.refused p k w) := by
  rw [hearingWord_of_headIs h hc, State.onExchange_of_refuseOrder (by rwa [State.taken_exchange])]

/-- A hearing word of a code 6–15 at the head is refused (R6, R9). -/
theorem execOrderInvalidCode_of_headIs {s : State} {p : Circ} {w : Word} (h : s.headIs p.val w = true)
    (hc : 6 ≤ w.toNat / 4096) : execOrderInvalidCode p w s = .next (s.taken.refused p .orderInvalid w) := by
  rw [execOrderInvalidCode, orderCode_eq, if_pos hc, handOver_of_headIs h, State.onExchange_of_refuseOrder rfl]

/-- Settles O23: each refusing check in turn, by the order's code. -/
theorem refusedOrdersAreReported : Obligations.RefusedOrdersAreReported := by
  intro p w s i code arg hhead hcode harg
  subst harg
  constructor
  · rintro (⟨hc, rfl⟩ | ⟨rfl, ha, rfl⟩ | ⟨rfl, ha, rfl⟩ | ⟨rfl, ha, rfl⟩ | ⟨rfl, ha, rfl⟩)
    · exact execOrderInvalidCode_of_headIs hhead (hcode ▸ hc)
    · exact hearingWord_of_refuseOrder hhead hcode (Exchange.orderTone_of_invalid_arg p _ ha)
    · exact hearingWord_of_refuseOrder hhead hcode (Exchange.orderTone_of_invalid_arg p _ ha)
    · exact hearingWord_of_refuseOrder hhead hcode (Exchange.orderAnnounce_of_invalid_arg p ha)
    · exact hearingWord_of_refuseOrder hhead hcode (Exchange.orderCongestion_of_invalid_arg p ha)
  · intro q hq hunusable
    have hinvalid : s.exchange.plans.validLive q = false :=
      Bool.eq_false_iff.2 fun hv => hunusable ((State.validLive_iff s q).1 hv)
    rintro (⟨rfl, rfl⟩ | ⟨rfl, rfl⟩)
    · exact hearingWord_of_refuseOrder hhead hcode (Exchange.orderTone_of_invalid_plan p _ hq hinvalid)
    · exact hearingWord_of_refuseOrder hhead hcode (Exchange.orderTone_of_invalid_plan p _ hq hinvalid)

/-! ### The detail word (R7) -/

theorem detailFallback_eq (w : Word) :
    detailFallback w = if w.getLsbD 12 then some (Fin.ofNat 16 (w.toNat / 256)) else none := by
  simp [detailFallback, flag, field, Fin.ofNat]

theorem detailFollowOn_eq (w : Word) :
    detailFollowOn w = if w.getLsbD 4 then some (Fin.ofNat 16 w.toNat) else none := by
  simp [detailFollowOn, flag, field, Fin.ofNat]

/-- The detail fields do not show in the status word, so writing them marks nothing (R26). -/
theorem Exchange.writeDetail_eq (p : Circ) (w : Word) (e : Exchange) :
    e.writeDetail p w = { e with orders := { e.orders with
      circuits := e.orders.circuits.set p { e.circuit p with
        detailFollowOn := detailFollowOn w, detailFallback := detailFallback w } } } :=
  Exchange.setCircuit_of_same (by simp [Circuit.sameShown])

/-- Settles O24: the word at the head is handed over, and its write changes the two fields without a mark. -/
theorem detailWordSetsThePlans : Obligations.DetailWordSetsThePlans := by
  intro p w s fallback follow hhead hfallback hfollow
  rw [hfallback, hfollow, ← detailFallback_eq, ← detailFollowOn_eq]
  calc exec (.detailWordWrite p w) s
      = .next (s.taken.onExchange (Exchange.writeDetail p w)) := handOver_of_headIs hhead
    _ = _ := by rw [State.onExchange, Exchange.writeDetail_eq]; rfl

end Sys2Proof.Machine
end

