-- ==== Sys2Proof/Proofs/PlanWords.lean ====
section
/-!
PROOF. The plan words: where a plan offset points (R166), the fields each word carries (R28, R167), and what a captured plan
word does to an IDLE bank and to one in use (R31, R32).
-/
namespace Sys2Proof.Machine

/-! ### The layout of a plan word (R167) -/

/-- The number a field of `len` bits is stored as. -/
theorem ofNat_field_toNat (w : Word) (lo len : Nat) :
    (BitVec.ofNat len (field w lo len)).toNat = w.toNat / 2 ^ lo % 2 ^ len := by
  simp [field]

theorem finalActionOf_eq (n : Nat) : finalActionOf n = [.silence, .holdLast, .chain, .invalid].getD n .invalid :=
  match n with
  | 0 | 1 | 2 | 3 | _ + 4 => rfl

theorem segKindOf_eq (n : Nat) : segKindOf n = [.off, .onBoth, .onFirst, .invalid].getD n .invalid :=
  match n with
  | 0 | 1 | 2 | 3 | _ + 4 => rfl

theorem segmentOf_eq (w : Word) : segmentOf w =
    ⟨[.off, .onBoth, .onFirst, .invalid].getD (w.toNat / 1024 % 4) .invalid, BitVec.ofNat 10 w.toNat⟩ := by
  have hduration : BitVec.ofNat 10 (field w 0 10) = BitVec.ofNat 10 w.toNat := by
    apply BitVec.eq_of_toNat_eq
    simp [field]
  rw [segmentOf, hduration, segKindOf_eq]
  rfl

/-- The plan offsets, numbered: bank A below 200h, plan `q` at 16q (R166). -/
theorem planOffset_eq {off : Offset} {b : Bank} {p : PlanNo} (hb : b = .A ↔ off.toNat < 0x200)
    (hp : p.val = off.toNat / 16 % 16) : planOffset off = (b, p, off.toNat % 16) := by
  have hbank : (if off.toNat < 0x200 then Bank.A else .B) = b := by
    cases b <;> simp_all
  have hplan : Fin.ofNat 16 (off.toNat % 256 / 16) = p := by
    apply Fin.ext
    rw [Fin.val_ofNat, hp]
    omega
  rw [planOffset, hbank, hplan]

/-! ### The fields a plan word carries (R28) -/

/-- Segment words by their place: word 6 + j carries segment j, any other word none. -/
def segsWithWord (k : Nat) (w : Word) (segs : Vector Segment 6) : Vector Segment 6 :=
  Vector.ofFn fun j => if k = 6 + j.val then segmentOf w else segs[j]

theorem segsWithWord_getElem (k : Nat) (w : Word) (segs : Vector Segment 6) (j : Fin 6) :
    (segsWithWord k w segs)[j] = if k = 6 + j.val then segmentOf w else segs[j] := by
  simp [segsWithWord]

theorem segsWithWord_of_segment (w : Word) (segs : Vector Segment 6) (j : Fin 6) :
    segsWithWord (6 + j.val) w segs = segs.set j (segmentOf w) := by
  ext i hi
  simp [segsWithWord, Vector.getElem_set]

theorem segsWithWord_of_other {k : Nat} (w : Word) (segs : Vector Segment 6) (hk : k < 6) :
    segsWithWord k w segs = segs := by
  ext i hi
  have hne : k ≠ 6 + i := by omega
  simp [segsWithWord, hne]

/-- The plan with word `k` written, field by field. -/
theorem planWithWord_eq {k : Nat} (w : Word) (q : Plan) (hk : k < 12) :
    planWithWord k w q = { q with
      validFlag := if k = 0 then flag w 15 else q.validFlag
      mode := if k = 0 then (if flag w 14 then .product else .sum) else q.mode
      segCount := if k = 0 then BitVec.ofNat 3 (field w 0 3) else q.segCount
      f1 := if k = 1 then BitVec.ofNat 13 (field w 0 13) else q.f1
      a1 := if k = 2 then BitVec.ofNat 6 (field w 0 6) else q.a1
      f2 := if k = 3 then BitVec.ofNat 13 (field w 0 13) else q.f2
      a2 := if k = 4 then BitVec.ofNat 6 (field w 0 6) else q.a2
      chainPlan := if k = 5 then BitVec.ofNat 5 (field w 10 5) else q.chainPlan
      final := if k = 5 then finalActionOf (field w 8 2) else q.final
      repeats := if k = 5 then BitVec.ofNat 8 (field w 0 8) else q.repeats
      segs := segsWithWord k w q.segs } := by
  rcases Nat.lt_or_ge k 6 with hfield | hseg
  · rw [segsWithWord_of_other w q.segs hfield]
    interval_cases k <;> rfl
  · obtain ⟨j, rfl⟩ : ∃ j : Fin 6, k = 6 + j.val := ⟨⟨k - 6, by omega⟩, by simp; omega⟩
    rw [segsWithWord_of_segment]
    fin_cases j <;> rfl

/-! ### What a captured plan word does (R31, R32) -/

section
variable {off : Offset} {b : Bank} {p : PlanNo} {k : Nat} {w : Word} {e : Exchange}

/-- Words 12–15 of a plan carry nothing. -/
theorem Exchange.planWrite_of_spare (ho : planOffset off = (b, p, k)) (hk : 12 ≤ k) : e.planWrite off w = e := by
  simp only [Exchange.planWrite, ho, if_pos hk]

theorem Exchange.planWrite_of_idle (ho : planOffset off = (b, p, k)) (hk : k < 12) (h : (e.plans.bank b).state = .idle) :
    e.planWrite off w = { e with plans := e.plans.takeWord b p k w } := by
  simp only [Exchange.planWrite, ho, if_neg (Nat.not_le.2 hk), if_pos h]

theorem Exchange.planWrite_of_not_idle (ho : planOffset off = (b, p, k)) (hk : k < 12)
    (h : (e.plans.bank b).state ≠ .idle) :
    e.planWrite off w = e.submit .planTable .livePlanWrite p.val off.toNat := by
  simp only [Exchange.planWrite, ho, if_neg (Nat.not_le.2 hk), if_neg h]

end

/-- A plan word at the head is handed over to the plan table (R160). -/
theorem execPlanWordWrite_of_headIs {s : State} {off : Offset} {w : Word} (hlow : 0x100 ≤ off.toNat)
    (hhigh : off.toNat < 0x300) (h : s.headIs off.toNat w = true) :
    execPlanWordWrite off w s = .next (s.taken.onExchange (Exchange.planWrite off w)) := by
  rw [execPlanWordWrite, if_pos ⟨hlow, hhigh⟩, handOver_of_headIs h]

/-- Settles O36: the offset's bank, plan and word, then by the word and the state of the bank; in an IDLE bank the plan
written is read off field by field. -/
theorem planWordIntoAnIdleBank : Obligations.PlanWordIntoAnIdleBank := by
  intro off w s b p k q hlow hhigh hhead hb hp hk hq
  have ho : planOffset off = (b, p, k) := hk ▸ planOffset_eq hb hp
  have hexec : exec (.planWordWrite off w) s = .next (s.taken.onExchange (Exchange.planWrite off w)) :=
    execPlanWordWrite_of_headIs hlow hhigh hhead
  refine ⟨fun hspare => ?spare, fun hcarries hused => ?used, fun hcarries hidle => ?idle⟩
  case spare =>
    rw [hexec, State.onExchange, Exchange.planWrite_of_spare ho hspare]
    rfl
  case used =>
    rw [hexec, State.onExchange, Exchange.planWrite_of_not_idle ho hcarries hused]
    rfl
  case idle =>
    refine ⟨{ planWithWord k w q with status := .unvalidated }, ?_, ?_⟩
    · rw [hexec, State.onExchange, Exchange.planWrite_of_idle ho hcarries hidle, hq]
      rfl
    · rw [planWithWord_eq w q hcarries]
      refine ⟨rfl, rfl, rfl, ?_⟩
      simp only [apply_ite BitVec.toNat, ofNat_field_toNat, finalActionOf_eq, segsWithWord_getElem, segmentOf_eq]
      simp [field]

end Sys2Proof.Machine
end

