-- ==== Sys2Proof/Proofs/SampleCodes.lean ====
section
/-!
PROOF. The sample arithmetic: a code as sign, segment and step (R76, R80), the middle of a step encoding back to its code
(R82), and the floors and limits of the sample path (R72–R75, R79).
-/
namespace Sys2Proof.Machine

/-! ### The segment and the step of a magnitude (R80) -/

/-- The segment of a magnitude. -/
def magSegment (m : Nat) : Nat := if m < 32 then 0 else m.log2 - 4

/-- The step of a magnitude in its segment. -/
def magStep (m : Nat) : Nat := if m < 32 then m / 2 else (m - 2 ^ (magSegment m + 4)) / 2 ^ magSegment m

@[simp] theorem magSegment_of_lt {m : Nat} (h : m < 32) : magSegment m = 0 := if_pos h

@[simp] theorem magStep_of_lt {m : Nat} (h : m < 32) : magStep m = m / 2 := if_pos h

theorem magStep_of_le {m : Nat} (h : 32 ≤ m) : magStep m = (m - 2 ^ (magSegment m + 4)) / 2 ^ magSegment m :=
  if_neg (Nat.not_lt.2 h)

theorem magSegment_bounds {m : Nat} (h : 32 ≤ m) :
    1 ≤ magSegment m ∧ 2 ^ (magSegment m + 4) ≤ m ∧ m < 2 ^ (magSegment m + 5) := by
  have hlog : 5 ≤ m.log2 := (Nat.le_log2 (by omega)).2 h
  have hseg : magSegment m + 4 = m.log2 := by rw [magSegment, if_neg (Nat.not_lt.2 h)]; omega
  obtain ⟨hlo, hhi⟩ := (Nat.log2_eq_iff (by omega)).1 hseg.symm
  exact ⟨by omega, hlo, hhi⟩

/-- A magnitude between two powers of two lies in the segment they bound. -/
theorem magSegment_eq {m s : Nat} (hs : 1 ≤ s) (hlo : 2 ^ (s + 4) ≤ m) (hhi : m < 2 ^ (s + 5)) : magSegment m = s := by
  have h32 : 32 ≤ m := (Nat.pow_le_pow_right (n := 2) (by decide) (by omega : 5 ≤ s + 4)).trans hlo
  have hlog : m.log2 = s + 4 := (Nat.log2_eq_iff (by omega)).2 ⟨hlo, hhi⟩
  rw [magSegment, if_neg (Nat.not_lt.2 h32), hlog, Nat.add_sub_cancel]

theorem magSegment_le_seven {m : Nat} (h : m ≤ 4095) : magSegment m ≤ 7 := by
  rcases Nat.lt_or_ge m 32 with hsmall | hlarge
  · simp [hsmall]
  · obtain ⟨-, hlo, -⟩ := magSegment_bounds hlarge
    have : magSegment m + 4 < 12 := (Nat.pow_lt_pow_iff_right (a := 2) (by decide)).1 (by omega)
    omega

theorem magStep_lt (m : Nat) : magStep m < 16 := by
  rcases Nat.lt_or_ge m 32 with hsmall | hlarge
  · rw [magStep_of_lt hsmall]; omega
  · obtain ⟨-, hlo, hhi⟩ := magSegment_bounds hlarge
    have hwidth : 2 ^ (magSegment m + 5) = 2 ^ (magSegment m + 4) + 16 * 2 ^ magSegment m := by ring
    rw [magStep_of_le hlarge, Nat.div_lt_iff_lt_mul (by positivity)]
    omega

/-! ### The middle of a step (R76) -/

/-- The magnitude segment `s` and step `q` decode to. -/
def stepMiddle (s q : Nat) : Nat := if s = 0 then 2 * q + 1 else 2 ^ (s + 4) + q * 2 ^ s + 2 ^ (s - 1)

theorem stepMiddle_zero (q : Nat) : stepMiddle 0 q = 2 * q + 1 := rfl

/-- Above segment 0 a step is `2 * 2 ^ t` wide; its middle is half a step up. -/
theorem stepMiddle_succ (t q : Nat) : stepMiddle (t + 1) q = 2 ^ (t + 1 + 4) + (q * 2 ^ (t + 1) + 2 ^ t) := by
  rw [stepMiddle, if_neg t.succ_ne_zero, Nat.add_sub_cancel, Nat.add_assoc]

theorem stepMiddle_pos (s q : Nat) : 0 < stepMiddle s q := by
  cases s with
  | zero => exact Nat.succ_pos _
  | succ t => rw [stepMiddle_succ]; positivity

theorem stepMiddle_le {s q : Nat} (hs : s < 8) (hq : q < 16) : stepMiddle s q ≤ 4032 := by
  cases s with
  | zero => rw [stepMiddle_zero]; omega
  | succ t =>
    have : t < 7 := by omega
    rw [stepMiddle_succ]
    interval_cases t <;> omega

theorem magSegment_stepMiddle {s q : Nat} (hq : q < 16) : magSegment (stepMiddle s q) = s := by
  cases s with
  | zero => exact magSegment_of_lt (by rw [stepMiddle_zero]; omega)
  | succ t =>
    have hstep : q * 2 ^ (t + 1) ≤ 15 * 2 ^ (t + 1) := Nat.mul_le_mul_right _ (by omega)
    have hwidth : 2 ^ (t + 1 + 5) = 2 ^ (t + 1 + 4) + 16 * 2 ^ (t + 1) := by ring
    have : 0 < 2 ^ t := by positivity
    rw [stepMiddle_succ]
    exact magSegment_eq (by omega) (Nat.le_add_right _ _) (by omega)

theorem magStep_stepMiddle {s q : Nat} (hq : q < 16) : magStep (stepMiddle s q) = q := by
  cases s with
  | zero => rw [stepMiddle_zero, magStep_of_lt (by omega)]; omega
  | succ t =>
    have hsegment : 32 ≤ 2 ^ (t + 1 + 4) := Nat.pow_le_pow_right (n := 2) (by decide) (by omega : 5 ≤ t + 1 + 4)
    have hlarge : 32 ≤ stepMiddle (t + 1) q := by
      rw [stepMiddle_succ]
      exact hsegment.trans (Nat.le_add_right _ _)
    have hhalf : 2 ^ t < 2 ^ (t + 1) := Nat.pow_lt_pow_succ (by decide)
    rw [magStep_of_le hlarge, magSegment_stepMiddle hq, stepMiddle_succ, Nat.add_sub_cancel_left,
      Nat.mul_comm, Nat.mul_add_div (by positivity), Nat.div_eq_of_lt hhalf, Nat.add_zero]

/-! ### Codes (R76, R80) -/

theorem signBit_iff (b : Byte) : b.getLsbD 7 = true ↔ 128 ≤ b.toNat := by
  simpa [BitVec.msb_eq_getLsbD_last] using Bool.eq_iff_iff.1 (BitVec.msb_eq_decide b)

theorem encodeValue_toNat {z : Int} (hlo : -4095 ≤ z) (hhi : z ≤ 4095) :
    (encodeValue z).toNat = (if z < 0 then 128 else 0) + magSegment z.natAbs * 16 + magStep z.natAbs := by
  have hseg : magSegment z.natAbs ≤ 7 := magSegment_le_seven (by omega)
  have hstep := magStep_lt z.natAbs
  calc (encodeValue z).toNat
      = ((if z < 0 then 128 else 0) + magSegment z.natAbs * 16 + magStep z.natAbs) % 256 := BitVec.toNat_ofNat ..
    _ = _ := Nat.mod_eq_of_lt (by split <;> omega)

/-- The three fields of an encoding: sign bit, segment and step. -/
theorem encodeValue_fields {z : Int} (hlo : -4095 ≤ z) (hhi : z ≤ 4095) :
    ((encodeValue z).getLsbD 7 = true ↔ z < 0)
    ∧ (encodeValue z).toNat / 16 % 8 = magSegment z.natAbs ∧ (encodeValue z).toNat % 16 = magStep z.natAbs := by
  have hseg : magSegment z.natAbs ≤ 7 := magSegment_le_seven (by omega)
  have hstep := magStep_lt z.natAbs
  rw [signBit_iff, encodeValue_toNat hlo hhi]
  split <;> omega

theorem decodeCode_eq (b : Byte) :
    decodeCode b = if 128 ≤ b.toNat then -(stepMiddle (b.toNat / 16 % 8) (b.toNat % 16) : Int)
      else stepMiddle (b.toNat / 16 % 8) (b.toNat % 16) := by
  have hsign : b.toNat / 128 = 1 ↔ 128 ≤ b.toNat := by have := b.isLt; omega
  rw [← ite_congr (propext hsign) (fun _ => rfl) (fun _ => rfl)]
  rfl

theorem natAbs_decodeCode (b : Byte) :
    (decodeCode b).natAbs = stepMiddle (b.toNat / 16 % 8) (b.toNat % 16) := by
  rw [decodeCode_eq]; split <;> simp

theorem decodeCode_neg_iff (b : Byte) : decodeCode b < 0 ↔ 128 ≤ b.toNat := by
  have := stepMiddle_pos (b.toNat / 16 % 8) (b.toNat % 16)
  rw [decodeCode_eq]; split <;> omega

theorem decodeCode_bounds (b : Byte) : decodeCode b ≠ 0 ∧ -4032 ≤ decodeCode b ∧ decodeCode b ≤ 4032 := by
  have hpos := stepMiddle_pos (b.toNat / 16 % 8) (b.toNat % 16)
  have hle : stepMiddle (b.toNat / 16 % 8) (b.toNat % 16) ≤ 4032 :=
    stepMiddle_le (Nat.mod_lt _ (by decide)) (Nat.mod_lt _ (by decide))
  rw [← natAbs_decodeCode] at hpos hle
  omega

/-- The decoded value encodes to the code it came from: the middle of a step lies in that step (R82). -/
theorem encodeValue_decodeCode (b : Byte) : encodeValue (decodeCode b) = b := by
  obtain ⟨-, hlo, hhi⟩ := decodeCode_bounds b
  have hq : b.toNat % 16 < 16 := Nat.mod_lt _ (by decide)
  apply BitVec.eq_of_toNat_eq
  rw [encodeValue_toNat (by omega) (by omega), natAbs_decodeCode, magSegment_stepMiddle hq, magStep_stepMiddle hq,
    ite_congr (propext (decodeCode_neg_iff b)) (fun _ => rfl) (fun _ => rfl)]
  have := b.isLt
  split <;> omega

/-! ### Trim and limit (R79) -/

theorem trimValue_twelve (u : Int) : trimValue 12 u = u := Int.mul_ediv_cancel u (by decide : (16384 : Int) ≠ 0)

theorem limitValue_eq (z : Int) : limitValue z = if 4095 < z then 4095 else if z < -4095 then -4095 else z := by
  unfold limitValue; split_ifs <;> omega

theorem limitValue_of_bounds {z : Int} (hlo : -4095 ≤ z) (hhi : z ≤ 4095) : limitValue z = z := by
  rw [limitValue_eq, if_neg (by omega), if_neg (by omega)]

theorem codeOf_some (a : Fin 48) (u : Int) : codeOf a (some u) = encodeValue (limitValue (trimValue a u)) := rfl

/-- Division by a positive number is the floor. -/
theorem floor_bounds (x : Int) {d : Int} (hd : 0 < d) : d * (x / d) ≤ x ∧ x < d * (x / d + 1) :=
  ⟨Int.mul_ediv_self_le hd.ne', by rw [mul_add, mul_one]; exact Int.lt_mul_ediv_self_add hd⟩

/-! ### The clauses of the sample arithmetic -/

theorem decode_then_encode (b : Byte) :
    decodeCode b ≠ 0 ∧ -4032 ≤ decodeCode b ∧ decodeCode b ≤ 4032
    ∧ (∀ s q : Nat, s = b.toNat / 16 % 8 → q = b.toNat % 16 →
      (decodeCode b).natAbs = if s = 0 then 2 * q + 1 else 2 ^ (s + 4) + q * 2 ^ s + 2 ^ (s - 1))
    ∧ limitValue (trimValue 12 (decodeCode b)) = decodeCode b
    ∧ (decodeCode b < 0 ↔ b.getLsbD 7 = true) ∧ codeOf 12 (some (decodeCode b)) = b := by
  obtain ⟨hne, hlo, hhi⟩ := decodeCode_bounds b
  have hkept : limitValue (trimValue 12 (decodeCode b)) = decodeCode b := by
    rw [trimValue_twelve, limitValue_of_bounds (by omega) (by omega)]
  refine ⟨hne, hlo, hhi, ?magnitude, hkept, (decodeCode_neg_iff b).trans (signBit_iff b).symm, ?code⟩
  case magnitude => rintro _ _ rfl rfl; exact natAbs_decodeCode b
  case code => rw [codeOf_some, hkept, encodeValue_decodeCode]

theorem encodeValue_segment_step (z : Int) (s q : Nat) (hlo : -4095 ≤ z) (hhi : z ≤ 4095)
    (hs : s = (encodeValue z).toNat / 16 % 8) (hq : q = (encodeValue z).toNat % 16) :
    ((encodeValue z).getLsbD 7 = true ↔ z < 0)
    ∧ (z.natAbs < 32 → s = 0 ∧ q = z.natAbs / 2)
    ∧ (32 ≤ z.natAbs → 1 ≤ s ∧ 2 ^ (s + 4) ≤ z.natAbs ∧ z.natAbs < 2 ^ (s + 5)
      ∧ q = (z.natAbs - 2 ^ (s + 4)) / 2 ^ s) := by
  obtain ⟨hsign, hseg, hstep⟩ := encodeValue_fields hlo hhi
  rw [hseg] at hs
  rw [hstep] at hq
  subst hs hq
  refine ⟨hsign, fun hsmall => ⟨magSegment_of_lt hsmall, magStep_of_lt hsmall⟩, fun hlarge => ?_⟩
  obtain ⟨hone, hbelow, habove⟩ := magSegment_bounds hlarge
  exact ⟨hone, hbelow, habove, magStep_of_le hlarge⟩

/-- Settles O18: the codes by the middle of a step, the tables by their nearest integers, the rest by floors and the
equations of `combine`. -/
theorem codesAndValuesAgree : Obligations.CodesAndValuesAgree := by
  refine ⟨decode_then_encode, encodeValue_segment_step, fun _ => sineTable_nearest, ?gain, ?trimGain, ?component,
    ?combination, ?trimmed⟩
  case gain =>
    rintro a _ rfl
    obtain ⟨hpos, hlo, hhi⟩ := gainOf_nearest a
    exact ⟨hpos, hlo.le, hhi⟩
  case trimGain =>
    rintro a _ rfl
    obtain ⟨hpos, hlo, hhi⟩ := trimOf_nearest a
    exact ⟨hpos, hlo.le, hhi⟩
  case component =>
    rintro phase a _ _ rfl rfl
    exact floor_bounds _ (by decide)
  case combination =>
    intro mode second v1 v2 y
    refine ⟨rfl, rfl, rfl, rfl, ?_⟩
    rintro rfl
    exact floor_bounds _ (by decide)
  case trimmed =>
    rintro a u _ rfl
    obtain ⟨hlo, hhi⟩ := floor_bounds (u * trimOf a) (d := 16384) (by decide)
    exact ⟨hlo, hhi, by rw [codeOf_some, limitValue_eq]⟩

end Sys2Proof.Machine
end

