-- ==== Sys2Proof/Proofs/SlotWords.lean ====
section
/-!
PROOF. Slot words: the map entry a word carries (R8), which circuit of the next map a claim meets (R90, R91), and what the
handover changes with and without a conflict.
-/
namespace Sys2Proof.Machine

/-! ### The entry a slot word carries (R8) -/

theorem flag_fifteen_eq (w : Word) : flag w 15 = decide (w.toNat / 2 ^ 15 = 1) := by
  have hbit : w.toNat / 2 ^ 15 < 2 := by have := w.isLt; omega
  rw [flag, ← BitVec.testBit_toNat, Nat.testBit_eq_decide_div_mod_eq, Nat.mod_eq_of_lt hbit]

theorem slotEntry_eq {w : Word} {m : MapEntry} (hmapped : m.mapped = decide (w.toNat / 2 ^ 15 = 1))
    (hslot : m.slot.val = w.toNat / 256 % 64) (htrim : m.trim.val = min (w.toNat % 64) 47) : slotEntry w = m := by
  have hslot' : field w 8 6 = m.slot.val := hslot.symm
  have htrim' : min (field w 0 6) 47 = m.trim.val := by simp [field, htrim]
  rw [slotEntry, flag_fifteen_eq, ← hmapped, hslot', htrim', Fin.ofNat_val_eq_self, Fin.ofNat_val_eq_self]

/-! ### The other holder of a slot in the next map (R91) -/

section
variable {h : Highway} {p q : Circ} {g : Fin 64}

/-- The circuit found is another one, mapped to the slot. -/
theorem Highway.holds_of_otherHolder (hq : h.otherHolder p g = some q) :
    q ≠ p ∧ h.next[q].mapped = true ∧ h.next[q].slot = g := by
  have hfound := List.find?_some hq
  simp only [Bool.and_eq_true, bne_iff_ne, beq_iff_eq, and_assoc] at hfound
  exact hfound

theorem Highway.otherHolder_eq_none_iff :
    h.otherHolder p g = none ↔ ∀ q : Circ, q ≠ p → h.next[q].mapped = true → h.next[q].slot ≠ g := by
  simp [Highway.otherHolder, allCircuits]

/-- In a map where no two circuits share a slot, the other holder is the only one. -/
theorem Highway.otherHolder_eq_some (hmap : MapOk h.next) (hne : q ≠ p) (hmapped : h.next[q].mapped = true)
    (hslot : h.next[q].slot = g) : h.otherHolder p g = some q := by
  cases hr : h.otherHolder p g with
  | none => exact absurd hslot (Highway.otherHolder_eq_none_iff.1 hr q hne hmapped)
  | some r =>
    obtain ⟨-, hrmapped, hrslot⟩ := Highway.holds_of_otherHolder hr
    rw [hmap r q hrmapped hmapped (hrslot.trans hslot.symm)]

end

/-! ### What a handed over slot word changes (R90, R91) -/

section
variable {s : State} {p q : Circ} {m : MapEntry}

/-- Without a conflict the circuit's entry of the next map is replaced. -/
theorem State.slotWrite_of_no_conflict
    (h : m.mapped = false ∨ ∀ q : Circ, q ≠ p → s.highway.next[q].mapped = true → s.highway.next[q].slot ≠ m.slot) :
    s.slotWrite p m = { s with highway := { s.highway with next := s.highway.next.set p m } } := by
  have hnone : (if m.mapped then s.highway.otherHolder p m.slot else none) = none := by
    rcases h with hunmapped | hfree
    · simp [hunmapped]
    · simp [Highway.otherHolder_eq_none_iff.2 hfree]
  simp only [State.slotWrite, hnone]

/-- With a conflict the other holder is unmapped, the circuit takes the slot, and the conflict is submitted. -/
theorem State.slotWrite_of_conflict (hm : m.mapped = true) (hq : s.highway.otherHolder p m.slot = some q) :
    s.slotWrite p m = State.submit
      { s with highway := { s.highway with
          next := (s.highway.next.set q { s.highway.next[q] with mapped := false }).set p m } }
      .highwayPort .slotConflict q.val m.slot.val := by
  simp only [State.slotWrite, hm, if_true, hq]

end

/-- A slot word at the head is handed over to the highway port (R90, R160). -/
theorem execSlotWordWrite_of_headIs {s : State} {p : Circ} {w : Word} (h : s.headIs (0x080 + p.val) w = true) :
    execSlotWordWrite p w s = .next (s.taken.slotWrite p (slotEntry w)) := handOver_of_headIs h

/-- Settles O22: the word's entry is handed over, without a conflict, or with the one other holder of the slot. -/
theorem slotWordChangesTheNextMap : Obligations.SlotWordChangesTheNextMap := by
  intro p w m s hhead hmapped hslot htrim
  have hexec : exec (.slotWordWrite p w) s = .next (s.taken.slotWrite p m) :=
    slotEntry_eq hmapped hslot htrim ▸ execSlotWordWrite_of_headIs hhead
  refine ⟨fun hfree => ?free, fun q hm hmap hne hqmapped hqslot => ?conflict⟩
  case free =>
    rw [hexec, State.slotWrite_of_no_conflict (s := s.taken) hfree]
    rfl
  case conflict =>
    have hholder : s.highway.otherHolder p m.slot = some q :=
      Highway.otherHolder_eq_some hmap hne hqmapped hqslot
    rw [hexec, State.slotWrite_of_conflict (s := s.taken) hm hholder]
    rfl

end Sys2Proof.Machine
end

