-- ==== Sys2Proof/Proofs/LoadGrade.lean ====
section
/-!
PROOF. The load grade: the rise, fall and stay of R127, and what an evaluation does with the grade it finds (R126, R128).
-/
namespace Sys2Proof.Machine

/-! ### The grade an evaluation gives (R127) -/

/-- The condition of a rise from the present grade: `up[i]` is the threshold of grade i + 1. -/
def CongestionUnit.Rises (c : CongestionUnit) (load : Nat) : Prop := ∃ i : Fin 3, i.val = c.grade.val ∧ c.up[i] ≤ load

/-- The condition of a fall from the present grade, where no rise is due: `down[i]` is the threshold of grade i + 1. -/
def CongestionUnit.Falls (c : CongestionUnit) (load : Nat) : Prop := ∃ i : Fin 3, i.val + 1 = c.grade.val ∧ load ≤ c.down[i]

section
variable {c : CongestionUnit} {load : Nat}

theorem CongestionUnit.not_up_le_of_not_rises (h : ¬ c.Rises load) (i : Fin 3) (hi : c.grade = i.castSucc) :
    ¬ c.up[i] ≤ load := fun hup => h ⟨i, congrArg Fin.val hi.symm, hup⟩

theorem CongestionUnit.not_le_down_of_not_falls (h : ¬ c.Falls load) (i : Fin 3) (hi : c.grade = i.succ) :
    ¬ load ≤ c.down[i] := fun hdown => h ⟨i, congrArg Fin.val hi.symm, hdown⟩

theorem CongestionUnit.nextGrade_of_rises (h : c.Rises load) : (c.nextGrade load).val = c.grade.val + 1 := by
  obtain ⟨i, hi, hup⟩ := h
  have hg : c.grade = i.castSucc := Fin.ext hi.symm
  rw [nextGrade, hg]
  match i with
  | 0 => exact congrArg Fin.val (if_pos hup)
  | 1 => exact congrArg Fin.val (if_pos hup)
  | 2 => exact congrArg Fin.val (if_pos hup)

theorem CongestionUnit.nextGrade_of_falls (hrise : ¬ c.Rises load) (h : c.Falls load) :
    (c.nextGrade load).val = c.grade.val - 1 := by
  obtain ⟨i, hi, hdown⟩ := h
  have hg : c.grade = i.succ := Fin.ext hi.symm
  rw [nextGrade, hg]
  match i with
  | 0 => exact congrArg Fin.val ((if_neg (not_up_le_of_not_rises hrise 1 hg)).trans (if_pos hdown))
  | 1 => exact congrArg Fin.val ((if_neg (not_up_le_of_not_rises hrise 2 hg)).trans (if_pos hdown))
  | 2 => exact congrArg Fin.val (if_pos hdown)

theorem CongestionUnit.nextGrade_of_stays (hrise : ¬ c.Rises load) (hfall : ¬ c.Falls load) :
    c.nextGrade load = c.grade := by
  rw [nextGrade]
  match hg : c.grade with
  | 0 => exact if_neg (not_up_le_of_not_rises hrise 0 hg)
  | 1 => exact (if_neg (not_up_le_of_not_rises hrise 1 hg)).trans (if_neg (not_le_down_of_not_falls hfall 0 hg))
  | 2 => exact (if_neg (not_up_le_of_not_rises hrise 2 hg)).trans (if_neg (not_le_down_of_not_falls hfall 1 hg))
  | 3 => exact if_neg (not_le_down_of_not_falls hfall 2 hg)

end

/-! ### An evaluation (R126, R128) -/

section
variable {s : State} {e : Exchange} {g : Cls}

theorem Exchange.evaluateGrade_of_same (h : e.cong.nextGrade e.orders.load = e.cong.grade) : e.evaluateGrade = e :=
  if_pos h

theorem Exchange.evaluateGrade_of_change (h : e.cong.nextGrade e.orders.load = g) (hne : g ≠ e.cong.grade) :
    e.evaluateGrade =
      (Exchange.mark { e with cong := { e.cong with grade := g, lamp := Lamp.off } } .global).submit .congestionUnit
        .gradeChanged 0 (0x100 * e.cong.grade.val + g.val) := by
  subst h
  exact if_neg hne

/-- A wait boundary that is due is taken, and the exchange evaluates the grade. -/
theorem execLoadGradeEvaluation_of_due (hrun : s.running = true) (hdue : 0 < s.highway.waitGradeDue) :
    execLoadGradeEvaluation s =
      .next (State.onExchange { s with highway := { s.highway with waitGradeDue := s.highway.waitGradeDue - 1 } }
        Exchange.evaluateGrade) := by
  rw [execLoadGradeEvaluation, event_of_running hrun, State.takeEvaluation, if_neg hdue.ne']

end

/-- Settles O14: the grade stated is the one `nextGrade` gives, by rise, fall and stay; then with and without a change. -/
theorem loadGradeMovesByOneStep : Obligations.LoadGradeMovesByOneStep := by
  rintro s _ g hrun hdue rfl hg
  have hnext : s.cong.nextGrade s.orders.load = g := by
    apply Fin.ext
    split_ifs at hg with hrise hfall
    · exact (CongestionUnit.nextGrade_of_rises hrise).trans hg.symm
    · exact (CongestionUnit.nextGrade_of_falls hrise hfall).trans hg.symm
    · exact (congrArg Fin.val (CongestionUnit.nextGrade_of_stays hrise hfall)).trans hg.symm
  refine (execLoadGradeEvaluation_of_due hrun hdue).trans (congrArg _ ?_)
  split_ifs with hsame
  case pos => exact State.onExchange_idle (Exchange.evaluateGrade_of_same (hnext.trans hsame))
  case neg =>
    rw [State.onExchange, Exchange.evaluateGrade_of_change hnext hsame]
    rfl

end Sys2Proof.Machine
end

