-- ==== Sys2Proof/Proofs/Acknowledge.lean ====
section
/-!
PROOF. The acknowledge word (R162): which flags a word clears, when the reset cause word changes with them (R167), and the
marks an acknowledge adds (R174).
-/
namespace Sys2Proof.Machine

/-! ### Flags a word clears -/

/-- Clearing a flag by name leaves it as it was unless it was set and named. -/
theorem and_not_eq_self_iff (held named : Bool) : (held && !named) = held ↔ (held && named) = false := by
  cases held <;> simp

/-- The reset-cause flags once those that `w` names are cleared. -/
def Bus.clearCauses (w : Word) (b : Bus) : Bus :=
  { b with
    causePower := b.causePower && !flag w 0
    causePin := b.causePin && !flag w 1
    causeSoft := b.causeSoft && !flag w 2 }

/-- Whether `w` names a reset-cause flag that is set. -/
def Bus.namesCause (w : Word) (b : Bus) : Bool :=
  b.causePower && flag w 0 || b.causePin && flag w 1 || b.causeSoft && flag w 2

/-- The three cause flags can be read back from the code the reset cause word shows (R167). -/
theorem causeCode_inj : ∀ soft pin power soft' pin' power' : Bool,
    BitVec.ofNat 16 (bitNat soft * 4 + bitNat pin * 2 + bitNat power)
        = BitVec.ofNat 16 (bitNat soft' * 4 + bitNat pin' * 2 + bitNat power')
      → soft = soft' ∧ pin = pin' ∧ power = power' := by decide

theorem Bus.resetCause_eq_iff (b c : Bus) :
    b.resetCause = c.resetCause ↔
      b.causePower = c.causePower ∧ b.causePin = c.causePin ∧ b.causeSoft = c.causeSoft := by
  constructor
  · intro h
    obtain ⟨hsoft, hpin, hpower⟩ := causeCode_inj _ _ _ _ _ _ h
    exact ⟨hpower, hpin, hsoft⟩
  · rintro ⟨hpower, hpin, hsoft⟩
    rw [Bus.resetCause, Bus.resetCause, hpower, hpin, hsoft]

/-- The reset cause word stays as it is exactly when no flag that is set is named. -/
theorem Bus.resetCause_clearCauses_eq_iff (w : Word) (b : Bus) :
    (b.clearCauses w).resetCause = b.resetCause ↔ b.namesCause w = false := by
  rw [Bus.resetCause_eq_iff, Bus.namesCause, Bool.or_eq_false_iff, Bool.or_eq_false_iff, and_assoc]
  exact and_congr (and_not_eq_self_iff ..) (and_congr (and_not_eq_self_iff ..) (and_not_eq_self_iff ..))

/-! ### A mark made on a condition (R174) -/

/-- The marks with that of `y` set when `c` holds. -/
def DirtyMarks.markWhen (c : Bool) (y : PostedWord) (d : DirtyMarks) : DirtyMarks := if c then d.put y true else d

theorem DirtyMarks.get_markWhen (c : Bool) (y x : PostedWord) (d : DirtyMarks) :
    (d.markWhen c y).get x = (d.get x || (x == y && c)) := by
  cases c with
  | false => simp [DirtyMarks.markWhen]
  | true =>
    rw [DirtyMarks.markWhen, if_pos rfl, DirtyMarks.get_put]
    by_cases hx : x = y <;> simp [hx]

/-- The state with the mark of `y` set when `c` holds. -/
def State.markWhen (c : Bool) (y : PostedWord) (s : State) : State :=
  { s with wire := { s.wire with dirty := s.wire.dirty.markWhen c y } }

@[simp] theorem State.markWhen_bus (c : Bool) (y : PostedWord) (s : State) : (s.markWhen c y).bus = s.bus := rfl
@[simp] theorem State.get_dirty_markWhen (c : Bool) (y x : PostedWord) (s : State) :
    (s.markWhen c y).wire.dirty.get x = (s.wire.dirty.get x || (x == y && c)) := DirtyMarks.get_markWhen c y x _

/-- A mark made unless nothing has changed is a mark made when something has. -/
theorem State.ite_mark_eq {p : Prop} [Decidable p] {c : Bool} (h : p ↔ c = false) (y : PostedWord) (s : State) :
    (if p then s else s.mark y) = s.markWhen c y := by
  cases c with
  | false => exact if_pos (h.2 rfl)
  | true => exact if_neg fun hp => Bool.noConfusion (h.1 hp)

/-! ### The acknowledge word -/

/-- The state with the flags that `w` names cleared, no word marked yet. -/
def State.clearNamed (w : Word) (s : State) : State :=
  { s with bus := s.bus.clearCauses w, reports := { s.reports with lost := s.reports.lost && !flag w 8 } }

@[simp] theorem State.clearNamed_bus (w : Word) (s : State) : (s.clearNamed w).bus = s.bus.clearCauses w := rfl
@[simp] theorem State.clearNamed_wire (w : Word) (s : State) : (s.clearNamed w).wire = s.wire := rfl

/-- An acknowledge clears what its word names, and marks each of the two words that show a flag it cleared. -/
theorem State.acknowledge_eq (w : Word) (s : State) :
    s.acknowledge w =
      ((s.clearNamed w).markWhen (s.bus.namesCause w) .resetCause).markWhen (s.reports.lost && flag w 8) .global :=
  (State.ite_mark_eq (and_not_eq_self_iff ..) .global _).trans <|
    congrArg (State.markWhen _ _) (State.ite_mark_eq (Bus.resetCause_clearCauses_eq_iff w s.bus) .resetCause _)

/-- An acknowledge word at the head is handed over to the capture and report units (R160, R162). -/
theorem execAcknowledgeWordWrite_of_headIs {w : Word} {s : State} (h : s.headIs 0x310 w = true) :
    execAcknowledgeWordWrite w s = .next (s.taken.acknowledge w) := handOver_of_headIs h

/-- Settles O8: the word at the head is handed over, and `State.acknowledge_eq` gives each part of the state it leaves. -/
theorem acknowledgeClearsNamedFlags : Obligations.AcknowledgeClearsNamedFlags := by
  intro w s hhead
  refine ⟨s.taken.acknowledge w, execAcknowledgeWordWrite_of_headIs hhead, ?_⟩
  rw [State.acknowledge_eq]
  refine ⟨?causes, rfl, fun x => ?marks, rfl⟩
  case causes => simp [Bus.clearCauses, flag]
  case marks => simp [Bus.namesCause, flag, Bool.and_assoc]

end Sys2Proof.Machine
end

