-- ==== Sys2Proof/Proofs/ConsumerIndex.lean ====
section
/-!
PROOF. The consumer index word: the index it carries, what the report unit does with it (R173, R175, R176), and its hand-over.
-/
namespace Sys2Proof.Machine

/-- The value written, taken modulo 128 (R173). -/
@[simp] theorem consumerIndex_val (w : Word) : (consumerIndex w).val = w.toNat % 128 := by
  simp [consumerIndex, field]

/-! ### The consumer shadow and the holdoff (R173, R176) -/

/-- The report unit with its consumer shadow replaced and, where that empties the ring, its holdoff restarted; attention
not yet re-evaluated. -/
def ReportUnit.moveConsumer (c : Fin 128) (r : ReportUnit) : ReportUnit :=
  { r with
    consumer := c
    holdoffRunning := if c = r.posted then decide (r.holdoffSetting ≠ 0) else r.holdoffRunning
    holdoffUs := if c = r.posted then 0 else r.holdoffUs }

section
variable {c : Fin 128} {r : ReportUnit}

/-- The host has not caught up: the shadow alone moves. -/
theorem ReportUnit.moveConsumer_of_ne (h : c ≠ r.posted) : r.moveConsumer c = { r with consumer := c } := by
  rw [moveConsumer, if_neg h, if_neg h]

/-- The ring is empty for the host: the holdoff starts afresh, or stops with a setting of 0. -/
theorem ReportUnit.moveConsumer_of_eq (h : c = r.posted) :
    r.moveConsumer c = { r with consumer := c, holdoffRunning := decide (r.holdoffSetting ≠ 0), holdoffUs := 0 } := by
  rw [moveConsumer, if_pos h, if_pos h]

end

/-- The consumer index word moves the shadow and the holdoff before attention is re-evaluated from both (R175). -/
theorem ReportUnit.writeConsumer_eq (c : Fin 128) (r : ReportUnit) :
    r.writeConsumer c = (r.moveConsumer c).attend := by
  by_cases hempty : c = r.posted
  case neg =>
    rw [moveConsumer_of_ne hempty, writeConsumer]
    exact congrArg attend (if_neg hempty)
  case pos =>
    rw [moveConsumer_of_eq hempty, writeConsumer]
    refine congrArg attend ((if_pos hempty).trans ?_)
    by_cases hzero : r.holdoffSetting = 0 <;> simp [hzero]

/-- A consumer index word at the head is handed over to the report unit (R160, R173). -/
theorem execConsumerIndexWordWrite_of_headIs {w : Word} {s : State} (h : s.headIs 0x30F w = true) :
    execConsumerIndexWordWrite w s =
      .next { s.taken with reports := (s.reports.moveConsumer (consumerIndex w)).attend } := by
  rw [execConsumerIndexWordWrite, handOver_of_headIs h, State.taken_reports, ReportUnit.writeConsumer_eq]

/-- Settles O9: the word at the head is handed over, and each field of the report unit it leaves is the one
`ReportUnit.moveConsumer` and `ReportUnit.attend` give. -/
theorem consumerWriteMovesShadowAndHoldoff : Obligations.ConsumerWriteMovesShadowAndHoldoff := fun w _ hhead =>
  ⟨_, execConsumerIndexWordWrite_of_headIs hhead, consumerIndex_val w, rfl, rfl, rfl, rfl⟩

end Sys2Proof.Machine
end

