-- ==== Sys2Proof/Proofs/Effects.lean ====
section
/-!
PROOF. What one command does, said once for all 89: nothing, its act, or, for a captured word, its act once the entry has left
the snoop queue. From it: every command answers a next state with the queue of waiting commands as it was, and an invariant
that the acts and the hand-over keep is kept by every step.
-/
namespace Sys2Proof.Machine

/-! ### The act of each command -/

/-- The order unit takes a served notice of the pool named (R23). -/
def State.takeServed (pool : Pool) (s : State) : State :=
  match pool with
  | .channels => s.onExchange (Exchange.takeChannelNotice ChannelMessage.isServed Exchange.applyChannelServed)
  | .players => s.onExchange (Exchange.takePlayerNotice PlayerMessage.isServed Exchange.applyPlayerServed)

/-- The store-lock input at the level `applied`; a change outside a reset marks the global status word (R152). -/
def State.setLock (applied : Bool) (s : State) : State :=
  let s' := { s with store := { s.store with lock := applied } }
  if s.running = true ∧ applied ≠ s.store.lock then s'.mark .global else s'

/-- What a command does to the state when its event occurs; `exec_effect` ties it to `exec`. -/
def Instr.act : Instr → State → State
  | .processorWrite a v, s => { s with bus := s.bus.request a v }
  | .otherRegionWrite a v, s => { s with bus := s.bus.request a v }
  | .quiet p w, s => s.onExchange (Exchange.orderQuiet p w)
  | .toneShared p w, s => s.onExchange (Exchange.orderTone p w .toneShared)
  | .tonePrivate p w, s => s.onExchange (Exchange.orderTone p w .tonePrivate)
  | .announce p w, s => s.onExchange (Exchange.orderAnnounce p w)
  | .congestion p w, s => s.onExchange (Exchange.orderCongestion p w)
  | .clearAll p _, s => s.onExchange (Exchange.orderClearAll p)
  | .orderInvalidCode p w, s => s.onExchange (Exchange.refuseOrder p .orderInvalid w)
  | .detailWordWrite p w, s => s.onExchange (Exchange.writeDetail p w)
  | .slotWordWrite p w, s => s.slotWrite p (slotEntry w)
  | .planWordWrite off w, s => s.onExchange (Exchange.planWrite off w)
  | .liveBankWordWrite w, s => s.onExchange (Exchange.liveBankWrite w)
  | .congestionTableWordWrite k w, s => s.writeTable k w
  | .routeLevelWordWrite w, s => s.writeLevels w
  | .thresholdWordWrite g w, s => s.writeThreshold g w
  | .timingWord1Write w, s => s.writeTiming1 w
  | .timingWord2Write w, s => s.writeTiming2 w
  | .consumerIndexWordWrite w, s => { s with reports := s.reports.writeConsumer (consumerIndex w) }
  | .acknowledgeWordWrite w, s => s.acknowledge w
  | .softResetWordWrite w, s => if w = Config.softResetKey then s.softReset else s.submit .captureUnit .orderInvalid 63 w.toNat
  | .loadBegin w, s => s.onStore (StoreSide.beginWith .load w)
  | .loadConfirm w, s => s.onStore (StoreSide.confirmWith .load w (StoreSide.loadConfirmed (storeRecording w)))
  | .chunkReady w, s => s.onStore (StoreSide.chunkReady w)
  | .loadAbandon w, s => s.onStore (StoreSide.loadAbandon w)
  | .retireBegin w, s => s.onStore (StoreSide.beginWith .retire w)
  | .retireConfirm w, s => s.onStore (StoreSide.confirmWith .retire w (StoreSide.retireConfirmed (storeRecording w)))
  | .configBegin w, s => s.onStore (StoreSide.beginWith .config w)
  | .configConfirm w, s => s.onStore (StoreSide.confirmWith .config w (StoreSide.configConfirmed s.bus.settings.words))
  | .storeHold w, s => s.onStore (StoreSide.holdStore w)
  | .storeResume w, s => s.onStore (StoreSide.resumeStore w)
  | .clearStoreStatus w, s => s.onStore (StoreSide.clearStatus w)
  | .invalidStoreCommand w, s => s.onStore (StoreSide.invalidCommand w)
  | .storeParameterWrite k w, s => { s with store := s.store.setParam k w }
  | .loadBufferWrite k w, s => s.onStore (StoreSide.bufferWord k.val w)
  | .framePulse, s => s.takePulse
  | .frameLoss, s => s.passInterval
  | .frameComputation, s => s.takeComputation
  | .frameStartChannels, s => s.takeChannelsFrame
  | .cadenceUnitEnd k, s => s.onExchange (Exchange.unitEnd k)
  | .segmentEnd k, s => s.onExchange (Exchange.segmentEnd k)
  | .cycleEnd k, s => s.onExchange (Exchange.cycleEnd k)
  | .drainingNotice, s => s.onExchange Exchange.takeDrainNotice
  | .cadenceBoundary, s => s.takeCadence
  | .gapEnd p, s => s.onExchange (Exchange.gapEnd p)
  | .waitBoundaryOrders, s => s.takeWaitOrders
  | .waitLimitReached p, s => s.onExchange (Exchange.sendExpiry p)
  | .expiryRequest, s => s.onExchange Exchange.takeExpiryReq
  | .expiryAnswer, s => s.onExchange (Exchange.takePlayerNotice PlayerMessage.isAnswer Exchange.applyAnswer)
  | .servedNotice pool, s => s.takeServed pool
  | .doneNotice, s => s.onExchange (Exchange.takeChannelNotice (fun m => m == .done) fun x e =>
      e.onNotice x.circ x.tag (Exchange.complete x.circ .treatmentDone))
  | .withdrawnNotice, s => s.onExchange (Exchange.takeChannelNotice (fun m => m == .withdrawn) fun x e =>
      e.onNotice x.circ x.tag (Exchange.complete x.circ .planWithdrawn))
  | .repeatsExhaustedNotice, s => s.onExchange (Exchange.takePlayerNotice (fun m => m == .exhausted) fun x e =>
      e.onNotice x.circ x.tag (Exchange.followOn x.circ))
  | .unavailableNotice, s => s.onExchange (Exchange.takePlayerNotice (fun m => m == .unavailable) fun x e =>
      e.onNotice x.circ x.tag (Exchange.fallBack x.circ .annUnavailable))
  | .frameStartPlayers, s => s.takePlayersFrame
  | .annCycleEnd n, s => s.takeComputation.onExchange (Exchange.annCycleEnd n)
  | .waitBoundaryPlayers, s => s.takeWaitPlayers
  | .playerGapEnd n, s => s.onExchange (Exchange.playerGapEnd n)
  | .refillDelivery, s => s.takeDelivery
  | .fanoutLimitChange, s => s.takeFanout
  | .recordingWithdrawal, s => s.takeWithdrawal
  | .madeAvailableNotice, s => s.takeMadeAvailable
  | .scanDoneNotice, s => s.takeScanDone
  | .loadGradeEvaluation, s => s.takeEvaluation
  | .loadLampTimerExpiry, s => s.expireLoadLamp
  | .withdrawnAnswer, s => s.takeWithdrawn
  | .refillRequest, s => s.takeRefillReq
  | .refillReadStart, s => { s with store := s.store.startRefill s.fifoLevel }
  | .refillReadDone, s => s.atStepEnd PortStep.isRefill fun s => { s with store := s.store.refillDone }
  | .erasePulseStart good, s => s.onStore (StoreSide.startPulse good)
  | .erasePulseResume good left, s => s.onStore (StoreSide.resumePulse good left)
  | .erasePulseDone left, s => s.atStepEnd PortStep.isPulse fun s => s.onStore (StoreSide.pulseDone left)
  | .eraseVerifyDone, s => s.atStepEnd PortStep.isVerify fun s => s.onStore StoreSide.verifyDone
  | .programAttemptStart good, s => s.onStore (StoreSide.startAttempt good)
  | .programAttemptDone missed, s => s.atStepEnd PortStep.isAttempt fun s => s.onStore (StoreSide.attemptDone missed)
  | .storeSupplyGoodFall left missed, s => s.onStore (StoreSide.supplyFall left missed)
  | .storeLockChange applied, s => s.setLock applied
  | .storeLampTimerExpiry, s => s.expireStoreLamp
  | .storeScanEnd, s => if s.store.engine = .scanning then s.endScan else s
  | .reportSubmit b, s => s.takeReport b
  | .ringWordPost, s => s.postRingWord
  | .producerIndexWordPost, s => s.postProducer
  | .statusWordPost, s => s.postStatus
  | .postingCycleEnd, s => s.endPosting
  | .holdoffExpiry, s => s.expireHoldoff
  | .powerOnReset left missed, s => s.powerOn left missed
  | .pinReset left missed, s => if s.running then s.pinReset left missed else s
  | .resetRelease straps, s => if s.running then s else s.release straps
  | .highwayClockBitTime, s => s.clockBit

/-- Every way a command can turn `s` into `t`. -/
def Instr.Effect (i : Instr) (s t : State) : Prop := t = s ∨ t = Instr.act i s ∨ t = Instr.act i s.taken

theorem effect_of_event {i : Instr} {s : State} (h : exec i s = event (Instr.act i) s) :
    ∃ t, exec i s = .next t ∧ Instr.Effect i s t := by
  rw [h]
  cases hrun : s.running with
  | true => exact ⟨_, event_of_running hrun, .inr (.inl rfl)⟩
  | false => exact ⟨s, by simp [event, hrun], .inl rfl⟩

theorem effect_of_handOver {i : Instr} {off : Nat} {w : Word} {s : State} (h : exec i s = handOver off w (Instr.act i) s) :
    ∃ t, exec i s = .next t ∧ Instr.Effect i s t := by
  rw [h]
  cases hhead : s.headIs off w with
  | true => exact ⟨_, handOver_of_headIs hhead, .inr (.inr rfl)⟩
  | false => exact ⟨_, handOver_of_not_headIs hhead, .inl rfl⟩

/-- A command that first looks at the code of its word. -/
theorem effect_of_ite_handOver {i : Instr} {c : Prop} [Decidable c] {off : Nat} {w : Word} {s : State}
    (h : exec i s = if c then handOver off w (Instr.act i) s else .next s) :
    ∃ t, exec i s = .next t ∧ Instr.Effect i s t := by
  split at h
  · exact effect_of_handOver h
  · exact ⟨s, h, .inl rfl⟩

/-- Every command answers a next state, by one of the three ways. -/
theorem exec_effect (i : Instr) (s : State) : ∃ t, exec i s = .next t ∧ Instr.Effect i s t := by
  match i with
  | .processorWrite _ _ | .otherRegionWrite _ _ | .storeSupplyGoodFall _ _ | .storeLockChange _ | .postingCycleEnd
  | .powerOnReset _ _ | .pinReset _ _ | .resetRelease _ => exact ⟨_, rfl, .inr (.inl rfl)⟩
  | .quiet _ _ | .toneShared _ _ | .tonePrivate _ _ | .announce _ _ | .congestion _ _ | .clearAll _ _ => exact effect_of_ite_handOver rfl
  | .loadBegin _ | .loadConfirm _ | .chunkReady _ | .loadAbandon _ | .retireBegin _ | .retireConfirm _
  | .configBegin _ | .configConfirm _ | .storeHold _ | .storeResume _ | .clearStoreStatus _ => exact effect_of_ite_handOver rfl
  | .orderInvalidCode _ _ | .planWordWrite _ _ | .invalidStoreCommand _ => exact effect_of_ite_handOver rfl
  | .detailWordWrite _ _ | .slotWordWrite _ _ | .liveBankWordWrite _ | .congestionTableWordWrite _ _
  | .routeLevelWordWrite _ | .thresholdWordWrite _ _ | .timingWord1Write _ | .timingWord2Write _
  | .consumerIndexWordWrite _ | .acknowledgeWordWrite _ | .softResetWordWrite _ | .storeParameterWrite _ _
  | .loadBufferWrite _ _ => exact effect_of_handOver rfl
  | .framePulse | .frameLoss | .frameComputation | .frameStartChannels | .cadenceUnitEnd _ | .segmentEnd _
  | .cycleEnd _ | .drainingNotice | .cadenceBoundary | .gapEnd _ | .waitBoundaryOrders | .waitLimitReached _
  | .expiryRequest | .expiryAnswer | .doneNotice | .withdrawnNotice | .repeatsExhaustedNotice | .unavailableNotice
  | .frameStartPlayers | .annCycleEnd _ | .waitBoundaryPlayers | .playerGapEnd _ | .refillDelivery
  | .fanoutLimitChange | .recordingWithdrawal | .madeAvailableNotice | .scanDoneNotice | .loadGradeEvaluation
  | .loadLampTimerExpiry | .withdrawnAnswer | .refillRequest | .refillReadStart | .refillReadDone
  | .erasePulseStart _ | .erasePulseResume _ _ | .erasePulseDone _ | .eraseVerifyDone | .programAttemptStart _
  | .programAttemptDone _ | .storeLampTimerExpiry | .storeScanEnd | .reportSubmit _ | .ringWordPost
  | .producerIndexWordPost | .statusWordPost | .holdoffExpiry | .highwayClockBitTime => exact effect_of_event rfl
  | .servedNotice .channels | .servedNotice .players => exact effect_of_event rfl

/-- An invariant that the hand-over and every act keep is kept by every command. -/
theorem exec_keeps {I : State → Prop} (htaken : ∀ s, I s → I s.taken) (hact : ∀ i s, I s → I (Instr.act i s))
    {i : Instr} {s t : State} (hs : I s) (h : exec i s = .next t) : I t := by
  obtain ⟨t', ht', heffect⟩ := exec_effect i s
  obtain rfl : t' = t := Host.Outcome.next.inj (ht'.symm.trans h)
  rcases heffect with rfl | rfl | rfl
  · exact hs
  · exact hact i s hs
  · exact hact i _ (htaken s hs)

/-- The same of a step: the queue of waiting commands is no part of the invariant, and the local clock keeps it. -/
theorem step_keeps {I : State → Prop} (hpending : ∀ s l, I s → I { s with pending := l }) (hclock : ∀ s, I s → I (s.runClock 1))
    (htaken : ∀ s, I s → I s.taken) (hact : ∀ i s, I s → I (Instr.act i s)) {s t : State} (hs : I s)
    (h : step s = .next t) : I t := by
  unfold step at h
  split at h
  · cases h; exact hclock s hs
  · exact exec_keeps htaken hact (hpending s _ hs) h

/-! ### The queue of waiting commands -/

@[simp] theorem State.runClock_pending (s : State) (d : Nat) : (s.runClock d).pending = s.pending := by
  unfold State.runClock; split <;> rfl
end Sys2Proof.Machine
end

