-- ==== Sys2Proof/Proofs/FrameEvents.lean ====
section
/-!
PROOF. What the events of a frame leave alone: the deliveries of a frame start, the boundaries, a loss and a pulse change
neither the bus, nor the report unit, nor the store, nor the queue of waiting commands.
-/
namespace Sys2Proof.Machine

/-- What the events of a frame leave alone. -/
def State.aside (s : State) : List Instr × Bus × ReportUnit × StoreController := (s.pending, s.bus, s.reports, s.store)

theorem State.aside_eq {s t : State} (h : t.aside = s.aside) :
    t.pending = s.pending ∧ t.bus = s.bus ∧ t.reports = s.reports ∧ t.store = s.store := by
  simpa [State.aside] using h

/-- A measure that a function leaves as it is, its iterates leave as it is. -/
theorem iterate_frame {α γ : Type} (g : α → γ) {f : α → α} (h : ∀ a, g (f a) = g a) (n : Nat) (a : α) :
    g (f^[n] a) = g a := by
  induction n generalizing a with
  | zero => rfl
  | succ n ih => rw [Function.iterate_succ_apply, ih, h]

section
variable (s : State)

@[simp] theorem State.aside_mark (w : PostedWord) : (s.mark w).aside = s.aside := rfl
@[simp] theorem State.aside_submit (b : Block) (k : ReportKind) (x v : Nat) : (s.submit b k x v).aside = s.aside := rfl
@[simp] theorem State.aside_onExchange (f : Exchange → Exchange) : (s.onExchange f).aside = s.aside := rfl
@[simp] theorem State.aside_highway (h : Highway) : State.aside { s with highway := h } = s.aside := rfl
@[simp] theorem State.aside_computeFrame : s.computeFrame.aside = s.aside := rfl

@[simp] theorem State.aside_takePlayersFrame : s.takePlayersFrame.aside = s.aside := by
  unfold State.takePlayersFrame; split <;> simp

@[simp] theorem State.aside_takeComputation : s.takeComputation.aside = s.aside := by
  unfold State.takeComputation
  split
  · simp
  · rfl

@[simp] theorem State.aside_takeChannelsFrame : s.takeChannelsFrame.aside = s.aside := by
  unfold State.takeChannelsFrame
  split
  · simp
  · rfl

@[simp] theorem State.aside_settleFrame : s.settleFrame.aside = s.aside := by
  simp [State.settleFrame]

@[simp] theorem State.aside_takeCadence : s.takeCadence.aside = s.aside := by
  unfold State.takeCadence
  split
  · rfl
  · exact State.aside_takeComputation s

@[simp] theorem State.aside_takeWaitOrders : s.takeWaitOrders.aside = s.aside := by
  unfold State.takeWaitOrders
  split
  · rfl
  · exact State.aside_takeComputation s

@[simp] theorem State.aside_takeWaitPlayers : s.takeWaitPlayers.aside = s.aside := by
  unfold State.takeWaitPlayers
  split
  · rfl
  · simp

@[simp] theorem State.aside_takeEvaluation : s.takeEvaluation.aside = s.aside := by
  unfold State.takeEvaluation; split <;> simp

@[simp] theorem State.aside_settleBoundaries : s.settleBoundaries.aside = s.aside := by
  unfold State.settleBoundaries
  simp [iterate_frame State.aside State.aside_takeEvaluation, iterate_frame State.aside State.aside_takeWaitPlayers,
    iterate_frame State.aside State.aside_takeWaitOrders, iterate_frame State.aside State.aside_takeCadence]

@[simp] theorem State.aside_declareLoss : s.declareLoss.aside = s.aside := by
  simp [State.declareLoss]

@[simp] theorem State.aside_overdueLoss : s.overdueLoss.aside = s.aside := by
  unfold State.overdueLoss; split <;> simp

@[simp] theorem State.aside_restoreFrames : s.restoreFrames.aside = s.aside := rfl

@[simp] theorem State.aside_takePulse : s.takePulse.aside = s.aside := by
  unfold State.takePulse
  dsimp only
  split <;> simp

@[simp] theorem State.aside_clockBit : s.clockBit.aside = s.aside := by
  unfold State.clockBit
  dsimp only
  split
  · split <;> simp
  · simp

@[simp] theorem State.aside_slotWrite (p : Circ) (m : MapEntry) : (s.slotWrite p m).aside = s.aside := by
  unfold State.slotWrite; dsimp only; split <;> simp

end

/-! ### The player pool's settings and views -/

@[simp] theorem State.drainFanout_pending (s : State) : s.drainFanout.pending = s.pending :=
  foldl_frame State.pending _ (fun b _ => State.onExchange_pending b _) _ _

@[simp] theorem State.drainFanout_reports (s : State) : s.drainFanout.reports = s.reports :=
  foldl_frame State.reports _ (fun b _ => State.onExchange_reports b _) _ _

@[simp] theorem State.drainFanout_store (s : State) : s.drainFanout.store = s.store :=
  foldl_frame State.store _ (fun b _ => State.onExchange_store b _) _ _

@[simp] theorem State.drainFanout_highway (s : State) : s.drainFanout.highway = s.highway :=
  foldl_frame State.highway _ (fun b _ => State.onExchange_highway b _) _ _

@[simp] theorem State.drainFanout_bus (s : State) : s.drainFanout.bus = { s.bus with fanoutChanges := [] } :=
  foldl_frame State.bus _ (fun b _ => State.onExchange_bus b _) _ _

end Sys2Proof.Machine
end

