-- ==== Sys2Proof/Proofs/Steps.lean ====
section
/-!
PROOF. The step and the queue of waiting commands: a step runs the front command, every command answers a next state and leaves
the queue alone, an idle step passes one microsecond, and the machine right after reset meets the invariants.
-/
namespace Sys2Proof.Machine

/-! ### The queue of waiting commands under an act -/

section
variable (s : State)

theorem State.pending_of_aside {s t : State} (h : t.aside = s.aside) : t.pending = s.pending := (State.aside_eq h).1

@[simp] theorem State.pending_dropPoolNotice : s.dropPoolNotice.pending = s.pending := rfl

@[simp] theorem State.pending_taken : s.taken.pending = s.pending := rfl

@[simp] theorem State.pending_ite (c : Prop) [Decidable c] (t u : State) :
    (if c then t else u).pending = if c then t.pending else u.pending := apply_ite State.pending c t u

@[simp] theorem State.pending_applyTimings (w x : Word) : (s.applyTimings w x).pending = s.pending := by
  unfold State.applyTimings
  dsimp only
  simp only [State.pending_ite, State.giveHoldoff_pending, State.giveWaitLimit_pending, State.giveFanout_pending,
    State.giveGap_pending, ite_self]

@[simp] theorem State.pending_applyThreshold (g : Fin 3) (w : Word) : (s.applyThreshold g w).pending = s.pending := by
  unfold State.applyThreshold
  dsimp only
  simp only [State.pending_ite, State.giveThreshold_pending, ite_self]

@[simp] theorem State.pending_applyTable (g : Cls) (w x : Word) : (s.applyTable g w x).pending = s.pending := by
  unfold State.applyTable
  dsimp only
  simp only [State.pending_ite, State.givePlan_pending, State.giveRecording_pending, ite_self]

theorem State.pending_applyRecord (ws : Nat → Word) : (s.applyRecord ws).pending = s.pending := by
  unfold State.applyRecord
  dsimp only
  rw [State.pending_applyTable, State.pending_applyTable, State.pending_applyTable, State.pending_applyTable,
    State.pending_applyThreshold, State.pending_applyThreshold, State.pending_applyThreshold, State.pending_applyTimings]

theorem State.pending_endScan : s.endScan.pending = s.pending := by
  unfold State.endScan
  simp only [State.submit_pending, State.mark_pending]
  split
  · exact s.pending_applyRecord _
  · rfl

theorem State.pending_atStepEnd {p : PortStep → Bool} {f : State → State} (hf : ∀ s, (f s).pending = s.pending) :
    (s.atStepEnd p f).pending = s.pending := by
  unfold State.atStepEnd
  split
  · split
    · rw [hf, State.runClock_pending]
    · rfl
  · rfl

theorem State.pending_takeReport (b : Block) : (s.takeReport b).pending = s.pending := by
  unfold State.takeReport; split <;> simp

theorem State.pending_postRingWord : s.postRingWord.pending = s.pending := by
  unfold State.postRingWord
  dsimp only
  split
  · split
    · split
      · rfl
      · split <;> rfl
    · split <;> rfl
  · rfl

theorem State.pending_postProducer : s.postProducer.pending = s.pending := by
  unfold State.postProducer
  dsimp only
  split
  · split
    · split <;> rfl
    · rfl
  · rfl

theorem State.pending_postStatus : s.postStatus.pending = s.pending := by
  unfold State.postStatus
  split
  · split <;> rfl
  · rfl

theorem State.pending_endPosting : s.endPosting.pending = s.pending := by
  unfold State.endPosting; split <;> simp

end

/-- No command's act touches the queue of waiting commands. -/
theorem act_pending (i : Instr) (s : State) : (Instr.act i s).pending = s.pending := by
  have timer : ∀ (f : State → State) (d : Nat), (∀ s, (f s).pending = s.pending) → (f (s.runClock d)).pending = s.pending :=
    fun f d hf => (hf _).trans (s.runClock_pending d)
  match i with
  | .framePulse => exact State.pending_of_aside s.aside_takePulse
  | .frameLoss =>
    simp only [Instr.act, State.passInterval, State.pending_ite, State.pending_of_aside (State.aside_declareLoss _),
      State.runClock_pending, ite_self]
  | .frameComputation => exact State.pending_of_aside s.aside_takeComputation
  | .frameStartChannels => exact State.pending_of_aside s.aside_takeChannelsFrame
  | .frameStartPlayers => exact State.pending_of_aside s.aside_takePlayersFrame
  | .cadenceBoundary => exact State.pending_of_aside s.aside_takeCadence
  | .waitBoundaryOrders => exact State.pending_of_aside s.aside_takeWaitOrders
  | .waitBoundaryPlayers => exact State.pending_of_aside s.aside_takeWaitPlayers
  | .annCycleEnd n => exact State.pending_of_aside s.aside_takeComputation
  | .loadGradeEvaluation => exact State.pending_of_aside s.aside_takeEvaluation
  | .highwayClockBitTime => exact State.pending_of_aside s.aside_clockBit
  | .slotWordWrite p w => exact State.pending_of_aside (s.aside_slotWrite p _)
  | .storeScanEnd => simp only [Instr.act, State.pending_ite, State.pending_endScan, ite_self]
  | .reportSubmit b => exact s.pending_takeReport b
  | .ringWordPost => exact s.pending_postRingWord
  | .producerIndexWordPost => exact s.pending_postProducer
  | .statusWordPost => exact s.pending_postStatus
  | .postingCycleEnd => exact s.pending_endPosting
  | .refillReadDone | .erasePulseDone _ | .eraseVerifyDone | .programAttemptDone _ =>
    exact s.pending_atStepEnd fun _ => rfl
  | .holdoffExpiry => simp only [Instr.act, State.expireHoldoff, State.pending_ite, State.runClock_pending, ite_self]
  | .loadLampTimerExpiry => simp only [Instr.act, State.expireLoadLamp, State.pending_ite, State.runClock_pending, ite_self]
  | .storeLampTimerExpiry => simp only [Instr.act, State.expireStoreLamp, State.pending_ite, State.runClock_pending, ite_self]
  | .acknowledgeWordWrite w => simp [Instr.act]
  | .softResetWordWrite w => simp [Instr.act, State.softReset]
  | .congestionTableWordWrite k w => simp [Instr.act, State.writeTable]
  | .timingWord1Write w => simp [Instr.act, State.writeTiming1]
  | .timingWord2Write w => simp [Instr.act, State.writeTiming2]
  | .thresholdWordWrite g w => simp [Instr.act, State.writeThreshold]
  | .storeLockChange a => simp [Instr.act, State.setLock]
  | .refillDelivery => simp only [Instr.act]; unfold State.takeDelivery; split <;> simp
  | .fanoutLimitChange => simp only [Instr.act]; unfold State.takeFanout; split <;> simp
  | .recordingWithdrawal => simp only [Instr.act]; unfold State.takeWithdrawal; split <;> simp
  | .madeAvailableNotice => simp only [Instr.act]; unfold State.takeMadeAvailable; split <;> simp
  | .scanDoneNotice =>
    simp only [Instr.act]; unfold State.takeScanDone
    split
    · rw [State.onExchange_pending, State.pending_dropPoolNotice, State.drainFanout_pending]
    · rfl
  | .withdrawnAnswer => simp only [Instr.act]; unfold State.takeWithdrawn; split <;> rfl
  | .refillRequest => simp only [Instr.act]; unfold State.takeRefillReq; split <;> rfl
  | .servedNotice .channels | .servedNotice .players => rfl
  | .pinReset left missed => simp only [Instr.act]; split <;> rfl
  | .resetRelease straps => simp only [Instr.act]; split <;> rfl
  | .processorWrite _ _ | .otherRegionWrite _ _ | .quiet _ _ | .toneShared _ _ | .tonePrivate _ _ | .announce _ _
  | .congestion _ _ | .clearAll _ _ | .orderInvalidCode _ _ | .detailWordWrite _ _ | .planWordWrite _ _
  | .liveBankWordWrite _ | .routeLevelWordWrite _ | .consumerIndexWordWrite _ => rfl
  | .loadBegin _ | .loadConfirm _ | .chunkReady _ | .loadAbandon _ | .retireBegin _ | .retireConfirm _ | .configBegin _
  | .configConfirm _ | .storeHold _ | .storeResume _ | .clearStoreStatus _ | .invalidStoreCommand _
  | .storeParameterWrite _ _ | .loadBufferWrite _ _ | .storeSupplyGoodFall _ _ | .refillReadStart | .erasePulseStart _
  | .erasePulseResume _ _ | .programAttemptStart _ => rfl
  | .cadenceUnitEnd _ | .segmentEnd _ | .cycleEnd _ | .drainingNotice | .gapEnd _ | .waitLimitReached _ | .expiryRequest
  | .expiryAnswer | .doneNotice | .withdrawnNotice | .repeatsExhaustedNotice | .unavailableNotice | .playerGapEnd _
  | .powerOnReset _ _ => rfl

/-- Settles O3, from what one command does and what its act leaves alone. -/
theorem everyCommandAnswersNext : Obligations.EveryCommandAnswersNext := by
  intro c s
  obtain ⟨t, ht, rfl | rfl | rfl⟩ := exec_effect c s
  · exact ⟨_, ht, rfl⟩
  · exact ⟨_, ht, act_pending c s⟩
  · exact ⟨_, ht, (act_pending c s.taken).trans s.pending_taken⟩

/-! ### The step -/

/-- Settles O1. -/
theorem stepRunsFrontCommand : Obligations.StepRunsFrontCommand := by
  intro c rest s h
  unfold step
  rw [h]

theorem step_of_idle {s : State} (h : s.pending = []) : step s = .next (s.runClock 1) := by
  unfold step
  rw [h]

/-- A lamp stretcher's timer runs unless the stretcher is IDLE, and stands at 100 ms. -/
theorem Lamp.run_eq (l : Lamp) (d : Nat) :
    l.run d = { l with us := if l.phase = .idle then l.us else min (l.us + d) Config.lampUs } := by
  unfold Lamp.run; split <;> cases l <;> simp_all

theorem ReportUnit.run_eq (r : ReportUnit) (d : Nat) :
    r.run d = { r with holdoffUs :=
      if r.holdoffRunning then min (r.holdoffUs + d) (r.holdoffSetting * Config.holdoffUnitUs) else r.holdoffUs } := by
  unfold ReportUnit.run; split <;> rfl

/-- Settles O2. -/
theorem idleStepPassesOneMicrosecond : Obligations.IdleStepPassesOneMicrosecond := by
  intro s hs
  rw [step_of_idle hs]
  refine ⟨fun hrun => by simp [State.runClock, hrun], fun hrun => ⟨s.runClock 1, rfl, ?_⟩⟩
  simp only [State.runClock, hrun, if_true]
  refine ⟨trivial, fun hm => ?_, fun hm => ?_, ?_, ?_, ?_⟩
  · simp [Highway.run, hm]
  · simp [Highway.run, hm]
  · exact s.reports.run_eq 1
  · rw [s.cong.lamp.run_eq 1]; rfl
  · rw [s.store.lamp.run_eq 1]; rfl

/-! ### The machine right after reset -/

/-- In the map of a reset circuit p holds slot p (R86). -/
theorem mapOk_initialMap : MapOk initialMap := by
  intro p q _ _ h
  simpa [initialMap] using h

theorem consistent_initial : Circuit.initial.consistent = true := by decide

/-- Settles O57. -/
theorem invariantsHoldAtReset : Obligations.InvariantsHoldAtReset := by
  have memory : MemoryOk State.reset := ⟨rfl, rfl, rfl, rfl⟩
  have queues : QueuesOk State.reset := ⟨by decide, by decide, fun h => absurd rfl h⟩
  have slots : SlotsOk State.reset := ⟨mapOk_initialMap, mapOk_initialMap⟩
  have counts : CountsOk State.reset := ⟨by decide, by decide, fun n h => nomatch h⟩
  have settings : SettingsOk State.reset := ⟨by decide, by decide, by decide, by decide, by decide⟩
  have owners : OwnersOk State.reset := ⟨rfl, rfl, rfl, rfl, by decide, by decide⟩
  have banks : BanksOk State.reset := fun b => by cases b <;> simp [State.reset, PlanTable.initial, PlanTable.bank, BankRecord.initial]
  have circuits : CircuitsOk State.reset := fun p => by
    simp [State.reset, OrderUnit.initial, consistent_initial]
  exact ⟨memory, queues, slots, rfl, counts, settings, owners, banks, circuits⟩

end Sys2Proof.Machine
end

