-- ==== Sys2Proof/Proofs/CircuitRecords.lean ====
section
/-!
PROOF. Every step keeps every circuit record consistent (R1, R2, R15). The order unit's operations work on one circuit: between
them its record is only latched, and entering QUIET, entering GAP or being bound makes it consistent again.
-/
namespace Sys2Proof.Machine

/-! ### Records -/

/-- The latched grade is that of the active entry's origin (R15). -/
def Circuit.latchedOk (c : Circuit) : Prop := c.latched = (activeEntry c.set).bind fun e => e.origin.map Origin.grade

theorem Circuit.consistent_iff (c : Circuit) :
    c.consistent = true ↔
      bindingFits c.state c.binding = true ∧ (c.state = .quiet ↔ activeClass c.set = none) ∧ c.latchedOk := by
  unfold Circuit.consistent Circuit.latchedOk
  rw [Bool.and_eq_true, Bool.and_eq_true, and_assoc, beq_iff_eq, beq_iff_eq]
  have hquiet : (c.state == .quiet) = (activeClass c.set).isNone ↔ (c.state = .quiet ↔ activeClass c.set = none) := by
    rw [Bool.eq_iff_iff, beq_iff_eq, Option.isNone_iff_eq_none]
  rw [hquiet]

theorem Circuit.withSet_latchedOk (t : TreatmentSet) (c : Circuit) : (c.withSet t).latchedOk := rfl

/-- A set has no active class exactly when it is empty (R2). -/
theorem activeClass_eq_none_iff (t : TreatmentSet) : activeClass t = none ↔ ∀ c : Cls, t[c] = none := by
  unfold activeClass
  constructor
  · intro h
    split_ifs at h with h3 h2 h1 h0
    simp only [Option.not_isSome_iff_eq_none] at h3 h2 h1 h0
    exact cls_cases h0 h1 h2 h3
  · intro h
    have h0 : t[0] = none := h 0
    have h1 : t[1] = none := h 1
    have h2 : t[2] = none := h 2
    have h3 : t[3] = none := h 3
    simp [h0, h1, h2, h3]

theorem activeClass_ne_none {t : TreatmentSet} {c : Cls} (h : t[c] ≠ none) : activeClass t ≠ none :=
  fun hnone => h ((activeClass_eq_none_iff t).1 hnone c)

/-! ### Exchanges -/

/-- Every circuit record is consistent. -/
def Exchange.circuitsOk (e : Exchange) : Prop := ∀ p : Circ, (e.circuit p).consistent = true

/-- Every circuit record but that of `p` is consistent, and `p`'s is latched. -/
def Exchange.latchedAt (p : Circ) (e : Exchange) : Prop :=
  (∀ q, q ≠ p → (e.circuit q).consistent = true) ∧ (e.circuit p).latchedOk

/-- Circuit `p` has no entry of class `c` or a higher one. -/
def Exchange.clearFrom (p : Circ) (n : Nat) (e : Exchange) : Prop := ∀ d : Cls, n ≤ d.val → (e.circuit p).set[d] = none

/-- The active entry of circuit `p` is of class `c`, and is being started. -/
def Exchange.startingAt (p : Circ) (c : Cls) (e : Exchange) : Prop :=
  e.latchedAt p ∧ (e.circuit p).set[c] ≠ none ∧ e.clearFrom p (c.val + 1)

section
variable {e f : Exchange} {p : Circ} {c : Cls}

theorem Exchange.circuitsOk.latchedAt (h : e.circuitsOk) (p : Circ) : e.latchedAt p :=
  ⟨fun q _ => h q, ((Circuit.consistent_iff _).1 (h p)).2.2⟩

/-- The predicates speak of the circuit records alone. -/
theorem Exchange.circuit_congr (h : f.orders.circuits = e.orders.circuits) : f.circuit = e.circuit := by
  funext q; unfold Exchange.circuit; rw [h]

theorem Exchange.circuitsOk.congr (he : e.circuitsOk) (h : f.orders.circuits = e.orders.circuits) : f.circuitsOk := by
  unfold Exchange.circuitsOk; rw [Exchange.circuit_congr h]; exact he

theorem Exchange.latchedAt.congr (he : e.latchedAt p) (h : f.orders.circuits = e.orders.circuits) : f.latchedAt p := by
  unfold Exchange.latchedAt; rw [Exchange.circuit_congr h]; exact he

theorem Exchange.startingAt.congr (he : e.startingAt p c) (h : f.orders.circuits = e.orders.circuits) : f.startingAt p c := by
  unfold Exchange.startingAt Exchange.latchedAt Exchange.clearFrom; rw [Exchange.circuit_congr h]; exact he

theorem Exchange.circuits_of_outer (h : f.outer = e.outer) : f.orders.circuits = e.orders.circuits := by
  rw [(Exchange.outer_eq h).1]

theorem Exchange.circuits_report (e : Exchange) (p : Circ) (k : ReportKind) (v : Nat) :
    (e.report p k v).orders.circuits = e.orders.circuits := rfl

/-! ### A record replaced -/

/-- The new record makes the exchange consistent when it is consistent itself. -/
theorem Exchange.latchedAt.settled (h : e.latchedAt p) {C : Circuit} (hC : C.consistent = true) :
    (e.setCircuit p C).circuitsOk := by
  intro q
  by_cases hq : q = p
  · subst hq; rw [Exchange.setCircuit_circuit]; exact hC
  · rw [Exchange.setCircuit_circuit_ne e hq]; exact h.1 q hq

theorem Exchange.latchedAt.replaced (h : e.latchedAt p) {C : Circuit} (hC : C.latchedOk) : (e.setCircuit p C).latchedAt p :=
  ⟨fun q hq => by rw [Exchange.setCircuit_circuit_ne e hq]; exact h.1 q hq, by rw [Exchange.setCircuit_circuit]; exact hC⟩

/-- QUIET with an empty set is consistent (R2). -/
theorem Exchange.latchedAt.enterQuiet (h : e.latchedAt p) (hset : activeClass (e.circuit p).set = none) :
    (e.enterQuiet p).circuitsOk :=
  h.settled ((Circuit.consistent_iff _).2 ⟨rfl, iff_of_true rfl hset, h.2⟩)

/-- A circuit with an active entry, in a state that is not QUIET and with a binding that fits it, is consistent. -/
theorem Circuit.consistent_of_active {C : Circuit} (hfits : bindingFits C.state C.binding = true) (hstate : C.state ≠ .quiet)
    (hset : activeClass C.set ≠ none) (hlatched : C.latchedOk) : C.consistent = true :=
  (Circuit.consistent_iff C).2 ⟨hfits, iff_of_false hstate hset, hlatched⟩

theorem Exchange.latchedAt.enterGap (h : e.latchedAt p) (hset : activeClass (e.circuit p).set ≠ none) :
    (e.enterGap p).circuitsOk :=
  h.settled (Circuit.consistent_of_active rfl CircuitState.noConfusion hset h.2)

theorem Exchange.latchedAt.bindCircuit (h : e.latchedAt p) (hset : activeClass (e.circuit p).set ≠ none) {st : CircuitState}
    {b : Binding} (hfits : bindingFits st b = true) (hstate : st ≠ .quiet) : (e.bindCircuit p st b).circuitsOk :=
  h.settled (Circuit.consistent_of_active hfits hstate hset h.2)

/-! ### Starts -/

theorem Exchange.startingAt.setEntry (h : e.startingAt p c) (y : Entry) : (e.setEntry p c (some y)).startingAt p c := by
  obtain ⟨hlatched, -, habove⟩ := h
  refine ⟨hlatched.replaced (Circuit.withSet_latchedOk _ _), ?_, fun d hd => ?_⟩
  · unfold Exchange.setEntry
    rw [Exchange.setCircuit_circuit]
    simp [Circuit.withSet]
  · unfold Exchange.setEntry
    rw [Exchange.setCircuit_circuit]
    exact (Vector.getElem_set_ne (xs := (e.circuit p).set) (x := some y) c.isLt d.isLt (by omega)).trans (habove d hd)

theorem Exchange.startingAt.bumpTag (h : e.startingAt p c) : (e.bumpTag p).startingAt p c := by
  obtain ⟨hlatched, hhere, habove⟩ := h
  refine ⟨hlatched.replaced hlatched.2, ?_, fun d hd => ?_⟩
  · unfold Exchange.bumpTag; rw [Exchange.setCircuit_circuit]; exact hhere
  · unfold Exchange.bumpTag; rw [Exchange.setCircuit_circuit]; exact habove d hd

theorem Exchange.latchedAt.removeEntry (h : e.latchedAt p) (k : ReportKind) (v : Nat) : (e.removeEntry p c k v).latchedAt p := by
  have hset : (e.setEntry p c none).latchedAt p := h.replaced (Circuit.withSet_latchedOk _ _)
  exact (hset.replaced (C := { (e.setEntry p c none).circuit p with binding := .none }) hset.2).congr rfl

theorem Exchange.removeEntry_set (e : Exchange) (p : Circ) (c : Cls) (k : ReportKind) (v : Nat) :
    ((e.removeEntry p c k v).circuit p).set = (e.circuit p).set.set c none := by
  have hreport : (e.removeEntry p c k v).circuit p =
      ((e.setEntry p c none).setCircuit p { (e.setEntry p c none).circuit p with binding := .none }).circuit p := rfl
  rw [hreport, Exchange.setCircuit_circuit]
  unfold Exchange.setEntry
  rw [Exchange.setCircuit_circuit]
  rfl

/-- A completion leaves nothing of the class that was being started (R16, R20). -/
theorem Exchange.startingAt.removeEntry (h : e.startingAt p c) (k : ReportKind) (v : Nat) :
    (e.removeEntry p c k v).latchedAt p ∧ (e.removeEntry p c k v).clearFrom p c.val := by
  refine ⟨h.1.removeEntry k v, fun d hd => ?_⟩
  rw [Exchange.removeEntry_set]
  by_cases hcd : c = d
  · subst hcd; simp
  · exact (Vector.getElem_set_ne (i := c.val) (j := d.val) _ _ (fun h => hcd (Fin.ext h))).trans
      (h.2.2 d (by have : c.val ≠ d.val := fun h => hcd (Fin.ext h); omega))

end

/-- How a start of an entry of class `c` ends: bound, or completed with nothing left of that class (R13–R16). -/
def Exchange.startEnds (p : Circ) (c : Cls) (a : Bool × Exchange) : Prop :=
  if a.1 then a.2.circuitsOk else a.2.latchedAt p ∧ a.2.clearFrom p c.val

section
variable {e : Exchange} {p : Circ} {c : Cls}

theorem Exchange.startingAt.bound (h : e.startingAt p c) {st : CircuitState} {b : Binding} (hfits : bindingFits st b = true)
    (hstate : st ≠ .quiet) : Exchange.startEnds p c (true, e.bindCircuit p st b) :=
  h.1.bindCircuit (activeClass_ne_none h.2.1) hfits hstate

theorem Exchange.startingAt.completed (h : e.startingAt p c) (k : ReportKind) (v : Nat) :
    Exchange.startEnds p c (false, e.removeEntry p c k v) := h.removeEntry k v

theorem Exchange.startingAt.startToneEntry (h : e.startingAt p c) (x : Entry) (v : Bool) (q : PlanNo) :
    Exchange.startEnds p c (e.startToneEntry p c x v q) := by
  have hstart := h.congr (Exchange.circuits_of_outer (e.outer_startTone p (e.circuit p).tag v q))
  unfold Exchange.startToneEntry
  dsimp only
  split
  · split
    · exact hstart.bound rfl CircuitState.noConfusion
    · exact hstart.bound rfl CircuitState.noConfusion
    · exact hstart.completed _ _
  · exact h.completed _ _

theorem Exchange.circuits_startAnn (e : Exchange) (p : Circ) (r : RecNo) (n : Fin 16) (g : Tag) :
    (e.drainExpiry.startAnn p r n g).2.orders.circuits = e.orders.circuits := by
  rw [Exchange.circuits_of_outer (e.drainExpiry.outer_startAnn p r n g), e.drainExpiry_frame.1]

theorem Exchange.startingAt.startAnnEntry (h : e.startingAt p c) (x : Entry) (r : RecNo) (n : Fin 16) :
    Exchange.startEnds p c (e.startAnnEntry p c x r n) := by
  have hstart := h.congr (e.circuits_startAnn p r n (e.circuit p).tag)
  unfold Exchange.startAnnEntry
  dsimp only
  split
  · exact hstart.bound rfl CircuitState.noConfusion
  · exact hstart.bound rfl CircuitState.noConfusion
  · exact hstart.bound rfl CircuitState.noConfusion
  · split
    · refine Exchange.startingAt.startToneEntry (Exchange.startingAt.bumpTag ?_) _ _ _
      refine Exchange.startingAt.congr ?_ (Exchange.circuits_report _ _ _ _)
      exact hstart.setEntry _
    · exact hstart.completed _ _

theorem Exchange.startingAt.startCongestion (h : e.startingAt p c) (x : Entry) (q : Route) :
    Exchange.startEnds p c (e.startCongestion p c x q) := by
  have hlamp : e.pulseLoadLamp.startingAt p c := h.congr (by unfold Exchange.pulseLoadLamp; split <;> rfl)
  unfold Exchange.startCongestion
  dsimp only
  split
  · exact (hlamp.setEntry _).startAnnEntry _ _ _
  · exact (hlamp.setEntry _).startToneEntry _ _ _
  · exact h.completed _ _

theorem Exchange.startingAt.startEntry (h : e.startingAt p c) (x : Entry) : Exchange.startEnds p c (e.startEntry p c x) := by
  unfold Exchange.startEntry
  dsimp only
  split
  · exact h.bumpTag.startToneEntry _ _ _
  · exact h.bumpTag.startToneEntry _ _ _
  · exact h.bumpTag.startAnnEntry _ _ _
  · exact h.bumpTag.startCongestion _ _

/-- Starting the highest class below `n`, with nothing of class `n` or higher left, ends in a consistent record (R16). -/
theorem Exchange.latchedAt.startBelow (n : Nat) (hn : n ≤ 4) (h : e.latchedAt p) (hclear : e.clearFrom p n) :
    (e.startBelow p n).circuitsOk := by
  induction n generalizing e with
  | zero => exact h.enterQuiet ((activeClass_eq_none_iff _).2 fun c => hclear c (Nat.zero_le _))
  | succ n ih =>
    have hval : (Fin.ofNat 4 n : Cls).val = n := by simp [Fin.ofNat]; omega
    unfold Exchange.startBelow
    split
    · rename_i hnone
      refine ih (by omega) h fun d hd => ?_
      by_cases hdn : d = Fin.ofNat 4 n
      · rw [hdn]; exact hnone
      · exact hclear d (by have : d.val ≠ n := fun h => hdn (Fin.ext (by omega)); omega)
    · rename_i x hsome
      have hstart : e.startingAt p (Fin.ofNat 4 n) := by
        refine ⟨h, ?_, ?_⟩
        · rw [hsome]; exact Option.some_ne_none x
        · rw [hval]; exact hclear
      have hends := hstart.startEntry x
      dsimp only
      unfold Exchange.startEnds at hends
      split
      · rename_i hbound
        rw [if_pos hbound] at hends
        exact hends
      · rename_i hcompleted
        rw [if_neg hcompleted, hval] at hends
        exact ih (by omega) hends.1 hends.2

theorem Exchange.latchedAt.startActive (h : e.latchedAt p) : (e.startActive p).circuitsOk :=
  h.startBelow 4 le_rfl fun d hd => absurd d.isLt (by omega)

theorem Exchange.latchedAt.proceed (h : e.latchedAt p) (left : CircuitState) : (e.proceed p left).circuitsOk := by
  unfold Exchange.proceed
  split
  · rename_i hset; exact h.enterQuiet hset
  · rename_i hset
    split
    · exact h.enterGap hset
    · exact h.startActive

/-! ### Orders -/

theorem Exchange.circuits_leave (e : Exchange) (p : Circ) : (e.leave p).2.orders.circuits = e.orders.circuits := by
  have hann : (e.drainExpiry.leaveAnn p).2.orders.circuits = e.orders.circuits := by
    rw [Exchange.circuits_of_outer (e.drainExpiry.outer_leaveAnn p), e.drainExpiry_frame.1]
  have htone : (e.leaveTone p).orders.circuits = e.orders.circuits := Exchange.circuits_of_outer (e.outer_leaveTone p)
  unfold Exchange.leave
  split
  · rfl
  · exact htone
  · exact htone
  · exact hann
  · exact hann
  · exact hann

/-- A release takes away the binding and the wait, and nothing else of the record (R12). -/
theorem Exchange.release_circuit (e : Exchange) (p : Circ) :
    (e.release p).2.circuit p = { e.circuit p with binding := .none, waited := 0, limit := .counting } := by
  unfold Exchange.release
  dsimp only
  rw [Exchange.setCircuit_circuit, Exchange.circuit_congr (e.circuits_leave p)]

theorem Exchange.latchedAt.release (h : e.latchedAt p) : (e.release p).2.latchedAt p := by
  have hleave := h.congr (e.circuits_leave p)
  exact hleave.replaced hleave.2

theorem Exchange.circuitsOk.changeSet (h : e.circuitsOk) (p : Circ) (t : TreatmentSet) (placed : Option Cls) :
    (e.changeSet p t placed).circuitsOk := by
  obtain ⟨hfits, hquiet, -⟩ := (Circuit.consistent_iff _).1 (h p)
  unfold Exchange.changeSet
  dsimp only
  split
  · rename_i hkeep
    have hok : (e.setCircuit p ((e.circuit p).withSet t)).circuitsOk :=
      (h.latchedAt p).settled ((Circuit.consistent_iff _).2 ⟨hfits, hquiet.trans (by rw [← hkeep.1]; rfl), rfl⟩)
    split
    · exact hok
    · exact hok.congr rfl
  · generalize ht : TreatmentSet.makeDormant t (if placed = activeClass (e.circuit p).set then none
      else activeClass (e.circuit p).set) (e.release p).1 = t'
    have hset := (h.latchedAt p).release.replaced (Circuit.withSet_latchedOk t' ((e.release p).2.circuit p))
    have hrecord := (e.release p).2.setCircuit_circuit p (((e.release p).2.circuit p).withSet t')
    split
    · rename_i hnone
      exact hset.enterQuiet (by rw [hrecord]; exact hnone)
    · rename_i hsome
      split
      · rename_i hgap
        refine (h.latchedAt p).release.settled ?_
        rw [e.release_circuit p]
        exact Circuit.consistent_of_active (by simp [Circuit.withSet, hgap, bindingFits])
          (by simp [Circuit.withSet, hgap]) hsome rfl
      · exact hset.proceed _

theorem Exchange.circuitsOk.place (h : e.circuitsOk) (p : Circ) (c : Cls) (k : Treatment) : (e.place p c k).circuitsOk :=
  h.changeSet _ _ _

theorem Exchange.circuitsOk.orderTone (h : e.circuitsOk) (p : Circ) (w : Word) (k : PlanNo → Treatment) :
    (e.orderTone p w k).circuitsOk := by
  unfold Exchange.orderTone
  split
  · exact h
  · split
    · exact h
    · exact h.place _ _ _

theorem Exchange.circuitsOk.orderAnnounce (h : e.circuitsOk) (p : Circ) (w : Word) : (e.orderAnnounce p w).circuitsOk := by
  unfold Exchange.orderAnnounce
  split
  · exact h
  · exact h.place _ _ _

theorem Exchange.circuitsOk.orderCongestion (h : e.circuitsOk) (p : Circ) (w : Word) : (e.orderCongestion p w).circuitsOk := by
  unfold Exchange.orderCongestion
  split
  · exact h
  · exact h.place _ _ _

/-- A record replaced by one with the same set, state, binding and latched grade. -/
theorem Exchange.circuitsOk.setCircuit (h : e.circuitsOk) {C : Circuit} (hC : C.consistent = true) :
    (e.setCircuit p C).circuitsOk := (h.latchedAt p).settled hC

/-! ### Gaps, waits and notices -/

theorem Exchange.circuitsOk.gapEnd (h : e.circuitsOk) (p : Circ) : (e.gapEnd p).circuitsOk := by
  unfold Exchange.gapEnd
  split
  · exact (h.latchedAt p).startActive
  · exact h

theorem Exchange.circuitsOk.sendExpiry (h : e.circuitsOk) (p : Circ) : (e.sendExpiry p).circuitsOk := by
  unfold Exchange.sendExpiry
  dsimp only
  split
  · have hmark : (e.setCircuit p { e.circuit p with limit := .requested }).circuitsOk := h.setCircuit (h p)
    exact hmark.congr rfl
  · exact h

theorem Exchange.circuitsOk.onNotice (h : e.circuitsOk) (p : Circ) (tag : Tag) {f : Cls → Entry → Exchange → Exchange}
    (hf : ∀ c x, (f c x e).circuitsOk) : (e.onNotice p tag f).circuitsOk := by
  unfold Exchange.onNotice
  split
  · split
    · exact h
    · split
      · exact h
      · exact hf _ _
  · exact h

theorem Exchange.circuitsOk.complete (h : e.circuitsOk) (p : Circ) (k : ReportKind) (c : Cls) (x : Entry) :
    (e.complete p k c x).circuitsOk := ((h.latchedAt p).removeEntry _ _).proceed _

theorem Exchange.circuitsOk.replaceBy (h : e.circuitsOk) (q : PlanNo) (p : Circ) (k : ReportKind) (c : Cls) (x : Entry) :
    (e.replaceBy q p k c x).circuitsOk := by
  unfold Exchange.replaceBy
  dsimp only
  have hset : (e.setEntry p c (some (x.replacement q))).latchedAt p :=
    (h.latchedAt p).replaced (Circuit.withSet_latchedOk _ _)
  have hbare := hset.replaced (C := { (e.setEntry p c (some (x.replacement q))).circuit p with binding := .none }) hset.2
  exact (hbare.congr (Exchange.circuits_report _ _ _ _)).proceed _

theorem Exchange.circuitsOk.fallBack (h : e.circuitsOk) (p : Circ) (k : ReportKind) (c : Cls) (x : Entry) :
    (e.fallBack p k c x).circuitsOk := by
  unfold Exchange.fallBack
  split
  · exact h.replaceBy _ _ _ _ _
  · exact h.complete _ _ _ _

theorem Exchange.circuitsOk.followOn (h : e.circuitsOk) (p : Circ) (c : Cls) (x : Entry) : (e.followOn p c x).circuitsOk := by
  unfold Exchange.followOn
  split
  · exact h.replaceBy _ _ _ _ _
  · exact h.complete _ _ _ _

/-- A waiting circuit that is served, with a binding that fits its new state, stays consistent (R23). -/
theorem Exchange.circuitsOk.served (h : e.circuitsOk) {st : CircuitState} {b : Binding} {w : Nat} {l : WaitLimitMark}
    (hwaits : (e.circuit p).state ≠ .quiet) (hfits : bindingFits st b = true) (hstate : st ≠ .quiet) :
    (e.setCircuit p { e.circuit p with state := st, binding := b, waited := w, limit := l }).circuitsOk := by
  obtain ⟨-, hquiet, hlatched⟩ := (Circuit.consistent_iff _).1 (h p)
  exact h.setCircuit (Circuit.consistent_of_active hfits hstate (fun hnone => hwaits (hquiet.2 hnone)) hlatched)

theorem Exchange.circuitsOk.servedOnChannel (h : e.circuitsOk) (p : Circ) (tag : Tag) (k : ChanNo) :
    (e.servedOnChannel p tag k).circuitsOk := by
  unfold Exchange.servedOnChannel
  dsimp only
  split
  · rename_i hwaits
    exact h.served (st := .tone) (b := .channel k) (by rw [hwaits.2]; exact CircuitState.noConfusion) rfl
      CircuitState.noConfusion
  · exact h

theorem Exchange.circuitsOk.servedMoved (h : e.circuitsOk) (p : Circ) (tag : Tag) (n : PlayNo) :
    (e.servedMoved p tag n).circuitsOk := by
  unfold Exchange.servedMoved
  dsimp only
  split
  · rename_i hwaits
    have hserved := h.served (p := p) (st := (e.circuit p).state) (b := .joinList n) (w := (e.circuit p).waited)
      (l := (e.circuit p).limit) (by rw [hwaits.2]; exact CircuitState.noConfusion) (by rw [hwaits.2]; rfl)
      (by rw [hwaits.2]; exact CircuitState.noConfusion)
    exact hserved
  · exact h

theorem Exchange.circuitsOk.servedListener (h : e.circuitsOk) (p : Circ) (tag : Tag) (n : PlayNo) :
    (e.servedListener p tag n).circuitsOk := by
  unfold Exchange.servedListener
  dsimp only
  split
  · rename_i hwaits
    exact h.served (st := .hear) (b := .listener n) (by rw [hwaits.2]; exact CircuitState.noConfusion) rfl
      CircuitState.noConfusion
  · exact h

theorem Exchange.circuitsOk.takeChannelNotice (h : e.circuitsOk) (ok : ChannelMessage → Bool)
    {f : ChannelNotice → Exchange → Exchange} (hf : ∀ x e, e.circuitsOk → (f x e).circuitsOk) :
    (e.takeChannelNotice ok f).circuitsOk := by
  unfold Exchange.takeChannelNotice
  split
  · exact h
  · split
    · exact hf _ _ (h.congr rfl)
    · exact h

theorem Exchange.circuitsOk.takePlayerNotice (h : e.circuitsOk) (ok : PlayerMessage → Bool)
    {f : PlayerNotice → Exchange → Exchange} (hf : ∀ x e, e.circuitsOk → (f x e).circuitsOk) :
    (e.takePlayerNotice ok f).circuitsOk := by
  unfold Exchange.takePlayerNotice
  split
  · exact h
  · split
    · exact hf _ _ (h.congr rfl)
    · exact h

theorem Exchange.circuitsOk.applyChannelServed (h : e.circuitsOk) (x : ChannelNotice) : (e.applyChannelServed x).circuitsOk := by
  unfold Exchange.applyChannelServed
  split
  · exact h.servedOnChannel _ _ _
  · exact h

theorem Exchange.circuitsOk.applyPlayerServed (h : e.circuitsOk) (x : PlayerNotice) : (e.applyPlayerServed x).circuitsOk := by
  unfold Exchange.applyPlayerServed
  split
  · exact h.servedMoved _ _ _
  · exact h.servedListener _ _ _
  · exact h

theorem Exchange.circuitsOk.applyAnswer (h : e.circuitsOk) (x : PlayerNotice) : (e.applyAnswer x).circuitsOk := by
  unfold Exchange.applyAnswer
  split
  · exact h.onNotice _ _ fun _ _ => h.fallBack _ _ _ _
  · exact h.servedListener _ _ _
  · exact h

end

/-- A step of a fold keeps the records consistent, so the fold does. -/
theorem Exchange.circuitsOk.foldl {α : Type} {e : Exchange} {f : Exchange → α → Exchange} (h : e.circuitsOk)
    (hf : ∀ e a, e.circuitsOk → (f e a).circuitsOk) (l : List α) : (l.foldl f e).circuitsOk := by
  induction l generalizing e with
  | nil => exact h
  | cons a l ih => exact ih (hf e a h)

end Sys2Proof.Machine
end

