-- ==== Sys2Proof/Proofs/CircuitSteps.lean ====
section
/-!
PROOF. Every step keeps every circuit record consistent: the pools and the frame events leave the order unit's records alone
but for the boundaries, and a reset takes them to their reset value.
-/
namespace Sys2Proof.Machine

/-! ### What the plan table and the pools' other events leave alone -/

section
variable (e : Exchange)

@[simp] theorem Exchange.outer_validatePlan (b : Bank) (p : PlanNo) : (e.validatePlan b p).outer = e.outer := by
  unfold Exchange.validatePlan
  dsimp only
  split_ifs <;> rfl

@[simp] theorem Exchange.outer_validateBank (b : Bank) : (e.validateBank b).outer = e.outer :=
  foldl_frame Exchange.outer _ (fun e p => e.outer_validatePlan b p) _ _

@[simp] theorem Exchange.outer_switchTo (b : Bank) : (e.switchTo b).outer = e.outer := by
  rw [← e.outer_validateBank b]
  unfold Exchange.switchTo
  generalize e.validateBank b = f
  dsimp only
  split <;> rfl

@[simp] theorem Exchange.outer_liveBankWrite (w : Word) : (e.liveBankWrite w).outer = e.outer := by
  unfold Exchange.liveBankWrite
  dsimp only
  split
  · rfl
  · rfl
  · exact e.outer_switchTo _

@[simp] theorem Exchange.outer_countFrames : e.countFrames.outer = e.outer := rfl
@[simp] theorem Exchange.outer_drainNotice (b : Bank) : (e.drainNotice b).outer = e.outer := rfl

@[simp] theorem Exchange.outer_takeDrainNotice : e.takeDrainNotice.outer = e.outer := by
  unfold Exchange.takeDrainNotice; split <;> rfl

@[simp] theorem Exchange.outer_countGaps : e.countGaps.outer = e.outer := by
  unfold Exchange.countGaps; rw [Exchange.outer_closePool]; rfl

@[simp] theorem Exchange.outer_setFanout (n : Nat) : (e.setFanout n).outer = e.outer := by
  unfold Exchange.setFanout; rw [Exchange.outer_closePool]; rfl

@[simp] theorem Exchange.outer_unbind (r : RecNo) (n : PlayNo) : (e.unbind r n).outer = e.outer := by
  unfold Exchange.unbind
  dsimp only
  split
  · rw [Exchange.outer_mark, Exchange.outer_setPlayer, foldl_frame Exchange.outer _ (fun b a => b.outer_playNotify _ _ _),
      foldl_frame Exchange.outer _ (fun b a => b.outer_playNotify _ _ _)]
  · rfl

@[simp] theorem Exchange.outer_dropWaiters (keep : AnnWaiter → Bool) : (e.dropWaiters keep).outer = e.outer := by
  unfold Exchange.dropWaiters
  dsimp only
  rw [foldl_frame Exchange.outer _ (fun b a => b.outer_playNotify _ _ _)]
  rfl

@[simp] theorem Exchange.outer_withdrawRecording (r : RecNo) : (e.withdrawRecording r).outer = e.outer := by
  have hview : ∀ f : Exchange, Exchange.outer { f with players := { f.players with
      withdrawnAnswers := f.players.withdrawnAnswers ++ [r] } } = f.outer := fun _ => rfl
  unfold Exchange.withdrawRecording
  dsimp only
  rw [Exchange.outer_closePool, hview, Exchange.outer_dropWaiters,
    foldl_frame Exchange.outer _ (fun b a => b.outer_unbind r a)]
  rfl

@[simp] theorem Exchange.outer_makeAvailable (r : RecNo) (v : ViewRecord) : (e.makeAvailable r v).outer = e.outer := by
  unfold Exchange.makeAvailable; rw [Exchange.outer_closePool]; rfl

@[simp] theorem Exchange.outer_scanDone (view : Vector (Option ViewRecord) 32) : (e.scanDone view).outer = e.outer := by
  unfold Exchange.scanDone
  dsimp only
  rw [Exchange.outer_closePool, Exchange.outer_dropWaiters]
  rfl

end

/-! ### Events of a frame -/

/-- Every circuit record of the state is consistent exactly when every one of its exchange is. -/
theorem circuitsOk_iff (s : State) : CircuitsOk s ↔ s.exchange.circuitsOk := Iff.rfl

theorem CircuitsOk.of_orders {s t : State} (hs : CircuitsOk s) (h : t.orders = s.orders) : CircuitsOk t := by
  unfold CircuitsOk; rw [h]; exact hs

theorem CircuitsOk.onExchange {s : State} (hs : CircuitsOk s) {f : Exchange → Exchange}
    (hf : ∀ e : Exchange, e.circuitsOk → (f e).circuitsOk) : CircuitsOk (s.onExchange f) := hf _ hs

/-- An event of a pool leaves the circuit records alone. -/
theorem State.orders_of_outer {s : State} {f : Exchange → Exchange} (hf : ∀ e : Exchange, (f e).outer = e.outer) :
    (s.onExchange f).orders = s.orders := (Exchange.outer_eq (hf s.exchange)).1

section
variable (s : State)

@[simp] theorem State.takePlayersFrame_orders : s.takePlayersFrame.orders = s.orders := by
  unfold State.takePlayersFrame
  split
  · exact State.orders_of_outer Exchange.outer_framePlayers
  · rfl

@[simp] theorem State.computeFrame_orders : s.computeFrame.orders = s.orders := rfl

@[simp] theorem State.takeComputation_orders : s.takeComputation.orders = s.orders := by
  unfold State.takeComputation
  split
  · rw [State.computeFrame_orders]; exact s.takePlayersFrame_orders
  · rfl

@[simp] theorem State.takeChannelsFrame_orders : s.takeChannelsFrame.orders = s.orders := by
  unfold State.takeChannelsFrame
  split
  · exact s.takeComputation_orders
  · rfl

@[simp] theorem State.settleFrame_orders : s.settleFrame.orders = s.orders := by
  unfold State.settleFrame
  rw [State.orders_of_outer fun e => ?_]
  · simp
  · rw [foldl_frame Exchange.outer _ (fun b a => b.outer_annCycleEnd a), Exchange.outer_settleChannels]

@[simp] theorem State.takeWaitPlayers_orders : s.takeWaitPlayers.orders = s.orders := by
  unfold State.takeWaitPlayers
  split
  · rfl
  · exact (State.orders_of_outer Exchange.outer_countGaps).trans s.takeComputation_orders

theorem Exchange.evaluateGrade_orders (e : Exchange) : e.evaluateGrade.orders = e.orders := by
  unfold Exchange.evaluateGrade; dsimp only; split <;> rfl

@[simp] theorem State.takeEvaluation_orders : s.takeEvaluation.orders = s.orders := by
  unfold State.takeEvaluation
  split
  · rfl
  · exact Exchange.evaluateGrade_orders _

end

/-- Counting a gap changes nothing that consistency speaks of. -/
theorem Circuit.consistent_countGap {c : Circuit} (h : c.consistent = true) :
    (if c.state = .gap then { c with gapLeft := c.gapLeft - 1 } else c).consistent = true := by
  split
  · exact h
  · exact h

theorem Circuit.consistent_countWait {c : Circuit} (limit : Nat) (h : c.consistent = true) :
    (c.countWait limit).consistent = true := by
  unfold Circuit.countWait
  split
  · exact h
  · exact h

theorem CircuitsOk.takeCadence {s : State} (hs : CircuitsOk s) : CircuitsOk s.takeCadence := by
  unfold State.takeCadence
  split
  · exact hs
  · intro p
    simp only [OrderUnit.countGaps, State.takeComputation_orders, Fin.getElem_fin, Vector.getElem_map]
    exact Circuit.consistent_countGap (hs p)

theorem CircuitsOk.takeWaitOrders {s : State} (hs : CircuitsOk s) : CircuitsOk s.takeWaitOrders := by
  unfold State.takeWaitOrders
  split
  · exact hs
  · intro p
    simp only [OrderUnit.countWaits, State.takeComputation_orders, Fin.getElem_fin, Vector.getElem_map]
    exact Circuit.consistent_countWait _ (hs p)

/-- What every application of a function keeps, its iterates keep. -/
theorem iterate_keeps {α : Type} {I : α → Prop} {f : α → α} (h : ∀ a, I a → I (f a)) (n : Nat) {a : α} (ha : I a) : I (f^[n] a) := by
  induction n generalizing a with
  | zero => exact ha
  | succ n ih => rw [Function.iterate_succ_apply]; exact ih (h a ha)

theorem CircuitsOk.settleBoundaries {s : State} (hs : CircuitsOk s) : CircuitsOk s.settleBoundaries := by
  have gaps : ∀ e : Exchange, e.circuitsOk → (allCircuits.foldl (fun e p => Exchange.gapEnd p e) e).circuitsOk :=
    fun e he => he.foldl (f := fun e p => Exchange.gapEnd p e) (fun _ p h => h.gapEnd p) _
  have waits : ∀ e : Exchange, e.circuitsOk → (allCircuits.foldl (fun e p => Exchange.sendExpiry p e) e).circuitsOk :=
    fun e he => he.foldl (f := fun e p => Exchange.sendExpiry p e) (fun _ p h => h.sendExpiry p) _
  have players : ∀ e : Exchange, (allPlayers.foldl (fun e n => Exchange.playerGapEnd n e) e).outer = e.outer :=
    fun e => foldl_frame Exchange.outer (fun e n => Exchange.playerGapEnd n e) (fun b n => b.outer_playerGapEnd n) _ _
  have hcadence := (iterate_keeps (I := CircuitsOk) (f := State.takeCadence) (fun _ => CircuitsOk.takeCadence) s.highway.cadenceDue hs).onExchange gaps
  unfold State.settleBoundaries
  dsimp only
  refine iterate_keeps (I := CircuitsOk) (f := State.takeEvaluation) (fun a ha => ha.of_orders a.takeEvaluation_orders) _ ?_
  refine CircuitsOk.of_orders ?_ (State.orders_of_outer players)
  refine iterate_keeps (I := CircuitsOk) (f := State.takeWaitPlayers) (fun a ha => ha.of_orders a.takeWaitPlayers_orders) _ ?_
  exact (iterate_keeps (I := CircuitsOk) (f := State.takeWaitOrders) (fun _ => CircuitsOk.takeWaitOrders) _ hcadence).onExchange waits

theorem CircuitsOk.declareLoss {s : State} (hs : CircuitsOk s) : CircuitsOk s.declareLoss :=
  (hs.of_orders s.settleFrame_orders).settleBoundaries

theorem CircuitsOk.takePulse {s : State} (hs : CircuitsOk s) : CircuitsOk s.takePulse := by
  have hloss : CircuitsOk s.overdueLoss := by
    unfold State.overdueLoss
    split
    · exact hs.declareLoss
    · exact hs
  have hframe := hloss.of_orders s.overdueLoss.settleFrame_orders
  unfold State.takePulse
  generalize s.overdueLoss.settleFrame = t at hframe ⊢
  have hrestored : (if t.highway.monitor = .lost then t.restoreFrames else t).orders = t.orders := by split <;> rfl
  exact hframe.of_orders hrestored

theorem CircuitsOk.clockBit {s : State} (hs : CircuitsOk s) : CircuitsOk s.clockBit := by
  have ht := hs.of_orders s.takeComputation_orders
  unfold State.clockBit
  generalize s.takeComputation = t at ht ⊢
  dsimp only
  split
  · split <;> exact ht.of_orders rfl
  · exact ht.of_orders rfl

/-! ### Every command -/

@[simp] theorem State.runClock_orders (s : State) (d : Nat) : (s.runClock d).orders = s.orders := by
  unfold State.runClock; split <;> rfl

/-- An event at the end of a step on the store port leaves alone what its effect and the local clock leave alone. -/
theorem State.atStepEnd_frame {γ : Type} (g : State → γ) {p : PortStep → Bool} {f : State → State}
    (hclock : ∀ s d, g (State.runClock s d) = g s) (hf : ∀ s, g (f s) = g s) (s : State) : g (s.atStepEnd p f) = g s := by
  unfold State.atStepEnd
  split
  · split
    · rw [hf, hclock]
    · rfl
  · rfl

/-- A measure that one branch of a choice leaves as it is. -/
theorem ite_frame {α γ : Type} (g : α → γ) {c : Prop} [Decidable c] {a b : α} (h : g b = g a) :
    g (if c then a else b) = g a := by
  split
  · rfl
  · exact h

@[simp] theorem State.postRingWord_orders (s : State) : s.postRingWord.orders = s.orders := by
  unfold State.postRingWord
  dsimp only
  split
  · split
    · split
      · rfl
      · split <;> rfl
    · split <;> rfl
  · rfl

@[simp] theorem State.drainFanout_orders (s : State) : s.drainFanout.orders = s.orders := by
  have hstep : ∀ (t : State) (c : FanoutChange), (t.onExchange (Exchange.setFanout c.limit)).orders = t.orders :=
    fun _ c => State.orders_of_outer fun e => e.outer_setFanout c.limit
  unfold State.drainFanout
  rw [foldl_frame State.orders _ hstep]

/-- A configuration record applied changes the two settings of the order unit and no circuit record. -/
theorem State.applyRecord_circuits (s : State) (ws : Nat → Word) : (s.applyRecord ws).orders.circuits = s.orders.circuits := by
  have timings : ∀ (s : State) w x, (s.applyTimings w x).orders.circuits = s.orders.circuits := by
    intro s w x
    unfold State.applyTimings
    dsimp only
    iterate 4 rw [ite_frame fun s : State => s.orders.circuits]
    all_goals rfl
  have threshold : ∀ (s : State) g w, (s.applyThreshold g w).orders = s.orders := by
    intro s g w
    exact ite_frame State.orders rfl
  have table : ∀ (s : State) g w x, (s.applyTable g w x).orders = s.orders := by
    intro s g w x
    unfold State.applyTable
    dsimp only
    iterate 2 rw [ite_frame State.orders]
    all_goals rfl
  unfold State.applyRecord
  dsimp only
  rw [table, table, table, table, threshold, threshold, threshold, timings]

theorem CircuitsOk.endScan {s : State} (hs : CircuitsOk s) : CircuitsOk s.endScan := by
  have hrecord : ∀ ws, CircuitsOk (s.applyRecord ws) := fun ws p => by rw [s.applyRecord_circuits ws]; exact hs p
  have hjudged : CircuitsOk (if configValid s.store.bytes then s.applyRecord (recordWord s.store.bytes) else s) := by
    split
    · exact hrecord _
    · exact hs
  exact hjudged.of_orders rfl

theorem circuitsOk_of_initial {o : OrderUnit} (h : o.circuits = OrderUnit.initial.circuits) (p : Circ) :
    o.circuits[p].consistent = true := by
  rw [h]
  simp [OrderUnit.initial, consistent_initial]

theorem act_circuitsOk (i : Instr) {s : State} (hs : CircuitsOk s) : CircuitsOk (Instr.act i s) := by
  match i with
  | .quiet p w => exact hs.onExchange fun e h => h.changeSet _ _ _
  | .toneShared p w | .tonePrivate p w => exact hs.onExchange fun e h => h.orderTone p w _
  | .announce p w => exact hs.onExchange fun e h => h.orderAnnounce p w
  | .congestion p w => exact hs.onExchange fun e h => h.orderCongestion p w
  | .clearAll p _ => exact hs.onExchange fun e h => h.changeSet _ _ _
  | .detailWordWrite p w => exact hs.onExchange fun e h => h.setCircuit (h p)
  | .framePulse => exact hs.takePulse
  | .frameLoss =>
    simp only [Instr.act, State.passInterval]
    split
    · exact (hs.of_orders (s.runClock_orders _)).declareLoss
    · exact hs
  | .frameComputation => exact hs.of_orders s.takeComputation_orders
  | .frameStartChannels => exact hs.of_orders s.takeChannelsFrame_orders
  | .frameStartPlayers => exact hs.of_orders s.takePlayersFrame_orders
  | .highwayClockBitTime => exact hs.clockBit
  | .cadenceBoundary => exact hs.takeCadence
  | .waitBoundaryOrders => exact hs.takeWaitOrders
  | .waitBoundaryPlayers => exact hs.of_orders s.takeWaitPlayers_orders
  | .loadGradeEvaluation => exact hs.of_orders s.takeEvaluation_orders
  | .gapEnd p => exact hs.onExchange fun e h => h.gapEnd p
  | .waitLimitReached p => exact hs.onExchange fun e h => h.sendExpiry p
  | .expiryRequest =>
    refine hs.onExchange fun e h => h.congr ?_
    unfold Exchange.takeExpiryReq
    split
    · rfl
    · rw [Exchange.circuits_of_outer (Exchange.outer_takeExpiry _ _)]
  | .expiryAnswer => exact hs.onExchange fun e h => h.takePlayerNotice _ fun x e h => h.applyAnswer x
  | .servedNotice .channels => exact hs.onExchange fun e h => h.takeChannelNotice _ fun x e h => h.applyChannelServed x
  | .servedNotice .players => exact hs.onExchange fun e h => h.takePlayerNotice _ fun x e h => h.applyPlayerServed x
  | .doneNotice | .withdrawnNotice =>
    exact hs.onExchange fun e h => h.takeChannelNotice _ fun x e h => h.onNotice _ _ fun c y => h.complete _ _ c y
  | .repeatsExhaustedNotice =>
    exact hs.onExchange fun e h => h.takePlayerNotice _ fun x e h => h.onNotice _ _ fun c y => h.followOn _ c y
  | .unavailableNotice =>
    exact hs.onExchange fun e h => h.takePlayerNotice _ fun x e h => h.onNotice _ _ fun c y => h.fallBack _ _ c y
  | .cadenceUnitEnd k => exact hs.of_orders (State.orders_of_outer fun e => e.outer_unitEnd k)
  | .segmentEnd k => exact hs.of_orders (State.orders_of_outer fun e => e.outer_segmentEnd k)
  | .cycleEnd k => exact hs.of_orders (State.orders_of_outer fun e => e.outer_cycleEnd k)
  | .drainingNotice => exact hs.of_orders (State.orders_of_outer Exchange.outer_takeDrainNotice)
  | .annCycleEnd n =>
    exact hs.of_orders ((State.orders_of_outer fun e => e.outer_annCycleEnd n).trans s.takeComputation_orders)
  | .playerGapEnd n => exact hs.of_orders (State.orders_of_outer fun e => e.outer_playerGapEnd n)
  | .refillDelivery =>
    simp only [Instr.act]; unfold State.takeDelivery
    split
    · exact hs
    · exact hs.of_orders (State.orders_of_outer fun e => e.outer_deliver _)
  | .fanoutLimitChange =>
    simp only [Instr.act]; unfold State.takeFanout
    split
    · exact hs
    · exact hs.of_orders (State.orders_of_outer fun e => e.outer_setFanout _)
  | .recordingWithdrawal =>
    simp only [Instr.act]; unfold State.takeWithdrawal
    split
    · exact hs.of_orders (State.orders_of_outer fun e => e.outer_withdrawRecording _)
    · exact hs
  | .madeAvailableNotice =>
    simp only [Instr.act]; unfold State.takeMadeAvailable
    split
    · exact hs.of_orders (State.orders_of_outer fun e => e.outer_makeAvailable _ _)
    · exact hs
  | .scanDoneNotice =>
    simp only [Instr.act]; unfold State.takeScanDone
    split
    · exact hs.of_orders ((State.orders_of_outer fun e => e.outer_scanDone _).trans s.drainFanout_orders)
    · exact hs
  | .planWordWrite off w =>
    refine hs.of_orders (State.orders_of_outer fun e => ?_)
    unfold Exchange.planWrite; dsimp only; split_ifs <;> rfl
  | .liveBankWordWrite w => exact hs.of_orders (State.orders_of_outer fun e => e.outer_liveBankWrite w)
  | .slotWordWrite p w =>
    refine hs.of_orders ?_
    simp only [Instr.act]; unfold State.slotWrite; dsimp only; split <;> rfl
  | .storeScanEnd =>
    simp only [Instr.act]
    split
    · exact hs.endScan
    · exact hs
  | .congestionTableWordWrite k w =>
    simp only [Instr.act]; unfold State.writeTable; dsimp only; split <;> exact hs
  | .acknowledgeWordWrite w => exact hs.of_orders (s.acknowledge_orders w)
  | .softResetWordWrite w =>
    simp only [Instr.act]
    split
    · exact circuitsOk_of_initial rfl
    · exact hs
  | .reportSubmit b =>
    refine hs.of_orders ?_
    simp only [Instr.act]; unfold State.takeReport; split
    · rfl
    · dsimp only; split <;> rfl
  | .ringWordPost => exact hs.of_orders s.postRingWord_orders
  | .producerIndexWordPost =>
    simp only [Instr.act]; unfold State.postProducer; dsimp only
    split
    · split
      · split <;> exact hs
      · exact hs
    · exact hs
  | .statusWordPost =>
    simp only [Instr.act]; unfold State.postStatus
    split
    · split <;> exact hs
    · exact hs
  | .postingCycleEnd =>
    simp only [Instr.act]; unfold State.endPosting
    split
    · exact hs
    · dsimp only; split <;> exact hs
  | .holdoffExpiry =>
    refine hs.of_orders ?_
    simp only [Instr.act]; unfold State.expireHoldoff
    split
    · exact s.runClock_orders _
    · rfl
  | .loadLampTimerExpiry =>
    refine hs.of_orders ?_
    simp only [Instr.act]; unfold State.expireLoadLamp
    split
    · rfl
    · exact s.runClock_orders _
  | .storeLampTimerExpiry =>
    refine hs.of_orders ?_
    simp only [Instr.act]; unfold State.expireStoreLamp
    split
    · rfl
    · exact s.runClock_orders _
  | .refillReadDone =>
    exact hs.of_orders (State.atStepEnd_frame (f := fun s => { s with store := s.store.refillDone }) State.orders
      State.runClock_orders (fun _ => rfl) s)
  | .erasePulseDone left => exact hs.of_orders (State.atStepEnd_frame (f := fun s => s.onStore (StoreSide.pulseDone left))
      State.orders State.runClock_orders (fun _ => rfl) s)
  | .eraseVerifyDone => exact hs.of_orders (State.atStepEnd_frame (f := fun s => s.onStore StoreSide.verifyDone)
      State.orders State.runClock_orders (fun _ => rfl) s)
  | .programAttemptDone m => exact hs.of_orders (State.atStepEnd_frame (f := fun s => s.onStore (StoreSide.attemptDone m))
      State.orders State.runClock_orders (fun _ => rfl) s)
  | .storeLockChange a =>
    simp only [Instr.act]; unfold State.setLock; dsimp only; split <;> exact hs
  | .withdrawnAnswer =>
    simp only [Instr.act]; unfold State.takeWithdrawn; split <;> exact hs
  | .refillRequest =>
    simp only [Instr.act]; unfold State.takeRefillReq; split <;> exact hs
  | .powerOnReset left missed => exact circuitsOk_of_initial rfl
  | .pinReset left missed =>
    simp only [Instr.act]
    split
    · exact circuitsOk_of_initial rfl
    · exact hs
  | .resetRelease straps => simp only [Instr.act]; split <;> exact hs
  | .processorWrite _ _ | .otherRegionWrite _ _ | .orderInvalidCode _ _ | .routeLevelWordWrite _ | .thresholdWordWrite _ _
  | .timingWord1Write _ | .timingWord2Write _ | .consumerIndexWordWrite _ => exact hs
  | .loadBegin _ | .loadConfirm _ | .chunkReady _ | .loadAbandon _ | .retireBegin _ | .retireConfirm _ | .configBegin _
  | .configConfirm _ | .storeHold _ | .storeResume _ | .clearStoreStatus _ | .invalidStoreCommand _
  | .storeParameterWrite _ _ | .loadBufferWrite _ _ | .storeSupplyGoodFall _ _ | .refillReadStart | .erasePulseStart _
  | .erasePulseResume _ _ | .programAttemptStart _ => exact hs

/-- Settles O60. -/
theorem stepsKeepCircuitsConsistent : Obligations.StepsKeepCircuitsConsistent := fun _ _ hs hstep =>
  step_keeps (I := CircuitsOk) (fun _ _ h => h) (fun s h => h.of_orders (s.runClock_orders 1)) (fun _ h => h)
    (fun i _ h => act_circuitsOk i h) hs hstep

end Sys2Proof.Machine
end

