-- ==== Sys2Proof/Proofs/HeldSettings.lean ====
section
/-!
PROOF. What the treatments leave alone: the settings the owners hold, and which bank is LIVE. No event of a pool, no order and
no notice changes them; only a change of the fan-out limit and a bank switch do.
-/
namespace Sys2Proof.Machine

/-- The live-bank selector, and which banks are LIVE. -/
def PlanTable.liveView (t : PlanTable) : Option Bank × Bool × Bool := (t.live, t.bankA.state == .live, t.bankB.state == .live)

/-- What the owners hold of the settings (R161), and the live bank. -/
def Exchange.held (e : Exchange) :
    (Nat × Nat) × (Vector Nat 3 × Vector Nat 3 × Vector TableEntry 4) × Nat × Option Bank × Bool × Bool :=
  ((e.orders.gapSetting, e.orders.waitLimit), (e.cong.up, e.cong.down, e.cong.table), e.players.fanout, e.plans.liveView)

/-- Only the state of a bank and the selector are seen: a bank whose state stays LIVE, or not LIVE, is seen as before. -/
theorem PlanTable.liveView_setBank {t : PlanTable} {b : Bank} {r : BankRecord}
    (h : (r.state == .live) = ((t.bank b).state == .live)) : (t.setBank b r).liveView = t.liveView := by
  cases b <;> simpa [PlanTable.liveView, PlanTable.setBank, PlanTable.bank] using h

@[simp] theorem PlanTable.liveView_addRef (t : PlanTable) (b : Bank) : (t.addRef b).liveView = t.liveView :=
  PlanTable.liveView_setBank rfl

@[simp] theorem PlanTable.liveView_drainNotices (t : PlanTable) (l : List Bank) :
    PlanTable.liveView { t with drainNotices := l } = t.liveView := rfl

theorem Exchange.held_plans (e : Exchange) {t : PlanTable} (h : t.liveView = e.plans.liveView) :
    Exchange.held { e with plans := t } = e.held := by
  unfold Exchange.held; rw [h]

/-! ### Channel pool and plan table -/

section
variable (e : Exchange)

@[simp] theorem Exchange.held_mark (w : PostedWord) : (e.mark w).held = e.held := rfl
@[simp] theorem Exchange.held_submit (b : Block) (k : ReportKind) (x v : Nat) : (e.submit b k x v).held = e.held := rfl
@[simp] theorem Exchange.held_setChan (k : ChanNo) (c : Channel) : (e.setChan k c).held = e.held := rfl
@[simp] theorem Exchange.held_chanNotify (c : Circ) (g : Tag) (m : ChannelMessage) : (e.chanNotify c g m).held = e.held :=
  rfl
@[simp] theorem Exchange.held_setToneQueue (q : List ToneWaiter) : (e.setToneQueue q).held = e.held := rfl
@[simp] theorem Exchange.held_queueTone (c : Circ) (g : Tag) (b : Bool) (p : PlanNo) : (e.queueTone c g b p).held = e.held :=
  rfl

@[simp] theorem Exchange.held_joinChan (k : ChanNo) (l : ToneListener) : (e.joinChan k l).held = e.held := by
  unfold Exchange.joinChan; split <;> rfl

@[simp] theorem Exchange.held_dropRef (b : Bank) : (e.dropRef b).held = e.held := by
  unfold Exchange.dropRef
  dsimp only
  split
  · rename_i hlast
    exact e.held_plans (PlanTable.liveView_setBank (by rw [hlast.1]; rfl))
  · exact e.held_plans (PlanTable.liveView_setBank rfl)

theorem PlanTable.liveView_allocate {t t' : PlanTable} {p : PlanNo} {b : Bank} (h : t.allocate p = some (b, t')) :
    t'.liveView = t.liveView := by
  unfold PlanTable.allocate at h
  split at h
  · cases h
  · split at h
    · cases h; exact t.liveView_addRef _
    · cases h

theorem Exchange.held_allocChan {k : ChanNo} {p : PlanNo} {l : ToneListener} {e' : Exchange}
    (h : e.allocChan k p l = some e') : e'.held = e.held := by
  unfold Exchange.allocChan at h
  split at h
  · cases h
  · rename_i hgrant
    cases h
    exact e.held_plans (PlanTable.liveView_allocate hgrant)

@[simp] theorem Exchange.held_startTone (c : Circ) (g : Tag) (b : Bool) (p : PlanNo) : (e.startTone c g b p).2.held = e.held := by
  have free : ∀ k p l, (e.startFree k p l).2.held = e.held := by
    intro k p l
    unfold Exchange.startFree
    split
    · rename_i h; exact e.held_allocChan h
    · rfl
  unfold Exchange.startTone Exchange.startPrivate Exchange.startShared
  split
  · split
    · simp [free]
    · split
      · rw [Exchange.held_submit, Exchange.held_joinChan]
      · simp
  · split
    · simp
    · split <;> simp [free]

@[simp] theorem Exchange.held_serveInto (k : ChanNo) (w : ToneWaiter) : (e.serveInto k w).held = e.held := by
  simp [Exchange.serveInto]

@[simp] theorem Exchange.held_serveShared (k : ChanNo) (p : PlanNo) : (e.serveShared k p).held = e.held := by
  unfold Exchange.serveShared
  dsimp only
  rw [foldl_frame Exchange.held _ (fun b a => b.held_serveInto k a)]
  rfl

theorem Exchange.held_serveQueueFrom (k : ChanNo) (q : List ToneWaiter) : (Exchange.serveQueueFrom k q e).held = e.held := by
  induction q generalizing e with
  | nil => rfl
  | cons w rest ih =>
    unfold Exchange.serveQueueFrom
    split
    · rw [ih]; rfl
    · rename_i h
      have := (e.setToneQueue rest).held_allocChan h
      dsimp only
      split <;> simp [this]

@[simp] theorem Exchange.held_freeChan (k : ChanNo) (r : Bool) : (e.freeChan k r).held = e.held := by
  unfold Exchange.freeChan Exchange.serveToneQueue
  split
  · rfl
  · dsimp only; rw [Exchange.held_serveQueueFrom]; split <;> simp

@[simp] theorem Exchange.held_leaveTone (c : Circ) : (e.leaveTone c).held = e.held := by
  unfold Exchange.leaveTone
  split
  · rfl
  · split
    · rfl
    · split
      · rfl
      · dsimp only; split <;> simp

@[simp] theorem Exchange.held_unitEnd (k : ChanNo) : (e.unitEnd k).held = e.held := by
  unfold Exchange.unitEnd; split
  · split <;> rfl
  · rfl

@[simp] theorem Exchange.held_segmentEnd (k : ChanNo) : (e.segmentEnd k).held = e.held := by
  unfold Exchange.segmentEnd; split
  · split <;> rfl
  · rfl

@[simp] theorem Exchange.held_dismiss (k : ChanNo) (m : ChannelMessage) : (e.dismiss k m).held = e.held := by
  unfold Exchange.dismiss
  split
  · rfl
  · rw [Exchange.held_setChan, foldl_frame Exchange.held _ (fun b a => b.held_chanNotify _ _ _)]

@[simp] theorem Exchange.held_cycleOn (k : ChanNo) (r : Run) : (e.cycleOn k r).held = e.held := by
  have final : ∀ (pl : Plan) (r : Run), (e.finalAction k r pl).held = e.held := by
    intro pl r
    unfold Exchange.finalAction Exchange.silence
    split <;> (try split) <;> simp
  unfold Exchange.cycleOn
  dsimp only
  split
  · split <;> simp [final]
  · simp

@[simp] theorem Exchange.held_cycleEnd (k : ChanNo) : (e.cycleEnd k).held = e.held := by
  have moved : ∀ b l : Bank, (Exchange.dropRef b { e with plans := e.plans.addRef l }).held = e.held := fun b l => by
    rw [Exchange.held_dropRef, e.held_plans (e.plans.liveView_addRef l)]
  unfold Exchange.cycleEnd
  split
  · rfl
  · split
    · rfl
    · split
      · split
        · simp
        · dsimp only
          split
          · split <;> simp [moved]
          · split <;> simp [moved]
        · simp
      · simp

@[simp] theorem Exchange.held_settleChannels : e.settleChannels.held = e.held := by
  unfold Exchange.settleChannels
  exact foldl_frame Exchange.held _ (fun b a => by simp [Exchange.settleChannel]) _ _

/-! ### Player pool -/

@[simp] theorem Exchange.held_setPlayer (n : PlayNo) (p : Player) : (e.setPlayer n p).held = e.held := by
  unfold Exchange.setPlayer; dsimp only; split <;> rfl
@[simp] theorem Exchange.held_playNotify (c : Circ) (g : Tag) (m : PlayerMessage) : (e.playNotify c g m).held = e.held := rfl
@[simp] theorem Exchange.held_setWaitList (l : List AnnWaiter) : (e.setWaitList l).held = e.held := rfl

@[simp] theorem Exchange.held_closePlayer (n : PlayNo) : (e.closePlayer n).held = e.held := by
  unfold Exchange.closePlayer
  dsimp only
  split
  · simp
  · split
    · exact e.held_setPlayer n _
    · simp

@[simp] theorem Exchange.held_moveWaiters (n : PlayNo) (r : RecNo) (m : Nat) : (e.moveWaiters n r m).held = e.held := by
  unfold Exchange.moveWaiters
  dsimp only
  rw [foldl_frame Exchange.held _ (fun b a => b.held_playNotify _ _ _)]
  simp

@[simp] theorem Exchange.held_serveRoom (n : PlayNo) : (e.serveRoom n).held = e.held := by
  unfold Exchange.serveRoom; split <;> simp
@[simp] theorem Exchange.held_bindPlayer (n : PlayNo) (r : RecNo) : (e.bindPlayer n r).held = e.held := by
  simp [Exchange.bindPlayer]
@[simp] theorem Exchange.held_serveIdle (n : PlayNo) : (e.serveIdle n).held = e.held := by
  unfold Exchange.serveIdle; split
  · split <;> simp
  · rfl
@[simp] theorem Exchange.held_serveRooms : e.serveRooms.held = e.held := by
  unfold Exchange.serveRooms; split
  · rfl
  · exact foldl_frame Exchange.held _ Exchange.held_serveRoom _ _
@[simp] theorem Exchange.held_serveIdles : e.serveIdles.held = e.held := by
  unfold Exchange.serveIdles; split
  · rfl
  · exact foldl_frame Exchange.held _ Exchange.held_serveIdle _ _

@[simp] theorem Exchange.held_closePool : e.closePool.held = e.held := by
  unfold Exchange.closePool
  rw [foldl_frame Exchange.held _ Exchange.held_closePlayer]
  simp

@[simp] theorem Exchange.held_addJoin (n : PlayNo) (j : JoinEntry) : (e.addJoin n j).held = e.held := by
  simp [Exchange.addJoin]

@[simp] theorem Exchange.held_startAnn (c : Circ) (r : RecNo) (m : Fin 16) (g : Tag) : (e.startAnn c r m g).2.held = e.held := by
  unfold Exchange.startAnn Exchange.placeAnn
  dsimp only
  rw [Exchange.held_closePool]
  split
  · rfl
  · split
    · rfl
    · split
      · split <;> simp
      · split <;> simp

@[simp] theorem Exchange.held_startCycle (n : PlayNo) : (e.startCycle n).held = e.held := by
  unfold Exchange.startCycle
  dsimp only
  rw [Exchange.held_mark, foldl_frame Exchange.held _ (fun b a => b.held_playNotify _ _ _), Exchange.held_setPlayer]

@[simp] theorem Exchange.held_afterCycle (n : PlayNo) : (e.afterCycle n).held = e.held := by
  unfold Exchange.afterCycle
  dsimp only
  split
  · simp
  · split
    · simp
    · split <;> simp

@[simp] theorem Exchange.held_annCycleEnd (n : PlayNo) : (e.annCycleEnd n).held = e.held := by
  unfold Exchange.annCycleEnd Exchange.endAnnCycle
  dsimp only
  split
  · rw [Exchange.held_closePool, Exchange.held_afterCycle, Exchange.held_serveRooms,
      foldl_frame Exchange.held _ (fun b a => b.held_playNotify _ _ _), Exchange.held_setPlayer]
  · rfl

@[simp] theorem Exchange.held_handOverCode (n : PlayNo) : (e.handOverCode n).held = e.held := by
  unfold Exchange.handOverCode
  dsimp only
  split
  · split
    · simp
    · split <;> simp
  · simp

@[simp] theorem Exchange.held_framePlayers : e.framePlayers.held = e.held := by
  unfold Exchange.framePlayers
  rw [Exchange.held_closePool]
  exact foldl_frame Exchange.held _ Exchange.held_handOverCode _ _

@[simp] theorem Exchange.held_playerGapEnd (n : PlayNo) : (e.playerGapEnd n).held = e.held := by
  unfold Exchange.playerGapEnd
  dsimp only
  split
  · rw [Exchange.held_closePool]; split <;> simp
  · rfl

@[simp] theorem Exchange.held_deliver (d : Delivery) : (e.deliver d).held = e.held := by
  unfold Exchange.deliver
  dsimp only
  split
  · rw [Exchange.held_closePool]; split <;> simp
  · rfl

@[simp] theorem Exchange.held_removeFrom (n : PlayNo) (c : Circ) : (e.removeFrom n c).held = e.held := by
  unfold Exchange.removeFrom Exchange.afterRemoval
  dsimp only
  rw [Exchange.held_mark]
  split
  · simp
  · split <;> simp

@[simp] theorem Exchange.held_leaveAnn (c : Circ) : (e.leaveAnn c).2.held = e.held := by
  unfold Exchange.leaveAnn
  split
  · simp
  · split <;> simp

@[simp] theorem Exchange.held_takeExpiry (q : ExpiryReq) : (e.takeExpiry q).held = e.held := by
  unfold Exchange.takeExpiry
  split
  · simp
  · split
    · simp
    · split <;> simp


@[simp] theorem Exchange.held_drainExpiry : e.drainExpiry.held = e.held := by
  unfold Exchange.drainExpiry
  rw [foldl_frame Exchange.held _ (fun b a => b.held_takeExpiry a)]
  rfl

@[simp] theorem Exchange.held_takeExpiryReq : e.takeExpiryReq.held = e.held := by
  unfold Exchange.takeExpiryReq
  split
  · rfl
  · rw [Exchange.held_takeExpiry]; rfl

@[simp] theorem Exchange.held_takeDrainNotice : e.takeDrainNotice.held = e.held := by
  unfold Exchange.takeDrainNotice; split <;> rfl

@[simp] theorem Exchange.held_countGaps : e.countGaps.held = e.held := by
  unfold Exchange.countGaps; rw [Exchange.held_closePool]; rfl

@[simp] theorem Exchange.held_unbind (r : RecNo) (n : PlayNo) : (e.unbind r n).held = e.held := by
  unfold Exchange.unbind
  dsimp only
  split
  · rw [Exchange.held_mark, Exchange.held_setPlayer, foldl_frame Exchange.held _ (fun b a => b.held_playNotify _ _ _),
      foldl_frame Exchange.held _ (fun b a => b.held_playNotify _ _ _)]
  · rfl

@[simp] theorem Exchange.held_dropWaiters (keep : AnnWaiter → Bool) : (e.dropWaiters keep).held = e.held := by
  unfold Exchange.dropWaiters
  dsimp only
  rw [foldl_frame Exchange.held _ (fun b a => b.held_playNotify _ _ _)]
  rfl

@[simp] theorem Exchange.held_withdrawRecording (r : RecNo) : (e.withdrawRecording r).held = e.held := by
  have hview : ∀ f : Exchange, Exchange.held { f with players := { f.players with
      withdrawnAnswers := f.players.withdrawnAnswers ++ [r] } } = f.held := fun _ => rfl
  unfold Exchange.withdrawRecording
  dsimp only
  rw [Exchange.held_closePool, hview, Exchange.held_dropWaiters,
    foldl_frame Exchange.held _ (fun b a => b.held_unbind r a)]
  rfl

@[simp] theorem Exchange.held_makeAvailable (r : RecNo) (v : ViewRecord) : (e.makeAvailable r v).held = e.held := by
  unfold Exchange.makeAvailable; rw [Exchange.held_closePool]; rfl

@[simp] theorem Exchange.held_scanDone (view : Vector (Option ViewRecord) 32) : (e.scanDone view).held = e.held := by
  unfold Exchange.scanDone
  dsimp only
  rw [Exchange.held_closePool, Exchange.held_dropWaiters]
  rfl

/-! ### Order unit and congestion unit -/

@[simp] theorem Exchange.held_evaluateGrade : e.evaluateGrade.held = e.held := by
  unfold Exchange.evaluateGrade; dsimp only; split <;> rfl

@[simp] theorem Exchange.held_pulseLoadLamp : e.pulseLoadLamp.held = e.held := by
  unfold Exchange.pulseLoadLamp; split <;> rfl

@[simp] theorem Exchange.held_setCircuit (p : Circ) (c : Circuit) : (e.setCircuit p c).held = e.held := by
  unfold Exchange.setCircuit; dsimp only; split <;> rfl

@[simp] theorem Exchange.held_report (p : Circ) (k : ReportKind) (v : Nat) : (e.report p k v).held = e.held := rfl

@[simp] theorem Exchange.held_enterQuiet (p : Circ) : (e.enterQuiet p).held = e.held := e.held_setCircuit _ _
@[simp] theorem Exchange.held_enterGap (p : Circ) : (e.enterGap p).held = e.held := e.held_setCircuit _ _
@[simp] theorem Exchange.held_bumpTag (p : Circ) : (e.bumpTag p).held = e.held := e.held_setCircuit _ _
@[simp] theorem Exchange.held_bindCircuit (p : Circ) (st : CircuitState) (b : Binding) : (e.bindCircuit p st b).held = e.held :=
  e.held_setCircuit _ _
@[simp] theorem Exchange.held_setEntry (p : Circ) (c : Cls) (x : Option Entry) : (e.setEntry p c x).held = e.held :=
  e.held_setCircuit _ _

@[simp] theorem Exchange.held_removeEntry (p : Circ) (c : Cls) (k : ReportKind) (v : Nat) : (e.removeEntry p c k v).held = e.held := by
  simp [Exchange.removeEntry]

@[simp] theorem Exchange.held_startToneEntry (p : Circ) (c : Cls) (x : Entry) (v : Bool) (q : PlanNo) :
    (e.startToneEntry p c x v q).2.held = e.held := by
  unfold Exchange.startToneEntry
  dsimp only
  split
  · split <;> simp
  · simp

@[simp] theorem Exchange.held_startAnnEntry (p : Circ) (c : Cls) (x : Entry) (r : RecNo) (n : Fin 16) :
    (e.startAnnEntry p c x r n).2.held = e.held := by
  unfold Exchange.startAnnEntry
  dsimp only
  split
  · simp
  · simp
  · simp
  · split <;> simp

@[simp] theorem Exchange.held_startEntry (p : Circ) (c : Cls) (x : Entry) : (e.startEntry p c x).2.held = e.held := by
  have congestion : ∀ (e : Exchange) q, (e.startCongestion p c x q).2.held = e.held := by
    intro e q
    unfold Exchange.startCongestion
    dsimp only
    split <;> simp
  unfold Exchange.startEntry
  dsimp only
  split <;> simp [congestion]

theorem Exchange.held_startBelow (p : Circ) (n : Nat) : (e.startBelow p n).held = e.held := by
  induction n generalizing e with
  | zero => exact e.held_enterQuiet p
  | succ n ih =>
    unfold Exchange.startBelow
    split
    · exact ih e
    · dsimp only
      split
      · exact e.held_startEntry _ _ _
      · rw [ih, Exchange.held_startEntry]

@[simp] theorem Exchange.held_startActive (p : Circ) : (e.startActive p).held = e.held := e.held_startBelow p 4

@[simp] theorem Exchange.held_proceed (p : Circ) (left : CircuitState) : (e.proceed p left).held = e.held := by
  unfold Exchange.proceed
  split
  · simp
  · split <;> simp

@[simp] theorem Exchange.held_release (p : Circ) : (e.release p).2.held = e.held := by
  unfold Exchange.release Exchange.leave
  dsimp only
  split <;> simp

@[simp] theorem Exchange.held_changeSet (p : Circ) (t : TreatmentSet) (placed : Option Cls) :
    (e.changeSet p t placed).held = e.held := by
  unfold Exchange.changeSet
  dsimp only
  split
  · split <;> simp
  · generalize TreatmentSet.makeDormant t _ _ = t'
    split
    · simp
    · split <;> simp

@[simp] theorem Exchange.held_refuseOrder (p : Circ) (k : ReportKind) (w : Word) : (e.refuseOrder p k w).held = e.held := rfl

@[simp] theorem Exchange.held_place (p : Circ) (c : Cls) (k : Treatment) : (e.place p c k).held = e.held := by
  simp [Exchange.place]

@[simp] theorem Exchange.held_orderTone (p : Circ) (w : Word) (k : PlanNo → Treatment) : (e.orderTone p w k).held = e.held := by
  unfold Exchange.orderTone
  split
  · simp
  · split <;> simp

@[simp] theorem Exchange.held_orderAnnounce (p : Circ) (w : Word) : (e.orderAnnounce p w).held = e.held := by
  unfold Exchange.orderAnnounce; split <;> simp

@[simp] theorem Exchange.held_orderCongestion (p : Circ) (w : Word) : (e.orderCongestion p w).held = e.held := by
  unfold Exchange.orderCongestion; split <;> simp

@[simp] theorem Exchange.held_gapEnd (p : Circ) : (e.gapEnd p).held = e.held := by
  unfold Exchange.gapEnd; split <;> simp

@[simp] theorem Exchange.held_sendExpiry (p : Circ) : (e.sendExpiry p).held = e.held := by
  unfold Exchange.sendExpiry
  dsimp only
  split
  · exact e.held_setCircuit _ _
  · rfl

theorem Exchange.held_onNotice (p : Circ) (tag : Tag) {f : Cls → Entry → Exchange → Exchange}
    (hf : ∀ c x, (f c x e).held = e.held) : (e.onNotice p tag f).held = e.held := by
  unfold Exchange.onNotice
  split
  · split
    · rfl
    · split
      · rfl
      · exact hf _ _
  · rfl

@[simp] theorem Exchange.held_complete (p : Circ) (k : ReportKind) (c : Cls) (x : Entry) : (e.complete p k c x).held = e.held := by
  simp [Exchange.complete]

@[simp] theorem Exchange.held_replaceBy (q : PlanNo) (p : Circ) (k : ReportKind) (c : Cls) (x : Entry) :
    (e.replaceBy q p k c x).held = e.held := by
  simp [Exchange.replaceBy]

@[simp] theorem Exchange.held_fallBack (p : Circ) (k : ReportKind) (c : Cls) (x : Entry) : (e.fallBack p k c x).held = e.held := by
  unfold Exchange.fallBack; split <;> simp

@[simp] theorem Exchange.held_followOn (p : Circ) (c : Cls) (x : Entry) : (e.followOn p c x).held = e.held := by
  unfold Exchange.followOn; split <;> simp

@[simp] theorem Exchange.held_servedOnChannel (p : Circ) (tag : Tag) (k : ChanNo) : (e.servedOnChannel p tag k).held = e.held := by
  unfold Exchange.servedOnChannel; dsimp only; split <;> simp

@[simp] theorem Exchange.held_servedMoved (p : Circ) (tag : Tag) (n : PlayNo) : (e.servedMoved p tag n).held = e.held := by
  unfold Exchange.servedMoved; dsimp only; split <;> simp

@[simp] theorem Exchange.held_servedListener (p : Circ) (tag : Tag) (n : PlayNo) : (e.servedListener p tag n).held = e.held := by
  unfold Exchange.servedListener; dsimp only; split <;> simp

@[simp] theorem Exchange.held_applyChannelServed (x : ChannelNotice) : (e.applyChannelServed x).held = e.held := by
  unfold Exchange.applyChannelServed; split <;> simp

@[simp] theorem Exchange.held_applyPlayerServed (x : PlayerNotice) : (e.applyPlayerServed x).held = e.held := by
  unfold Exchange.applyPlayerServed; split <;> simp

@[simp] theorem Exchange.held_applyAnswer (x : PlayerNotice) : (e.applyAnswer x).held = e.held := by
  unfold Exchange.applyAnswer
  split
  · exact e.held_onNotice _ _ fun c y => by simp
  · simp
  · rfl

theorem Exchange.held_takeChannelNotice (ok : ChannelMessage → Bool) {f : ChannelNotice → Exchange → Exchange}
    (hf : ∀ x e, (f x e).held = e.held) : (e.takeChannelNotice ok f).held = e.held := by
  unfold Exchange.takeChannelNotice
  split
  · rfl
  · split
    · rw [hf]; rfl
    · rfl

theorem Exchange.held_takePlayerNotice (ok : PlayerMessage → Bool) {f : PlayerNotice → Exchange → Exchange}
    (hf : ∀ x e, (f x e).held = e.held) : (e.takePlayerNotice ok f).held = e.held := by
  unfold Exchange.takePlayerNotice
  split
  · rfl
  · split
    · rw [hf]; rfl
    · rfl

end

end Sys2Proof.Machine
end

