-- ==== Sys2Proof/Proofs/SettingSteps.lean ====
section
/-!
PROOF. Every step keeps the settings in their ranges and the owners holding them, and the live-bank selector naming the one LIVE
bank (R29, R161). Most acts leave all of that alone; the setting words, the end of the scan, the player pool's taking of the
fan-out limit, a bank switch and the resets are looked at one by one.
-/
namespace Sys2Proof.Machine

/-- What the three invariants speak of. -/
def State.settled (s : State) := (s.exchange.held, s.reports.holdoffSetting, s.bus.settings, s.bus.fanoutChanges)

/-- The settings in range and held by their owners, and the live-bank selector naming the one LIVE bank. -/
def HeldOk (s : State) : Prop := SettingsOk s ∧ OwnersOk s ∧ BanksOk s

theorem State.settled_eq {s t : State} (h : t.settled = s.settled) :
    t.exchange.held = s.exchange.held ∧ t.reports.holdoffSetting = s.reports.holdoffSetting
      ∧ t.bus.settings = s.bus.settings ∧ t.bus.fanoutChanges = s.bus.fanoutChanges := by
  simpa [State.settled] using h

theorem Exchange.held_eq {e f : Exchange} (h : f.held = e.held) :
    (f.orders.gapSetting = e.orders.gapSetting ∧ f.orders.waitLimit = e.orders.waitLimit)
      ∧ (f.cong.up = e.cong.up ∧ f.cong.down = e.cong.down ∧ f.cong.table = e.cong.table)
      ∧ f.players.fanout = e.players.fanout ∧ f.plans.liveView = e.plans.liveView := by
  simpa [Exchange.held] using h

/-- Whether the selector names the one LIVE bank is seen in the live view. -/
theorem banksOk_iff (s : State) :
    BanksOk s ↔ ((s.plans.bankA.state == .live) = (s.plans.live == some .A)
      ∧ (s.plans.bankB.state == .live) = (s.plans.live == some .B)) := by
  have beq : ∀ (x : BankState) (o : Option Bank) (b : Bank),
      (x == .live) = (o == some b) ↔ (x = .live ↔ o = some b) := fun x o b => by
    rw [Bool.eq_iff_iff, beq_iff_eq, beq_iff_eq]
  rw [beq, beq]
  exact ⟨fun h => ⟨h .A, h .B⟩, fun h b => by cases b; exacts [h.1, h.2]⟩

theorem BanksOk.of_liveView {s t : State} (hs : BanksOk s) (h : t.plans.liveView = s.plans.liveView) : BanksOk t := by
  rw [banksOk_iff] at hs ⊢
  simp only [PlanTable.liveView, Prod.mk.injEq] at h
  rw [h.1, h.2.1, h.2.2]
  exact hs

theorem HeldOk.of_settled {s t : State} (hs : HeldOk s) (h : t.settled = s.settled) : HeldOk t := by
  obtain ⟨hsettings, howners, hbanks⟩ := hs
  obtain ⟨hheld, hholdoff, hshadow, hchanges⟩ := State.settled_eq h
  obtain ⟨⟨hgap, hlimit⟩, ⟨hup, hdown, htable⟩, hfanout, hlive⟩ := Exchange.held_eq hheld
  refine ⟨?_, ?_, hbanks.of_liveView hlive⟩
  · unfold SettingsOk; rw [hshadow]; exact hsettings
  · simp only [State.exchange_orders, State.exchange_cong, State.exchange_players] at hgap hlimit hup hdown htable hfanout
    unfold OwnersOk
    rw [hshadow, hholdoff, hchanges, hgap, hlimit, hup, hdown, htable, hfanout]
    exact howners

/-- What leaves the exchange's held settings, the bus and the report unit alone leaves the rest. -/
theorem State.settled_of_aside {s t : State} (ha : t.aside = s.aside) (hh : t.exchange.held = s.exchange.held) :
    t.settled = s.settled := by
  obtain ⟨-, hbus, hreports, -⟩ := State.aside_eq ha
  unfold State.settled
  rw [hbus, hreports, hh]

/-- An event of the exchange that leaves the held settings alone. -/
theorem State.settled_onExchange {s : State} {f : Exchange → Exchange} (hf : ∀ e : Exchange, (f e).held = e.held) :
    (s.onExchange f).settled = s.settled := State.settled_of_aside (s.aside_onExchange f) (hf s.exchange)

/-! ### Events of a frame -/

section
variable (s : State)

@[simp] theorem State.exchange_onExchange (f : Exchange → Exchange) : (s.onExchange f).exchange = f s.exchange := rfl
@[simp] theorem State.exchange_highway (h : Highway) : State.exchange { s with highway := h } = s.exchange := rfl

/-- The frame computation works on channel values, which are no setting. -/
theorem State.held_computeFrame : s.computeFrame.exchange.held = s.exchange.held := rfl

@[simp] theorem State.held_takePlayersFrame : s.takePlayersFrame.exchange.held = s.exchange.held := by
  unfold State.takePlayersFrame; split <;> simp

@[simp] theorem State.held_takeComputation : s.takeComputation.exchange.held = s.exchange.held := by
  unfold State.takeComputation
  dsimp only
  split
  · rw [State.held_computeFrame, State.exchange_highway, State.held_takePlayersFrame]
  · rfl

@[simp] theorem State.held_takeChannelsFrame : s.takeChannelsFrame.exchange.held = s.exchange.held := by
  have count : ∀ e : Exchange, e.countFrames.held = e.held := fun _ => rfl
  unfold State.takeChannelsFrame
  split
  · rw [State.exchange_onExchange, count, State.exchange_highway, State.held_takeComputation]
  · rfl

@[simp] theorem State.held_settleFrame : s.settleFrame.exchange.held = s.exchange.held := by
  have ends : ∀ e : Exchange, (allPlayers.foldl (fun e n => Exchange.annCycleEnd n e) e).held = e.held :=
    fun e => foldl_frame Exchange.held (fun e n => Exchange.annCycleEnd n e) (fun b n => b.held_annCycleEnd n) _ _
  simp [State.settleFrame, ends]

/-- The order unit counts gaps and waits; its settings stand. -/
theorem State.held_countOrders (h : Highway) (o : OrderUnit) (hgap : o.gapSetting = s.orders.gapSetting)
    (hlimit : o.waitLimit = s.orders.waitLimit) :
    (State.exchange { s with highway := h, orders := o }).held = s.exchange.held := by
  simp only [Exchange.held, State.exchange_orders, hgap, hlimit]
  rfl

@[simp] theorem State.held_takeCadence : s.takeCadence.exchange.held = s.exchange.held := by
  unfold State.takeCadence
  split
  · rfl
  · exact (State.held_countOrders s.takeComputation _ s.takeComputation.orders.countGaps rfl rfl).trans s.held_takeComputation

@[simp] theorem State.held_takeWaitOrders : s.takeWaitOrders.exchange.held = s.exchange.held := by
  unfold State.takeWaitOrders
  split
  · rfl
  · exact (State.held_countOrders s.takeComputation _ s.takeComputation.orders.countWaits rfl rfl).trans s.held_takeComputation

@[simp] theorem State.held_takeWaitPlayers : s.takeWaitPlayers.exchange.held = s.exchange.held := by
  unfold State.takeWaitPlayers
  split
  · rfl
  · rw [State.exchange_onExchange, Exchange.held_countGaps, State.exchange_highway, State.held_takeComputation]

@[simp] theorem State.held_takeEvaluation : s.takeEvaluation.exchange.held = s.exchange.held := by
  unfold State.takeEvaluation; split <;> simp

@[simp] theorem State.held_settleBoundaries : s.settleBoundaries.exchange.held = s.exchange.held := by
  have gaps : ∀ e : Exchange, (allCircuits.foldl (fun e p => Exchange.gapEnd p e) e).held = e.held :=
    fun e => foldl_frame Exchange.held (fun e p => Exchange.gapEnd p e) (fun b p => b.held_gapEnd p) _ _
  have waits : ∀ e : Exchange, (allCircuits.foldl (fun e p => Exchange.sendExpiry p e) e).held = e.held :=
    fun e => foldl_frame Exchange.held (fun e p => Exchange.sendExpiry p e) (fun b p => b.held_sendExpiry p) _ _
  have players : ∀ e : Exchange, (allPlayers.foldl (fun e n => Exchange.playerGapEnd n e) e).held = e.held :=
    fun e => foldl_frame Exchange.held (fun e n => Exchange.playerGapEnd n e) (fun b n => b.held_playerGapEnd n) _ _
  have iterate (f : State → State) (hf : ∀ t : State, (f t).exchange.held = t.exchange.held) (n : Nat) (t : State) :
      (f^[n] t).exchange.held = t.exchange.held := iterate_frame (fun t => t.exchange.held) hf n t
  unfold State.settleBoundaries
  dsimp only
  rw [iterate _ State.held_takeEvaluation, State.exchange_onExchange, players, iterate _ State.held_takeWaitPlayers,
    State.exchange_onExchange, waits, iterate _ State.held_takeWaitOrders, State.exchange_onExchange, gaps,
    iterate _ State.held_takeCadence]

@[simp] theorem State.held_declareLoss : s.declareLoss.exchange.held = s.exchange.held := by
  have h : s.settleFrame.settleBoundaries.exchange.held = s.exchange.held := by simp
  unfold State.declareLoss
  generalize s.settleFrame.settleBoundaries = t at h ⊢
  exact h

theorem State.held_takePulse : s.takePulse.exchange.held = s.exchange.held := by
  have frame : s.overdueLoss.settleFrame.exchange.held = s.exchange.held := by
    rw [State.held_settleFrame]
    unfold State.overdueLoss
    split <;> simp
  unfold State.takePulse
  generalize s.overdueLoss.settleFrame = t at frame ⊢
  have restored : (if t.highway.monitor = .lost then t.restoreFrames else t).exchange.held = t.exchange.held := by
    split <;> rfl
  exact restored.trans frame

theorem State.held_clockBit : s.clockBit.exchange.held = s.exchange.held := by
  have h := s.held_takeComputation
  unfold State.clockBit
  generalize s.takeComputation = t at h ⊢
  rw [← h]
  dsimp only
  split
  · split <;> simp
  · simp

/-! ### The local clock, the bus and the report unit -/

theorem State.settled_runClock (d : Nat) : (s.runClock d).settled = s.settled := by
  unfold State.runClock
  split
  · unfold State.settled; dsimp only; rw [ReportUnit.run_eq]; rfl
  · rfl

theorem State.settled_taken : s.taken.settled = s.settled := by
  unfold State.settled
  rw [State.taken_settings, State.taken_fanoutChanges]
  rfl

theorem ReportUnit.take_holdoffSetting (x : Report) (r : ReportUnit) : (r.take x).holdoffSetting = r.holdoffSetting := by
  unfold ReportUnit.take
  split
  · rfl
  · split <;> rfl

theorem State.settled_takeReport (b : Block) : (s.takeReport b).settled = s.settled := by
  unfold State.takeReport
  split
  · rfl
  · rename_i x rest _
    have hholdoff := s.reports.take_holdoffSetting x
    generalize s.reports.take x = r at hholdoff ⊢
    unfold State.settled
    rw [← hholdoff]
    dsimp only
    split <;> rfl

theorem State.settled_postRingWord : s.postRingWord.settled = s.settled := by
  unfold State.postRingWord
  dsimp only
  split
  · split
    · split
      · rfl
      · split <;> rfl
    · split <;> rfl
  · rfl

theorem State.settled_postProducer : s.postProducer.settled = s.settled := by
  unfold State.postProducer
  dsimp only
  split
  · split
    · split <;> rfl
    · rfl
  · rfl

theorem State.settled_postStatus : s.postStatus.settled = s.settled := by
  unfold State.postStatus
  split
  · split <;> rfl
  · rfl

theorem ReportUnit.endCycle_holdoffSetting (x : Posting) (r : ReportUnit) : (r.endCycle x).holdoffSetting = r.holdoffSetting := by
  unfold ReportUnit.endCycle; split <;> rfl

theorem State.settled_endPosting : s.endPosting.settled = s.settled := by
  unfold State.endPosting
  split
  · rfl
  · rename_i x _
    have hholdoff := s.reports.endCycle_holdoffSetting x
    generalize s.reports.endCycle x = r at hholdoff ⊢
    unfold State.settled
    rw [← hholdoff]
    dsimp only
    split
    · simp only [Bus.giveWay_settings, Bus.giveWay_fanoutChanges]; rfl
    · simp only [State.mark_bus, Bus.giveWay_settings, Bus.giveWay_fanoutChanges]; rfl

theorem ReportUnit.endHoldoff_holdoffSetting (r : ReportUnit) : r.endHoldoff.holdoffSetting = r.holdoffSetting := by
  unfold ReportUnit.endHoldoff; split <;> rfl

theorem State.settled_expireHoldoff : s.expireHoldoff.settled = s.settled := by
  have clock := s.settled_runClock (s.reports.holdoffSetting * Config.holdoffUnitUs - s.reports.holdoffUs)
  unfold State.expireHoldoff
  split
  · generalize s.runClock _ = t at clock ⊢
    rw [← clock]
    unfold State.settled
    dsimp only
    rw [ReportUnit.endHoldoff_holdoffSetting]
    rfl
  · rfl

theorem State.settled_expireLoadLamp : s.expireLoadLamp.settled = s.settled := by
  have clock := s.settled_runClock (Config.lampUs - s.cong.lamp.us)
  unfold State.expireLoadLamp
  split
  · rfl
  · generalize s.runClock _ = t at clock ⊢
    exact clock

theorem State.settled_expireStoreLamp : s.expireStoreLamp.settled = s.settled := by
  have clock := s.settled_runClock (Config.lampUs - s.store.lamp.us)
  unfold State.expireStoreLamp
  split
  · rfl
  · generalize s.runClock _ = t at clock ⊢
    exact clock

theorem State.settled_acknowledge (w : Word) : (s.acknowledge w).settled = s.settled := by
  unfold State.acknowledge
  dsimp only
  split <;> split <;> rfl

theorem ReportUnit.writeConsumer_holdoffSetting (c : Fin 128) (r : ReportUnit) :
    (r.writeConsumer c).holdoffSetting = r.holdoffSetting := by
  unfold ReportUnit.writeConsumer
  dsimp only [ReportUnit.attend]
  split
  · split <;> rfl
  · rfl

theorem State.settled_writeConsumer (w : Word) :
    State.settled { s with reports := s.reports.writeConsumer (consumerIndex w) } = s.settled := by
  unfold State.settled
  dsimp only
  rw [ReportUnit.writeConsumer_holdoffSetting]
  rfl

theorem State.settled_request (a : BusAddr) (v : Word) : State.settled { s with bus := s.bus.request a v } = s.settled := by
  unfold State.settled
  dsimp only
  rw [Bus.request_settings, Bus.request_fanoutChanges]
  rfl

end

/-! ### Settings given to their owners -/

theorem ReportUnit.writeHoldoff_holdoffSetting (n : Nat) (r : ReportUnit) : (r.writeHoldoff n).holdoffSetting = n := by
  unfold ReportUnit.writeHoldoff
  split
  · split
    · rename_i hzero; rw [hzero]; rfl
    · rfl
  · rfl

section
variable {s : State}

theorem HeldOk.giveGap (hs : HeldOk s) {n : Nat} (hn : n ≤ 20) : HeldOk (s.giveGap n) := by
  obtain ⟨⟨-, hrest⟩, ⟨-, howners⟩, hbanks⟩ := hs
  exact ⟨⟨hn, hrest⟩, And.intro rfl howners, hbanks⟩

theorem HeldOk.giveFanout (hs : HeldOk s) (b : Bool) {n : Nat} (hn : 1 ≤ n ∧ n ≤ 64) : HeldOk (s.giveFanout b n) := by
  obtain ⟨⟨hgap, -, hrest⟩, ⟨h1, h2, h3, -, howners⟩, hbanks⟩ := hs
  refine ⟨⟨hgap, hn, hrest⟩, ⟨h1, h2, h3, ?_, howners⟩, hbanks⟩
  show ((s.bus.fanoutChanges ++ [FanoutChange.mk n b]).getLast?.map FanoutChange.limit).getD s.players.fanout = n
  rw [List.getLast?_concat]
  rfl

theorem HeldOk.giveWaitLimit (hs : HeldOk s) {n : Nat} (hn : 1 ≤ n ∧ n ≤ 255) : HeldOk (s.giveWaitLimit n) := by
  obtain ⟨⟨hgap, hfanout, -, hrest⟩, ⟨h1, -, howners⟩, hbanks⟩ := hs
  exact ⟨⟨hgap, hfanout, hn, hrest⟩, ⟨h1, rfl, howners⟩, hbanks⟩

theorem HeldOk.giveHoldoff (hs : HeldOk s) {n : Nat} (hn : n ≤ 255) : HeldOk (s.giveHoldoff n) := by
  obtain ⟨⟨hgap, hfanout, hlimit, -, hrest⟩, ⟨h1, h2, -, howners⟩, hbanks⟩ := hs
  exact ⟨⟨hgap, hfanout, hlimit, hn, hrest⟩, ⟨h1, h2, s.reports.writeHoldoff_holdoffSetting n, howners⟩, hbanks⟩

/-- A vector's component after one is replaced. -/
theorem vector_getElem_set_fin {α : Type} {m : Nat} (v : Vector α m) (i j : Fin m) (x : α) :
    (v.set i x)[j] = if j = i then x else v[j] := by
  simp [Vector.getElem_set, Fin.ext_iff, eq_comm]

theorem HeldOk.giveThreshold (hs : HeldOk s) (g : Fin 3) {up down : Nat} (hup : up ≤ 64) (hdown : down ≤ 64) :
    HeldOk (s.giveThreshold g up down) := by
  obtain ⟨⟨hgap, hfanout, hlimit, hholdoff, hrest⟩, ⟨h1, h2, h3, h4, hthresholds, htable⟩, hbanks⟩ := hs
  refine ⟨⟨hgap, hfanout, hlimit, hholdoff, fun i => ?_⟩, ⟨h1, h2, h3, h4, fun i => ?_, htable⟩, hbanks⟩
  · show (s.bus.settings.up.set g up)[i] ≤ 64 ∧ (s.bus.settings.down.set g down)[i] ≤ 64
    rw [vector_getElem_set_fin, vector_getElem_set_fin]
    split
    · exact ⟨hup, hdown⟩
    · exact hrest i
  · show (s.cong.up.set g up)[i] = (s.bus.settings.up.set g up)[i]
      ∧ (s.cong.down.set g (if down < up then down else up - 1))[i]
        = if (s.bus.settings.down.set g down)[i] < (s.bus.settings.up.set g up)[i]
          then (s.bus.settings.down.set g down)[i] else (s.bus.settings.up.set g up)[i] - 1
    simp only [vector_getElem_set_fin]
    split
    · exact ⟨rfl, rfl⟩
    · exact hthresholds i

theorem HeldOk.giveRecording (hs : HeldOk s) (g : Cls) (r : Option RecNo) : HeldOk (s.giveRecording g r) := by
  obtain ⟨hsettings, ⟨h1, h2, h3, h4, hthresholds, htable⟩, hbanks⟩ := hs
  refine ⟨hsettings, ⟨h1, h2, h3, h4, hthresholds, fun i => ?_⟩, hbanks⟩
  show (s.cong.table.set g { s.cong.table[g] with recording := r })[i]
    = ⟨(s.bus.settings.recording.set g r)[i], s.bus.settings.plan[i], s.bus.settings.repeats[i]⟩
  simp only [vector_getElem_set_fin]
  split
  · rename_i hi; subst hi; rw [htable i]
  · exact htable i

theorem HeldOk.givePlan (hs : HeldOk s) (g : Cls) (p : Option PlanNo) (n : Fin 16) : HeldOk (s.givePlan g p n) := by
  obtain ⟨hsettings, ⟨h1, h2, h3, h4, hthresholds, htable⟩, hbanks⟩ := hs
  refine ⟨hsettings, ⟨h1, h2, h3, h4, hthresholds, fun i => ?_⟩, hbanks⟩
  show (s.cong.table.set g { s.cong.table[g] with plan := p, repeats := n })[i]
    = ⟨s.bus.settings.recording[i], (s.bus.settings.plan.set g p)[i], (s.bus.settings.repeats.set g n)[i]⟩
  simp only [vector_getElem_set_fin]
  split
  · rename_i hi; subst hi; rw [htable i]
  · exact htable i

theorem HeldOk.setMarks (hs : HeldOk s) (m : SettingMarks) : HeldOk (s.setMarks m) := hs.of_settled rfl

/-! ### The fields of the setting words -/

theorem timingGap_le (w : Word) : timingGap w ≤ 20 := Nat.min_le_right _ _

theorem timingFanout_range (w : Word) : 1 ≤ timingFanout w ∧ timingFanout w ≤ 64 := by unfold timingFanout; omega

theorem field_lt (w : Word) (low n : Nat) : field w low n < 2 ^ n := Nat.mod_lt _ (Nat.two_pow_pos n)

theorem timingWaitLimit_range (w : Word) : 1 ≤ timingWaitLimit w ∧ timingWaitLimit w ≤ 255 := by
  have := field_lt w 0 8
  unfold timingWaitLimit
  omega

theorem timingHoldoff_le (w : Word) : timingHoldoff w ≤ 255 := Nat.le_of_lt_succ (field_lt w 8 8)

theorem thresholdUp_le (w : Word) : thresholdUp w ≤ 64 := Nat.min_le_right _ _

theorem thresholdDown_le (w : Word) : thresholdDown w ≤ 64 := Nat.min_le_right _ _

/-! ### Setting words -/

theorem HeldOk.writeTiming1 (hs : HeldOk s) (w : Word) : HeldOk (s.writeTiming1 w) :=
  ((hs.giveGap (timingGap_le w)).giveFanout true (timingFanout_range w)).setMarks _

theorem HeldOk.writeTiming2 (hs : HeldOk s) (w : Word) : HeldOk (s.writeTiming2 w) :=
  ((hs.giveWaitLimit (timingWaitLimit_range w)).giveHoldoff (timingHoldoff_le w)).setMarks _

theorem HeldOk.writeThreshold (hs : HeldOk s) (g : Fin 3) (w : Word) : HeldOk (s.writeThreshold g w) :=
  (hs.giveThreshold g (thresholdUp_le w) (thresholdDown_le w)).setMarks _

theorem HeldOk.writeTable (hs : HeldOk s) (k : Fin 8) (w : Word) : HeldOk (s.writeTable k w) := by
  unfold State.writeTable
  dsimp only
  split
  · exact (hs.giveRecording _ _).setMarks _
  · exact (hs.givePlan _ _ _).setMarks _

/-! ### The configuration record -/

/-- A value that stands or is recorded satisfies what both do. -/
theorem unmarked_ind {α : Type} {P : α → Prop} (mark : Bool) {held recorded : α} (h : P held) (h' : P recorded) :
    P (unmarked mark held recorded) := by
  unfold unmarked
  split
  · exact h
  · exact h'

theorem HeldOk.ite {c : Prop} [Decidable c] {t : State} (hs : HeldOk s) (ht : HeldOk t) : HeldOk (if c then s else t) := by
  split
  · exact hs
  · exact ht

theorem HeldOk.applyTimings (hs : HeldOk s) (w x : Word) : HeldOk (s.applyTimings w x) := by
  obtain ⟨hgap, hfanout, hlimit, hholdoff, -⟩ := hs.1
  unfold State.applyTimings
  dsimp only
  have h1 := hs.ite (c := unmarked s.bus.marks.gap s.bus.settings.gap (timingGap w) = s.bus.settings.gap)
    (hs.giveGap (unmarked_ind (P := (· ≤ 20)) s.bus.marks.gap hgap (timingGap_le w)))
  have h2 := h1.ite (c := unmarked s.bus.marks.fanout s.bus.settings.fanout (timingFanout w) = s.bus.settings.fanout)
    (h1.giveFanout false (unmarked_ind (P := fun n => 1 ≤ n ∧ n ≤ 64) s.bus.marks.fanout hfanout (timingFanout_range w)))
  have h3 := h2.ite (c := unmarked s.bus.marks.waitLimit s.bus.settings.waitLimit (timingWaitLimit x) = s.bus.settings.waitLimit)
    (h2.giveWaitLimit (unmarked_ind (P := fun n => 1 ≤ n ∧ n ≤ 255) s.bus.marks.waitLimit hlimit (timingWaitLimit_range x)))
  exact h3.ite (h3.giveHoldoff (unmarked_ind (P := (· ≤ 255)) s.bus.marks.holdoff hholdoff (timingHoldoff_le x)))

theorem HeldOk.applyThreshold (hs : HeldOk s) (g : Fin 3) (w : Word) : HeldOk (s.applyThreshold g w) := by
  obtain ⟨-, -, -, -, hthresholds⟩ := hs.1
  exact hs.ite (hs.giveThreshold g (unmarked_ind (P := (· ≤ 64)) s.bus.marks.up[g] (hthresholds g).1 (thresholdUp_le w))
    (unmarked_ind (P := (· ≤ 64)) s.bus.marks.down[g] (hthresholds g).2 (thresholdDown_le w)))

theorem HeldOk.applyTable (hs : HeldOk s) (g : Cls) (w x : Word) : HeldOk (s.applyTable g w x) := by
  unfold State.applyTable
  dsimp only
  have hr := hs.ite (c := unmarked s.bus.marks.recording[g] s.bus.settings.recording[g] (tableRecording w)
    = s.bus.settings.recording[g]) (hs.giveRecording g (unmarked s.bus.marks.recording[g] s.bus.settings.recording[g] (tableRecording w)))
  exact hr.ite (hr.givePlan g _ _)

theorem HeldOk.applyRecord (hs : HeldOk s) (ws : Nat → Word) : HeldOk (s.applyRecord ws) := by
  unfold State.applyRecord
  dsimp only
  iterate 4 refine HeldOk.applyTable ?_ _ _ _
  iterate 3 refine HeldOk.applyThreshold ?_ _ _
  exact hs.applyTimings _ _

theorem HeldOk.endScan (hs : HeldOk s) : HeldOk s.endScan := by
  have hrecord : HeldOk (if configValid s.store.bytes then s.applyRecord (recordWord s.store.bytes) else s) := by
    split
    · exact hs.applyRecord _
    · exact hs
  exact hrecord.of_settled rfl

/-! ### The fan-out limit at the player pool -/

/-- The player pool takes a fan-out change: the limit alone is new among what the owners hold (R116). -/
theorem Exchange.held_setFanout (e : Exchange) (n : Nat) :
    (e.setFanout n).held = Exchange.held { e with players := { e.players with fanout := n } } := by
  unfold Exchange.setFanout; rw [Exchange.held_closePool]

theorem HeldOk.takeFanout (hs : HeldOk s) : HeldOk s.takeFanout := by
  unfold State.takeFanout
  split
  · exact hs
  · rename_i c rest hchanges
    obtain ⟨hsettings, ⟨h1, h2, h3, hfanout, howners⟩, hbanks⟩ := hs
    have htaken : HeldOk { s with
        bus := { s.bus with fanoutChanges := rest }, players := { s.players with fanout := c.limit } } := by
      refine ⟨hsettings, ⟨h1, h2, h3, ?_, howners⟩, hbanks⟩
      rw [hchanges, List.getLast?_cons] at hfanout
      cases hrest : rest.getLast? <;> simpa [hrest] using hfanout
    refine htaken.of_settled (State.settled_of_aside (State.aside_onExchange _ _) ?_)
    rw [State.exchange_onExchange, Exchange.held_setFanout]
    rfl

/-- The fan-out limit set over exchanges that hold the same but for it. -/
theorem Exchange.held_fanout {e f : Exchange} {m : Nat}
    (h : f.held = Exchange.held { e with players := { e.players with fanout := m } }) (n : Nat) :
    Exchange.held { f with players := { f.players with fanout := n } }
      = Exchange.held { e with players := { e.players with fanout := n } } := by
  obtain ⟨⟨hgap, hlimit⟩, ⟨hup, hdown, htable⟩, -, hlive⟩ := Exchange.held_eq h
  unfold Exchange.held
  dsimp only at hgap hlimit hup hdown htable hlive ⊢
  rw [hgap, hlimit, hup, hdown, htable, hlive]

/-- The fan-out limit once the changes `l` have been taken: the newest one, or the one that stood. -/
def newestLimit (l : List FanoutChange) (standing : Nat) : Nat := ((l.getLast?).map FanoutChange.limit).getD standing

theorem newestLimit_cons (c : FanoutChange) (l : List FanoutChange) (n : Nat) : newestLimit (c :: l) n = newestLimit l c.limit := by
  unfold newestLimit
  rw [List.getLast?_cons]
  cases l.getLast? <;> rfl

/-- Taking every change in flight leaves the pool with the newest limit (R181). -/
theorem State.held_drainFanout (s : State) :
    s.drainFanout.exchange.held = Exchange.held { s.exchange with players := { s.players with
      fanout := newestLimit s.bus.fanoutChanges s.players.fanout } } := by
  have fold : ∀ (l : List FanoutChange) (t : State),
      (l.foldl (fun s c => s.onExchange (Exchange.setFanout c.limit)) t).exchange.held
        = Exchange.held { t.exchange with players := { t.exchange.players with fanout := newestLimit l t.exchange.players.fanout } } := by
    intro l
    induction l with
    | nil => intro t; rfl
    | cons c l ih =>
      intro t
      have hset := t.exchange.held_setFanout c.limit
      have hlimit : (t.exchange.setFanout c.limit).players.fanout = c.limit := (Exchange.held_eq hset).2.2.1
      rw [List.foldl_cons, ih, State.exchange_onExchange, hlimit, Exchange.held_fanout hset, newestLimit_cons]
  exact fold _ _

theorem HeldOk.drainFanout (hs : HeldOk s) : HeldOk s.drainFanout := by
  obtain ⟨hsettings, ⟨h1, h2, h3, hfanout, howners⟩, hbanks⟩ := hs
  have htaken : HeldOk { s with
      bus := { s.bus with fanoutChanges := [] }
      players := { s.players with fanout := newestLimit s.bus.fanoutChanges s.players.fanout } } :=
    ⟨hsettings, ⟨h1, h2, h3, hfanout, howners⟩, hbanks⟩
  refine htaken.of_settled ?_
  unfold State.settled
  rw [State.held_drainFanout, State.drainFanout_reports, State.drainFanout_bus]
  rfl

/-! ### Bank switches and resets -/

/-- Validation looks at plans; it changes no bank's state. -/
theorem Exchange.liveView_validateBank (e : Exchange) (b : Bank) : (e.validateBank b).plans.liveView = e.plans.liveView := by
  have plan : ∀ (e : Exchange) (p : PlanNo), (e.validatePlan b p).plans.liveView = e.plans.liveView := by
    intro e p
    have put : ∀ q : Plan, (e.plans.setBank b { e.plans.bank b with
        plans := (e.plans.bank b).plans.set p q }).liveView = e.plans.liveView := fun q => PlanTable.liveView_setBank rfl
    unfold Exchange.validatePlan
    dsimp only
    split_ifs
    · rfl
    all_goals exact put _
  exact foldl_frame (fun e : Exchange => e.plans.liveView) _ plan _ _

/-- The selector names the bank that is LIVE, and no other bank is LIVE (R29). -/
def PlanTable.LiveOk (t : PlanTable) : Prop := ∀ b : Bank, (t.bank b).state = .live ↔ t.live = some b

theorem PlanTable.LiveOk.of_liveView {t u : PlanTable} (ht : t.LiveOk) (h : u.liveView = t.liveView) : u.LiveOk :=
  BanksOk.of_liveView (s := { State.reset with plans := t }) (t := { State.reset with plans := u }) ht h

/-- A switch to a bank that is not LIVE makes it the one LIVE bank (R36). -/
theorem PlanTable.LiveOk.switched {t : PlanTable} (ht : t.LiveOk) {b : Bank} (hnot : t.live ≠ some b) :
    (PlanTable.retireBank { t.setBank b { t.bank b with state := .live } with live := some b } t.live).LiveOk := by
  have hA := ht .A
  have hB := ht .B
  intro c
  unfold PlanTable.retireBank
  cases hlive : t.live with
  | none => cases b <;> cases c <;> simp_all [PlanTable.setBank, PlanTable.bank]
  | some o =>
    cases b <;> cases o <;> cases c <;> simp_all [PlanTable.setBank, PlanTable.bank] <;> split <;> simp_all

theorem Exchange.switchTo_liveOk {e : Exchange} {b : Bank} (he : e.plans.LiveOk) (hnot : e.plans.live ≠ some b) :
    (e.switchTo b).plans.LiveOk := by
  have hview := e.liveView_validateBank b
  have hlive : (e.validateBank b).plans.live = e.plans.live := congrArg Prod.fst hview
  have hswitched := (he.of_liveView hview).switched (b := b) (by rw [hlive]; exact hnot)
  rw [hlive] at hswitched
  unfold Exchange.switchTo
  generalize e.validateBank b = f at hswitched ⊢
  dsimp only
  split <;> exact hswitched

/-- A live-bank word changes nothing the owners hold but the live bank (R33). -/
theorem HeldOk.liveBankWrite (hs : HeldOk s) (w : Word) : HeldOk (s.onExchange (Exchange.liveBankWrite w)) := by
  obtain ⟨hsettings, howners, hbanks⟩ := hs
  have hplayers : (s.exchange.liveBankWrite w).players = s.players := by
    have validate : ∀ b, (s.exchange.validateBank b).players = s.players := fun b =>
      foldl_frame Exchange.players _ (fun e p => by unfold Exchange.validatePlan; dsimp only; split_ifs <;> rfl) _ _
    unfold Exchange.liveBankWrite
    dsimp only
    split
    · rfl
    · rfl
    · rw [← validate (liveBankOf w)]
      unfold Exchange.switchTo
      generalize s.exchange.validateBank _ = f
      dsimp only
      split <;> rfl
  obtain ⟨horders, hcong⟩ := Exchange.outer_eq (s.exchange.outer_liveBankWrite w)
  have hlive : (s.exchange.liveBankWrite w).plans.LiveOk := by
    unfold Exchange.liveBankWrite
    dsimp only
    split
    · exact hbanks
    · exact hbanks
    · rename_i hidle
      exact Exchange.switchTo_liveOk hbanks fun h => by
        have hlive : (s.plans.bank (liveBankOf w)).state = .live := (hbanks _).2 h
        exact BankState.noConfusion (hlive.symm.trans hidle)
  refine ⟨hsettings, ?_, hlive⟩
  unfold OwnersOk
  rw [State.onExchange_orders, State.onExchange_cong, State.onExchange_players, horders, hcong, hplayers]
  exact howners

theorem HeldOk.softReset (hs : HeldOk s) : HeldOk s.softReset := by
  have bank : ∀ r : BankRecord, (r.softReset.state == .live) = (r.state == .live) := by
    intro r
    unfold BankRecord.softReset
    dsimp only
    split
    · rename_i h; rw [h]; rfl
    · rfl
  have view : s.plans.softReset.liveView = s.plans.liveView := by
    unfold PlanTable.softReset PlanTable.liveView
    rw [bank, bank]
  have hheld : s.softReset.exchange.held = s.exchange.held := by
    show ((s.orders.gapSetting, s.orders.waitLimit), (s.cong.up, s.cong.down, s.cong.table), s.players.fanout,
      s.plans.softReset.liveView) = _
    rw [view]
    rfl
  refine hs.of_settled ?_
  unfold State.settled
  rw [hheld]
  rfl

/-- After a power-on or pin reset the settings have their defaults, in the shadow and at their owners. -/
theorem heldOk_of_cleared {t : State} (hb : t.bus.settings = Settings.initial) (hc : t.bus.fanoutChanges = [])
    (ho : t.orders = OrderUnit.initial) (hr : t.reports = ReportUnit.initial) (hu : t.cong = CongestionUnit.initial)
    (hp : t.players = PlayerPool.initial) (hl : t.plans = PlanTable.initial) : HeldOk t := by
  obtain ⟨-, -, -, -, -, hsettings, howners, hbanks, -⟩ := invariantsHoldAtReset
  refine HeldOk.of_settled ⟨hsettings, howners, hbanks⟩ ?_
  unfold State.settled Exchange.held
  simp only [State.exchange_orders, State.exchange_cong, State.exchange_players, State.exchange_plans]
  rw [hb, hc, ho, hr, hu, hp, hl]
  rfl

end

/-! ### Every command -/

/-- An event at the end of a step on the store port. -/
theorem HeldOk.atStepEnd {s : State} (hs : HeldOk s) (p : PortStep → Bool) {f : State → State}
    (hf : ∀ t : State, (f t).settled = t.settled) : HeldOk (s.atStepEnd p f) :=
  hs.of_settled (State.atStepEnd_frame State.settled State.settled_runClock hf s)

theorem act_heldOk (i : Instr) {s : State} (hs : HeldOk s) : HeldOk (Instr.act i s) := by
  have exchange {f : Exchange → Exchange} (hf : ∀ e : Exchange, (f e).held = e.held) : HeldOk (s.onExchange f) :=
    hs.of_settled (State.settled_onExchange hf)
  have aside {t : State} (ha : t.aside = s.aside) (hh : t.exchange.held = s.exchange.held) : HeldOk t :=
    hs.of_settled (State.settled_of_aside ha hh)
  match i with
  | .timingWord1Write w => exact hs.writeTiming1 w
  | .timingWord2Write w => exact hs.writeTiming2 w
  | .thresholdWordWrite g w => exact hs.writeThreshold g w
  | .congestionTableWordWrite k w => exact hs.writeTable k w
  | .fanoutLimitChange => exact hs.takeFanout
  | .liveBankWordWrite w => exact hs.liveBankWrite w
  | .scanDoneNotice =>
    simp only [Instr.act]; unfold State.takeScanDone
    split
    · have hdropped : HeldOk s.drainFanout.dropPoolNotice := hs.drainFanout.of_settled rfl
      exact hdropped.of_settled (State.settled_onExchange fun e => e.held_scanDone _)
    · exact hs
  | .storeScanEnd =>
    simp only [Instr.act]
    split
    · exact hs.endScan
    · exact hs
  | .softResetWordWrite w =>
    simp only [Instr.act]
    split
    · exact hs.softReset
    · exact hs.of_settled rfl
  | .powerOnReset left missed =>
    exact heldOk_of_cleared (Bus.giveWay_settings _) (Bus.giveWay_fanoutChanges _) rfl rfl rfl rfl rfl
  | .pinReset left missed =>
    simp only [Instr.act]
    split
    · exact heldOk_of_cleared (Bus.giveWay_settings _) (Bus.giveWay_fanoutChanges _) rfl rfl rfl rfl rfl
    · exact hs
  | .resetRelease straps =>
    simp only [Instr.act]
    split
    · exact hs
    · exact hs.of_settled rfl
  | .quiet p w => exact exchange fun e => e.held_changeSet _ _ _
  | .toneShared p w | .tonePrivate p w => exact exchange fun e => e.held_orderTone p w _
  | .announce p w => exact exchange fun e => e.held_orderAnnounce p w
  | .congestion p w => exact exchange fun e => e.held_orderCongestion p w
  | .clearAll p _ => exact exchange fun e => e.held_changeSet _ _ _
  | .orderInvalidCode p w => exact exchange fun e => e.held_refuseOrder _ _ _
  | .detailWordWrite p w => exact exchange fun e => e.held_setCircuit _ _
  | .planWordWrite off w =>
    refine exchange fun e => ?_
    unfold Exchange.planWrite
    dsimp only
    split_ifs
    · rfl
    · exact e.held_plans (PlanTable.liveView_setBank rfl)
    · rfl
  | .framePulse => exact aside s.aside_takePulse s.held_takePulse
  | .frameLoss =>
    simp only [Instr.act, State.passInterval]
    split
    · have hclock := hs.of_settled (s.settled_runClock (Config.lossUs + 1 - s.highway.pulseUs))
      exact hclock.of_settled (State.settled_of_aside (State.aside_declareLoss _) (State.held_declareLoss _))
    · exact hs
  | .frameComputation => exact aside s.aside_takeComputation s.held_takeComputation
  | .frameStartChannels => exact aside s.aside_takeChannelsFrame s.held_takeChannelsFrame
  | .frameStartPlayers => exact aside s.aside_takePlayersFrame s.held_takePlayersFrame
  | .highwayClockBitTime => exact aside s.aside_clockBit s.held_clockBit
  | .cadenceBoundary => exact aside s.aside_takeCadence s.held_takeCadence
  | .waitBoundaryOrders => exact aside s.aside_takeWaitOrders s.held_takeWaitOrders
  | .waitBoundaryPlayers => exact aside s.aside_takeWaitPlayers s.held_takeWaitPlayers
  | .loadGradeEvaluation => exact aside s.aside_takeEvaluation s.held_takeEvaluation
  | .annCycleEnd n =>
    exact aside ((State.aside_onExchange _ _).trans s.aside_takeComputation)
      ((Exchange.held_annCycleEnd _ n).trans s.held_takeComputation)
  | .gapEnd p => exact exchange fun e => e.held_gapEnd p
  | .waitLimitReached p => exact exchange fun e => e.held_sendExpiry p
  | .expiryRequest => exact exchange Exchange.held_takeExpiryReq
  | .expiryAnswer => exact exchange fun e => e.held_takePlayerNotice _ fun x e => e.held_applyAnswer x
  | .servedNotice .channels => exact exchange fun e => e.held_takeChannelNotice _ fun x e => e.held_applyChannelServed x
  | .servedNotice .players => exact exchange fun e => e.held_takePlayerNotice _ fun x e => e.held_applyPlayerServed x
  | .doneNotice | .withdrawnNotice =>
    exact exchange fun e => e.held_takeChannelNotice _ fun x e => e.held_onNotice _ _ fun c y => e.held_complete _ _ c y
  | .repeatsExhaustedNotice =>
    exact exchange fun e => e.held_takePlayerNotice _ fun x e => e.held_onNotice _ _ fun c y => e.held_followOn _ c y
  | .unavailableNotice =>
    exact exchange fun e => e.held_takePlayerNotice _ fun x e => e.held_onNotice _ _ fun c y => e.held_fallBack _ _ c y
  | .cadenceUnitEnd k => exact exchange fun e => e.held_unitEnd k
  | .segmentEnd k => exact exchange fun e => e.held_segmentEnd k
  | .cycleEnd k => exact exchange fun e => e.held_cycleEnd k
  | .drainingNotice => exact exchange Exchange.held_takeDrainNotice
  | .playerGapEnd n => exact exchange fun e => e.held_playerGapEnd n
  | .refillDelivery =>
    simp only [Instr.act]; unfold State.takeDelivery
    split
    · exact hs
    · exact hs.of_settled (State.settled_onExchange (s := { s with store := _ }) fun e => e.held_deliver _)
  | .recordingWithdrawal =>
    simp only [Instr.act]; unfold State.takeWithdrawal
    split
    · exact hs.of_settled (State.settled_onExchange (s := s.dropPoolNotice) fun e => e.held_withdrawRecording _)
    · exact hs
  | .madeAvailableNotice =>
    simp only [Instr.act]; unfold State.takeMadeAvailable
    split
    · exact hs.of_settled (State.settled_onExchange (s := s.dropPoolNotice) fun e => e.held_makeAvailable _ _)
    · exact hs
  | .slotWordWrite p w =>
    refine aside (s.aside_slotWrite p _) ?_
    simp only [Instr.act]; unfold State.slotWrite; dsimp only; split <;> rfl
  | .acknowledgeWordWrite w => exact hs.of_settled (s.settled_acknowledge w)
  | .reportSubmit b => exact hs.of_settled (s.settled_takeReport b)
  | .ringWordPost => exact hs.of_settled s.settled_postRingWord
  | .producerIndexWordPost => exact hs.of_settled s.settled_postProducer
  | .statusWordPost => exact hs.of_settled s.settled_postStatus
  | .postingCycleEnd => exact hs.of_settled s.settled_endPosting
  | .holdoffExpiry => exact hs.of_settled s.settled_expireHoldoff
  | .consumerIndexWordWrite w => exact hs.of_settled (s.settled_writeConsumer w)
  | .loadLampTimerExpiry => exact hs.of_settled s.settled_expireLoadLamp
  | .storeLampTimerExpiry => exact hs.of_settled s.settled_expireStoreLamp
  | .processorWrite a v | .otherRegionWrite a v => exact hs.of_settled (s.settled_request a v)
  | .refillReadDone => exact hs.atStepEnd (f := fun s => { s with store := s.store.refillDone }) _ fun _ => rfl
  | .erasePulseDone left => exact hs.atStepEnd (f := fun s => s.onStore (StoreSide.pulseDone left)) _ fun _ => rfl
  | .eraseVerifyDone => exact hs.atStepEnd (f := fun s => s.onStore StoreSide.verifyDone) _ fun _ => rfl
  | .programAttemptDone m => exact hs.atStepEnd (f := fun s => s.onStore (StoreSide.attemptDone m)) _ fun _ => rfl
  | .storeLockChange a =>
    refine hs.of_settled ?_
    simp only [Instr.act]; unfold State.setLock; dsimp only; split <;> rfl
  | .withdrawnAnswer =>
    refine hs.of_settled ?_
    simp only [Instr.act]; unfold State.takeWithdrawn; split <;> rfl
  | .refillRequest =>
    refine hs.of_settled ?_
    simp only [Instr.act]; unfold State.takeRefillReq; split <;> rfl
  | .routeLevelWordWrite _ => exact hs.of_settled rfl
  | .loadBegin _ | .loadConfirm _ | .chunkReady _ | .loadAbandon _ | .retireBegin _ | .retireConfirm _ | .configBegin _
  | .configConfirm _ | .storeHold _ | .storeResume _ | .clearStoreStatus _ | .invalidStoreCommand _
  | .storeParameterWrite _ _ | .loadBufferWrite _ _ | .storeSupplyGoodFall _ _ | .refillReadStart | .erasePulseStart _
  | .erasePulseResume _ _ | .programAttemptStart _ => exact hs.of_settled rfl

/-- Settles O59. -/
theorem stepsKeepSettingsOwnersAndBanks : Obligations.StepsKeepSettingsOwnersAndBanks := fun _ _ hsettings howners hbanks hstep =>
  step_keeps (I := HeldOk) (fun _ _ h => h) (fun s h => h.of_settled (s.settled_runClock 1))
    (fun s h => h.of_settled s.settled_taken) (fun i _ h => act_heldOk i h) ⟨hsettings, howners, hbanks⟩ hstep

end Sys2Proof.Machine
end

