-- ==== Sys2Proof/Proofs/StoreMemories.lean ====
section
/-!
PROOF. The store side keeps its memories canonical: the announcement store and the two chunk buffers. Only pulses, attempts and
load-buffer words write a byte, and a buffer is filled or emptied as a whole.
-/
namespace Sys2Proof.Machine

/-- The announcement store and the chunk buffers are canonical. -/
def StoreController.Wf (c : StoreController) : Prop :=
  memWf Config.erasedByte c.bytes = true ∧ memWf Config.erasedByte c.bufA.bytes = true
    ∧ memWf Config.erasedByte c.bufB.bytes = true

/-- The memories of the store controller. -/
def StoreController.cells (c : StoreController) : List Host.Cell × List Host.Cell × List Host.Cell :=
  (c.bytes, c.bufA.bytes, c.bufB.bytes)

section
variable {c d : StoreController} {v : StoreSide}

theorem StoreController.Wf.of_cells (h : c.Wf) (hcells : d.cells = c.cells) : d.Wf := by
  simp only [StoreController.cells, Prod.mk.injEq] at hcells
  unfold StoreController.Wf
  rw [hcells.1, hcells.2.1, hcells.2.2]
  exact h

/-! ### The store and the buffers written -/

theorem StoreController.Wf.withBytes (h : c.Wf) {m : List Host.Cell} (hm : memWf Config.erasedByte m = true) :
    StoreController.Wf { c with bytes := m } := ⟨hm, h.2⟩

theorem StoreController.Wf.buf (h : c.Wf) (b : Bank) : memWf Config.erasedByte (c.buf b).bytes = true := by
  cases b
  · exact h.2.1
  · exact h.2.2

theorem StoreController.Wf.setBuf (h : c.Wf) (b : Bank) {x : ChunkBuf} (hx : memWf Config.erasedByte x.bytes = true) :
    (c.setBuf b x).Wf := by
  cases b
  · exact ⟨h.1, hx, h.2.2⟩
  · exact ⟨h.1, h.2.1, hx⟩

theorem StoreController.Wf.fill (h : c.Wf) (b : Bank) (j : Nat) : (c.fill b j).Wf := h.setBuf b rfl

theorem StoreController.Wf.emptyBufs (h : c.Wf) : c.emptyBufs.Wf := ⟨h.1, rfl, rfl⟩

/-! ### Segments and directory -/

theorem StoreController.Wf.setSegs {α : Type} (h : c.Wf) (g : α → SegNo) (x : StoreController → α → SegState) (l : List α) :
    (l.foldl (fun c a => c.setSeg (g a) (x c a)) c).Wf := by
  induction l generalizing c with
  | nil => exact h
  | cons a l ih => exact ih (c := c.setSeg (g a) (x c a)) h

theorem StoreController.Wf.settleSegs (h : c.Wf) (ss : Session) : (c.settleSegs ss).Wf :=
  h.setSegs SessionSeg.seg (fun c y => y.settled c.segMap[y.seg]) ss.segs

theorem StoreController.Wf.useSegs (h : c.Wf) (r : RecNo) (i : Nat) (l : List SegNo) : (StoreController.useSegs r i l c).Wf := by
  induction l generalizing c i with
  | nil => exact h
  | cons g l ih => exact ih (c := c.setSeg g (.used r i)) h (i + 1)

theorem StoreController.Wf.setFlag (h : c.Wf) (f : StoreFlag) : (c.setFlag f).Wf := by
  cases f <;> exact h

theorem StoreController.Wf.judge (h : c.Wf) : c.judge.Wf := by
  have fold : ∀ (l : List Kept) (c : StoreController), c.Wf →
      (l.foldl (fun c k => { c.useSegs k.recording 0 k.segs with dir := c.dir.set k.recording k.record }) c).Wf := by
    intro l
    induction l with
    | nil => exact fun _ h => h
    | cons k l ih => exact fun c h => ih _ (h.useSegs k.recording 0 k.segs)
  exact fold _ _ h

/-! ### The engine and its work -/

theorem StoreSide.wf_setEngine (h : v.store.Wf) (x : Engine) : (v.setEngine x).store.Wf := by
  unfold StoreSide.setEngine
  split
  · exact h
  · exact h

theorem StoreSide.wf_advanceEngine (h : v.store.Wf) : v.advanceEngine.store.Wf := by
  unfold StoreSide.advanceEngine
  split
  · exact h
  · split
    · exact h
    · split
      · exact StoreSide.wf_setEngine (by exact h.setBuf _ (h.buf _)) _
      · exact h

theorem StoreSide.wf_enterReceiving (h : v.store.Wf) : v.enterReceiving.store.Wf := by
  unfold StoreSide.enterReceiving
  split
  · exact h
  · exact (StoreSide.wf_setEngine h _).fill _ _

theorem StoreSide.wf_chunkDone (h : v.store.Wf) : v.chunkDone.store.Wf := by
  unfold StoreSide.chunkDone
  split
  · rename_i ss b _ _
    have hfreed : StoreController.Wf { v.store.setBuf b ChunkBuf.cleared with
        session := some { ss with nextProg := ss.nextProg + 1 } } := h.setBuf b rfl
    dsimp only
    generalize hw : StoreSide.on _ _ = w
    have hw' : w.store.Wf := by
      rw [← hw]
      simp only [StoreSide.on_store, StoreSide.submit_store, StoreSide.status_store]
      have hfilled : ∀ (p : Prop) [Decidable p] (x y : StoreController), x.Wf → y.Wf → (if p then x else y).Wf :=
        fun p _ x y hx hy => by split <;> assumption
      refine hfilled _ _ _ ?_ ?_
      · exact hfilled _ _ _ (hfreed.fill _ _) hfreed
      · exact hfilled _ _ _ (hfreed.fill _ _) hfreed
    split
    · exact StoreSide.wf_advanceEngine (StoreSide.wf_setEngine hw' _)
    · exact StoreSide.wf_setEngine hw' _
  · exact h

theorem StoreSide.wf_loadDone (h : v.store.Wf) : v.loadDone.store.Wf := by
  unfold StoreSide.loadDone
  split
  · exact h
  · exact StoreSide.wf_setEngine (by exact h.emptyBufs) _

theorem StoreSide.wf_settle (h : v.store.Wf) : v.settle.store.Wf := by
  unfold StoreSide.settle
  split
  · exact h
  · exact StoreSide.wf_setEngine (by exact h.settleSegs _) _

theorem StoreSide.wf_endSession (h : v.store.Wf) : v.endSession.store.Wf := by
  unfold StoreSide.endSession
  split
  · exact h
  · dsimp only
    split
    · exact h.emptyBufs
    · exact StoreSide.wf_settle (by exact h.emptyBufs)

theorem StoreSide.wf_dropWork (h : v.store.Wf) : v.dropWork.1.store.Wf := by
  unfold StoreSide.dropWork
  split
  · rename_i ss _
    have hgone : (v.setDir ss.recording DirRecord.absent).store.Wf := h
    exact (hgone.settleSegs ss).emptyBufs
  · exact h.settleSegs _
  · rename_i j _ _ _
    have hgone : (v.setDir j.recording DirRecord.absent).store.Wf := h
    exact hgone.setSegs (fun g : SegNo => g) (fun _ _ => .dirty) j.remaining
  · exact h

theorem StoreSide.wf_fail (h : v.store.Wf) (f : StoreFlag) (g : SegNo) : (v.fail f g).store.Wf := by
  unfold StoreSide.fail
  exact StoreSide.wf_setEngine (by exact (StoreSide.wf_dropWork h).setFlag f) _

/-! ### Store commands -/

theorem StoreSide.wf_breakBegin (h : v.store.Wf) (w : Word) : (v.breakBegin w).store.Wf := by
  unfold StoreSide.breakBegin
  split
  · exact h
  · exact h

theorem StoreSide.wf_confirmWith (h : v.store.Wf) (k : BeginKind) (w : Word) {f : StoreSide → StoreSide}
    (hf : ∀ v : StoreSide, v.store.Wf → (f v).store.Wf) : (v.confirmWith k w f).store.Wf := by
  unfold StoreSide.confirmWith
  split
  · exact h
  · dsimp only
    split
    · split
      · exact hf _ h
      · exact h
    · exact h

theorem StoreSide.wf_openSession (h : v.store.Wf) (r : RecNo) : (v.openSession r).store.Wf := by
  have hsegs := StoreController.Wf.useSegs (c := (v.setDir r (v.store.loadRecord (v.store.free.take
    (segmentsFor v.store.paramLength)))).store) h r 0 (v.store.free.take (segmentsFor v.store.paramLength))
  have hused : ((StoreSide.setEngine .preparing (StoreSide.status (fun x =>
      { x.useSegs r 0 (v.store.free.take (segmentsFor v.store.paramLength)) with
        session := some (v.store.newSession r (v.store.free.take (segmentsFor v.store.paramLength))) })
      (v.setDir r (v.store.loadRecord (v.store.free.take (segmentsFor v.store.paramLength))))))).store.Wf :=
    StoreSide.wf_setEngine (by exact hsegs) _
  unfold StoreSide.openSession
  dsimp only
  split
  · exact hused
  · exact StoreSide.wf_enterReceiving hused

theorem StoreSide.wf_loadConfirmed (h : v.store.Wf) (r : RecNo) : (v.loadConfirmed r).store.Wf := by
  unfold StoreSide.loadConfirmed
  split
  · exact h
  · exact StoreSide.wf_openSession h r

theorem StoreSide.wf_readyChunk (h : v.store.Wf) (ss : Session) : (v.readyChunk ss).store.Wf := by
  unfold StoreSide.readyChunk
  split
  · exact h
  · rename_i b _
    refine StoreSide.wf_advanceEngine ?_
    simp only [StoreSide.status_store]
    have hready : StoreController.Wf { v.store.setBuf b { v.store.buf b with state := .ready } with
        session := some { ss with nextRecv := ss.nextRecv + 1 } } := h.setBuf b (h.buf b)
    split
    · exact hready.fill _ _
    · exact hready

theorem StoreSide.wf_chunkReady (h : v.store.Wf) (w : Word) : (v.chunkReady w).store.Wf := by
  have hbroken := StoreSide.wf_breakBegin h w
  unfold StoreSide.chunkReady
  dsimp only
  split
  · exact hbroken
  · exact StoreSide.wf_readyChunk hbroken _

theorem StoreSide.wf_loadAbandon (h : v.store.Wf) (w : Word) : (v.loadAbandon w).store.Wf := by
  have hbroken := StoreSide.wf_breakBegin h w
  unfold StoreSide.loadAbandon
  dsimp only
  split
  · exact hbroken
  · exact StoreSide.wf_endSession hbroken

theorem StoreSide.wf_bufferWord (h : v.store.Wf) (k : Nat) (w : Word) : (v.bufferWord k w).store.Wf := by
  unfold StoreSide.bufferWord
  split
  · exact h
  · split
    · exact h.setBuf _ (writeWord_wf (h.buf _))
    · split
      · exact h
      · exact h

theorem StoreController.Wf.setParam (h : c.Wf) (k : Fin 3) (w : Word) : (c.setParam k w).Wf := by
  match k with
  | 0 | 1 | 2 => exact h

theorem StoreSide.wf_retireConfirmed (h : v.store.Wf) (r : RecNo) : (v.retireConfirmed r).store.Wf := by
  unfold StoreSide.retireConfirmed
  split
  · exact h
  · exact StoreSide.wf_setEngine (by exact h) _

theorem StoreSide.wf_configConfirmed (h : v.store.Wf) (ws : List Word) : (v.configConfirmed ws).store.Wf := by
  unfold StoreSide.configConfirmed
  split
  · exact h
  · exact StoreSide.wf_setEngine (by exact h) _

theorem StoreSide.wf_holdStore (h : v.store.Wf) (w : Word) : (v.holdStore w).store.Wf := by
  have hbroken := StoreSide.wf_breakBegin h w
  unfold StoreSide.holdStore
  dsimp only
  split
  · exact hbroken
  · exact hbroken

theorem StoreSide.wf_resumeStore (h : v.store.Wf) (w : Word) : (v.resumeStore w).store.Wf := by
  have hbroken := StoreSide.wf_breakBegin h w
  unfold StoreSide.resumeStore
  dsimp only
  split
  · exact StoreSide.wf_advanceEngine (by exact hbroken)
  · exact hbroken

/-! ### Engine steps -/

theorem StoreSide.wf_startPulse (h : v.store.Wf) (good : Bool) : (v.startPulse good).store.Wf := by
  unfold StoreSide.startPulse
  split
  · exact h
  · split
    · dsimp only
      split
      · exact h
      · exact StoreSide.wf_fail (by exact h) _ _
    · exact h

theorem StoreSide.wf_resumePulse (h : v.store.Wf) (good : Bool) (left : List (Nat × Byte)) :
    (v.resumePulse good left).store.Wf := by
  unfold StoreSide.resumePulse
  split
  · exact h
  · split
    · dsimp only
      split
      · exact h
      · exact StoreSide.wf_fail (by exact h.withBytes (leaveResidue_wf h.1)) _ _
    · exact h

theorem StoreSide.wf_pulseDone (h : v.store.Wf) (left : List (Nat × Byte)) : (v.pulseDone left).store.Wf := by
  unfold StoreSide.pulseDone
  split
  · rename_i g _ _
    have hleft : StoreController.Wf { v.store with bytes := leaveResidue g left v.store.bytes } :=
      h.withBytes (leaveResidue_wf h.1)
    dsimp only
    split
    · exact StoreSide.wf_settle (by exact hleft)
    · exact hleft
  · exact h

theorem StoreSide.wf_eraseDone (h : v.store.Wf) (g : SegNo) : (v.eraseDone g).store.Wf := by
  unfold StoreSide.eraseDone
  dsimp only
  split
  · split
    · exact h
    · exact StoreSide.wf_enterReceiving (by exact h)
  · exact StoreSide.wf_settle (by exact h)
  · split
    · exact StoreSide.wf_setEngine (by exact h) _
    · exact h
  · exact h
  · exact h

theorem StoreSide.wf_verifyDone (h : v.store.Wf) : v.verifyDone.store.Wf := by
  unfold StoreSide.verifyDone
  split
  · dsimp only
    split
    · exact StoreSide.wf_eraseDone (by exact h) _
    · split
      · exact StoreSide.wf_fail (by exact h) _ _
      · split
        · exact StoreSide.wf_settle (by exact h)
        · exact h
  · exact h

theorem StoreSide.wf_startAttempt (h : v.store.Wf) (good : Bool) : (v.startAttempt good).store.Wf := by
  unfold StoreSide.startAttempt
  split
  · exact h
  · split
    · dsimp only
      split
      · exact h
      · exact StoreSide.wf_fail (by exact h) _ _
    · exact h

theorem StoreSide.wf_stepDone (h : v.store.Wf) (t : ProgramStep) : (v.stepDone t).store.Wf := by
  unfold StoreSide.stepDone
  dsimp only
  split
  · exact h
  · split
    · exact h
    · split
      · exact StoreSide.wf_chunkDone (by exact h)
      · exact h
  · exact StoreSide.wf_loadDone (by exact h)
  · exact h
  · exact StoreSide.wf_setEngine (by exact h) _

theorem StoreSide.wf_attemptDone (h : v.store.Wf) (missed : List Byte) : (v.attemptDone missed).store.Wf := by
  unfold StoreSide.attemptDone
  split
  · rename_i t _ _
    have hprogrammed : StoreController.Wf { v.store with
        bytes := programBytes t.seg t.bytes missed v.store.bytes, port := none } := h.withBytes (programBytes_wf h.1)
    dsimp only
    split
    · split
      · exact StoreSide.wf_settle (by exact hprogrammed)
      · exact StoreSide.wf_stepDone (by exact hprogrammed) _
    · split
      · exact StoreSide.wf_fail (by exact hprogrammed) _ _
      · split
        · exact StoreSide.wf_settle (by exact hprogrammed)
        · exact hprogrammed
  · exact h

theorem StoreSide.wf_supplyFall (h : v.store.Wf) (left : List (Nat × Byte)) (missed : List Byte) :
    (v.supplyFall left missed).store.Wf := by
  have cut : ∀ x : PortStep, StoreController.Wf { v.store with
      supplyGood := false, bytes := x.damage left missed v.store.bytes } := fun x => h.withBytes (damage_wf h.1)
  unfold StoreSide.supplyFall
  dsimp only
  split
  · exact StoreSide.wf_fail (by exact cut _) _ _
  · exact StoreSide.wf_fail (by exact cut _) _ _
  · exact h

/-! ### Refills, answers and resets -/

theorem StoreController.Wf.enqueueRefill (h : c.Wf) (q : RefillReq) : (c.enqueueRefill q).Wf := by
  unfold StoreController.enqueueRefill
  dsimp only
  split <;> exact h

theorem StoreController.Wf.startRefill (h : c.Wf) (level : PlayNo → Nat) : (c.startRefill level).Wf := by
  unfold StoreController.startRefill
  split
  · split
    · exact h
    · dsimp only
      split <;> exact h
  · exact h

theorem StoreController.Wf.refillDone (h : c.Wf) : c.refillDone.Wf := by
  unfold StoreController.refillDone
  split
  · dsimp only
    split <;> exact h
  · exact h

theorem StoreSide.wf_withdrawn (h : v.store.Wf) (r : RecNo) : (v.withdrawn r).store.Wf := by
  unfold StoreSide.withdrawn
  split
  · split <;> exact h
  · exact h

theorem StoreSide.wf_softReset (h : v.store.Wf) : v.softReset.store.Wf := (StoreSide.wf_endSession h).emptyBufs

/-- What a step cut off by a reset leaves is canonical (R137). -/
theorem StoreController.Wf.cutOff (h : c.Wf) (left : List (Nat × Byte)) (missed : List Byte) :
    memWf Config.erasedByte (c.cutOff left missed) = true := by
  unfold StoreController.cutOff
  split
  · exact damage_wf h.1
  · exact leaveResidue_wf h.1
  · exact h.1

end

end Sys2Proof.Machine
end

