-- ==== Sys2Proof/Proofs/FormSteps.lean ====
section
/-!
PROOF. Every step keeps the memories canonical, the queues within their depths, no slot held twice in a map, attention as R175
gives it, and the counts of the port in their ranges: block by block, since no act mixes them.
-/
namespace Sys2Proof.Machine

/-! ### The forms, block by block -/

/-- The call store canonical, the snoop queue within its depth, a write waiting only behind a posting cycle or a full queue. -/
def Bus.Ok (b : Bus) : Prop :=
  memWf Config.callStoreFill b.callStore = true ∧ b.snoop.length ≤ Config.snoopDepth
    ∧ (b.waiting ≠ [] → b.posting ≠ none ∨ b.snoop.length = Config.snoopDepth)

/-- The report queue within its depth, attention as the posted producer, the consumer shadow and the holdoff give it. -/
def ReportUnit.Ok (r : ReportUnit) : Prop :=
  r.queue.length ≤ Config.reportDepth ∧ r.attention = (r.posted != r.consumer && !r.holdoffRunning)

/-- The maps, the frame count, the loss duration and the bit times of the frame in progress. -/
def Highway.port (h : Highway) : Vector MapEntry 64 × Vector MapEntry 64 × Nat × Nat × Option Nat :=
  (h.next, h.map, h.baseCount, h.lossMs, h.sending)

/-- No slot held twice in a map, and the counts of the port in their ranges. -/
def Highway.Ok (h : Highway) : Prop :=
  (MapOk h.next ∧ MapOk h.map) ∧ h.baseCount < Config.waitFrames ∧ h.lossMs ≤ 65535
    ∧ ∀ n, h.sending = some n → n ≤ Config.frameBits

/-- Every block in form. -/
def FormOk (s : State) : Prop := s.bus.Ok ∧ s.reports.Ok ∧ s.highway.Ok ∧ s.store.Wf

theorem formOk_iff (s : State) :
    FormOk s ↔ MemoryOk s ∧ QueuesOk s ∧ SlotsOk s ∧ AttentionOk s ∧ CountsOk s := by
  constructor
  · rintro ⟨⟨hcall, hsnoop, hwaiting⟩, ⟨hqueue, hattention⟩, ⟨hmaps, hcounts⟩, hstore⟩
    exact ⟨⟨hcall, hstore⟩, ⟨hsnoop, hqueue, hwaiting⟩, hmaps, hattention, hcounts⟩
  · rintro ⟨⟨hcall, hstore⟩, ⟨hsnoop, hqueue, hwaiting⟩, hmaps, hattention, hcounts⟩
    exact ⟨⟨hcall, hsnoop, hwaiting⟩, ⟨hqueue, hattention⟩, ⟨hmaps, hcounts⟩, hstore⟩

/-! ### The bus -/

section
variable {b : Bus}

theorem Bus.ok_giveWay (hcall : memWf Config.callStoreFill b.callStore = true) (hsnoop : b.snoop.length ≤ Config.snoopDepth) :
    b.giveWay.Ok := Bus.giveWay_spec hsnoop hcall

theorem Bus.Ok.request (h : b.Ok) (a : BusAddr) (v : Word) : (b.request a v).Ok := Bus.ok_giveWay h.1 h.2.1

theorem Bus.Ok.assertReset (h : b.Ok) (line : ResetLine) (posting : Option Posting) : (b.assertReset line posting).Ok :=
  Bus.ok_giveWay h.1 (Nat.zero_le _)

theorem Bus.Ok.taken (h : b.Ok) : (Bus.giveWay { b with snoop := b.snoop.tail }).Ok :=
  Bus.ok_giveWay h.1 (Nat.le_trans (by simp) h.2.1)

theorem Bus.Ok.endPosting (h : b.Ok) : (Bus.giveWay { b with posting := none }).Ok := Bus.ok_giveWay h.1 h.2.1

theorem Bus.Ok.post (h : b.Ok) (off : Nat) (v : Word) (x : Posting) : Bus.Ok { b.post off v with posting := some x } :=
  ⟨memWrite_wf h.1, h.2.1, fun _ => .inl (Option.some_ne_none x)⟩

end

/-! ### The report unit -/

section
variable {r : ReportUnit}

theorem replaceNewest_length {α : Type} {p : α → Bool} {f : α → α} {l l' : List α} (h : replaceNewest p f l = some l') :
    l'.length = l.length := by
  induction l generalizing l' with
  | nil => cases h
  | cons x l ih =>
    unfold replaceNewest at h
    split at h
    · rename_i m hm
      cases h
      simp [ih hm]
    · split at h
      · cases h; rfl
      · cases h

theorem ReportUnit.attend_ok (h : r.queue.length ≤ Config.reportDepth) : r.attend.Ok := ⟨h, rfl⟩

theorem ReportUnit.Ok.take (h : r.Ok) (x : Report) : (r.take x).Ok := by
  unfold ReportUnit.take
  split
  · rename_i hroom
    exact ⟨by simp; omega, h.2⟩
  · split
    · rename_i q hq
      exact ⟨(replaceNewest_length hq).trans_le h.1, h.2⟩
    · exact h

theorem ReportUnit.Ok.run (h : r.Ok) (d : Nat) : (r.run d).Ok := by
  rw [ReportUnit.run_eq]; exact h

theorem ReportUnit.Ok.writeHoldoff (h : r.Ok) (n : Nat) : (r.writeHoldoff n).Ok := by
  unfold ReportUnit.writeHoldoff
  split
  · split
    · exact ReportUnit.attend_ok h.1
    · exact h
  · exact h

theorem ReportUnit.Ok.writeConsumer (h : r.Ok) (c : Fin 128) : (r.writeConsumer c).Ok := by
  refine ReportUnit.attend_ok ?_
  dsimp only
  split
  · split <;> exact h.1
  · exact h.1

theorem ReportUnit.Ok.softReset : r.softReset.Ok := ⟨Nat.zero_le _, by simp [ReportUnit.softReset]⟩

theorem ReportUnit.Ok.endCycle (h : r.Ok) (x : Posting) : (r.endCycle x).Ok := by
  unfold ReportUnit.endCycle
  split <;> exact h

theorem ReportUnit.Ok.endHoldoff (h : r.Ok) : r.endHoldoff.Ok := by
  unfold ReportUnit.endHoldoff
  split
  · exact ReportUnit.attend_ok h.1
  · exact h

theorem ReportUnit.Ok.initial : ReportUnit.initial.Ok := ⟨Nat.zero_le _, rfl⟩

end

/-! ### The highway port -/

section
variable {h : Highway}

theorem Highway.Ok.of_port {h' : Highway} (hh : h.Ok) (hport : h'.port = h.port) : h'.Ok := by
  simp only [Highway.port, Prod.mk.injEq] at hport
  obtain ⟨hnext, hmap, hbase, hloss, hsending⟩ := hport
  unfold Highway.Ok
  rw [hnext, hmap, hbase, hloss, hsending]
  exact hh

theorem Highway.Ok.run (hh : h.Ok) (d : Nat) : (h.run d).Ok := by
  obtain ⟨hmaps, hbase, hloss, hsending⟩ := hh
  unfold Highway.run
  split
  · exact ⟨hmaps, hbase, hloss, hsending⟩
  · exact ⟨hmaps, hbase, Nat.min_le_right _ _, hsending⟩

theorem nextBaseCount_lt {n : Nat} (h : n < Config.waitFrames) : nextBaseCount n < Config.waitFrames := by
  unfold nextBaseCount
  have : Config.waitFrames = 800 := rfl
  split <;> omega

theorem Highway.Ok.frameStart (hh : h.Ok) : h.frameStart.Ok := by
  obtain ⟨⟨hnext, -⟩, hbase, hloss, -⟩ := hh
  refine ⟨⟨hnext, hnext⟩, nextBaseCount_lt hbase, hloss, fun n hn => ?_⟩
  obtain rfl : 0 = n := Option.some.inj hn
  exact Nat.zero_le _

theorem Highway.Ok.softReset (hh : h.Ok) : h.softReset.Ok :=
  ⟨⟨mapOk_initialMap, mapOk_initialMap⟩, hh.2.1, hh.2.2.1, fun _ hn => nomatch hn⟩

theorem Highway.Ok.initial : Highway.initial.Ok :=
  ⟨⟨mapOk_initialMap, mapOk_initialMap⟩, by decide, Nat.zero_le _, fun _ hn => nomatch hn⟩

/-- An entry put in a map where no other circuit holds its slot. -/
theorem MapOk.set {v : Vector MapEntry 64} (hv : MapOk v) (p : Circ) (m : MapEntry)
    (hfree : m.mapped = true → ∀ q : Circ, q ≠ p → v[q].mapped = true → v[q].slot ≠ m.slot) : MapOk (v.set p m) := by
  intro x y
  rw [vector_getElem_set_fin, vector_getElem_set_fin]
  split
  · rename_i hx
    split
    · rename_i hy; intros; rw [hx, hy]
    · rename_i hy
      intro hm hmy hslot
      exact absurd hslot.symm (hfree hm y hy hmy)
  · rename_i hx
    split
    · intro hmx hm hslot
      exact absurd hslot (hfree hm x hx hmx)
    · exact hv x y

theorem MapOk.unmap {v : Vector MapEntry 64} (hv : MapOk v) (q : Circ) : MapOk (v.set q { v[q] with mapped := false }) :=
  hv.set q _ fun h => nomatch h

/-- With the other holder unmapped, no circuit holds the slot (R91). -/
theorem Highway.free_of_unmapped {p q : Circ} {g : Fin 64} (hmap : MapOk h.next) (hq : h.otherHolder p g = some q) (x : Circ)
    (hne : x ≠ p) (hmapped : (h.next.set q { h.next[q] with mapped := false })[x].mapped = true) :
    (h.next.set q { h.next[q] with mapped := false })[x].slot ≠ g := by
  rw [vector_getElem_set_fin] at hmapped ⊢
  split at hmapped
  · cases hmapped
  · rename_i hx
    rw [if_neg hx]
    intro hslot
    have := Highway.otherHolder_eq_some hmap hne hmapped hslot
    rw [this] at hq
    exact hx (Option.some.inj hq)

theorem Highway.Ok.slotWrite {s : State} (hs : s.highway.Ok) (p : Circ) (m : MapEntry) : (s.slotWrite p m).highway.Ok := by
  obtain ⟨⟨hnext, hmap⟩, hcounts⟩ := hs
  cases hm : m.mapped with
  | false =>
    rw [State.slotWrite_of_no_conflict (.inl hm)]
    exact ⟨⟨hnext.set p m fun h => absurd (hm.symm.trans h) Bool.false_ne_true, hmap⟩, hcounts⟩
  | true =>
    cases hq : s.highway.otherHolder p m.slot with
    | none =>
      have hfree := Highway.otherHolder_eq_none_iff.1 hq
      rw [State.slotWrite_of_no_conflict (.inr hfree)]
      exact ⟨⟨hnext.set p m fun _ => hfree, hmap⟩, hcounts⟩
    | some q =>
      rw [State.slotWrite_of_conflict hm hq]
      exact ⟨⟨(hnext.unmap q).set p m fun _ => Highway.free_of_unmapped hnext hq, hmap⟩, hcounts⟩

end

/-! ### Events of a frame: what they leave of the port -/

section
variable (s : State)

@[simp] theorem State.port_takePlayersFrame : s.takePlayersFrame.highway.port = s.highway.port := by
  unfold State.takePlayersFrame
  split
  · rw [State.onExchange_highway]; rfl
  · rfl

@[simp] theorem State.port_takeComputation : s.takeComputation.highway.port = s.highway.port := by
  unfold State.takeComputation
  split
  · exact s.port_takePlayersFrame
  · rfl

@[simp] theorem State.port_takeChannelsFrame : s.takeChannelsFrame.highway.port = s.highway.port := by
  unfold State.takeChannelsFrame
  split
  · exact s.port_takeComputation
  · rfl

@[simp] theorem State.port_settleFrame : s.settleFrame.highway.port = s.highway.port := by
  simp [State.settleFrame]

@[simp] theorem State.port_takeCadence : s.takeCadence.highway.port = s.highway.port := by
  unfold State.takeCadence
  split
  · rfl
  · exact s.port_takeComputation

@[simp] theorem State.port_takeWaitOrders : s.takeWaitOrders.highway.port = s.highway.port := by
  unfold State.takeWaitOrders
  split
  · rfl
  · exact s.port_takeComputation

@[simp] theorem State.port_takeWaitPlayers : s.takeWaitPlayers.highway.port = s.highway.port := by
  unfold State.takeWaitPlayers
  split
  · rfl
  · rw [State.onExchange_highway]; exact s.port_takeComputation

@[simp] theorem State.port_takeEvaluation : s.takeEvaluation.highway.port = s.highway.port := by
  unfold State.takeEvaluation
  split
  · rfl
  · rw [State.onExchange_highway]; rfl

@[simp] theorem State.port_settleBoundaries : s.settleBoundaries.highway.port = s.highway.port := by
  have iterate (f : State → State) (hf : ∀ t : State, (f t).highway.port = t.highway.port) (n : Nat) (t : State) :
      (f^[n] t).highway.port = t.highway.port := iterate_frame (fun t => t.highway.port) hf n t
  simp [State.settleBoundaries, iterate _ State.port_takeCadence, iterate _ State.port_takeWaitOrders,
    iterate _ State.port_takeWaitPlayers, iterate _ State.port_takeEvaluation]

theorem State.highwayOk_declareLoss (hs : s.highway.Ok) : s.declareLoss.highway.Ok := by
  have hsettled : s.settleFrame.settleBoundaries.highway.Ok := hs.of_port (by simp)
  unfold State.declareLoss
  generalize s.settleFrame.settleBoundaries = t at hsettled ⊢
  exact ⟨hsettled.1, hsettled.2.1, Nat.min_le_right _ _, fun _ hn => nomatch hn⟩

theorem State.highwayOk_takePulse (hs : s.highway.Ok) : s.takePulse.highway.Ok := by
  have hframe : s.overdueLoss.settleFrame.highway.Ok := by
    refine Highway.Ok.of_port ?_ (State.port_settleFrame _)
    unfold State.overdueLoss
    split
    · exact s.highwayOk_declareLoss hs
    · exact hs
  unfold State.takePulse
  generalize s.overdueLoss.settleFrame = t at hframe ⊢
  have hrestored : (if t.highway.monitor = .lost then t.restoreFrames else t).highway.Ok := by
    split <;> exact hframe
  exact hrestored.frameStart

theorem State.highwayOk_clockBit (hs : s.highway.Ok) : s.clockBit.highway.Ok := by
  have ht := hs.of_port s.port_takeComputation
  unfold State.clockBit
  generalize s.takeComputation = t at ht ⊢
  dsimp only
  split
  · split
    · rename_i n _ hn
      refine ⟨ht.1, ht.2.1, ht.2.2.1, fun m hm => ?_⟩
      obtain rfl : n + 1 = m := Option.some.inj hm
      exact hn
    · exact ht.of_port rfl
  · exact ht.of_port rfl

end

/-! ### Every command -/

section
variable {s : State}

/-- What leaves the bus, the report unit and the store alone keeps the form with the highway port's. -/
theorem FormOk.of_aside {t : State} (hs : FormOk s) (ha : t.aside = s.aside) (hh : t.highway.Ok) : FormOk t := by
  obtain ⟨-, hbus, hreports, hstore⟩ := State.aside_eq ha
  unfold FormOk
  rw [hbus, hreports, hstore]
  exact ⟨hs.1, hs.2.1, hh, hs.2.2.2⟩

theorem FormOk.withBus (hs : FormOk s) {b : Bus} (hb : b.Ok) : FormOk { s with bus := b } := ⟨hb, hs.2⟩

theorem FormOk.withReports (hs : FormOk s) {r : ReportUnit} (hr : r.Ok) : FormOk { s with reports := r } :=
  ⟨hs.1, hr, hs.2.2⟩

theorem FormOk.withStore (hs : FormOk s) {c : StoreController} (hc : c.Wf) : FormOk { s with store := c } :=
  ⟨hs.1, hs.2.1, hs.2.2.1, hc⟩

theorem FormOk.onStore (hs : FormOk s) {f : StoreSide → StoreSide}
    (hf : ∀ v : StoreSide, v.store.Wf → (f v).store.Wf) : FormOk (s.onStore f) :=
  ⟨hs.1, hs.2.1, hs.2.2.1, hf _ hs.2.2.2⟩

theorem FormOk.onExchange (hs : FormOk s) (f : Exchange → Exchange) : FormOk (s.onExchange f) := hs

theorem FormOk.runClock (hs : FormOk s) (d : Nat) : FormOk (s.runClock d) := by
  unfold State.runClock
  split
  · exact ⟨hs.1, hs.2.1.run d, hs.2.2.1.run d, hs.2.2.2⟩
  · exact hs

theorem FormOk.taken (hs : FormOk s) : FormOk s.taken := hs.withBus hs.1.taken

theorem FormOk.atStepEnd (hs : FormOk s) (p : PortStep → Bool) {f : State → State}
    (hf : ∀ t : State, FormOk t → FormOk (f t)) : FormOk (s.atStepEnd p f) := by
  unfold State.atStepEnd
  split
  · split
    · exact hf _ (hs.runClock _)
    · exact hs
  · exact hs

theorem FormOk.takeReport (hs : FormOk s) (b : Block) : FormOk (s.takeReport b) := by
  unfold State.takeReport
  split
  · exact hs
  · rename_i x rest _
    have htaken : FormOk { s with wire := { s.wire with submitted := rest }, reports := s.reports.take x } :=
      ⟨hs.1, hs.2.1.take x, hs.2.2⟩
    dsimp only
    split
    · exact htaken
    · exact htaken

theorem FormOk.startPosting (hs : FormOk s) (x : Posting) (off : Nat) (v : Word) : FormOk (s.startPosting x off v) :=
  hs.withBus (hs.1.post off v x)

theorem FormOk.postRingWord (hs : FormOk s) : FormOk s.postRingWord := by
  unfold State.postRingWord
  dsimp only
  split
  · split
    · split
      · exact hs
      · rename_i x rest hqueue
        split
        · exact hs
        · have hshorter : rest.length ≤ Config.reportDepth := by
            have := hs.2.1.1
            rw [hqueue, List.length_cons] at this
            omega
          exact (hs.withReports (r := { s.reports with queue := rest, entry := some ⟨x, 0⟩ })
            ⟨hshorter, hs.2.1.2⟩).startPosting _ _ _
    · split
      · exact hs.startPosting _ _ _
      · exact hs
  · exact hs

theorem FormOk.postProducer (hs : FormOk s) : FormOk s.postProducer := by
  unfold State.postProducer
  dsimp only
  split
  · split
    · split
      · refine FormOk.startPosting ?_ _ _ _
        exact ⟨hs.1, ReportUnit.attend_ok hs.2.1.1, hs.2.2⟩
      · exact hs
    · exact hs
  · exact hs

theorem FormOk.postStatus (hs : FormOk s) : FormOk s.postStatus := by
  unfold State.postStatus
  split
  · split
    · exact hs
    · refine FormOk.startPosting ?_ _ _ _
      exact hs
  · exact hs

theorem FormOk.endPosting (hs : FormOk s) : FormOk s.endPosting := by
  unfold State.endPosting
  split
  · exact hs
  · rename_i x _
    have hended : FormOk { s with reports := s.reports.endCycle x, bus := Bus.giveWay { s.bus with posting := none } } :=
      ⟨hs.1.endPosting, hs.2.1.endCycle x, hs.2.2⟩
    dsimp only
    split
    · exact hended
    · exact hended

theorem FormOk.expireHoldoff (hs : FormOk s) : FormOk s.expireHoldoff := by
  unfold State.expireHoldoff
  split
  · have hclock := hs.runClock (s.reports.holdoffSetting * Config.holdoffUnitUs - s.reports.holdoffUs)
    exact hclock.withReports hclock.2.1.endHoldoff
  · exact hs

theorem FormOk.expireLoadLamp (hs : FormOk s) : FormOk s.expireLoadLamp := by
  have hclock := hs.runClock (Config.lampUs - s.cong.lamp.us)
  unfold State.expireLoadLamp
  split
  · exact hs
  · generalize s.runClock _ = t at hclock ⊢
    exact hclock

theorem FormOk.expireStoreLamp (hs : FormOk s) : FormOk s.expireStoreLamp := by
  have hclock := hs.runClock (Config.lampUs - s.store.lamp.us)
  unfold State.expireStoreLamp
  split
  · exact hs
  · generalize s.runClock _ = t at hclock ⊢
    exact hclock

theorem FormOk.giveHoldoff (hs : FormOk s) (n : Nat) : FormOk (s.giveHoldoff n) :=
  ⟨hs.1, hs.2.1.writeHoldoff n, hs.2.2⟩

theorem FormOk.ite {c : Prop} [Decidable c] {t : State} (hs : FormOk s) (ht : FormOk t) : FormOk (if c then s else t) := by
  split
  · exact hs
  · exact ht

theorem FormOk.applyTimings (hs : FormOk s) (w x : Word) : FormOk (s.applyTimings w x) := by
  unfold State.applyTimings
  dsimp only
  have h1 := hs.ite (c := unmarked s.bus.marks.gap s.bus.settings.gap (timingGap w) = s.bus.settings.gap)
    (t := s.giveGap (unmarked s.bus.marks.gap s.bus.settings.gap (timingGap w))) hs
  have h2 := h1.ite (c := unmarked s.bus.marks.fanout s.bus.settings.fanout (timingFanout w) = s.bus.settings.fanout)
    (t := State.giveFanout false (unmarked s.bus.marks.fanout s.bus.settings.fanout (timingFanout w)) _) h1
  have h3 := h2.ite (c := unmarked s.bus.marks.waitLimit s.bus.settings.waitLimit (timingWaitLimit x) = s.bus.settings.waitLimit)
    (t := State.giveWaitLimit (unmarked s.bus.marks.waitLimit s.bus.settings.waitLimit (timingWaitLimit x)) _) h2
  exact h3.ite (h3.giveHoldoff _)

theorem FormOk.applyRecord (hs : FormOk s) (ws : Nat → Word) : FormOk (s.applyRecord ws) := by
  have threshold : ∀ (s : State) g w, FormOk s → FormOk (s.applyThreshold g w) := fun s g w h => h.ite h
  have table : ∀ (s : State) g w x, FormOk s → FormOk (s.applyTable g w x) := by
    intro s g w x h
    have hr := h.ite (c := unmarked s.bus.marks.recording[g] s.bus.settings.recording[g] (tableRecording w)
      = s.bus.settings.recording[g])
      (t := s.giveRecording g (unmarked s.bus.marks.recording[g] s.bus.settings.recording[g] (tableRecording w))) h
    exact hr.ite (t := State.givePlan g _ _ _) hr
  unfold State.applyRecord
  dsimp only
  iterate 4 refine table _ _ _ _ ?_
  iterate 3 refine threshold _ _ _ ?_
  exact hs.applyTimings _ _

theorem FormOk.endScan (hs : FormOk s) : FormOk s.endScan := by
  have hrecord : FormOk (if configValid s.store.bytes then s.applyRecord (recordWord s.store.bytes) else s) :=
    (hs.applyRecord _).ite hs
  unfold State.endScan
  dsimp only
  generalize (if configValid s.store.bytes then s.applyRecord (recordWord s.store.bytes) else s) = t at hrecord ⊢
  exact ⟨hrecord.1, hrecord.2.1, hrecord.2.2.1, hrecord.2.2.2.judge⟩

theorem FormOk.softReset (hs : FormOk s) : FormOk s.softReset :=
  ⟨hs.1, ReportUnit.Ok.softReset, hs.2.2.1.softReset, StoreSide.wf_softReset hs.2.2.2⟩

theorem FormOk.cleared (hs : FormOk s) (left : List (Nat × Byte)) (missed : List Byte) {b : Bus} (hb : b.Ok) :
    FormOk { s.clearBlocks left missed with bus := b } :=
  ⟨hb, ReportUnit.Ok.initial, Highway.Ok.initial, hs.2.2.2.cutOff left missed, rfl, rfl⟩

theorem act_formOk (i : Instr) {s : State} (hs : FormOk s) : FormOk (Instr.act i s) := by
  match i with
  | .processorWrite a v | .otherRegionWrite a v => exact hs.withBus (hs.1.request a v)
  | .slotWordWrite p w => exact hs.of_aside (s.aside_slotWrite p _) (Highway.Ok.slotWrite hs.2.2.1 p _)
  | .timingWord2Write w => exact FormOk.giveHoldoff (s := s.giveWaitLimit (timingWaitLimit w)) hs _
  | .congestionTableWordWrite k w => simp only [Instr.act]; unfold State.writeTable; dsimp only; split <;> exact hs
  | .consumerIndexWordWrite w => exact hs.withReports (hs.2.1.writeConsumer _)
  | .acknowledgeWordWrite w => simp only [Instr.act]; unfold State.acknowledge; dsimp only; split <;> split <;> exact hs
  | .softResetWordWrite w =>
    simp only [Instr.act]
    split
    · exact hs.softReset
    · exact hs
  | .powerOnReset left missed => exact hs.cleared left missed (Bus.Ok.assertReset (by exact hs.1) _ _)
  | .pinReset left missed =>
    simp only [Instr.act]
    split
    · exact hs.cleared left missed (Bus.Ok.assertReset (by exact hs.1) _ _)
    · exact hs
  | .resetRelease straps =>
    simp only [Instr.act]
    split
    · exact hs
    · exact hs
  | .framePulse => exact hs.of_aside s.aside_takePulse (s.highwayOk_takePulse hs.2.2.1)
  | .frameLoss =>
    simp only [Instr.act, State.passInterval]
    split
    · have hclock := hs.runClock (Config.lossUs + 1 - s.highway.pulseUs)
      exact hclock.of_aside (State.aside_declareLoss _) (State.highwayOk_declareLoss _ hclock.2.2.1)
    · exact hs
  | .frameComputation => exact hs.of_aside s.aside_takeComputation (hs.2.2.1.of_port s.port_takeComputation)
  | .frameStartChannels => exact hs.of_aside s.aside_takeChannelsFrame (hs.2.2.1.of_port s.port_takeChannelsFrame)
  | .frameStartPlayers => exact hs.of_aside s.aside_takePlayersFrame (hs.2.2.1.of_port s.port_takePlayersFrame)
  | .highwayClockBitTime => exact hs.of_aside s.aside_clockBit (s.highwayOk_clockBit hs.2.2.1)
  | .cadenceBoundary => exact hs.of_aside s.aside_takeCadence (hs.2.2.1.of_port s.port_takeCadence)
  | .waitBoundaryOrders => exact hs.of_aside s.aside_takeWaitOrders (hs.2.2.1.of_port s.port_takeWaitOrders)
  | .waitBoundaryPlayers => exact hs.of_aside s.aside_takeWaitPlayers (hs.2.2.1.of_port s.port_takeWaitPlayers)
  | .loadGradeEvaluation => exact hs.of_aside s.aside_takeEvaluation (hs.2.2.1.of_port s.port_takeEvaluation)
  | .annCycleEnd n =>
    have ht := hs.of_aside s.aside_takeComputation (hs.2.2.1.of_port s.port_takeComputation)
    exact ht.onExchange _
  | .refillDelivery =>
    simp only [Instr.act]; unfold State.takeDelivery
    split
    · exact hs
    · exact FormOk.onExchange (by exact hs) _
  | .fanoutLimitChange =>
    simp only [Instr.act]; unfold State.takeFanout
    split
    · exact hs
    · exact FormOk.onExchange (by exact hs) _
  | .recordingWithdrawal =>
    simp only [Instr.act]; unfold State.takeWithdrawal
    split
    · exact FormOk.onExchange (by exact hs) _
    · exact hs
  | .madeAvailableNotice =>
    simp only [Instr.act]; unfold State.takeMadeAvailable
    split
    · exact FormOk.onExchange (by exact hs) _
    · exact hs
  | .scanDoneNotice =>
    have hdrained : FormOk s.drainFanout := by
      unfold FormOk
      rw [State.drainFanout_bus, State.drainFanout_reports, State.drainFanout_highway, State.drainFanout_store]
      exact hs
    simp only [Instr.act]; unfold State.takeScanDone
    split
    · exact FormOk.onExchange (by exact hdrained) _
    · exact hs
  | .reportSubmit b => exact hs.takeReport b
  | .ringWordPost => exact hs.postRingWord
  | .producerIndexWordPost => exact hs.postProducer
  | .statusWordPost => exact hs.postStatus
  | .postingCycleEnd => exact hs.endPosting
  | .holdoffExpiry => exact hs.expireHoldoff
  | .loadLampTimerExpiry => exact hs.expireLoadLamp
  | .storeLampTimerExpiry => exact hs.expireStoreLamp
  | .storeScanEnd =>
    simp only [Instr.act]
    split
    · exact hs.endScan
    · exact hs
  | .storeLockChange a => simp only [Instr.act]; unfold State.setLock; dsimp only; split <;> exact hs
  | .withdrawnAnswer =>
    simp only [Instr.act]; unfold State.takeWithdrawn
    split
    · exact hs
    · exact FormOk.onStore (s := { s with players := _ }) hs fun v h => StoreSide.wf_withdrawn h _
  | .refillRequest =>
    simp only [Instr.act]; unfold State.takeRefillReq
    split
    · exact hs
    · exact ⟨hs.1, hs.2.1, hs.2.2.1, hs.2.2.2.enqueueRefill _⟩
  | .refillReadStart => exact hs.withStore (hs.2.2.2.startRefill _)
  | .refillReadDone =>
    exact hs.atStepEnd (f := fun s => { s with store := s.store.refillDone }) _ fun t h => h.withStore h.2.2.2.refillDone
  | .erasePulseDone left =>
    exact hs.atStepEnd (f := fun s => s.onStore (StoreSide.pulseDone left)) _ fun t h =>
      h.onStore fun v h => StoreSide.wf_pulseDone h left
  | .eraseVerifyDone =>
    exact hs.atStepEnd (f := fun s => s.onStore StoreSide.verifyDone) _ fun t h =>
      h.onStore fun v h => StoreSide.wf_verifyDone h
  | .programAttemptDone m =>
    exact hs.atStepEnd (f := fun s => s.onStore (StoreSide.attemptDone m)) _ fun t h =>
      h.onStore fun v h => StoreSide.wf_attemptDone h m
  | .loadBegin w | .retireBegin w | .configBegin w => exact hs.onStore fun v h => by exact StoreSide.wf_breakBegin h w
  | .loadConfirm w =>
    exact hs.onStore fun v h => StoreSide.wf_confirmWith h _ w fun v h => StoreSide.wf_loadConfirmed h _
  | .retireConfirm w =>
    exact hs.onStore fun v h => StoreSide.wf_confirmWith h _ w fun v h => StoreSide.wf_retireConfirmed h _
  | .configConfirm w =>
    exact hs.onStore fun v h => StoreSide.wf_confirmWith h _ w fun v h => StoreSide.wf_configConfirmed h _
  | .chunkReady w => exact hs.onStore fun v h => StoreSide.wf_chunkReady h w
  | .loadAbandon w => exact hs.onStore fun v h => StoreSide.wf_loadAbandon h w
  | .storeHold w => exact hs.onStore fun v h => StoreSide.wf_holdStore h w
  | .storeResume w => exact hs.onStore fun v h => StoreSide.wf_resumeStore h w
  | .clearStoreStatus w => exact hs.onStore fun v h => by exact StoreSide.wf_breakBegin h w
  | .invalidStoreCommand w => exact hs.onStore fun v h => by exact StoreSide.wf_breakBegin h w
  | .storeParameterWrite k w => exact hs.withStore (hs.2.2.2.setParam k w)
  | .loadBufferWrite k w => exact hs.onStore fun v h => StoreSide.wf_bufferWord h _ w
  | .storeSupplyGoodFall left missed => exact hs.onStore fun v h => StoreSide.wf_supplyFall h left missed
  | .erasePulseStart good => exact hs.onStore fun v h => StoreSide.wf_startPulse h good
  | .erasePulseResume good left => exact hs.onStore fun v h => StoreSide.wf_resumePulse h good left
  | .programAttemptStart good => exact hs.onStore fun v h => StoreSide.wf_startAttempt h good
  | .servedNotice .channels | .servedNotice .players => exact hs
  | .quiet _ _ | .toneShared _ _ | .tonePrivate _ _ | .announce _ _ | .congestion _ _ | .clearAll _ _
  | .orderInvalidCode _ _ | .detailWordWrite _ _ | .planWordWrite _ _ | .liveBankWordWrite _ | .gapEnd _
  | .waitLimitReached _ | .expiryRequest | .expiryAnswer | .doneNotice | .withdrawnNotice | .repeatsExhaustedNotice
  | .unavailableNotice | .cadenceUnitEnd _ | .segmentEnd _ | .cycleEnd _ | .drainingNotice | .playerGapEnd _ =>
    exact hs.onExchange _
  | .routeLevelWordWrite _ | .thresholdWordWrite _ _ | .timingWord1Write _ => exact hs

/-- Settles O58. -/
theorem stepsKeepMemoryQueuesSlotsAndAttention : Obligations.StepsKeepMemoryQueuesSlotsAndAttention := by
  intro s t hmemory hqueues hslots hattention hcounts hstep
  have hs : FormOk s := (formOk_iff s).2 ⟨hmemory, hqueues, hslots, hattention, hcounts⟩
  exact (formOk_iff t).1 (step_keeps (I := FormOk) (fun _ _ h => h) (fun _ h => h.runClock 1) (fun _ h => h.taken)
    (fun i _ h => act_formOk i h) hs hstep)

end
end Sys2Proof.Machine
end

