-- ==== Sys2Proof/Proofs/Capture.lean ====
section
/-!
PROOF. Processor writes: which are captured, what one that passes does to memory and to the snoop queue, and how a held one
passes when an entry leaves the queue (R157–R159, R165).
-/
namespace Sys2Proof.Machine

/-! ### Which writes are captured -/

section
variable {b : Bus} {a : BusAddr}

theorem Bus.captureOffset_of_reset (h : b.resetLine ≠ .released) : b.captureOffset a = none := if_neg h

theorem Bus.captureOffset_of_outside (h : a.toNat < regionBase b.straps ∨ regionBase b.straps + 0x1000 ≤ a.toNat) :
    b.captureOffset a = none := by
  unfold Bus.captureOffset regionOffset
  rw [if_neg (show ¬ (regionBase b.straps ≤ a.toNat ∧ a.toNat < regionBase b.straps + 0x1000) by omega)]
  split <;> rfl

theorem Bus.captureOffset_of_inside {off : Offset} (h : b.resetLine = .released) (ha : a.toNat = regionBase b.straps + off.toNat) :
    b.captureOffset a = if isCaptured off then some off else none := by
  have hlt := off.isLt
  have hoff : BitVec.ofNat 12 (a.toNat - regionBase b.straps) = off := by
    rw [ha, Nat.add_sub_cancel_left, BitVec.ofNat_toNat, BitVec.setWidth_eq]
  unfold Bus.captureOffset regionOffset
  rw [if_pos h, if_pos (show regionBase b.straps ≤ a.toNat ∧ a.toNat < regionBase b.straps + 0x1000 by omega), hoff]

/-- A write requested now would be captured by its address alone: under a reset none is. -/
theorem Bus.capturedAt_requested (b : Bus) (a : BusAddr) (v : Word) :
    b.capturedAt ⟨a, v, b.resetLine != .released⟩ = b.captureOffset a := by
  unfold Bus.capturedAt
  split
  · rename_i h
    exact (Bus.captureOffset_of_reset (bne_iff_ne.1 h)).symm
  · rfl

end

/-- Settles O5. -/
theorem capturedWordsOfTheRegion : Obligations.CapturedWordsOfTheRegion := by
  intro s off a
  refine ⟨fun hrun ha => ?_, Bus.captureOffset_of_outside, fun hrun => Bus.captureOffset_of_reset ?_⟩
  · rw [Bus.captureOffset_of_inside (beq_iff_eq.1 hrun) ha]
    simp only [isCaptured, Bool.or_eq_true, Bool.and_eq_true, decide_eq_true_eq, or_assoc]
  · intro h
    rw [State.running, h] at hrun
    cases hrun

/-! ### A write that passes, and one that waits -/

section
variable {b : Bus} {x : BusWrite}

theorem Bus.passWrite_eq (b : Bus) (x : BusWrite) : b.passWrite x = { b with
    callStore := memWrite Config.callStoreFill b.callStore x.addr.toNat x.value
    snoop := b.snoop ++ ((b.capturedAt x).map fun off => Capture.mk off x.value).toList } := by
  unfold Bus.passWrite
  dsimp only
  cases b.capturedAt x <;> simp

/-- The one write waiting passes. -/
theorem Bus.giveWay_of_canPass (hw : b.waiting = [x]) (h : b.canPass x = true) :
    b.giveWay = { b.passWrite x with waiting := [] } := by
  unfold Bus.giveWay
  rw [hw, Bus.passWaiting, if_pos h, Bus.passWaiting]

theorem Bus.giveWay_of_not_canPass (hw : b.waiting = [x]) (h : b.canPass x = false) : b.giveWay = b := by
  unfold Bus.giveWay
  rw [hw, Bus.passWaiting, if_neg (by simp [h]), ← hw]

/-- With the port free and room for it, a write passes at once (R157–R159). -/
theorem Bus.request_of_free {a : BusAddr} {v : Word} (hp : b.posting = none) (hw : b.waiting = [])
    (hroom : b.captureOffset a = none ∨ b.snoop.length < Config.snoopDepth) :
    b.request a v = { b with
      callStore := memWrite Config.callStoreFill b.callStore a.toNat v
      snoop := b.snoop ++ ((b.captureOffset a).map fun off => Capture.mk off v).toList } := by
  have hat := b.capturedAt_requested a v
  unfold Bus.request
  rw [Bus.giveWay_of_canPass (x := ⟨a, v, b.resetLine != .released⟩) (by rw [hw]; rfl), Bus.passWrite_eq]
  · show ({ b with callStore := _, snoop := b.snoop ++ ((b.capturedAt _).map _).toList, waiting := [] } : Bus) = _
    rw [hat, ← hw]
  · show (b.posting == none && ((b.capturedAt _).isNone || b.snoop.length < Config.snoopDepth)) = true
    rw [hat, hp]
    rcases hroom with h | h <;> simp [h]

/-- A captured write that meets a full queue is held (R159). -/
theorem Bus.request_of_full {a : BusAddr} {v : Word} (hw : b.waiting = []) (hfull : b.snoop.length = Config.snoopDepth)
    (hcaptured : b.captureOffset a ≠ none) : b.request a v = { b with waiting := [⟨a, v, b.resetLine != .released⟩] } := by
  have hat := b.capturedAt_requested a v
  unfold Bus.request
  rw [Bus.giveWay_of_not_canPass (x := ⟨a, v, b.resetLine != .released⟩) (by rw [hw]; rfl), hw]
  · rfl
  · show (b.posting == none && ((b.capturedAt _).isNone || decide (b.snoop.length < Config.snoopDepth))) = false
    rw [hat, hfull, Option.isNone_eq_false_iff.2 (Option.isSome_iff_ne_none.2 hcaptured)]
    simp

end

/-- What the processor reads after a word has been written to memory. -/
theorem busRead_memWrite {s t : State} {a : BusAddr} {v : Word} (hwf : memWf Config.callStoreFill s.bus.callStore = true)
    (ht : t.bus.callStore = memWrite Config.callStoreFill s.bus.callStore a.toNat v) (b : BusAddr) :
    t.busRead b = if b = a then v else s.busRead b := by
  unfold State.busRead
  rw [ht, memRead_memWrite hwf]
  simp only [BitVec.toNat_inj]

/-- Settles O4. -/
theorem processorWritePassesAndIsCaptured : Obligations.ProcessorWritePassesAndIsCaptured := by
  intro a v s hwf hposting hwaiting hroom
  have hpass := Bus.request_of_free (v := v) hposting hwaiting hroom
  have hread := busRead_memWrite (t := { s with bus := s.bus.request a v }) hwf (congrArg Bus.callStore hpass)
  refine ⟨⟨_, rfl, hread, congrArg Bus.snoop hpass, ?_⟩, fun huncaptured => ⟨_, rfl, hread, ?_⟩⟩
  · rw [hpass]
  · rw [huncaptured, Option.map_none, Option.toList_none, List.append_nil] at hpass
    rw [hpass]

/-! ### An entry leaves the queue -/

theorem execStoreParameterWrite_of_headIs {k : Fin 3} {w : Word} {s : State} (h : s.headIs (0x313 + k.val) w = true) :
    exec (.storeParameterWrite k w) s = .next { s.taken with store := s.store.setParam k w } := handOver_of_headIs h

/-- A store parameter word replaces its word of the parameter shadow (R138). -/
theorem StoreController.setParam_eq (k : Fin 3) (w : Word) (c : StoreController) : c.setParam k w = { c with
    paramHigh := if k = 0 then w else c.paramHigh
    paramLow := if k = 1 then w else c.paramLow
    paramFlags := if k = 2 then w else c.paramFlags } := by
  match k with
  | 0 | 1 | 2 => rfl

/-- With no write waiting, taking an entry changes the queue alone. -/
theorem State.taken_of_none_waiting {s : State} (h : s.bus.waiting = []) :
    s.taken = { s with bus := { s.bus with snoop := s.bus.snoop.tail } } :=
  congrArg (fun b => { s with bus := b }) (Bus.giveWay_nil (b := { s.bus with snoop := s.bus.snoop.tail }) h)

/-- A held write passes when an entry leaves a full queue (R159). -/
theorem State.taken_of_held {s : State} {a : BusAddr} {v : Word} {off : Offset} (hw : s.bus.waiting = [⟨a, v, false⟩])
    (hp : s.bus.posting = none) (hfull : s.bus.snoop.length = Config.snoopDepth) (hoff : s.bus.captureOffset a = some off) :
    s.taken = { s with bus := { s.bus with
      callStore := memWrite Config.callStoreFill s.bus.callStore a.toNat v
      snoop := s.bus.snoop.tail ++ [⟨off, v⟩]
      waiting := [] } } := by
  have hdepth : Config.snoopDepth = 32 := rfl
  let b : Bus := { s.bus with snoop := s.bus.snoop.tail }
  have hat : b.capturedAt ⟨a, v, false⟩ = some off := hoff
  have hpass : b.canPass ⟨a, v, false⟩ = true := by
    show (s.bus.posting == none && ((b.capturedAt _).isNone || decide (s.bus.snoop.tail.length < Config.snoopDepth))) = true
    rw [hp, List.length_tail, hfull, hdepth]
    simp
  have hb := Bus.giveWay_of_canPass (b := b) hw hpass
  rw [Bus.passWrite_eq, hat] at hb
  exact congrArg (fun b => { s with bus := b }) hb

/-- Settles O6. -/
theorem heldWritePassesWhenAnEntryLeaves : Obligations.HeldWritePassesWhenAnEntryLeaves := by
  refine ⟨fun a v s hfull hwaiting hcaptured => ?_, fun k w s hhead => ⟨fun hwaiting => ?_,
    fun a v off hwaiting hposting hfull hoff hwf => ?_⟩⟩
  · have hreleased : (s.bus.resetLine != .released) = false := by
      by_contra h
      exact hcaptured (Bus.captureOffset_of_reset (bne_iff_ne.1 (Bool.not_eq_false _ ▸ h)))
    show Host.Outcome.next { s with bus := s.bus.request a v } = _
    rw [Bus.request_of_full hwaiting hfull hcaptured, hreleased]
  · rw [execStoreParameterWrite_of_headIs hhead, State.taken_of_none_waiting hwaiting, StoreController.setParam_eq]
  · have htaken := State.taken_of_held hwaiting hposting hfull hoff
    refine ⟨_, execStoreParameterWrite_of_headIs hhead, ?_, ?_, ?_⟩
    · rw [htaken]
    · rw [htaken]
    · exact busRead_memWrite hwf (by rw [htaken])

end Sys2Proof.Machine
end

