-- ==== Sys2Proof/Proofs/SettingWords.lean ====
section
/-!
PROOF. The setting words at the head of the snoop queue: their fields clamped and handed to their owners (R161, R176), and why
no later entry is handed over until the player pool has taken a fan-out change (R116, R160).
-/
namespace Sys2Proof.Machine

/-! ### The fields of the setting words -/

theorem timingGap_eq (w : Word) : timingGap w = min (w.toNat % 32) 20 := by simp [timingGap, field]

theorem timingFanout_eq (w : Word) : timingFanout w = min (max (w.toNat / 256 % 128) 1) 64 := rfl

theorem timingWaitLimit_eq (w : Word) : timingWaitLimit w = max (w.toNat % 256) 1 := by simp [timingWaitLimit, field]

theorem timingHoldoff_eq (w : Word) : timingHoldoff w = w.toNat / 256 := by
  have := w.isLt
  simp [timingHoldoff, field]
  omega

theorem thresholdUp_eq (w : Word) : thresholdUp w = min (w.toNat / 256 % 128) 64 := rfl

theorem thresholdDown_eq (w : Word) : thresholdDown w = min (w.toNat % 128) 64 := by simp [thresholdDown, field]

theorem tableRecording_eq (w : Word) :
    tableRecording w = if w.toNat / 2 ^ 15 = 1 then some (Fin.ofNat 32 (w.toNat % 32)) else none := by
  simp only [tableRecording, flag_fifteen_eq, decide_eq_true_eq, field]
  simp

theorem tablePlan_eq (w : Word) :
    tablePlan w = if w.toNat / 2 ^ 15 = 1 then some (Fin.ofNat 16 (w.toNat / 256 % 16)) else none := by
  simp only [tablePlan, flag_fifteen_eq, decide_eq_true_eq, field]
  simp

theorem tableRepeats_eq (w : Word) : tableRepeats w = Fin.ofNat 16 (w.toNat % 16) := by
  simp only [tableRepeats, field]
  simp

theorem routeLevels_val (w : Word) (c : Route) : ((routeLevels w)[c]).val = w.toNat / 4 ^ c.val % 4 := by
  have hpow : 2 ^ (2 * c.val) = 4 ^ c.val := by rw [Nat.pow_mul]
  simp [routeLevels, field, Fin.ofNat, hpow]

/-- A write of the holdoff field, the attention output written out (R175, R176). -/
theorem ReportUnit.writeHoldoff_eq (n : Nat) (r : ReportUnit) : r.writeHoldoff n =
    if r.holdoffRunning then
      if n = 0 then { r with
        holdoffSetting := 0, holdoffRunning := false, holdoffUs := 0, attention := r.posted != r.consumer }
      else { r with holdoffSetting := n, holdoffUs := 0 }
    else { r with holdoffSetting := n } := by
  unfold ReportUnit.writeHoldoff ReportUnit.attend
  simp

/-! ### Each word handed over -/

section
variable {w : Word} {s : State}

theorem execTimingWord1Write_of_headIs (h : s.headIs 0x30C w = true) :
    exec (.timingWord1Write w) s = .next (s.taken.writeTiming1 w) := handOver_of_headIs h

theorem execTimingWord2Write_of_headIs (h : s.headIs 0x30D w = true) :
    exec (.timingWord2Write w) s = .next (s.taken.writeTiming2 w) := handOver_of_headIs h

theorem execThresholdWordWrite_of_headIs {g : Fin 3} (h : s.headIs (0x309 + g.val) w = true) :
    exec (.thresholdWordWrite g w) s = .next (s.taken.writeThreshold g w) := handOver_of_headIs h

theorem execCongestionTableWordWrite_of_headIs {k : Fin 8} (h : s.headIs (0x300 + k.val) w = true) :
    exec (.congestionTableWordWrite k w) s = .next (s.taken.writeTable k w) := handOver_of_headIs h

theorem execRouteLevelWordWrite_of_headIs (h : s.headIs 0x308 w = true) :
    exec (.routeLevelWordWrite w) s = .next (s.taken.writeLevels w) := handOver_of_headIs h

theorem State.writeTiming1_eq (w : Word) (s : State) : s.writeTiming1 w = { s with
    bus := { s.bus with
      settings := { s.bus.settings with gap := timingGap w, fanout := timingFanout w }
      marks := { s.bus.marks with gap := true, fanout := true }
      fanoutChanges := s.bus.fanoutChanges ++ [⟨timingFanout w, true⟩] }
    orders := { s.orders with gapSetting := timingGap w } } := rfl

theorem State.writeTiming2_eq (w : Word) (s : State) : s.writeTiming2 w = { s with
    bus := { s.bus with
      settings := { s.bus.settings with waitLimit := timingWaitLimit w, holdoff := timingHoldoff w }
      marks := { s.bus.marks with waitLimit := true, holdoff := true } }
    orders := { s.orders with waitLimit := timingWaitLimit w }
    reports := s.reports.writeHoldoff (timingHoldoff w) } := rfl

theorem State.writeThreshold_eq (g : Fin 3) (w : Word) (s : State) : s.writeThreshold g w = { s with
    bus := { s.bus with
      settings := { s.bus.settings with
        up := s.bus.settings.up.set g (thresholdUp w), down := s.bus.settings.down.set g (thresholdDown w) }
      marks := { s.bus.marks with up := s.bus.marks.up.set g true, down := s.bus.marks.down.set g true } }
    cong := s.cong.setThreshold g (thresholdUp w) (thresholdDown w) } := rfl

theorem State.writeTable_eq {k : Fin 8} {g : Cls} (hg : g.val = k.val / 2) (w : Word) (s : State) : s.writeTable k w =
    if k.val % 2 = 0 then { s with
      bus := { s.bus with
        settings := { s.bus.settings with recording := s.bus.settings.recording.set g (tableRecording w) }
        marks := { s.bus.marks with recording := s.bus.marks.recording.set g true } }
      cong := { s.cong with table := s.cong.table.set g { s.cong.table[g] with recording := tableRecording w } } }
    else { s with
      bus := { s.bus with
        settings := { s.bus.settings with
          plan := s.bus.settings.plan.set g (tablePlan w), repeats := s.bus.settings.repeats.set g (tableRepeats w) }
        marks := { s.bus.marks with
          plan := s.bus.marks.plan.set g true, repeats := s.bus.marks.repeats.set g true } }
      cong := { s.cong with
        table := s.cong.table.set g { s.cong.table[g] with plan := tablePlan w, repeats := tableRepeats w } } } := by
  obtain rfl : g = Fin.ofNat 4 (k.val / 2) := by rw [← hg, Fin.ofNat_val_eq_self]
  rfl

/-- Settles O7. -/
theorem settingWordsReachTheirOwners : Obligations.SettingWordsReachTheirOwners := by
  refine ⟨fun w s h => ?timing1, fun w s h => ?timing2, fun g w s up down h hup hdown => ?threshold,
    fun k g w s h hg => ?table, fun w s h => ?levels, fun p off k row j w s hinflight => ?later⟩
  case timing1 =>
    rw [execTimingWord1Write_of_headIs h, State.writeTiming1_eq, timingGap_eq, timingFanout_eq, State.taken_settings,
      State.taken_marks, State.taken_fanoutChanges, State.taken_orders]
  case timing2 =>
    rw [execTimingWord2Write_of_headIs h, State.writeTiming2_eq, timingWaitLimit_eq, timingHoldoff_eq, State.taken_settings,
      State.taken_marks, State.taken_orders, State.taken_reports, ReportUnit.writeHoldoff_eq]
  case threshold =>
    rw [execThresholdWordWrite_of_headIs h, State.writeThreshold_eq, thresholdUp_eq, thresholdDown_eq, ← hup, ← hdown,
      State.taken_settings, State.taken_marks, State.taken_cong]
    rfl
  case table =>
    rw [execCongestionTableWordWrite_of_headIs h, State.writeTable_eq hg, tableRecording_eq, tablePlan_eq, tableRepeats_eq,
      State.taken_settings, State.taken_marks, State.taken_cong]
  case levels => exact ⟨_, execRouteLevelWordWrite_of_headIs h, routeLevels_val w, rfl⟩
  case later =>
    have htook : s.bus.ownersTook = false := by
      obtain ⟨c, hc, hentry⟩ := hinflight
      rw [Bus.ownersTook, List.all_eq_false]
      exact ⟨c, hc, by simp [hentry]⟩
    have hand {off : Nat} {w : Word} {f : State → State} : handOver off w f s = .next s := handOver_of_not_ownersTook htook
    have coded {c : Prop} [Decidable c] {off : Nat} {w : Word} {f : State → State} :
        (if c then handOver off w f s else .next s) = .next s := by
      split
      · exact hand
      · rfl
    simp only [List.forall_mem_cons]
    exact ⟨coded, coded, coded, coded, coded, coded, coded, hand, hand, coded, hand, hand, hand, hand, hand, hand, hand, hand,
      hand, coded, coded, coded, coded, coded, coded, coded, coded, coded, coded, coded, coded, hand, hand,
      fun _ h => absurd h (List.not_mem_nil)⟩

end

end Sys2Proof.Machine
end

