-- ==== Sys2Proof/Proofs/ReportsAndTimers.lean ====
section
/-!
PROOF. The report unit: submission (R170, R171), the three posting cycles of a ring entry (R164, R165, R172), and the timers of
the local clock that reach their end (R133, R154, R175, R176).
-/
namespace Sys2Proof.Machine

/-! ### Submission -/

/-- The oldest submission of a block, the ones before it being of other blocks. -/
theorem takeSubmission_append {b : Block} {x : Report} {before after : List Submission} (h : ∀ y ∈ before, y.block ≠ b) :
    takeSubmission b (before ++ ⟨b, x⟩ :: after) = some (x, before ++ after) := by
  induction before with
  | nil => simp [takeSubmission]
  | cons y before ih =>
    obtain ⟨hy, hrest⟩ := List.forall_mem_cons.1 h
    rw [List.cons_append, takeSubmission, if_neg hy, ih hrest]
    rfl

theorem replaceNewest_eq_none {α : Type} {p : α → Bool} {f : α → α} {l : List α} (h : ∀ z ∈ l, p z = false) :
    replaceNewest p f l = none := by
  induction l with
  | nil => rfl
  | cons x l ih =>
    obtain ⟨hx, hrest⟩ := List.forall_mem_cons.1 h
    simp [replaceNewest, ih hrest, hx]

/-- The newest member that satisfies `p` is replaced. -/
theorem replaceNewest_append {α : Type} {p : α → Bool} {f : α → α} {older newer : List α} {y : α} (hy : p y = true)
    (h : ∀ z ∈ newer, p z = false) : replaceNewest p f (older ++ y :: newer) = some (older ++ f y :: newer) := by
  induction older with
  | nil => simp [replaceNewest, replaceNewest_eq_none h, hy]
  | cons x older ih => simp [replaceNewest, ih]

theorem Report.sameAs_eq_false {x z : Report} (h : z.kind ≠ x.kind ∨ z.subject ≠ x.subject) : x.sameAs z = false := by
  simp only [Report.sameAs, Bool.and_eq_false_iff, beq_eq_false_iff_ne]
  exact h.imp Ne.symm Ne.symm

section
variable {r : ReportUnit} {x : Report}

theorem ReportUnit.take_of_room (h : r.queue.length < Config.reportDepth) :
    r.take x = { r with queue := r.queue ++ [x] } := if_pos h

theorem ReportUnit.take_of_same {older newer : List Report} {y : Report} (hfull : Config.reportDepth ≤ r.queue.length)
    (hqueue : r.queue = older ++ y :: newer) (hy : x.sameAs y = true) (hnewer : ∀ z ∈ newer, x.sameAs z = false) :
    r.take x = { r with queue := older ++ { y with value := x.value } :: newer } := by
  unfold ReportUnit.take
  rw [if_neg (Nat.not_lt.2 hfull), hqueue, replaceNewest_append hy hnewer]

theorem ReportUnit.take_of_none (hfull : Config.reportDepth ≤ r.queue.length) (hnone : ∀ z ∈ r.queue, x.sameAs z = false) :
    r.take x = { r with lost := true } := by
  unfold ReportUnit.take
  rw [if_neg (Nat.not_lt.2 hfull), replaceNewest_eq_none hnone]

end

/-- A report taken: the global status word is marked when reports-lost changes. -/
theorem State.takeReport_of_submitted {b : Block} {x : Report} {rest : List Submission} {s : State}
    (h : takeSubmission b s.wire.submitted = some (x, rest)) :
    s.takeReport b = (if (s.reports.take x).lost = s.reports.lost then
        { s with wire := { s.wire with submitted := rest }, reports := s.reports.take x }
      else State.mark { s with wire := { s.wire with submitted := rest }, reports := s.reports.take x } .global) := by
  simp only [State.takeReport, h]

/-- Settles O10. -/
theorem reportJoinsCoalescesOrIsLost : Obligations.ReportJoinsCoalescesOrIsLost := by
  intro b x before after s hrun hsubmitted hbefore
  have hexec : exec (.reportSubmit b) s = .next (s.takeReport b) := event_of_running hrun
  have htake := State.takeReport_of_submitted (s := s) (hsubmitted ▸ takeSubmission_append hbefore)
  rw [hexec, htake]
  refine ⟨fun hroom => ?room, fun older newer y hfull hqueue hkind hsubject hnewer => ?same, fun hfull hnone => ?lost⟩
  case room =>
    rw [ReportUnit.take_of_room hroom, if_pos rfl]
  case same =>
    have hsame : x.sameAs y = true := by simp [Report.sameAs, hkind, hsubject]
    rw [ReportUnit.take_of_same hfull hqueue hsame fun z hz => Report.sameAs_eq_false (hnewer z hz), if_pos rfl]
  case lost =>
    rw [ReportUnit.take_of_none hfull fun z hz => Report.sameAs_eq_false (hnone z hz)]
    cases hlost : s.reports.lost with
    | true => simp
    | false => simp [State.mark, Wire.mark, DirtyMarks.put]

/-! ### Posting cycles -/

section
variable {s : State}

theorem State.canPost_eq_true (hrun : s.running = true) (hp : s.bus.posting = none) (hw : s.bus.waiting = []) :
    s.canPost = true := by
  simp [State.canPost, hrun, hp, hw]

/-- The state once a posting cycle has started (log 15). -/
theorem State.startPosting_eq (x : Posting) (off : Nat) (v : Word) (s : State) : s.startPosting x off v = { s with
    bus := { s.bus with
      callStore := memWrite Config.callStoreFill s.bus.callStore (regionBase s.bus.straps + off) v
      posting := some x } } := rfl

/-- What the processor reads once a posting cycle has written its word. -/
theorem busRead_startPosting {t : State} {off : Nat} {v : Word} (hwf : memWf Config.callStoreFill s.bus.callStore = true)
    (ht : t.bus.callStore = memWrite Config.callStoreFill s.bus.callStore (regionBase s.bus.straps + off) v) (a : BusAddr) :
    t.busRead a = if a.toNat = regionBase s.bus.straps + off then v else s.busRead a := by
  unfold State.busRead
  rw [ht, memRead_memWrite hwf]

theorem State.postRingWord_first {x : Report} {rest : List Report} (hcan : s.canPost = true) (he : s.reports.entry = none)
    (hq : s.reports.queue = x :: rest) (hroom : s.reports.producer + 1 ≠ s.reports.consumer) :
    s.postRingWord = State.startPosting .ringWord0 (ringOffset s.reports.producer) x.word0
      { s with reports := { s.reports with queue := rest, entry := some ⟨x, 0⟩ } } := by
  simp only [State.postRingWord, hcan, he, hq, if_true, if_neg hroom]

theorem State.postRingWord_second {x : Report} (hcan : s.canPost = true) (he : s.reports.entry = some ⟨x, 1⟩) :
    s.postRingWord = s.startPosting .ringWord1 (ringOffset s.reports.producer + 1) x.value := by
  simp only [State.postRingWord, hcan, he, if_true]

theorem State.postProducer_third {x : Report} (hcan : s.canPost = true) (he : s.reports.entry = some ⟨x, 2⟩) :
    s.postProducer = State.startPosting .producerIndex 0x321 (BitVec.ofNat 16 s.reports.producer.val)
      { s with
        reports := ReportUnit.attend { s.reports with posted := s.reports.producer }
        wire := { s.wire with dirty := { s.wire.dirty with producer := false } } } := by
  simp only [State.postProducer, hcan, he, if_true]
  rfl

end

/-- Settles O11. -/
theorem ringEntryIsPostedInThreeCycles : Obligations.RingEntryIsPostedInThreeCycles := by
  intro x s base hrun hp hw hwf hbase
  have hcan := State.canPost_eq_true hrun hp hw
  have hbase' : regionBase s.bus.straps = base := hbase.symm
  refine ⟨fun rest he hq hroom => ?first, fun he => ?second, fun he => ?third⟩
  case first =>
    have hroom' : s.reports.producer + 1 ≠ s.reports.consumer := fun h => hroom (by rw [← h, Fin.val_add]; rfl)
    have hpost := State.postRingWord_first hcan he hq hroom'
    refine ⟨_, event_of_running hrun, fun a => ?_, ?_⟩
    · rw [hpost, busRead_startPosting (s := s) (off := ringOffset s.reports.producer) (v := x.word0) hwf rfl, hbase', ringOffset,
        ← Nat.add_assoc]
      rfl
    · rw [hpost]; rfl
  case second =>
    have hpost := State.postRingWord_second hcan he
    refine ⟨_, event_of_running hrun, fun a => ?_, ?_⟩
    · rw [hpost, busRead_startPosting (s := s) (off := ringOffset s.reports.producer + 1) (v := x.value) hwf rfl, hbase',
        ringOffset, show base + (0x400 + 2 * s.reports.producer.val + 1) = base + 0x401 + 2 * s.reports.producer.val by omega]
    · rw [hpost]; rfl
  case third =>
    have hpost := State.postProducer_third hcan he
    refine ⟨_, event_of_running hrun, fun a => ?_, ?_⟩
    · rw [hpost, busRead_startPosting (s := s) (off := 0x321) (v := BitVec.ofNat 16 s.reports.producer.val) hwf rfl, hbase']
    · rw [hpost]; rfl

/-- A posting cycle ends: the entry in progress counts it, and the producer index word is marked when its value changed. -/
theorem State.endPosting_of_posting {s : State} {p : Posting} (hp : s.bus.posting = some p) :
    s.endPosting = (if (s.reports.endCycle p).producer = s.reports.producer then
        { s with reports := s.reports.endCycle p, bus := Bus.giveWay { s.bus with posting := none } }
      else State.mark { s with reports := s.reports.endCycle p, bus := Bus.giveWay { s.bus with posting := none } }
        .producer) := by
  simp only [State.endPosting, hp]

/-- Settles O12. -/
theorem postingCycleEndAdvancesTheEntry : Obligations.PostingCycleEndAdvancesTheEntry := by
  intro x s p hp
  have hexec : exec .postingCycleEnd s = .next s.endPosting := rfl
  rw [hexec, State.endPosting_of_posting hp]
  refine ⟨fun h he => ?_, fun h he => ?_, fun h => ?_, fun w h => ?_⟩
  · have hend : s.reports.endCycle p = { s.reports with entry := some ⟨x, 1⟩ } := by simp [ReportUnit.endCycle, h, he]
    rw [hend, if_pos rfl]
  · have hend : s.reports.endCycle p
        = { s.reports with entry := some ⟨x, 2⟩, producer := s.reports.producer + 1 } := by simp [ReportUnit.endCycle, h, he]
    have hmoves : s.reports.producer + 1 ≠ s.reports.producer := by
      generalize s.reports.producer = n
      intro h
      have := congrArg Fin.val h
      rw [Fin.val_add_one] at this
      split at this <;> simp_all
    rw [hend, if_neg hmoves]
    rfl
  · have hend : s.reports.endCycle p = { s.reports with entry := none } := by simp [ReportUnit.endCycle, h]
    rw [hend, if_pos rfl]
  · have hend : s.reports.endCycle p = s.reports := by simp [ReportUnit.endCycle, h]
    rw [hend, if_pos rfl]

/-! ### Timers of the local clock -/

/-- What the local clock moves outside a reset. -/
theorem State.runClock_of_running {s : State} (h : s.running = true) (d : Nat) : s.runClock d = { s with
    highway := s.highway.run d
    reports := s.reports.run d
    cong := { s.cong with lamp := s.cong.lamp.run d }
    store := { s.store with
      lamp := s.store.lamp.run d
      port := s.store.port.map fun q => { q with leftUs := q.leftUs - d } } } := if_pos h

theorem ReportUnit.endHoldoff_run {r : ReportUnit} (h : r.holdoffRunning = true) (d : Nat) : (r.run d).endHoldoff =
    { r with holdoffRunning := false, holdoffUs := 0, attention := r.posted != r.consumer } := by
  rw [ReportUnit.run_eq]
  simp [ReportUnit.endHoldoff, ReportUnit.attend, h]

/-- The stretcher at the end of its timer (R133). -/
theorem Lamp.expire_run {l : Lamp} {phase : LampPhase} {us : Nat} {pending : Bool} (hl : l = ⟨phase, us, pending⟩)
    (hphase : phase ≠ .idle) (d : Nat) : (l.run d).expire =
      if phase = .lit then ⟨.darkened, 0, false⟩ else if pending then ⟨.lit, 0, false⟩ else ⟨.idle, 0, false⟩ := by
  subst hl
  cases phase with
  | idle => exact absurd rfl hphase
  | lit => rfl
  | darkened => rfl

/-- Settles O15. -/
theorem timersExpire : Obligations.TimersExpire := by
  intro s hrun
  refine ⟨fun hholdoff => ⟨_, event_of_running hrun, ?holdoff⟩, fun phase us pending hphase => ⟨fun hlamp => ?load,
    fun hlamp => ?store⟩⟩
  case holdoff =>
    rw [State.expireHoldoff, if_pos hholdoff]
    dsimp only
    rw [State.runClock_of_running hrun]
    exact ⟨ReportUnit.endHoldoff_run hholdoff _, rfl, rfl, rfl, rfl, rfl, rfl, rfl⟩
  case load =>
    have hidle : s.cong.lamp.phase ≠ .idle := by rw [hlamp]; exact hphase
    refine ⟨_, event_of_running hrun, ?_⟩
    rw [State.expireLoadLamp, if_neg hidle]
    dsimp only
    rw [State.runClock_of_running hrun]
    exact ⟨congrArg (fun l => { s.cong with lamp := l }) (Lamp.expire_run hlamp hphase _), rfl, rfl, rfl, rfl, rfl, rfl⟩
  case store =>
    have hidle : s.store.lamp.phase ≠ .idle := by rw [hlamp]; exact hphase
    refine ⟨_, event_of_running hrun, ?_⟩
    rw [State.expireStoreLamp, if_neg hidle]
    dsimp only
    rw [State.runClock_of_running hrun]
    have hend := Lamp.expire_run hlamp hphase (Config.lampUs - s.store.lamp.us)
    exact ⟨congrArg (fun l : Lamp => { s.store with
      lamp := l
      port := s.store.port.map fun q : Port => { q with leftUs := q.leftUs - (Config.lampUs - s.store.lamp.us) } }) hend,
      rfl, rfl, rfl, rfl, rfl, rfl⟩

end Sys2Proof.Machine
end

