-- ==== Sys2Proof/Proofs/StatusWords.lean ====
section
/-!
PROOF. The posted status words (chapter 10.4): the marked word of lowest offset is the one posted, and the fields of each
word as its layout in chapter 9.8 gives them.
-/
namespace Sys2Proof.Machine

/-! ### The word of lowest offset -/

/-- The posted words stand in rising offset. -/
theorem postedWords_rising : postedWords.Pairwise fun x y => x.offset < y.offset := by
  rw [← List.pairwise_map (f := PostedWord.offset) (R := (· < ·))]
  decide

theorem mem_postedWords (w : PostedWord) : w ∈ postedWords := by
  cases w with
  | circuit p => simp [postedWords, allCircuits]
  | player n =>
    have hn : n ∈ allPlayers := by revert n; decide
    simp [postedWords, hn]
  | directory r => simp [postedWords, allRecordings]
  | _ => simp [postedWords]

/-- In a list of rising offsets the first member found is the one every member found is at or above. -/
theorem find?_of_rising {α : Type} {f : α → Nat} {p : α → Bool} {l : List α} (hl : l.Pairwise fun x y => f x < f y) {w : α}
    (hw : w ∈ l) (hp : p w = true) (hmin : ∀ x, p x = true → f w ≤ f x) : l.find? p = some w := by
  induction l with
  | nil => cases hw
  | cons x l ih =>
    obtain ⟨hx, hl⟩ := List.pairwise_cons.1 hl
    rcases List.mem_cons.1 hw with rfl | hmem
    · rw [List.find?_cons, hp]
    · have hfalse : p x = false := by
        cases hpx : p x with
        | false => rfl
        | true => exact absurd (hx w hmem) (by have := hmin x hpx; omega)
      rw [List.find?_cons, hfalse]
      exact ih hl hmem

theorem DirtyMarks.lowest_eq_some {d : DirtyMarks} {w : PostedWord} (hw : d.get w = true)
    (hmin : ∀ x, d.get x = true → w.offset ≤ x.offset) : d.lowest = some w :=
  find?_of_rising postedWords_rising (mem_postedWords w) hw hmin

theorem ReportUnit.canStart_eq_false {r : ReportUnit}
    (h : r.queue = [] ∨ (r.producer.val + 1) % 128 = r.consumer.val) : r.canStart = false := by
  rcases h with h | h
  · simp [ReportUnit.canStart, h]
  · have hfull : r.producer + 1 = r.consumer := Fin.ext (by rw [Fin.val_add]; exact h)
    simp [ReportUnit.canStart, hfull]

/-- A posting cycle of the lowest marked word starts (R174). -/
theorem State.postStatus_of_lowest {s : State} {w : PostedWord} (hcan : s.canPost = true) (he : s.reports.entry = none)
    (hstart : s.reports.canStart = false) (hlow : s.wire.dirty.lowest = some w) :
    s.postStatus = State.startPosting (.status w) w.offset (s.postedValue w)
      { s with wire := { s.wire with dirty := s.wire.dirty.put w false } } := by
  simp only [State.postStatus, hcan, he, hstart, hlow, and_self, if_true]

/-! ### Bits and fields of a word -/

theorem bitNat_le_one (b : Bool) : bitNat b ≤ 1 := by cases b <;> decide

theorem bitNat_eq_ite (b : Bool) : bitNat b = if b = true then 1 else 0 := rfl

theorem bitNat_isSome {α : Type} (o : Option α) : bitNat o.isSome = if o = none then 0 else 1 := by
  cases o <;> rfl

/-- Bit `k` of a word, read from the number the word is made of. -/
theorem getLsbD_ofNat_eq {n k : Nat} {b : Bool} (hk : k < 16) (h : n / 2 ^ k % 2 = bitNat b) :
    (BitVec.ofNat 16 n).getLsbD k = b := by
  rw [BitVec.getLsbD_ofNat, Nat.testBit_eq_decide_div_mod_eq, h]
  cases b <;> simp [hk, bitNat]

theorem toNat_ofNat_of_lt {n : Nat} (h : n < 65536) : (BitVec.ofNat 16 n).toNat = n := by
  rw [BitVec.toNat_ofNat, Nat.mod_eq_of_lt h]

theorem getD_map_val_lt {k : Nat} (o : Option (Fin (k + 1))) : (o.map Fin.val).getD 0 < k + 1 := by
  cases o with
  | none => exact Nat.succ_pos k
  | some x => exact x.isLt

/-! ### The circuit status word -/

theorem Entry.argument_lt (x : Entry) : x.argument < 32 := by
  unfold Entry.argument
  cases x.treat with
  | toneShared p => exact Nat.lt_of_lt_of_le p.isLt (by decide)
  | tonePrivate p => exact Nat.lt_of_lt_of_le p.isLt (by decide)
  | announce r _ => exact r.isLt
  | congestion c => exact Nat.lt_of_lt_of_le c.isLt (by decide)

/-- A source number fits the field of the status word and the bit the state code carries (R26). -/
theorem Circuit.source_lt (C : Circuit) : C.source < 32 := by
  have hactive : ((activeEntry C.set).map Entry.argument).getD 0 < 32 := by
    cases activeEntry C.set with
    | none => decide
    | some x => exact x.argument_lt
  unfold Circuit.source
  cases C.state with
  | quiet => exact Nat.succ_pos 31
  | gap => exact Nat.succ_pos 31
  | channelWait => exact hactive
  | annWait => exact hactive
  | tone =>
    cases C.binding with
    | channel k => exact Nat.lt_of_lt_of_le k.isLt (by decide)
    | _ => exact Nat.succ_pos 31
  | hear =>
    cases C.binding with
    | listener m => exact Nat.lt_of_lt_of_le m.isLt (by decide)
    | _ => exact Nat.succ_pos 31

theorem Circuit.source_eq (C : Circuit) : C.source = (match C.state, C.binding with
    | .tone, .channel k => k.val
    | .hear, .listener m => m.val
    | .channelWait, _ => ((activeEntry C.set).map Entry.argument).getD 0
    | .annWait, _ => ((activeEntry C.set).map Entry.argument).getD 0
    | _, _ => 0) := by
  unfold Circuit.source
  cases C.state <;> cases C.binding <;> rfl

theorem Circuit.stateCode_eq (C : Circuit) : C.stateCode = (match C.state with
    | .quiet => 0 | .gap => 1 | .tone => 2 | .channelWait => 3 | .hear => 4
    | .annWait => if C.source < 16 then 6 else 7) := by
  have hsource := C.source_lt
  unfold Circuit.stateCode
  cases C.state with
  | annWait => show 6 + C.source / 16 = if C.source < 16 then 6 else 7; split <;> omega
  | _ => rfl

theorem Circuit.stateCode_lt (C : Circuit) : C.stateCode < 8 := by
  have hsource := C.source_lt
  unfold Circuit.stateCode
  cases C.state with
  | annWait => show 6 + C.source / 16 < 8; omega
  | _ => exact Nat.le_of_ble_eq_true rfl

/-- The classes present, as the field of the status word shows them. -/
def TreatmentSet.presence (t : TreatmentSet) : Nat :=
  bitNat t[3].isSome * 8 + bitNat t[2].isSome * 4 + bitNat t[1].isSome * 2 + bitNat t[0].isSome

theorem TreatmentSet.presence_lt (t : TreatmentSet) : t.presence < 16 := by
  have h0 := bitNat_le_one t[0].isSome
  have h1 := bitNat_le_one t[1].isSome
  have h2 := bitNat_le_one t[2].isSome
  have h3 := bitNat_le_one t[3].isSome
  unfold TreatmentSet.presence
  omega

theorem TreatmentSet.presence_bit (t : TreatmentSet) (d : Cls) : t.presence / 2 ^ d.val % 2 = bitNat t[d].isSome := by
  have h0 := bitNat_le_one t[0].isSome
  have h1 := bitNat_le_one t[1].isSome
  have h2 := bitNat_le_one t[2].isSome
  have h3 := bitNat_le_one t[3].isSome
  unfold TreatmentSet.presence
  match d with
  | 0 => show _ / 1 % 2 = bitNat t[0].isSome; omega
  | 1 => show _ / 2 % 2 = bitNat t[1].isSome; omega
  | 2 => show _ / 4 % 2 = bitNat t[2].isSome; omega
  | 3 => show _ / 8 % 2 = bitNat t[3].isSome; omega

theorem Circuit.status_toNat (C : Circuit) : C.status.toNat = C.stateCode * 8192 + ((activeClass C.set).map Fin.val).getD 0 * 2048
    + TreatmentSet.presence C.set * 128 + C.source % 16 * 8 + bitNat C.latched.isSome * 4
    + (C.latched.map Fin.val).getD 0 := by
  have hcode := C.stateCode_lt
  have hclass := getD_map_val_lt (activeClass C.set)
  have hpresence := TreatmentSet.presence_lt C.set
  have hlatched := bitNat_le_one C.latched.isSome
  have hgrade := getD_map_val_lt C.latched
  exact toNat_ofNat_of_lt (by unfold TreatmentSet.presence at hpresence; omega)

theorem Circuit.status_fields (C : Circuit) (n : Nat) (hn : n = C.status.toNat) :
    n / 8192 = C.stateCode ∧ n / 2048 % 4 = ((activeClass C.set).map Fin.val).getD 0
      ∧ n / 128 % 16 = TreatmentSet.presence C.set ∧ n / 8 % 16 = C.source % 16
      ∧ n / 4 % 2 = bitNat C.latched.isSome ∧ n % 4 = (C.latched.map Fin.val).getD 0 := by
  have hcode := C.stateCode_lt
  have hclass := getD_map_val_lt (activeClass C.set)
  have hpresence := TreatmentSet.presence_lt C.set
  have hlatched := bitNat_le_one C.latched.isSome
  have hgrade := getD_map_val_lt C.latched
  rw [C.status_toNat] at hn
  refine ⟨?_, ?_, ?_, ?_, ?_, ?_⟩ <;> omega

theorem Circuit.status_presence (C : Circuit) (d : Cls) : C.status.getLsbD (7 + d.val) = C.set[d].isSome := by
  have hd := d.isLt
  have hfield : C.status.toNat / 2 ^ (7 + d.val) % 2 = TreatmentSet.presence C.set / 2 ^ d.val % 2 := by
    obtain ⟨-, -, hpresence, -⟩ := C.status_fields _ rfl
    rw [← hpresence, Nat.pow_add, ← Nat.div_div_eq_div_mul]
    match d with
    | 0 => show _ / 1 % 2 = _ / 1 % 2; omega
    | 1 => show _ / 2 % 2 = _ / 2 % 2; omega
    | 2 => show _ / 4 % 2 = _ / 4 % 2; omega
    | 3 => show _ / 8 % 2 = _ / 8 % 2; omega
  have h := getLsbD_ofNat_eq (k := 7 + d.val) (by omega) (hfield.trans (TreatmentSet.presence_bit C.set d))
  rwa [BitVec.ofNat_toNat, BitVec.setWidth_eq] at h

/-! ### The other words -/

theorem Engine.code_lt (x : Engine) : x.code < 8 := by cases x <;> decide

theorem Engine.code_lookup (x : Engine) :
    [Engine.scanning, .idle, .preparing, .receiving, .programming, .finishing, .retiring, .configWriting][x.code]? = some x := by
  cases x <;> rfl

theorem PlanTable.liveCode_lt (t : PlanTable) : t.liveCode < 3 := by
  unfold PlanTable.liveCode
  split <;> decide

theorem PlanTable.liveCode_lookup (t : PlanTable) : [none, some Bank.A, some Bank.B][t.liveCode]? = some t.live := by
  unfold PlanTable.liveCode
  rcases t.live with _ | _ | _ <;> rfl

theorem PlanTable.draining_iff (t : PlanTable) : t.draining = true ↔ ∃ b, (t.bank b).state = .draining := by
  rw [PlanTable.draining, Bool.or_eq_true, beq_iff_eq, beq_iff_eq]
  constructor
  · rintro (h | h)
    · exact ⟨.A, h⟩
    · exact ⟨.B, h⟩
  · rintro ⟨_ | _, h⟩
    · exact .inl h
    · exact .inr h

/-- The fields of the global status word. -/
theorem State.globalStatus_fields (s : State) (g : Word) (n : Nat) (hg : g = s.globalStatus) (hn : n = g.toNat) :
    g.getLsbD 15 = s.store.scanComplete ∧ g.getLsbD 14 = s.reports.lost
      ∧ g.getLsbD 13 = (s.highway.monitor == .lost) ∧ g.getLsbD 12 = s.store.lock
      ∧ g.getLsbD 11 = s.store.supplyAbort ∧ g.getLsbD 10 = s.store.programFail ∧ g.getLsbD 9 = s.store.eraseFail
      ∧ g.getLsbD 8 = s.store.hold ∧ n / 32 % 8 = s.store.engine.code ∧ n / 8 % 4 = s.cong.grade.val
      ∧ g.getLsbD 2 = s.plans.draining ∧ n % 4 = s.plans.liveCode := by
  have h15 := bitNat_le_one s.store.scanComplete
  have h14 := bitNat_le_one s.reports.lost
  have h13 := bitNat_le_one (s.highway.monitor == .lost)
  have h12 := bitNat_le_one s.store.lock
  have h11 := bitNat_le_one s.store.supplyAbort
  have h10 := bitNat_le_one s.store.programFail
  have h9 := bitNat_le_one s.store.eraseFail
  have h8 := bitNat_le_one s.store.hold
  have hengine := s.store.engine.code_lt
  have hgrade := s.cong.grade.isLt
  have h2 := bitNat_le_one s.plans.draining
  have hlive := s.plans.liveCode_lt
  have hsum : n = bitNat s.store.scanComplete * 2 ^ 15 + bitNat s.reports.lost * 2 ^ 14
      + bitNat (s.highway.monitor == .lost) * 2 ^ 13 + bitNat s.store.lock * 2 ^ 12 + bitNat s.store.supplyAbort * 2 ^ 11
      + bitNat s.store.programFail * 2 ^ 10 + bitNat s.store.eraseFail * 2 ^ 9 + bitNat s.store.hold * 2 ^ 8
      + s.store.engine.code * 32 + s.cong.grade.val * 8 + bitNat s.plans.draining * 4 + s.plans.liveCode := by
    rw [hn, hg]
    exact toNat_ofNat_of_lt (by omega)
  have hword : g = BitVec.ofNat 16 n := by rw [hn, BitVec.ofNat_toNat, BitVec.setWidth_eq]
  clear hg hn
  rw [hword]
  refine ⟨getLsbD_ofNat_eq (by omega) ?_, getLsbD_ofNat_eq (by omega) ?_, getLsbD_ofNat_eq (by omega) ?_,
    getLsbD_ofNat_eq (by omega) ?_, getLsbD_ofNat_eq (by omega) ?_, getLsbD_ofNat_eq (by omega) ?_,
    getLsbD_ofNat_eq (by omega) ?_, getLsbD_ofNat_eq (by omega) ?_, ?_, ?_, getLsbD_ofNat_eq (by omega) ?_, ?_⟩ <;> omega

theorem BufState.code_lt (x : BufState) : x.code < 4 := by cases x <;> decide

theorem BufState.code_lookup (x : BufState) : [BufState.empty, .filling, .ready, .programming][x.code]? = some x := by
  cases x <;> rfl

theorem refusalCode_lt (x : Option RefusalReason) : (x.map RefusalReason.code).getD 0 < 8 := by
  rcases x with _ | _ | _ <;> decide

theorem refusalCode_lookup (x : Option RefusalReason) :
    [none, some RefusalReason.badLength, some .alreadyExists, some .statusNotClear, some .engineBusy, some .noSpace,
      some .lockProtected, some .notAvailable][(x.map RefusalReason.code).getD 0]? = some x := by
  rcases x with _ | _ | _ <;> rfl

/-- The fields of the store status word. -/
theorem StoreController.status_fields (c : StoreController) (n : Nat) (hn : n = c.status.toNat) :
    n / 2 ^ 15 = bitNat c.session.isSome ∧ n / 2 ^ 13 % 4 = c.bufA.state.code ∧ n / 2 ^ 11 % 4 = c.bufB.state.code
      ∧ n / 256 % 8 = (c.lastRefusal.map RefusalReason.code).getD 0
      ∧ n % 256 = (c.session.map Session.nextRecv).getD 0 % 256 := by
  have hsession := bitNat_le_one c.session.isSome
  have hA := c.bufA.state.code_lt
  have hB := c.bufB.state.code_lt
  have hrefusal := refusalCode_lt c.lastRefusal
  rw [StoreController.status, toNat_ofNat_of_lt (by omega)] at hn
  refine ⟨?_, ?_, ?_, ?_, ?_⟩ <;> omega

theorem PlayerState.code_lt (x : PlayerState) : x.code < 4 := by cases x <;> decide

theorem PlayerState.code_lookup (x : PlayerState) : [PlayerState.idle, .priming, .playing, .gap][x.code]? = some x := by
  cases x <;> rfl

/-- The fields of a player status word. -/
theorem Player.status_fields (P : Player) (n : Nat) (hn : n = P.status.toNat) :
    n / 2 ^ 14 = P.state.code ∧ n / 2 ^ 9 % 32 = (P.recording.map Fin.val).getD 0
      ∧ n / 8 % 64 = min P.listeners.length 63 ∧ n % 8 = min P.joins.length 7 := by
  have hstate := P.state.code_lt
  have hrecording := getD_map_val_lt P.recording
  rw [Player.status, toNat_ofNat_of_lt (by omega)] at hn
  refine ⟨?_, ?_, ?_, ?_⟩ <;> omega

theorem DirState.code_lt (x : DirState) : x.code < 4 := by cases x <;> decide

theorem DirState.code_lookup (x : DirState) : [DirState.absent, .loading, .available, .retiring][x.code]? = some x := by
  cases x <;> rfl

/-- The fields of a directory word. -/
theorem DirRecord.status_fields (d : DirRecord) (n : Nat) (hcount : d.segCount < 256) (hn : n = d.status.toNat) :
    n / 2 ^ 14 = d.state.code ∧ n / 2 ^ 10 % 16 = 0 ∧ n / 2 ^ 9 % 2 = bitNat d.permanent
      ∧ n / 2 ^ 8 % 2 = bitNat d.bargeIn ∧ n % 256 = d.segCount := by
  have hstate := d.state.code_lt
  have hpermanent := bitNat_le_one d.permanent
  have hbargeIn := bitNat_le_one d.bargeIn
  rw [DirRecord.status, toNat_ofNat_of_lt (by omega)] at hn
  refine ⟨?_, ?_, ?_, ?_, ?_⟩ <;> omega

theorem Bus.resetCause_toNat (b : Bus) : b.resetCause.toNat = (if b.causeSoft then 4 else 0) + (if b.causePin then 2 else 0)
    + (if b.causePower then 1 else 0) := by
  unfold Bus.resetCause
  cases b.causeSoft <;> cases b.causePin <;> cases b.causePower <;> rfl

/-! ### The obligation -/

/-- Settles O13. -/
theorem lowestMarkedStatusWordIsPosted : Obligations.LowestMarkedStatusWordIsPosted := by
  refine ⟨fun w s hrun hp hw hwf he hqueue hmarked hmin => ?posted, fun s v hv => ⟨?circuit, ?global, ?producer, ?cause,
    ?store, ?player, ?directory⟩⟩
  case posted =>
    have hpost := State.postStatus_of_lowest (State.canPost_eq_true hrun hp hw) he (ReportUnit.canStart_eq_false hqueue)
      (DirtyMarks.lowest_eq_some hmarked hmin)
    refine ⟨_, event_of_running hrun, fun a => ?_, fun x => ?_, ?_⟩
    · rw [hpost]
      exact busRead_startPosting (s := s) (off := w.offset) (v := s.postedValue w) hwf rfl a
    · rw [hpost]
      refine (DirtyMarks.get_put s.wire.dirty w x false).trans ?_
      by_cases h : x = w <;> simp [h]
    · rw [hpost]
      rfl
  case circuit =>
    intro p C n source hC hn hsource
    rw [hv, State.postedValue, hC] at hn
    replace hsource : source = C.source := hsource.trans C.source_eq.symm
    obtain ⟨hcode, hclass, -, hlow, hlatched, hgrade⟩ := C.status_fields n hn
    refine ⟨?_, hclass, fun d => ?_, by rw [hlow, hsource], by rw [hlatched, bitNat_isSome], hgrade⟩
    · rw [hcode, hsource]; exact C.stateCode_eq
    · rw [hv, State.postedValue, hC]; exact C.status_presence d
  case global =>
    intro g n hg hn
    rw [hv] at hg
    obtain ⟨h15, h14, h13, h12, h11, h10, h9, h8, hengine, hgrade, h2, hlive⟩ := s.globalStatus_fields g n hg hn
    refine ⟨h15, h14, ?_, h12, h11, h10, h9, h8, ?_, hgrade, ?_, ?_⟩
    · rw [h13, beq_iff_eq]
    · rw [hengine]; exact s.store.engine.code_lookup
    · rw [h2]; exact s.plans.draining_iff
    · rw [hlive]; exact s.plans.liveCode_lookup
  case producer =>
    rw [hv]
    exact toNat_ofNat_of_lt (by have := s.reports.posted.isLt; omega)
  case cause =>
    rw [hv]
    exact s.bus.resetCause_toNat
  case store =>
    intro n hn
    rw [hv] at hn
    obtain ⟨hsession, hA, hB, hrefusal, hchunk⟩ := s.store.status_fields n hn
    refine ⟨by rw [hsession, bitNat_isSome], ?_, ?_, ?_, ?_⟩
    · rw [hA]; exact BufState.code_lookup _
    · rw [hB]; exact BufState.code_lookup _
    · rw [hrefusal]; exact refusalCode_lookup _
    · rw [hchunk]
      cases s.store.session <;> rfl
  case player =>
    intro m P n hP hn
    rw [hv, State.postedValue, hP] at hn
    obtain ⟨hstate, hrecording, hlisteners, hjoins⟩ := P.status_fields n hn
    exact ⟨by rw [hstate]; exact P.state.code_lookup, hrecording, hlisteners, hjoins⟩
  case directory =>
    intro r d n hd hcount hn
    rw [hv, State.postedValue, hd] at hn
    obtain ⟨hstate, hzero, hpermanent, hbargeIn, hsegs⟩ := d.status_fields n hcount hn
    exact ⟨by rw [hstate]; exact d.state.code_lookup, hzero, hpermanent, hbargeIn, hsegs⟩

end Sys2Proof.Machine
end

