-- ==== Sys2Proof/Proofs/StoreBytes.lean ====
section
/-!
PROOF. What the announcement store reads after each of its operations (chapter 8.7), and the segment map after the segments of
a load have settled (chapter 8.4).
-/
namespace Sys2Proof.Machine

/-! ### Runs of writes to a memory -/

section
variable {w : Nat} {fill : BitVec w}

/-- Leaving addresses out makes them read as the fill. -/
theorem memRead_filter (m : List (Nat × BitVec w)) (q : Nat → Bool) (a : Nat) :
    memRead fill (m.filter fun c => q c.1) a = if q a then memRead fill m a else fill := by
  induction m with
  | nil => simp [memRead]
  | cons c m ih =>
    rw [List.filter_cons]
    by_cases hc : c.1 = a
    · subst hc
      cases hq : q c.1 <;> simp [hq, memRead, ih]
    · cases hq : q c.1 <;> simp [memRead, ih, hc]

theorem memRead_memWriteAll_of_not_mem {m cells : List (Nat × BitVec w)} (h : memWf fill m = true) {a : Nat}
    (ha : ∀ c ∈ cells, c.1 ≠ a) : memRead fill (memWriteAll fill m cells) a = memRead fill m a := by
  induction cells generalizing m with
  | nil => rfl
  | cons c l ih =>
    have htail := ih (memWrite_wf (a := c.1) (v := c.2) h) fun d hd => ha d (List.mem_cons_of_mem c hd)
    have hne : a ≠ c.1 := fun hca => ha c List.mem_cons_self hca.symm
    rw [memRead_memWrite h, if_neg hne] at htail
    exact htail

/-- Writing a canonical list of cells, shifted, over a part that reads as the fill. -/
theorem memRead_memWriteAll_shift {m cells : List (Nat × BitVec w)} (hm : memWf fill m = true)
    (hcells : memWf fill cells = true) (b a : Nat) (hfill : memRead fill m (b + a) = fill) :
    memRead fill (memWriteAll fill m (cells.map fun c => (b + c.1, c.2))) (b + a) = memRead fill cells a := by
  induction cells generalizing m with
  | nil => exact hfill
  | cons c l ih =>
    obtain ⟨-, habove, hl⟩ := memWf_cons.1 hcells
    by_cases hca : c.1 = a
    · have hrest : ∀ d ∈ l.map fun c => (b + c.1, c.2), d.1 ≠ b + a := by
        intro d hd
        obtain ⟨x, hx, rfl⟩ := List.mem_map.1 hd
        have := habove x hx
        simp only
        omega
      refine (memRead_memWriteAll_of_not_mem (memWrite_wf hm) hrest).trans ?_
      rw [memRead_memWrite hm, if_pos (by simp [hca]), memRead, if_pos hca]
    · refine (ih (memWrite_wf hm) hl ?_).trans (by rw [memRead, if_neg hca])
      rw [memRead_memWrite hm, if_neg (by simp only; omega)]
      exact hfill

end

/-! ### Bytes of segments -/

/-- An address of the store names one byte of one segment. -/
theorem storeAddress_inj {g h : SegNo} {x y : Nat} (hx : x < 8192) (hy : y < 8192)
    (heq : g.val * Config.segmentBytes + x = h.val * Config.segmentBytes + y) : g = h ∧ x = y := by
  have hbytes : Config.segmentBytes = 8192 := rfl
  rw [hbytes] at heq
  have hgh : g.val = h.val := by omega
  exact ⟨Fin.ext hgh, by omega⟩

/-- The store after a pulse: its segment reads what the device left, every other segment stands (R149). -/
theorem storeByte_leaveResidue {m left : List Host.Cell} (hm : memWf Config.erasedByte m = true)
    (hleft : memWf Config.erasedByte left = true) (hbound : ∀ c ∈ left, c.1 < 8192) (g h : SegNo) {off : Nat}
    (hoff : off < 8192) :
    storeByte (leaveResidue g left m) h off = if h = g then memRead Config.erasedByte left off else storeByte m h off := by
  have hall : left.filter (fun c => c.1 < Config.segmentBytes) = left :=
    List.filter_eq_self.2 fun c hc => decide_eq_true (hbound c hc)
  have hdiv : (h.val * Config.segmentBytes + off) / Config.segmentBytes = h.val := by
    show (h.val * 8192 + off) / 8192 = h.val
    omega
  have hread := memRead_filter (fill := Config.erasedByte) m (fun a => a / Config.segmentBytes != g.val)
    (h.val * Config.segmentBytes + off)
  rw [hdiv] at hread
  unfold storeByte leaveResidue
  rw [hall]
  by_cases hg : h = g
  · subst hg
    rw [if_pos rfl]
    exact memRead_memWriteAll_shift (memWf_filter hm) hleft _ _ (hread.trans (by simp))
  · rw [if_neg hg, memRead_memWriteAll_of_not_mem (memWf_filter hm)]
    · exact hread.trans (if_pos (by simpa [Fin.ext_iff] using hg))
    · intro c hc heq
      obtain ⟨x, hx, rfl⟩ := List.mem_map.1 hc
      exact hg (storeAddress_inj (hbound x hx) hoff heq).1.symm

/-- A pulse leaves the other segments as they are, whatever the device left. -/
theorem storeByte_leaveResidue_ne {m : List Host.Cell} (left : List Host.Cell) (hm : memWf Config.erasedByte m = true)
    {g h : SegNo} (hne : h ≠ g) {off : Nat} (hoff : off < 8192) :
    storeByte (leaveResidue g left m) h off = storeByte m h off := by
  have hdiv : (h.val * Config.segmentBytes + off) / Config.segmentBytes = h.val := by
    show (h.val * 8192 + off) / 8192 = h.val
    omega
  have hread := memRead_filter (fill := Config.erasedByte) m (fun a => a / Config.segmentBytes != g.val)
    (h.val * Config.segmentBytes + off)
  rw [hdiv, if_pos (by simpa [Fin.ext_iff] using hne)] at hread
  unfold storeByte leaveResidue
  refine (memRead_memWriteAll_of_not_mem (memWf_filter hm) fun c hc heq => ?_).trans hread
  obtain ⟨x, hx, rfl⟩ := List.mem_map.1 hc
  exact hne (storeAddress_inj (of_decide_eq_true (List.mem_filter.1 hx).2) hoff heq).1.symm

/-- An attempt leaves every byte it does not name (R150). -/
theorem storeByte_programBytes_of_not_mem {cells : List Host.Cell} {missed : List Byte} {m : List Host.Cell} {g h : SegNo}
    {off : Nat} (hm : memWf Config.erasedByte m = true) (hbound : ∀ c ∈ cells, c.1 < 8192) (hoff : off < 8192)
    (hne : h ≠ g ∨ ∀ c ∈ cells, c.1 ≠ off) : storeByte (programBytes g cells missed m) h off = storeByte m h off := by
  induction cells generalizing m missed with
  | nil => rfl
  | cons c l ih =>
    have htail := ih (missed := missed.tail)
      (memWrite_wf (a := g.val * Config.segmentBytes + c.1) (v := programmed (storeByte m g c.1) c.2 (missed.headD 0)) hm)
      (fun d hd => hbound d (List.mem_cons_of_mem c hd)) (hne.imp_right fun hl d hd => hl d (List.mem_cons_of_mem c hd))
    refine htail.trans ?_
    unfold storeByte
    rw [memRead_memWrite hm, if_neg]
    intro heq
    obtain ⟨hseg, hbyte⟩ := storeAddress_inj hoff (hbound c List.mem_cons_self) heq
    exact hne.elim (fun h => h hseg) fun h => h c List.mem_cons_self hbyte.symm

/-- An attempt turns to 0 the bits of a named byte that its value does not have, but for those the device missed (R150). -/
theorem storeByte_programBytes_of_mem {cells : List Host.Cell} {missed : List Byte} {m : List Host.Cell} {g : SegNo}
    {j off : Nat} {v : Byte} (hm : memWf Config.erasedByte m = true) (hbound : ∀ c ∈ cells, c.1 < 8192)
    (hnodup : (cells.map Prod.fst).Nodup) (hj : cells[j]? = some (off, v)) :
    storeByte (programBytes g cells missed m) g off = storeByte m g off &&& (v ||| missed.getD j 0) := by
  induction cells generalizing m missed j with
  | nil => cases hj
  | cons c l ih =>
    rw [List.map_cons, List.nodup_cons] at hnodup
    have htail : ∀ d ∈ l, d.1 < 8192 := fun d hd => hbound d (List.mem_cons_of_mem c hd)
    cases j with
    | zero =>
      obtain rfl : c = (off, v) := by simpa using hj
      have hout : ∀ d ∈ l, d.1 ≠ off := fun d hd heq => hnodup.1 (List.mem_map.2 ⟨d, hd, heq⟩)
      refine (storeByte_programBytes_of_not_mem (memWrite_wf hm) htail (hbound _ List.mem_cons_self) (.inr hout)).trans ?_
      rw [storeByte, memRead_memWrite hm, if_pos rfl, programmed]
      cases missed <;> rfl
    | succ j =>
      have hl : l[j]? = some (off, v) := by simpa using hj
      have hmem : (off, v) ∈ l := List.mem_of_getElem? hl
      refine (ih (memWrite_wf hm) htail hnodup.2 hl).trans ?_
      have hne : off ≠ c.1 := fun heq => hnodup.1 (List.mem_map.2 ⟨_, hmem, heq⟩)
      have hstands : storeByte (memWrite Config.erasedByte m (g.val * Config.segmentBytes + c.1)
          (programmed (storeByte m g c.1) c.2 (missed.headD 0))) g off = storeByte m g off := by
        rw [storeByte, memRead_memWrite hm, if_neg]
        · rfl
        · intro heq
          exact hne (storeAddress_inj (htail _ hmem) (hbound c List.mem_cons_self) heq).2
      rw [hstands]
      cases missed <;> rfl

/-- A segment reads FFh everywhere when no listed byte of it does otherwise (R149). -/
theorem segErased_iff {m : List Host.Cell} (hm : memWf Config.erasedByte m = true) (g : SegNo) :
    segErased m g = true ↔ ∀ off, off < 8192 → storeByte m g off = Config.erasedByte := by
  have hmem : ∀ {m : List Host.Cell} {a : Nat} {x : Byte}, memWf Config.erasedByte m = true → (a, x) ∈ m →
      memRead Config.erasedByte m a = x := by
    intro m a x hm hx
    induction m with
    | nil => cases hx
    | cons c m ih =>
      obtain ⟨-, habove, hrest⟩ := memWf_cons.1 hm
      rcases List.mem_cons.1 hx with rfl | hx
      · simp [memRead]
      · have := habove _ hx
        rw [memRead, if_neg (by simp only at this; omega)]
        exact ih hrest hx
  unfold segErased
  rw [List.all_eq_true]
  constructor
  · intro hall off hoff
    have hread : ∀ l : List Host.Cell, (∀ c ∈ l, (c.1 / Config.segmentBytes != g.val || c.2 == Config.erasedByte) = true) →
        memRead Config.erasedByte l (g.val * Config.segmentBytes + off) = Config.erasedByte := by
      intro l hl
      induction l with
      | nil => rfl
      | cons c l ih =>
        by_cases hc : c.1 = g.val * Config.segmentBytes + off
        · have hdiv : c.1 / Config.segmentBytes = g.val := by
            rw [hc]
            show (g.val * 8192 + off) / 8192 = g.val
            omega
          have hbyte := hl c List.mem_cons_self
          rw [hdiv] at hbyte
          rw [memRead, if_pos hc]
          simpa using hbyte
        · rw [memRead, if_neg hc]
          exact ih fun d hd => hl d (List.mem_cons_of_mem c hd)
    exact hread m hall
  · intro hall c hc
    by_cases hdiv : c.1 / Config.segmentBytes = g.val
    · have hbytes : Config.segmentBytes = 8192 := rfl
      have hsplit : c.1 = g.val * Config.segmentBytes + c.1 % 8192 := by rw [hbytes] at hdiv ⊢; omega
      have hread := hall (c.1 % 8192) (Nat.mod_lt _ (by decide))
      rw [storeByte, ← hsplit, hmem hm hc] at hread
      simp [hread]
    · simp [hdiv]

theorem segErased_eq_false {m : List Host.Cell} (hm : memWf Config.erasedByte m = true) {g : SegNo}
    (h : ∃ off, off < 8192 ∧ storeByte m g off ≠ Config.erasedByte) : segErased m g = false := by
  obtain ⟨off, hoff, hne⟩ := h
  exact Bool.eq_false_iff.2 fun htrue => hne ((segErased_iff hm g).1 htrue off hoff)

/-- A step cut short leaves every segment but its own (R151). -/
theorem storeByte_damage {x : PortStep} (left : List Host.Cell) (missed : List Byte) {m : List Host.Cell}
    (hm : memWf Config.erasedByte m = true) {g : SegNo} {off : Nat} (hoff : off < 8192) (hpulse : x ≠ .erasePulse g)
    (hattempt : ∀ t, x = .attempt t → t.seg ≠ g ∧ ∀ c ∈ t.bytes, c.1 < 8192) :
    storeByte (x.damage left missed m) g off = storeByte m g off := by
  cases x with
  | refill _ _ => rfl
  | eraseVerify _ => rfl
  | erasePulse h => exact storeByte_leaveResidue_ne left hm (fun heq => hpulse (by rw [heq])) hoff
  | attempt t =>
    obtain ⟨hseg, hbytes⟩ := hattempt t rfl
    exact storeByte_programBytes_of_not_mem hm hbytes hoff (.inl hseg.symm)

/-! ### The segments of an ended load -/

section
variable {α : Type} (key : α → SegNo) (f : α → SegState → SegState)

/-- Giving each member's segment a state that may depend on the one it has leaves the other segments. -/
theorem segMap_foldl_of_not_mem (l : List α) (c : StoreController) {h : SegNo} (hl : ∀ x ∈ l, key x ≠ h) :
    (l.foldl (fun c x => c.setSeg (key x) (f x c.segMap[key x])) c).segMap[h] = c.segMap[h] := by
  induction l generalizing c with
  | nil => rfl
  | cons x l ih =>
    refine (ih _ fun y hy => hl y (List.mem_cons_of_mem x hy)).trans ?_
    exact (vector_getElem_set_fin _ _ _ _).trans (if_neg (hl x List.mem_cons_self).symm)

/-- No segment named twice, each member's segment has the state the member gives it. -/
theorem segMap_foldl_of_mem (l : List α) (c : StoreController) (hnodup : (l.map key).Nodup) {x : α} (hx : x ∈ l) :
    (l.foldl (fun c x => c.setSeg (key x) (f x c.segMap[key x])) c).segMap[key x] = f x c.segMap[key x] := by
  induction l generalizing c with
  | nil => cases hx
  | cons y l ih =>
    rw [List.map_cons, List.nodup_cons] at hnodup
    rcases List.mem_cons.1 hx with rfl | hx
    · have hout : ∀ z ∈ l, key z ≠ key x := fun z hz heq => hnodup.1 (heq ▸ List.mem_map_of_mem hz)
      refine (segMap_foldl_of_not_mem key f l _ hout).trans ?_
      exact (vector_getElem_set_fin _ _ _ _).trans (if_pos rfl)
    · have hne : key y ≠ key x := fun heq => hnodup.1 (heq ▸ List.mem_map_of_mem hx)
      have hstands : (c.setSeg (key y) (f y c.segMap[key y])).segMap[key x] = c.segMap[key x] :=
        (vector_getElem_set_fin _ _ _ _).trans (if_neg hne.symm)
      refine (ih _ hnodup.2 hx).trans ?_
      rw [hstands]

/-- Nothing but the segment map moves. -/
theorem foldl_setSeg_eq (l : List α) (c : StoreController) :
    l.foldl (fun c x => c.setSeg (key x) (f x c.segMap[key x])) c
      = { c with segMap := (l.foldl (fun c x => c.setSeg (key x) (f x c.segMap[key x])) c).segMap } := by
  induction l generalizing c with
  | nil => rfl
  | cons x l ih => exact ih _

end

theorem SessionSeg.settled_eq (g : SessionSeg) (x : SegState) : g.settled x =
    if x = .bad then .bad else if g.headerDone = false ∧ g.touched = false ∧ g.toErase = false then .erased else .dirty := by
  unfold SessionSeg.settled
  cases g.headerDone <;> cases g.touched <;> cases g.toErase <;> rfl

/-- Settling moves the segment map alone (R144). -/
theorem StoreController.settleSegs_eq (ss : Session) (c : StoreController) :
    c.settleSegs ss = { c with segMap := (c.settleSegs ss).segMap } :=
  foldl_setSeg_eq SessionSeg.seg SessionSeg.settled ss.segs c

theorem StoreController.settleSegs_segMap {ss : Session} (c : StoreController) (hnodup : (ss.segs.map SessionSeg.seg).Nodup)
    {g : SessionSeg} (hg : g ∈ ss.segs) : (c.settleSegs ss).segMap[g.seg] =
      if c.segMap[g.seg] = .bad then .bad
      else if g.headerDone = false ∧ g.touched = false ∧ g.toErase = false then .erased else .dirty :=
  (segMap_foldl_of_mem SessionSeg.seg SessionSeg.settled ss.segs c hnodup hg).trans (g.settled_eq _)

theorem StoreController.settleSegs_segMap_of_not_mem {ss : Session} (c : StoreController) {h : SegNo}
    (hh : ∀ g ∈ ss.segs, g.seg ≠ h) : (c.settleSegs ss).segMap[h] = c.segMap[h] :=
  segMap_foldl_of_not_mem SessionSeg.seg SessionSeg.settled ss.segs c hh

end Sys2Proof.Machine
end

