-- ==== Sys2Proof/Proofs/Resets.lean ====
section
/-!
PROOF. Power-on reset, pin reset and their release (chapter 11.1): every block at its reset value, the memories kept but for
the writes that were waiting and the segment of a step cut off.
-/
namespace Sys2Proof.Machine

/-! ### Waiting writes that go uncaptured -/

/-- The memory cell a processor write goes to. -/
def BusWrite.cell (x : BusWrite) : Nat × Word := (x.addr.toNat, x.value)

/-- With the memory port free, writes that a reset found waiting all pass, none of them captured (R159, R178). -/
theorem Bus.passWaiting_of_uncaptured {l : List BusWrite} (hl : ∀ x ∈ l, x.uncaptured = true) {b : Bus}
    (hp : b.posting = none) : Bus.passWaiting l b = { b with
      callStore := memWriteAll Config.callStoreFill b.callStore (l.map BusWrite.cell), waiting := [] } := by
  induction l generalizing b with
  | nil => rfl
  | cons x l ih =>
    have hx : b.capturedAt x = none := by rw [Bus.capturedAt, if_pos (hl x List.mem_cons_self)]
    have hpass : b.canPass x = true := by simp [Bus.canPass, hp, hx]
    have hwrite : b.passWrite x = { b with
        callStore := memWrite Config.callStoreFill b.callStore x.addr.toNat x.value } := by
      simp only [Bus.passWrite, hx]
    rw [Bus.passWaiting, if_pos hpass, ih (fun y hy => hl y (List.mem_cons_of_mem x hy)) (by rw [hwrite]; exact hp), hwrite]
    rfl

/-- While a posting cycle is in progress nothing passes (R165). -/
theorem Bus.passWaiting_of_posting (l : List BusWrite) {b : Bus} (hp : b.posting ≠ none) :
    Bus.passWaiting l b = { b with waiting := l } := by
  cases l with
  | nil => rfl
  | cons x l =>
    have hpass : b.canPass x = false := by simp [Bus.canPass, hp]
    rw [Bus.passWaiting, hpass]
    rfl

/-- A read after the waiting writes gives the last of them to its address, else what it gave before. -/
theorem memRead_cells {m : List (Nat × Word)} (hm : memWf Config.callStoreFill m = true) (l : List BusWrite) (a : BusAddr) :
    memRead Config.callStoreFill (memWriteAll Config.callStoreFill m (l.map BusWrite.cell)) a.toNat
      = l.foldl (fun v x => if x.addr = a then x.value else v) (memRead Config.callStoreFill m a.toNat) := by
  induction l generalizing m with
  | nil => rfl
  | cons x l ih =>
    refine (ih (memWrite_wf hm)).trans ?_
    rw [memRead_memWrite hm, List.foldl_cons]
    congr 1
    by_cases hx : x.addr = a
    · rw [if_pos hx, if_pos (by rw [← hx]; rfl)]
      rfl
    · rw [if_neg hx, if_neg fun heq => hx (BitVec.eq_of_toNat_eq heq.symm)]

/-- The writes a reset marks go to the cells they went to. -/
theorem map_cell_uncaptured (l : List BusWrite) :
    (l.map fun x => { x with uncaptured := true }).map BusWrite.cell = l.map BusWrite.cell := by
  rw [List.map_map]
  rfl

theorem uncaptured_of_mem_map {l : List BusWrite} {x : BusWrite}
    (hx : x ∈ l.map fun x => { x with uncaptured := true }) : x.uncaptured = true := by
  obtain ⟨y, -, rfl⟩ := List.mem_map.1 hx
  rfl

/-- A reset with the memory port free lets the waiting writes pass. -/
theorem Bus.assertReset_of_free (line : ResetLine) (b : Bus) : Bus.assertReset line none b = { b with
    resetLine := line, snoop := [], waiting := [], posting := none, settings := Settings.initial
    marks := SettingMarks.initial, fanoutChanges := []
    callStore := memWriteAll Config.callStoreFill b.callStore (b.waiting.map BusWrite.cell) } := by
  unfold Bus.assertReset Bus.giveWay
  rw [Bus.passWaiting_of_uncaptured (fun x => uncaptured_of_mem_map) rfl, map_cell_uncaptured]

/-- A pin reset during a posting cycle leaves them waiting for its end (log 41). -/
theorem Bus.assertReset_of_posting (line : ResetLine) (x : Posting) (b : Bus) : Bus.assertReset line (some x) b = { b with
    resetLine := line, snoop := [], waiting := b.waiting.map fun x => { x with uncaptured := true }, posting := some x
    settings := Settings.initial, marks := SettingMarks.initial, fanoutChanges := [] } := by
  unfold Bus.assertReset Bus.giveWay
  rw [Bus.passWaiting_of_posting _ (by simp)]

/-! ### What a reset keeps of the memories -/

/-- The call store has taken the writes that were waiting in `s`, and none waits. -/
def State.passedFrom (s t : State) : Prop :=
  t.bus.waiting = [] ∧ (s.bus.waiting = [] → t.bus.callStore = s.bus.callStore)
    ∧ (memWf Config.callStoreFill s.bus.callStore = true → ∀ a, t.busRead a =
      s.bus.waiting.foldl (fun v x => if x.addr = a then x.value else v) (s.busRead a))

theorem State.passedFrom_of_cells {s t : State} (hw : t.bus.waiting = [])
    (hc : t.bus.callStore = memWriteAll Config.callStoreFill s.bus.callStore (s.bus.waiting.map BusWrite.cell)) :
    s.passedFrom t := by
  refine ⟨hw, fun hnone => by rw [hc, hnone]; rfl, fun hwf a => ?_⟩
  unfold State.busRead
  rw [hc]
  exact memRead_cells hwf _ a

/-- A reset leaves the announcement store but for the segment of a step cut off. -/
theorem StoreController.storeByte_cutOff (c : StoreController) (left : List (Nat × Byte)) (missed : List Byte)
    (hwf : memWf Config.erasedByte c.bytes = true) {g : SegNo} {off : Nat} (hoff : off < 8192)
    (hpulse : ∀ us, c.port ≠ some ⟨.erasePulse g, us⟩) (hsuspended : ∀ us, c.suspended ≠ some ⟨g, us⟩)
    (hattempt : ∀ x us, c.port = some ⟨.attempt x, us⟩ → x.seg ≠ g ∧ ∀ c ∈ x.bytes, c.1 < 8192) :
    storeByte (c.cutOff left missed) g off = storeByte c.bytes g off := by
  unfold StoreController.cutOff
  rcases hs : c.suspended with _ | p
  · rcases hq : c.port with _ | q
    · rfl
    · refine storeByte_damage left missed hwf hoff (fun heq => hpulse q.leftUs ?_) fun t ht => hattempt t q.leftUs ?_
      · rw [hq, ← heq]
      · rw [hq, ← ht]
  · have hne : g ≠ p.seg := fun heq => hsuspended p.leftUs (by rw [hs, heq])
    have hread := storeByte_leaveResidue_ne left hwf hne hoff
    cases c.port <;> exact hread

theorem StoreController.cutOff_of_idle {c : StoreController} (left : List (Nat × Byte)) (missed : List Byte)
    (hp : c.port = none) (hs : c.suspended = none) : c.cutOff left missed = c.bytes := by
  unfold StoreController.cutOff
  rw [hp, hs]

/-! ### The obligation -/

/-- The state a power-on reset leaves. -/
theorem State.powerOn_eq (left : List (Nat × Byte)) (missed : List Byte) (s : State) :
    s.powerOn left missed = { s.clearBlocks left missed with bus := { s.bus with
      resetLine := .powerOn, snoop := [], waiting := [], posting := none, settings := Settings.initial
      marks := SettingMarks.initial, fanoutChanges := [], causePower := true, causePin := false, causeSoft := false
      callStore := memWriteAll Config.callStoreFill s.bus.callStore (s.bus.waiting.map BusWrite.cell) } } :=
  congrArg (fun b => { s.clearBlocks left missed with bus := b }) (Bus.assertReset_of_free _ _)

/-- The bus a pin reset leaves. -/
def Bus.afterPin (b : Bus) : Bus := Bus.assertReset .pin b.posting { b with causePin := true }

theorem Bus.afterPin_of_free {b : Bus} (h : b.posting = none) : b.afterPin = { b with
    resetLine := .pin, snoop := [], waiting := [], posting := none, settings := Settings.initial
    marks := SettingMarks.initial, fanoutChanges := [], causePin := true
    callStore := memWriteAll Config.callStoreFill b.callStore (b.waiting.map BusWrite.cell) } := by
  rw [Bus.afterPin, h]
  exact Bus.assertReset_of_free .pin _

theorem Bus.afterPin_of_posting {b : Bus} {x : Posting} (h : b.posting = some x) : b.afterPin = { b with
    resetLine := .pin, snoop := [], waiting := b.waiting.map fun x => { x with uncaptured := true }, posting := some x
    settings := Settings.initial, marks := SettingMarks.initial, fanoutChanges := [], causePin := true } := by
  rw [Bus.afterPin, h]
  exact Bus.assertReset_of_posting .pin x _

/-- What a pin reset gives in the fields that do not depend on the memory port. -/
theorem Bus.afterPin_eq (b : Bus) : b.afterPin = { State.reset.bus with
    resetLine := .pin, straps := b.straps, callStore := b.afterPin.callStore, waiting := b.afterPin.waiting
    posting := b.posting, causePower := b.causePower, causePin := true, causeSoft := b.causeSoft } := by
  rcases hp : b.posting with _ | x
  · rw [Bus.afterPin_of_free hp]; rfl
  · rw [Bus.afterPin_of_posting hp]; rfl

/-- The posting cycle that outlasted a reset ends: nothing of the report unit moves, and the writes pass uncaptured. -/
theorem State.endPosting_after_reset {v : State} {x : Posting} (hp : v.bus.posting = some x)
    (hr : v.reports = ReportUnit.initial) (hw : ∀ y ∈ v.bus.waiting, y.uncaptured = true) :
    v.endPosting = { v with bus := { v.bus with
      posting := none, waiting := []
      callStore := memWriteAll Config.callStoreFill v.bus.callStore (v.bus.waiting.map BusWrite.cell) } } := by
  have hend : v.reports.endCycle x = v.reports := by
    rw [hr]
    cases x <;> rfl
  have hpass : Bus.giveWay { v.bus with posting := none } = { v.bus with
      posting := none, waiting := []
      callStore := memWriteAll Config.callStoreFill v.bus.callStore (v.bus.waiting.map BusWrite.cell) } :=
    Bus.passWaiting_of_uncaptured hw rfl
  rw [State.endPosting_of_posting hp, hend, if_pos rfl, hpass]

/-- Settles O16. -/
theorem powerOnAndPinReset : Obligations.PowerOnAndPinReset := by
  intro s left missed kept passed hkept hpassed
  have keeps : ∀ t : State, t.store.bytes = s.store.cutOff left missed → kept t := by
    intro t ht
    refine (hkept t).2 ⟨fun hp hs => ht.trans (StoreController.cutOff_of_idle left missed hp hs),
      fun hwf g off hoff hpulse hsuspended hattempt => ?_⟩
    unfold State.storeRead
    rw [ht]
    exact s.store.storeByte_cutOff left missed hwf hoff hpulse hsuspended hattempt
  have passes : ∀ t : State, t.bus.waiting = [] →
      t.bus.callStore = memWriteAll Config.callStoreFill s.bus.callStore (s.bus.waiting.map BusWrite.cell) → passed t :=
    fun t hw hc => (hpassed t).2 (State.passedFrom_of_cells hw hc)
  refine ⟨fun straps => ?power, fun hrun => ?during, fun hrun straps => ?released, fun hrun => ?pin⟩
  case power =>
    refine ⟨_, _, rfl, ?_, rfl, ?_⟩
    · rw [State.powerOn_eq]; rfl
    · have hrun : (s.powerOn left missed).running = false := by rw [State.powerOn_eq]; rfl
      rw [hrun, State.powerOn_eq]
      exact ⟨keeps _ rfl, passes _ rfl rfl, rfl⟩
  case during =>
    show Host.Outcome.next (if s.running then s.pinReset left missed else s) = _
    rw [hrun]
    rfl
  case released =>
    show Host.Outcome.next (if s.running then s else s.release straps) = _
    rw [hrun]
    rfl
  case pin =>
    have hpin : s.pinReset left missed = { s.clearBlocks left missed with bus := s.bus.afterPin } := rfl
    have hbus := s.bus.afterPin_eq
    have hline : s.bus.afterPin.resetLine = .pin := by rw [hbus]
    have hexec : exec (.pinReset left missed) s = .next { s.clearBlocks left missed with bus := s.bus.afterPin } := by
      show Host.Outcome.next (if s.running then s.pinReset left missed else s) = _
      rw [hrun, hpin]
      rfl
    have hrunning : State.running { s.clearBlocks left missed with bus := s.bus.afterPin } = false := by
      rw [State.running, hline]
      rfl
    refine ⟨_, hexec, hrunning, keeps _ rfl, fun hp => ?_, fun hp => ?_, ?_, fun straps v hv => ⟨?_, fun hp => ?_⟩⟩
    · exact passes _ (by rw [Bus.afterPin_of_free hp]) (by rw [Bus.afterPin_of_free hp])
    · obtain ⟨x, hx⟩ := Option.ne_none_iff_exists'.1 hp
      rw [Bus.afterPin_of_posting hx]
      exact ⟨rfl, rfl⟩
    · exact congrArg (fun b => { s.clearBlocks left missed with bus := b }) hbus
    · show Host.Outcome.next (if State.running _ then _ else State.release straps _) = _
      rw [hrunning, hv]
      rfl
    · obtain ⟨x, hx⟩ := Option.ne_none_iff_exists'.1 hp
      rw [Bus.afterPin_of_posting hx] at hv
      have hend := State.endPosting_after_reset (v := v) (x := x) (by rw [hv]) (by rw [hv]; rfl)
        (by rw [hv]; exact fun y => uncaptured_of_mem_map)
      refine ⟨_, rfl, ?_, ?_⟩
      · refine passes _ (by rw [hend]) ?_
        rw [hend, hv]
        exact congrArg _ (map_cell_uncaptured _)
      · rw [hend, hv]

end Sys2Proof.Machine
end

