-- ==== Sys2Proof/Proofs/SoftReset.lean ====
section
/-!
PROOF. The end of a load session (chapter 8.4) and the soft-reset word (chapter 9.4).
-/
namespace Sys2Proof.Machine

/-! ### The store side: engine, settling, the end of a session -/

section
variable (v : StoreSide)

/-- The engine is set whether or not it stood there already. -/
theorem StoreSide.setEngine_store (x : Engine) : (v.setEngine x).store = { v.store with engine := x } := by
  unfold StoreSide.setEngine
  split
  · next h => rw [← h]
  · rfl

theorem StoreSide.setEngine_wire (x : Engine) :
    (v.setEngine x).wire = if v.store.engine = x then v.wire else v.wire.mark .global := by
  unfold StoreSide.setEngine
  split <;> rfl

/-- Settling depends on the segment map alone. -/
theorem StoreController.settleSegs_congr (ss : Session) {c d : StoreController} (h : c.segMap = d.segMap) :
    (c.settleSegs ss).segMap = (d.settleSegs ss).segMap := by
  unfold StoreController.settleSegs
  generalize ss.segs = l
  induction l generalizing c d with
  | nil => exact h
  | cons g l ih =>
    refine ih ?_
    show c.segMap.set _ _ = d.segMap.set _ _
    rw [h]

variable {v}

/-- The store controller once an ended session has settled (R144). -/
theorem StoreSide.settle_store {ss : Session} (h : v.store.settling = some ss) : v.settle.store = { v.store with
    segMap := (v.store.settleSegs ss).segMap, pulses := 0, attempts := 0, settling := none, engine := .idle } := by
  unfold StoreSide.settle
  rw [h]
  simp only [StoreSide.setEngine_store, StoreSide.on_store, StoreController.noStep]
  rw [StoreController.settleSegs_eq]

theorem StoreSide.settle_wire {ss : Session} (h : v.store.settling = some ss) :
    v.settle.wire = if v.store.engine = .idle then v.wire else v.wire.mark .global := by
  unfold StoreSide.settle
  rw [h]
  have hengine : (v.store.settleSegs ss).engine = v.store.engine := by rw [StoreController.settleSegs_eq]
  simp only [StoreSide.setEngine_wire, StoreSide.on_store, StoreController.noStep, StoreSide.on_wire, hengine]

/-- The store controller while an ended session waits for its step. -/
def StoreController.ended (c : StoreController) (ss : Session) : StoreController :=
  { c with
    dir := c.dir.set ss.recording DirRecord.absent, bufA := ChunkBuf.cleared, bufB := ChunkBuf.cleared
    session := none, settling := some ss }

/-- The end of a session, before its segments settle (R144). -/
theorem StoreSide.endSession_eq {ss : Session} (h : v.store.session = some ss) : v.endSession =
    (let u : StoreSide := ⟨(v.wire.mark (.directory ss.recording)).mark .storeStatus, v.store.ended ss⟩
    if v.store.stepInProgress then u else u.settle) := by
  unfold StoreSide.endSession
  rw [h]
  rfl

theorem StoreSide.endSession_of_step {ss : Session} (h : v.store.session = some ss) (hstep : v.store.stepInProgress = true) :
    v.endSession = ⟨(v.wire.mark (.directory ss.recording)).mark .storeStatus, v.store.ended ss⟩ := by
  rw [StoreSide.endSession_eq h]
  exact if_pos hstep

theorem StoreSide.endSession_of_no_step {ss : Session} (h : v.store.session = some ss)
    (hstep : v.store.stepInProgress = false) : v.endSession =
      StoreSide.settle ⟨(v.wire.mark (.directory ss.recording)).mark .storeStatus, v.store.ended ss⟩ := by
  rw [StoreSide.endSession_eq h]
  exact if_neg (by rw [hstep]; exact Bool.false_ne_true)

/-- The store controller after the end of a session with no step in progress. -/
theorem StoreSide.endSession_store_of_no_step {ss : Session} (h : v.store.session = some ss)
    (hstep : v.store.stepInProgress = false) : v.endSession.store = { v.store.ended ss with
      segMap := (v.store.settleSegs ss).segMap, pulses := 0, attempts := 0, settling := none, engine := .idle } := by
  rw [StoreSide.endSession_of_no_step h hstep, StoreSide.settle_store rfl]
  have hsegs : ((v.store.ended ss).settleSegs ss).segMap = (v.store.settleSegs ss).segMap :=
    StoreController.settleSegs_congr ss rfl
  rw [hsegs]

theorem StoreSide.endSession_of_none (h : v.store.session = none) : v.endSession = v := by
  unfold StoreSide.endSession
  rw [h]

end

/-! ### Soft reset -/

/-- What a soft reset takes back in the store controller besides the session. -/
def StoreController.softCleared (c : StoreController) : StoreController :=
  { c with
    hold := false, pendingBegin := none, refillQ := [], deliveries := [], lamp := ⟨.idle, 0, false⟩
    bufA := ⟨.empty, [], 0⟩, bufB := ⟨.empty, [], 0⟩
    poolNotices := c.poolNotices.filter (fun x => !x.isWithdrawal) ++ c.poolNotices.filter PoolNotice.isWithdrawal
    port := c.port.map fun q => { q with step := match q.step with
      | .refill x _ => .refill x false
      | y => y } }

theorem Port.cancel_eq (q : Port) : q.cancel = { q with step := match q.step with
    | .refill x _ => .refill x false
    | y => y } := by
  rcases q with ⟨step, us⟩
  cases step <;> rfl

/-- The store controller after a soft reset (R137). -/
theorem StoreSide.softReset_store (v : StoreSide) : v.softReset.store = v.endSession.store.softCleared := by
  unfold StoreSide.softReset StoreController.softCleared
  rw [StoreSide.on_store, funext Port.cancel_eq]
  rfl

/-- Settles O17. -/
theorem softResetWord : Obligations.SoftResetWord := by
  intro w s c hhead hc
  have hexec : exec (.softResetWordWrite w) s
      = .next (if w = Config.softResetKey then s.taken.softReset else s.taken.submit .captureUnit .orderInvalid 63 w.toNat) :=
    handOver_of_headIs hhead
  have hval : Config.softResetKey = 0xC3A5#16 := rfl
  rw [hval] at hexec
  refine ⟨fun hkey => ?refused, fun hkey => ?reset⟩
  case refused =>
    rw [hexec, if_neg hkey]
    simp [State.submit, Wire.submit, State.taken]
  case reset =>
    rw [if_pos hkey] at hexec
    have hclear : c = s.store.softCleared := hc
    have hstore : s.taken.softReset.store = (StoreSide.endSession ⟨s.wire, s.store⟩).store.softCleared :=
      StoreSide.softReset_store _
    refine ⟨_, hexec, rfl, fun b => ?_, rfl, rfl, fun hnone => ?_, fun ss hsome => ⟨fun hstep => ?_, fun hstep => ⟨?_, ?_, ?_⟩⟩⟩
    · cases b <;> rfl
    · rw [hstore, StoreSide.endSession_of_none (by exact hnone), hclear]
    · rw [hstore, StoreSide.endSession_of_step (by exact hsome) hstep, hclear]
      rfl
    · rw [hstore, StoreSide.endSession_store_of_no_step (by exact hsome) hstep, hclear]
      rfl
    · intro hnodup g hg
      rw [hstore, StoreSide.endSession_store_of_no_step (by exact hsome) hstep]
      exact StoreController.settleSegs_segMap _ hnodup hg
    · intro h hh
      rw [hstore, StoreSide.endSession_store_of_no_step (by exact hsome) hstep]
      exact StoreController.settleSegs_segMap_of_not_mem _ hh

end Sys2Proof.Machine
end

