-- ==== Sys2Proof/Proofs/SampleAndHighway.lean ====
section
/-!
PROOF. The frame computation (chapter 4.2) and the bits of a frame (chapter 5.3).
-/
namespace Sys2Proof.Machine

/-! ### The frame computation -/

section
variable {s : State}

/-- With the codes for the frame handed over, the computation is one event of the sample path (R67). -/
theorem State.takeComputation_of_due (hsample : s.highway.sampleDue = true) (hplayers : s.highway.playersDue = false) :
    s.takeComputation = State.computeFrame { s with highway := { s.highway with sampleDue := false } } := by
  have hframe : s.takePlayersFrame = s := by simp [State.takePlayersFrame, hplayers]
  unfold State.takeComputation
  rw [if_pos hsample]
  simp only [hframe]

theorem State.takeComputation_of_not_due (hsample : s.highway.sampleDue = false) : s.takeComputation = s := by
  simp [State.takeComputation, hsample]

/-- The computation changes the channels and the sample path alone. -/
theorem State.computeFrame_eq (s : State) : s.computeFrame = { s with
    chans := { s.chans with chans := s.computeFrame.chans.chans }, sample := s.computeFrame.sample } := rfl

theorem State.computeFrame_chans (k : ChanNo) : s.computeFrame.chans.chans[k] =
    (s.chans.chans[k]).map fun r => r.compute (s.plans.plan r.bank r.plan) :=
  Vector.getElem_map _ k.isLt

theorem State.computeFrame_playerValues (n : PlayNo) :
    s.computeFrame.sample.playerValues[n] = (s.players.players[n].handed).map decodeCode :=
  Vector.getElem_map _ n.isLt

/-- The source of a circuit does not depend on the codes formed. -/
theorem State.sourceValue_congr {s t : State} (horders : t.orders = s.orders) (hchans : t.chans = s.chans)
    (hplayers : t.players = s.players) (hvalues : t.sample.playerValues = s.sample.playerValues) (p : Circ) :
    t.sourceValue p = s.sourceValue p := by
  unfold State.sourceValue
  rw [horders, hchans, hplayers, hvalues]

theorem State.sourceValue_computeCircuits (s : State) (p : Circ) : s.computeCircuits.sourceValue p = s.sourceValue p :=
  State.sourceValue_congr (s := s) (t := s.computeCircuits) (by unfold State.computeCircuits; rfl)
    (by unfold State.computeCircuits; rfl) (by unfold State.computeCircuits; rfl)
    (by unfold State.computeCircuits; rfl) p

theorem State.computeFrame_outCodes (p : Circ) : s.computeFrame.sample.outCodes[p] =
    if s.highway.map[p].mapped then codeOf s.highway.map[p].trim (s.computeFrame.sourceValue p)
    else s.sample.outCodes[p] := by
  unfold State.computeFrame
  rw [State.sourceValue_computeCircuits]
  exact Vector.getElem_ofFn p.isLt

/-- A phase accumulator after one frame (R68, R69). -/
theorem phase_add_phaseStep (x : BitVec 16) (f : BitVec 13) :
    (x + phaseStep f).toNat = (x.toNat + (f.toNat * 4096 + 500) / 1000) % 65536 := by
  rw [BitVec.toNat_add, phaseStep, BitVec.toNat_ofNat, Nat.add_mod_mod]

theorem Run.advance_phase2_toNat (pl : Plan) (r : Run) : (r.advance pl).phase2.toNat =
    if pl.f2 = 0 then r.phase2.toNat else (r.phase2.toNat + (pl.f2.toNat * 4096 + 500) / 1000) % 65536 := by
  unfold Run.advance
  dsimp only
  split
  · rfl
  · exact phase_add_phaseStep r.phase2 pl.f2

/-- A source without a value gives the idle code (R77). -/
theorem State.sourceValue_of_silent {p : Circ} (htone : s.orders.circuits[p].state ≠ .tone)
    (hhear : s.orders.circuits[p].state ≠ .hear) : s.sourceValue p = none := by
  unfold State.sourceValue
  generalize s.orders.circuits[p] = C at htone hhear
  rcases C with ⟨_, state, binding⟩
  cases state with
  | tone => exact absurd rfl htone
  | hear => exact absurd rfl hhear
  | _ => rfl

theorem State.sourceValue_of_tone {p : Circ} {k : ChanNo} (hstate : s.orders.circuits[p].state = .tone)
    (hbinding : s.orders.circuits[p].binding = .channel k) : s.sourceValue p =
      match s.chans.chans[k] with
      | some r => if r.listeners.any fun l => l.circ == p then r.value else none
      | none => none := by
  unfold State.sourceValue
  generalize s.orders.circuits[p] = C at hstate hbinding
  simp only [hstate, hbinding] <;> rfl

theorem State.sourceValue_of_hear {p : Circ} {n : PlayNo} (hstate : s.orders.circuits[p].state = .hear)
    (hbinding : s.orders.circuits[p].binding = .listener n) : s.sourceValue p =
      if s.players.players[n].listeners.any fun l => l.circ == p then s.sample.playerValues[n] else none := by
  unfold State.sourceValue
  generalize s.orders.circuits[p] = C at hstate hbinding
  simp only [hstate, hbinding]

end

theorem codeOf_none (trim : Fin 48) : codeOf trim none = 0#8 := rfl

/-- Settles O19. -/
theorem frameComputationFormsTheCodes : Obligations.FrameComputationFormsTheCodes := by
  intro s hrun hsample hplayers
  generalize hu : ({ s with highway := { s.highway with sampleDue := false } } : State) = u
  have hexec : exec .frameComputation s = .next u.computeFrame := by
    have htake := State.takeComputation_of_due hsample hplayers
    rw [hu] at htake
    exact (event_of_running hrun).trans (congrArg _ htake)
  have hchans : u.chans = s.chans := by rw [← hu]
  have hplans : u.plans = s.plans := by rw [← hu]
  have hpool : u.players = s.players := by rw [← hu]
  have horders : u.orders = s.orders := by rw [← hu]
  have hmap : u.highway.map = s.highway.map := by rw [← hu]
  have hpath : u.sample = s.sample := by rw [← hu]
  have hchan := fun k => u.computeFrame_chans (k := k)
  have hcode := fun p => u.computeFrame_outCodes (p := p)
  simp only [hchans, hplans] at hchan
  simp only [hmap, hpath] at hcode
  refine ⟨_, hexec, ?_, fun k hk => ?_, fun k r p hk hp => ?_, fun n => ?_, fun p hmapped => ⟨fun htone hhear => ?_,
    fun k hstate hbinding hk => ?_, fun k r y hstate hbinding hk hy => ?_, fun n hstate hbinding => ?_⟩, fun p hmapped => ?_⟩
  · rw [u.computeFrame_eq, ← hu]
  · rw [hchan, hk]; rfl
  · exact ⟨_, _, phase_add_phaseStep r.phase1 p.f1, Run.advance_phase2_toNat p r, by rw [hchan, hk, hp]; rfl⟩
  · rw [u.computeFrame_playerValues, hpool]
  · rw [hcode, if_pos hmapped, State.sourceValue_of_silent (by exact horders ▸ htone) (by exact horders ▸ hhear), codeOf_none]
  · have hk' : u.computeFrame.chans.chans[k] = none := by rw [hchan, hk]; rfl
    rw [hcode, if_pos hmapped, State.sourceValue_of_tone (by exact horders ▸ hstate) (by exact horders ▸ hbinding), hk',
      codeOf_none]
  · rw [hcode, if_pos hmapped, State.sourceValue_of_tone (by exact horders ▸ hstate) (by exact horders ▸ hbinding), hk]
    dsimp only
    split
    · rw [hy]
    · rfl
  · rw [hcode, if_pos hmapped, State.sourceValue_of_hear (by exact horders ▸ hstate) (by exact horders ▸ hbinding)]
    have hheard : u.computeFrame.players = s.players := hpool
    rw [hheard]
    split
    · rfl
    · rfl
  · rw [hcode, if_neg (by rw [hmapped]; exact Bool.false_ne_true)]

/-! ### The bits of a frame -/

section
variable {h : Highway} {g : Fin 64}

/-- In a map that gives no slot twice the circuit that holds a slot is the one found. -/
theorem Highway.slotHolder_eq_some (hmap : MapOk h.map) {p : Circ} (hmapped : h.map[p].mapped = true)
    (hslot : h.map[p].slot = g) : h.slotHolder g = some p := by
  unfold Highway.slotHolder
  rcases hfind : allCircuits.find? (fun q => h.map[q].mapped && h.map[q].slot == g) with _ | q
  · refine absurd ?_ (List.find?_eq_none.1 hfind p (by simp [allCircuits]))
    rw [Bool.and_eq_true, beq_iff_eq]
    exact ⟨hmapped, hslot⟩
  · have hq := List.find?_some hfind
    simp only [Bool.and_eq_true, beq_iff_eq] at hq
    rw [hmap p q hmapped hq.1 (hslot.trans hq.2.symm), ← hfind]

theorem Highway.slotHolder_eq_none (hnone : ∀ p : Circ, h.map[p].mapped = true → h.map[p].slot ≠ g) :
    h.slotHolder g = none := by
  unfold Highway.slotHolder
  rw [List.find?_eq_none]
  intro p _ hp
  simp only [Bool.and_eq_true, beq_iff_eq] at hp
  exact hnone p hp.1 hp.2

end

/-- Settles O21. -/
theorem highwayClockCarriesOneBit : Obligations.HighwayClockCarriesOneBit := by
  intro s hrun hsample
  have htake := State.takeComputation_of_not_due hsample
  have hexec : exec .highwayClockBitTime s = .next s.clockBit := event_of_running hrun
  refine ⟨fun n b hsending hn hheld hnone hmap => ?bit, fun hsending => ?idle⟩
  case bit =>
    have hslot : (Fin.ofNat 64 (n / 8)).val = n / 8 := by
      show n / 8 % 64 = n / 8
      omega
    have hbit : s.frameBit n = b := by
      unfold State.frameBit State.slotCode
      by_cases hex : ∃ p : Circ, s.highway.map[p].mapped = true ∧ s.highway.map[p].slot = Fin.ofNat 64 (n / 8)
      · obtain ⟨p, hmapped, hp⟩ := hex
        rw [Highway.slotHolder_eq_some hmap hmapped hp]
        exact (hheld p hmap hmapped (by rw [hp, hslot])).symm
      · have hfree : ∀ p : Circ, s.highway.map[p].mapped = true → s.highway.map[p].slot ≠ Fin.ofNat 64 (n / 8) :=
          fun p hmapped hp => hex ⟨p, hmapped, hp⟩
        rw [Highway.slotHolder_eq_none hfree, hnone fun p hmapped hp => hfree p hmapped (Fin.ext (hp.trans hslot.symm))]
        exact BitVec.getLsbD_zero
    have hframe : n < Config.frameBits := hn
    rw [hexec, State.clockBit, htake]
    simp only [hsending, if_pos hframe, hbit]
  case idle =>
    rw [hexec, State.clockBit, htake]
    rcases hsending with hsending | ⟨n, hsending, hn⟩
    · simp only [hsending]
    · have hframe : ¬ n < Config.frameBits := Nat.not_lt.2 hn
      simp only [hsending, if_neg hframe]

end Sys2Proof.Machine
end

