-- ==== Sys2Proof/Proofs/PoolFrames.lean ====
section
/-!
PROOF. What the player pool, the order unit and the congestion unit leave alone: the plan table and the channel pool; and that
nothing but a cadence event leaves a channel with a cadence event due (chapter 3.3, log 9).
-/
namespace Sys2Proof.Machine

/-- The plan table and the channel pool of an exchange. -/
def Exchange.tones (e : Exchange) : PlanTable × ChannelPool := (e.plans, e.chans)

theorem Exchange.tones_eq {e f : Exchange} (h : f.tones = e.tones) : f.plans = e.plans ∧ f.chans = e.chans := by
  simpa [Exchange.tones] using h

/-! ### Player pool -/

section
variable (e : Exchange)

@[simp] theorem Exchange.tones_mark (w : PostedWord) : (e.mark w).tones = e.tones := rfl
@[simp] theorem Exchange.tones_submit (b : Block) (k : ReportKind) (x v : Nat) : (e.submit b k x v).tones = e.tones := rfl

@[simp] theorem Exchange.tones_setPlayer (n : PlayNo) (p : Player) : (e.setPlayer n p).tones = e.tones := by
  unfold Exchange.setPlayer; dsimp only; split <;> rfl
@[simp] theorem Exchange.tones_playNotify (c : Circ) (g : Tag) (m : PlayerMessage) : (e.playNotify c g m).tones = e.tones := rfl
@[simp] theorem Exchange.tones_setWaitList (l : List AnnWaiter) : (e.setWaitList l).tones = e.tones := rfl

@[simp] theorem Exchange.tones_closePlayer (n : PlayNo) : (e.closePlayer n).tones = e.tones := by
  unfold Exchange.closePlayer
  dsimp only
  split
  · simp
  · split
    · exact e.tones_setPlayer n _
    · simp

@[simp] theorem Exchange.tones_moveWaiters (n : PlayNo) (r : RecNo) (m : Nat) : (e.moveWaiters n r m).tones = e.tones := by
  unfold Exchange.moveWaiters
  dsimp only
  rw [foldl_frame Exchange.tones _ (fun b a => b.tones_playNotify _ _ _)]
  simp

@[simp] theorem Exchange.tones_serveRoom (n : PlayNo) : (e.serveRoom n).tones = e.tones := by
  unfold Exchange.serveRoom; split <;> simp
@[simp] theorem Exchange.tones_bindPlayer (n : PlayNo) (r : RecNo) : (e.bindPlayer n r).tones = e.tones := by
  simp [Exchange.bindPlayer]
@[simp] theorem Exchange.tones_serveIdle (n : PlayNo) : (e.serveIdle n).tones = e.tones := by
  unfold Exchange.serveIdle; split
  · split <;> simp
  · rfl
@[simp] theorem Exchange.tones_serveRooms : e.serveRooms.tones = e.tones := by
  unfold Exchange.serveRooms; split
  · rfl
  · exact foldl_frame Exchange.tones _ Exchange.tones_serveRoom _ _
@[simp] theorem Exchange.tones_serveIdles : e.serveIdles.tones = e.tones := by
  unfold Exchange.serveIdles; split
  · rfl
  · exact foldl_frame Exchange.tones _ Exchange.tones_serveIdle _ _

@[simp] theorem Exchange.tones_closePool : e.closePool.tones = e.tones := by
  unfold Exchange.closePool
  rw [foldl_frame Exchange.tones _ Exchange.tones_closePlayer]
  simp

@[simp] theorem Exchange.tones_addJoin (n : PlayNo) (j : JoinEntry) : (e.addJoin n j).tones = e.tones := by
  simp [Exchange.addJoin]

@[simp] theorem Exchange.tones_startAnn (c : Circ) (r : RecNo) (m : Fin 16) (g : Tag) : (e.startAnn c r m g).2.tones = e.tones := by
  unfold Exchange.startAnn Exchange.placeAnn
  dsimp only
  rw [Exchange.tones_closePool]
  split
  · rfl
  · split
    · rfl
    · split
      · split <;> simp
      · split <;> simp

@[simp] theorem Exchange.tones_startCycle (n : PlayNo) : (e.startCycle n).tones = e.tones := by
  unfold Exchange.startCycle
  dsimp only
  rw [Exchange.tones_mark, foldl_frame Exchange.tones _ (fun b a => b.tones_playNotify _ _ _), Exchange.tones_setPlayer]

@[simp] theorem Exchange.tones_afterCycle (n : PlayNo) : (e.afterCycle n).tones = e.tones := by
  unfold Exchange.afterCycle
  dsimp only
  split
  · simp
  · split
    · simp
    · split <;> simp

@[simp] theorem Exchange.tones_annCycleEnd (n : PlayNo) : (e.annCycleEnd n).tones = e.tones := by
  unfold Exchange.annCycleEnd Exchange.endAnnCycle
  dsimp only
  split
  · rw [Exchange.tones_closePool, Exchange.tones_afterCycle, Exchange.tones_serveRooms,
      foldl_frame Exchange.tones _ (fun b a => b.tones_playNotify _ _ _), Exchange.tones_setPlayer]
  · rfl

@[simp] theorem Exchange.tones_handOverCode (n : PlayNo) : (e.handOverCode n).tones = e.tones := by
  unfold Exchange.handOverCode
  dsimp only
  split
  · split
    · simp
    · split <;> simp
  · simp

@[simp] theorem Exchange.tones_framePlayers : e.framePlayers.tones = e.tones := by
  unfold Exchange.framePlayers
  rw [Exchange.tones_closePool]
  exact foldl_frame Exchange.tones _ Exchange.tones_handOverCode _ _

@[simp] theorem Exchange.tones_playerGapEnd (n : PlayNo) : (e.playerGapEnd n).tones = e.tones := by
  unfold Exchange.playerGapEnd
  dsimp only
  split
  · rw [Exchange.tones_closePool]; split <;> simp
  · rfl

@[simp] theorem Exchange.tones_deliver (d : Delivery) : (e.deliver d).tones = e.tones := by
  unfold Exchange.deliver
  dsimp only
  split
  · rw [Exchange.tones_closePool]; split <;> simp
  · rfl

@[simp] theorem Exchange.tones_removeFrom (n : PlayNo) (c : Circ) : (e.removeFrom n c).tones = e.tones := by
  unfold Exchange.removeFrom Exchange.afterRemoval
  dsimp only
  rw [Exchange.tones_mark]
  split
  · simp
  · split <;> simp

@[simp] theorem Exchange.tones_leaveAnn (c : Circ) : (e.leaveAnn c).2.tones = e.tones := by
  unfold Exchange.leaveAnn
  split
  · simp
  · split <;> simp

@[simp] theorem Exchange.tones_takeExpiry (q : ExpiryReq) : (e.takeExpiry q).tones = e.tones := by
  unfold Exchange.takeExpiry
  split
  · simp
  · split
    · simp
    · split <;> simp

@[simp] theorem Exchange.tones_drainExpiry : e.drainExpiry.tones = e.tones := by
  unfold Exchange.drainExpiry
  rw [foldl_frame Exchange.tones _ (fun b a => b.tones_takeExpiry a)]
  rfl

@[simp] theorem Exchange.tones_countGaps : e.countGaps.tones = e.tones := by
  unfold Exchange.countGaps; rw [Exchange.tones_closePool]; rfl

/-! ### Order unit and congestion unit -/

@[simp] theorem Exchange.tones_evaluateGrade : e.evaluateGrade.tones = e.tones := by
  unfold Exchange.evaluateGrade; dsimp only; split <;> rfl

@[simp] theorem Exchange.tones_pulseLoadLamp : e.pulseLoadLamp.tones = e.tones := by
  unfold Exchange.pulseLoadLamp; split <;> rfl

@[simp] theorem Exchange.tones_setCircuit (p : Circ) (c : Circuit) : (e.setCircuit p c).tones = e.tones := by
  unfold Exchange.setCircuit; dsimp only; split <;> rfl

@[simp] theorem Exchange.tones_report (p : Circ) (k : ReportKind) (v : Nat) : (e.report p k v).tones = e.tones := rfl

@[simp] theorem Exchange.tones_enterQuiet (p : Circ) : (e.enterQuiet p).tones = e.tones := e.tones_setCircuit _ _
@[simp] theorem Exchange.tones_enterGap (p : Circ) : (e.enterGap p).tones = e.tones := e.tones_setCircuit _ _
@[simp] theorem Exchange.tones_bumpTag (p : Circ) : (e.bumpTag p).tones = e.tones := e.tones_setCircuit _ _
@[simp] theorem Exchange.tones_bindCircuit (p : Circ) (st : CircuitState) (b : Binding) : (e.bindCircuit p st b).tones = e.tones :=
  e.tones_setCircuit _ _
@[simp] theorem Exchange.tones_setEntry (p : Circ) (c : Cls) (x : Option Entry) : (e.setEntry p c x).tones = e.tones :=
  e.tones_setCircuit _ _

@[simp] theorem Exchange.tones_removeEntry (p : Circ) (c : Cls) (k : ReportKind) (v : Nat) : (e.removeEntry p c k v).tones = e.tones := by
  simp [Exchange.removeEntry]

@[simp] theorem Exchange.tones_sendExpiry (p : Circ) : (e.sendExpiry p).tones = e.tones := by
  unfold Exchange.sendExpiry
  dsimp only
  split
  · exact e.tones_setCircuit _ _
  · rfl

end

/-! ### Channels with no cadence event due -/

/-- Channel `k` has no cadence event due. -/
def Exchange.CalmAt (e : Exchange) (k : ChanNo) : Prop := ∀ r, e.chan k = some r → r.due = .none

/-- No channel has a cadence event due. -/
def Exchange.Calm (e : Exchange) : Prop := ∀ k, e.CalmAt k

theorem Exchange.setChan_chan_ne {e : Exchange} {j k : ChanNo} (h : j ≠ k) (c : Channel) :
    (e.setChan k c).chan j = e.chan j :=
  (vector_getElem_set_fin e.chans.chans k j c).trans (if_neg h)

@[simp] theorem Exchange.setChan_chan (e : Exchange) (k : ChanNo) (c : Channel) : (e.setChan k c).chan k = c :=
  (vector_getElem_set_fin e.chans.chans k k c).trans (if_pos rfl)

section
variable {e : Exchange}

theorem Exchange.CalmAt.of_chan {f : Exchange} {k : ChanNo} (h : e.CalmAt k) (heq : f.chan k = e.chan k) : f.CalmAt k :=
  fun r hr => h r (heq ▸ hr)

theorem Exchange.Calm.of_chans {f : Exchange} (h : e.Calm) (heq : f.chans.chans = e.chans.chans) : f.Calm := fun k =>
  (h k).of_chan (by unfold Exchange.chan; rw [heq])

theorem Exchange.Calm.of_tones {f : Exchange} (h : e.Calm) (heq : f.tones = e.tones) : f.Calm :=
  h.of_chans (by rw [(Exchange.tones_eq heq).2])

theorem Exchange.calmAt_setChan_some (k : ChanNo) {r : Run} (hr : r.due = .none) : (e.setChan k (some r)).CalmAt k := by
  intro x hx
  rw [Exchange.setChan_chan] at hx
  cases hx
  exact hr

theorem Exchange.calmAt_setChan_none (k : ChanNo) : (e.setChan k none).CalmAt k := by
  intro x hx
  rw [Exchange.setChan_chan] at hx
  cases hx

theorem Exchange.Calm.setChan (h : e.Calm) {k : ChanNo} {c : Channel} (hc : (e.setChan k c).CalmAt k) : (e.setChan k c).Calm := by
  intro j
  by_cases hj : j = k
  · rw [hj]; exact hc
  · exact (h j).of_chan (Exchange.setChan_chan_ne hj c)

/-! The requests of the order unit touch a channel only to give it a listener, to free it, or to start it anew. -/

theorem Exchange.CalmAt.joinChan {k : ChanNo} (h : e.CalmAt k) (l : ToneListener) : (e.joinChan k l).CalmAt k := by
  unfold Exchange.joinChan
  split
  · next r hr => exact Exchange.calmAt_setChan_some k (h r hr)
  · exact h

theorem Exchange.joinChan_chan_ne {j k : ChanNo} (hj : j ≠ k) (l : ToneListener) : (e.joinChan k l).chan j = e.chan j := by
  unfold Exchange.joinChan
  split
  · exact Exchange.setChan_chan_ne hj _
  · rfl

theorem Exchange.calmAt_allocChan {k : ChanNo} {p : PlanNo} {l : ToneListener} {f : Exchange}
    (hf : e.allocChan k p l = some f) : f.CalmAt k ∧ ∀ j, j ≠ k → f.chan j = e.chan j := by
  unfold Exchange.allocChan at hf
  split at hf
  · cases hf
  · cases hf
    exact ⟨Exchange.calmAt_setChan_some k rfl, fun j hj => Exchange.setChan_chan_ne hj _⟩

theorem Exchange.calmAt_serveShared {k : ChanNo} (h : e.CalmAt k) (p : PlanNo) :
    (e.serveShared k p).CalmAt k ∧ ∀ j, j ≠ k → (e.serveShared k p).chan j = e.chan j := by
  unfold Exchange.serveShared
  dsimp only
  have step : ∀ (l : List ToneWaiter) (f : Exchange), f.CalmAt k →
      (l.foldl (Exchange.serveInto k) f).CalmAt k ∧ ∀ j, j ≠ k → (l.foldl (Exchange.serveInto k) f).chan j = f.chan j := by
    intro l
    induction l with
    | nil => exact fun f hf => ⟨hf, fun _ _ => rfl⟩
    | cons w l ih =>
      intro f hf
      obtain ⟨hk, hne⟩ := ih (Exchange.serveInto k f w) (hf.joinChan ⟨w.circ, w.tag, w.isPrivate⟩)
      exact ⟨hk, fun j hj => (hne j hj).trans (Exchange.joinChan_chan_ne hj _)⟩
  exact step _ _ h

theorem Exchange.calmAt_serveQueueFrom {k : ChanNo} (h : e.CalmAt k) (q : List ToneWaiter) :
    (Exchange.serveQueueFrom k q e).CalmAt k ∧ ∀ j, j ≠ k → (Exchange.serveQueueFrom k q e).chan j = e.chan j := by
  induction q generalizing e with
  | nil => exact ⟨h, fun _ _ => rfl⟩
  | cons w rest ih =>
    unfold Exchange.serveQueueFrom
    split
    · exact ih (e := (e.setToneQueue rest).chanNotify w.circ w.tag .withdrawn) h
    · next f hf =>
      obtain ⟨hk, hne⟩ := Exchange.calmAt_allocChan hf
      dsimp only
      split
      · exact ⟨hk, hne⟩
      · obtain ⟨hk', hne'⟩ := Exchange.calmAt_serveShared (e := f.chanNotify w.circ w.tag (.served k .allocated)) hk w.plan
        exact ⟨hk', fun j hj => (hne' j hj).trans (hne j hj)⟩

theorem Exchange.calmAt_freeChan (k : ChanNo) (b : Bool) (h : e.CalmAt k) :
    (e.freeChan k b).CalmAt k ∧ ∀ j, j ≠ k → (e.freeChan k b).chan j = e.chan j := by
  unfold Exchange.freeChan
  split
  · exact ⟨h, fun _ _ => rfl⟩
  · next r hr =>
    dsimp only
    generalize hf : (if b then (e.setChan k none).dropRef r.bank else e.setChan k none) = f
    have hchan : ∀ j, f.chan j = (e.setChan k none).chan j := by
      intro j
      rw [← hf]
      split
      · unfold Exchange.chan; rw [Exchange.dropRef_chans]
      · rfl
    have hcalm : f.CalmAt k := (Exchange.calmAt_setChan_none k).of_chan (hchan k)
    obtain ⟨hk, hne⟩ := Exchange.calmAt_serveQueueFrom hcalm f.chans.queue
    exact ⟨hk, fun j hj => (hne j hj).trans ((hchan j).trans (Exchange.setChan_chan_ne hj none))⟩

theorem Exchange.Calm.of_chan_ne {f : Exchange} (h : e.Calm) {k : ChanNo} (hk : f.CalmAt k)
    (hne : ∀ j, j ≠ k → f.chan j = e.chan j) : f.Calm := by
  intro j
  by_cases hj : j = k
  · rw [hj]; exact hk
  · exact (h j).of_chan (hne j hj)

theorem Exchange.Calm.leaveTone (h : e.Calm) (c : Circ) : (e.leaveTone c).Calm := by
  unfold Exchange.leaveTone
  split
  · exact h
  · split
    · exact h
    · next k _ =>
      split
      · exact h
      · next r hr =>
        have hset : ∀ ls, (e.setChan k (some { r with listeners := ls })).Calm := fun ls =>
          h.setChan (Exchange.calmAt_setChan_some k (h k r hr))
        dsimp only
        split
        · obtain ⟨hk, hne⟩ := Exchange.calmAt_freeChan k true (hset _ k)
          exact (hset _).of_chan_ne hk hne
        · exact hset _

theorem Exchange.Calm.joinChan (h : e.Calm) (k : ChanNo) (l : ToneListener) : (e.joinChan k l).Calm :=
  h.of_chan_ne ((h k).joinChan l) fun _ hj => Exchange.joinChan_chan_ne hj l

theorem Exchange.Calm.startFree (h : e.Calm) (k : ChanNo) (p : PlanNo) (l : ToneListener) : (e.startFree k p l).2.Calm := by
  unfold Exchange.startFree
  split
  · next f hf =>
    obtain ⟨hk, hne⟩ := Exchange.calmAt_allocChan hf
    exact h.of_chan_ne hk hne
  · exact h

theorem Exchange.Calm.startTone (h : e.Calm) (c : Circ) (g : Tag) (v : Bool) (p : PlanNo) : (e.startTone c g v p).2.Calm := by
  unfold Exchange.startTone Exchange.startPrivate Exchange.startShared
  split
  · split
    · exact h.startFree _ _ _
    · split
      · exact (h.joinChan _ _).of_tones rfl
      · exact h.of_chans rfl
  · split
    · exact h.joinChan _ _
    · split
      · exact h.startFree _ _ _
      · exact h.of_chans rfl

theorem Exchange.Calm.startToneEntry (h : e.Calm) (p : Circ) (c : Cls) (x : Entry) (v : Bool) (q : PlanNo) :
    (e.startToneEntry p c x v q).2.Calm := by
  have hstart := h.startTone p (e.circuit p).tag v q
  unfold Exchange.startToneEntry
  dsimp only
  split
  · split
    · exact hstart.of_tones (Exchange.tones_bindCircuit _ _ _ _)
    · exact hstart.of_tones (Exchange.tones_bindCircuit _ _ _ _)
    · exact hstart.of_tones (Exchange.tones_removeEntry _ _ _ _ _)
  · exact h.of_tones (Exchange.tones_removeEntry _ _ _ _ _)

theorem Exchange.Calm.startAnnEntry (h : e.Calm) (p : Circ) (c : Cls) (x : Entry) (r : RecNo) (n : Fin 16) :
    (e.startAnnEntry p c x r n).2.Calm := by
  have hstart : (e.drainExpiry.startAnn p r n (e.circuit p).tag).2.Calm := h.of_tones (by simp)
  unfold Exchange.startAnnEntry
  dsimp only
  split
  · exact hstart.of_tones (by simp)
  · exact hstart.of_tones (by simp)
  · exact hstart.of_tones (by simp)
  · split
    · exact Exchange.Calm.startToneEntry (hstart.of_tones (by simp)) _ _ _ _ _
    · exact hstart.of_tones (by simp)

theorem Exchange.Calm.startEntry (h : e.Calm) (p : Circ) (c : Cls) (x : Entry) : (e.startEntry p c x).2.Calm := by
  have hbump : (e.bumpTag p).Calm := h.of_tones (by simp)
  unfold Exchange.startEntry
  dsimp only
  split
  · exact hbump.startToneEntry _ _ _ _ _
  · exact hbump.startToneEntry _ _ _ _ _
  · exact hbump.startAnnEntry _ _ _ _ _
  · unfold Exchange.startCongestion
    dsimp only
    split
    · exact Exchange.Calm.startAnnEntry (hbump.of_tones (by simp)) _ _ _ _ _
    · exact Exchange.Calm.startToneEntry (hbump.of_tones (by simp)) _ _ _ _ _
    · exact hbump.of_tones (by simp)

theorem Exchange.Calm.startBelow (h : e.Calm) (p : Circ) (n : Nat) : (e.startBelow p n).Calm := by
  induction n generalizing e with
  | zero => exact h.of_tones (by simp [Exchange.startBelow])
  | succ n ih =>
    unfold Exchange.startBelow
    split
    · exact ih h
    · dsimp only
      split
      · exact h.startEntry _ _ _
      · exact ih (h.startEntry _ _ _)

theorem Exchange.Calm.gapEnd (h : e.Calm) (p : Circ) : (e.gapEnd p).Calm := by
  unfold Exchange.gapEnd
  split
  · exact h.startBelow p 4
  · exact h

/-! ### Settling the cadence of the channels -/

/-- An event of channel `k` leaves the other channels. -/
theorem Exchange.unitEnd_chan_ne {j k : ChanNo} (hj : j ≠ k) : (e.unitEnd k).chan j = e.chan j := by
  unfold Exchange.unitEnd
  split
  · split
    · exact Exchange.setChan_chan_ne hj _
    · rfl
  · rfl

theorem Exchange.segmentEnd_chan_ne {j k : ChanNo} (hj : j ≠ k) : (e.segmentEnd k).chan j = e.chan j := by
  unfold Exchange.segmentEnd
  split
  · split
    · exact Exchange.setChan_chan_ne hj _
    · rfl
  · rfl

/-- The channel's unit end leaves its segment end due, or nothing. -/
theorem Exchange.unitEnd_due (k : ChanNo) : ∀ r, (e.unitEnd k).chan k = some r → r.due ≠ .unitEnd := by
  intro r hr
  unfold Exchange.unitEnd at hr
  split at hr
  · next x hx =>
    split at hr
    · rw [Exchange.setChan_chan] at hr
      cases hr
      unfold Run.endUnit
      split <;> simp
    · next hdue =>
      rw [hx] at hr
      cases hr
      exact hdue
  · next hx =>
    rw [hx] at hr
    cases hr

/-- The channel's segment end leaves its cycle end due, or nothing. -/
theorem Exchange.segmentEnd_due {k : ChanNo} (h : ∀ r, e.chan k = some r → r.due ≠ .unitEnd) :
    ∀ r, (e.segmentEnd k).chan k = some r → r.due = .cycleEnd ∨ r.due = .none := by
  intro r hr
  unfold Exchange.segmentEnd at hr
  split at hr
  · next x hx =>
    split at hr
    · rw [Exchange.setChan_chan] at hr
      cases hr
      unfold Run.endSegment
      split
      · exact .inr rfl
      · exact .inl rfl
    · next hdue =>
      rw [hx] at hr
      cases hr
      have hunit := h r hx
      cases hr : r.due with
      | unitEnd => exact absurd hr hunit
      | segmentEnd => exact absurd hr hdue
      | cycleEnd => exact .inl rfl
      | none => exact .inr rfl
  · next hx =>
    rw [hx] at hr
    cases hr

theorem Exchange.foldl_chanNotify_chan (l : List ToneListener) (m : ChannelMessage) (j : ChanNo) :
    (l.foldl (fun e x => Exchange.chanNotify x.circ x.tag m e) e).chan j = e.chan j :=
  foldl_frame (fun e : Exchange => e.chan j) (fun e (x : ToneListener) => e.chanNotify x.circ x.tag m) (fun _ _ => rfl) l e

theorem Exchange.dismiss_chan_ne {j k : ChanNo} (hj : j ≠ k) (m : ChannelMessage) :
    (e.dismiss k m).chan j = e.chan j := by
  unfold Exchange.dismiss
  split
  · rfl
  · exact (Exchange.setChan_chan_ne hj _).trans (Exchange.foldl_chanNotify_chan _ m j)

/-- A channel dismissed and freed ends up FREE or started anew. -/
theorem Exchange.calmAt_dismiss_freeChan (k : ChanNo) (m : ChannelMessage) (b : Bool) :
    ((e.dismiss k m).freeChan k b).CalmAt k ∧ ∀ j, j ≠ k → ((e.dismiss k m).freeChan k b).chan j = e.chan j := by
  have hfree : ∀ f : Exchange, (f.freeChan k b).CalmAt k ∧ ∀ j, j ≠ k → (f.freeChan k b).chan j = f.chan j := by
    intro f
    cases hk : f.chan k with
    | none =>
      exact Exchange.calmAt_freeChan k b fun r hr => by rw [hk] at hr; cases hr
    | some r =>
      have hcalm : (f.setChan k (some { r with due := .none })).CalmAt k := Exchange.calmAt_setChan_some k rfl
      have hsame : (f.setChan k (some { r with due := .none })).freeChan k b = f.freeChan k b := by
        unfold Exchange.freeChan
        rw [Exchange.setChan_chan, hk]
        have hset : (f.setChan k (some { r with due := .none })).setChan k none = f.setChan k none := by
          simp [Exchange.setChan]
        simp only [hset]
      obtain ⟨hk', hne⟩ := Exchange.calmAt_freeChan k b hcalm
      rw [hsame] at hk' hne
      exact ⟨hk', fun j hj => (hne j hj).trans (Exchange.setChan_chan_ne hj _)⟩
  obtain ⟨hk, hne⟩ := hfree (e.dismiss k m)
  exact ⟨hk, fun j hj => (hne j hj).trans (Exchange.dismiss_chan_ne hj m)⟩

theorem Exchange.calmAt_finalAction (k : ChanNo) (r : Run) (pl : Plan) :
    (e.finalAction k r pl).CalmAt k ∧ ∀ j, j ≠ k → (e.finalAction k r pl).chan j = e.chan j := by
  have silence : ∀ f : Exchange, (∀ j, j ≠ k → f.chan j = e.chan j) →
      (f.silence k).CalmAt k ∧ ∀ j, j ≠ k → (f.silence k).chan j = e.chan j := by
    intro f hf
    obtain ⟨hk, hne⟩ := Exchange.calmAt_dismiss_freeChan (e := f) k .done true
    exact ⟨hk, fun j hj => (hne j hj).trans (hf j hj)⟩
  have put : ∀ x : Run, ∀ j, j ≠ k → (e.setChan k (some x)).chan j = e.chan j :=
    fun x j hj => Exchange.setChan_chan_ne hj _
  unfold Exchange.finalAction
  split
  · exact ⟨Exchange.calmAt_setChan_some k rfl, put _⟩
  · split
    · exact ⟨Exchange.calmAt_setChan_some k rfl, put _⟩
    · exact silence _ (put r)
  · exact silence _ (put r)
  · exact silence _ (put r)

theorem Exchange.calmAt_cycleOn (k : ChanNo) (r : Run) :
    (e.cycleOn k r).CalmAt k ∧ ∀ j, j ≠ k → (e.cycleOn k r).chan j = e.chan j := by
  have next : ∀ (pl : Plan) (x : Run), (e.setChan k (some (x.nextCycle pl))).CalmAt k
      ∧ ∀ j, j ≠ k → (e.setChan k (some (x.nextCycle pl))).chan j = e.chan j :=
    fun pl x => ⟨Exchange.calmAt_setChan_some k rfl, fun j hj => Exchange.setChan_chan_ne hj _⟩
  unfold Exchange.cycleOn
  dsimp only
  split
  · split
    · exact Exchange.calmAt_finalAction k _ _
    · exact next _ _
  · exact next _ _

theorem Exchange.serveShared_chan_ne {j k : ChanNo} (hj : j ≠ k) (p : PlanNo) : (e.serveShared k p).chan j = e.chan j := by
  unfold Exchange.serveShared
  dsimp only
  exact foldl_frame (fun e : Exchange => e.chan j) (Exchange.serveInto k) (fun b _ => Exchange.joinChan_chan_ne (e := b) hj _)
    _ _

/-- The channel's cycle end leaves nothing due. -/
theorem Exchange.calmAt_cycleEnd {k : ChanNo} (h : ∀ r, e.chan k = some r → r.due = .cycleEnd ∨ r.due = .none) :
    (e.cycleEnd k).CalmAt k ∧ ∀ j, j ≠ k → (e.cycleEnd k).chan j = e.chan j := by
  unfold Exchange.cycleEnd
  split
  · next hk => exact ⟨fun r hr => (by rw [hk] at hr; cases hr), fun _ _ => rfl⟩
  · next r hk =>
    split
    · next hdue =>
      refine ⟨fun x hx => ?_, fun _ _ => rfl⟩
      obtain rfl : r = x := Option.some.inj (hk.symm.trans hx)
      exact (h r hk).resolve_left hdue
    · split
      · split
        · exact Exchange.calmAt_cycleOn k _
        · next l _ =>
          dsimp only
          generalize hf : (Exchange.dropRef r.bank { e with plans := e.plans.addRef l }).setChan k
            (some { r with movePending := false, bank := l }) = f
          have hfk : f.chan k = some { r with movePending := false, bank := l } := by rw [← hf, Exchange.setChan_chan]
          have hfne : ∀ j, j ≠ k → f.chan j = e.chan j := by
            intro j hj
            rw [← hf, Exchange.setChan_chan_ne hj]
            unfold Exchange.chan
            rw [Exchange.dropRef_chans]
          generalize hu : (if r.isPrivate then f else f.serveShared k r.plan) = u
          have hune : ∀ j, j ≠ k → u.chan j = e.chan j := by
            intro j hj
            rw [← hu]
            split
            · exact hfne j hj
            · exact (Exchange.serveShared_chan_ne hj _).trans (hfne j hj)
          split
          · obtain ⟨hk', hne⟩ := Exchange.calmAt_cycleOn (e := u) k _
            exact ⟨hk', fun j hj => (hne j hj).trans (hune j hj)⟩
          · next hnone => exact ⟨fun x hx => (by rw [hnone] at hx; cases hx), hune⟩
        · obtain ⟨hk', hne⟩ := Exchange.calmAt_dismiss_freeChan (e := e.dropRef r.bank) k .withdrawn false
          refine ⟨hk', fun j hj => (hne j hj).trans ?_⟩
          unfold Exchange.chan
          rw [Exchange.dropRef_chans]
      · exact Exchange.calmAt_cycleOn k _

/-- Once a channel has taken what was due it has nothing due; the others are as they were. -/
theorem Exchange.calmAt_settleChannel (e : Exchange) (k : ChanNo) :
    (e.settleChannel k).CalmAt k ∧ ∀ j, j ≠ k → (e.settleChannel k).chan j = e.chan j := by
  obtain ⟨hk, hne⟩ := Exchange.calmAt_cycleEnd (Exchange.segmentEnd_due (Exchange.unitEnd_due (e := e) k))
  exact ⟨hk, fun j hj => (hne j hj).trans ((Exchange.segmentEnd_chan_ne hj).trans (Exchange.unitEnd_chan_ne hj))⟩

/-- Every channel having taken what was due, none has anything due. -/
theorem Exchange.calm_settleChannels (e : Exchange) : e.settleChannels.Calm := by
  have settle : ∀ (l : List ChanNo) (f : Exchange), l.Nodup → (∀ k, k ∉ l → f.CalmAt k) →
      (l.foldl Exchange.settleChannel f).Calm := by
    intro l
    induction l with
    | nil => exact fun f _ hf k => hf k List.not_mem_nil
    | cons k l ih =>
      intro f hnodup hf
      obtain ⟨hk, hne⟩ := Exchange.calmAt_settleChannel f k
      refine ih _ (List.nodup_cons.1 hnodup).2 fun j hj => ?_
      by_cases hjk : j = k
      · rw [hjk]; exact hk
      · exact (hf j (by simp [hjk, hj])).of_chan (hne j hjk)
  exact settle allChannels e (List.nodup_finRange 16) fun k hk => absurd (List.mem_finRange k) hk

end

end Sys2Proof.Machine
end

