-- ==== Sys2Proof/Proofs/FrameLoss.lean ====
section
/-!
PROOF. Frame pulses and frame loss (chapters 5.2 and 5.6): what the highway port holds once a frame and its boundaries have been
settled, and that in LOST nothing timed by frames is left due.
-/
namespace Sys2Proof.Machine

section
variable {s : State}

/-! ### The deliveries of a frame, settled -/

theorem State.takePlayersFrame_highway (s : State) :
    s.takePlayersFrame.highway = { s.highway with playersDue := false } := by
  unfold State.takePlayersFrame
  split
  · rw [State.onExchange_highway]
  · next h => rw [← Bool.eq_false_iff.2 h]

theorem State.takeComputation_highway (s : State) : s.takeComputation.highway = { s.highway with
    sampleDue := false, playersDue := s.highway.playersDue && !s.highway.sampleDue } := by
  unfold State.takeComputation
  split
  · next h =>
    rw [h, Bool.not_true, Bool.and_false]
    exact congrArg (fun h : Highway => { h with sampleDue := false }) s.takePlayersFrame_highway
  · next h =>
    have hsample := Bool.eq_false_iff.2 h
    rw [hsample, Bool.not_false, Bool.and_true, ← hsample]

theorem State.takeChannelsFrame_highway (h : s.highway.sampleDue = false) :
    s.takeChannelsFrame.highway = { s.highway with channelsDue := false } := by
  unfold State.takeChannelsFrame
  split
  · rw [State.onExchange_highway, State.takeComputation_of_not_due h]
  · next hdue => rw [← Bool.eq_false_iff.2 hdue]

/-- Settling a frame leaves none of its three deliveries due and moves nothing else of the port. -/
theorem State.settleFrame_highway (s : State) : s.settleFrame.highway = { s.highway with
    sampleDue := false, channelsDue := false, playersDue := false } := by
  unfold State.settleFrame
  rw [State.onExchange_highway]
  have hplayers : s.takeComputation.takePlayersFrame.highway = { s.highway with sampleDue := false, playersDue := false } := by
    rw [State.takePlayersFrame_highway, State.takeComputation_highway]
  rw [State.takeChannelsFrame_highway (by rw [hplayers]), hplayers]

/-- Settling a frame leaves no channel with a cadence event due. -/
theorem State.settleFrame_calm (s : State) : s.settleFrame.exchange.Calm := by
  unfold State.settleFrame
  rw [State.exchange_onExchange]
  refine (Exchange.calm_settleChannels s.takeComputation.takePlayersFrame.takeChannelsFrame.exchange).of_tones ?_
  exact foldl_frame Exchange.tones (fun e n => Exchange.annCycleEnd n e) (fun b n => b.tones_annCycleEnd n) _ _

/-! ### The boundaries, settled -/

/-- What settling the boundaries moves of the port, with no frame left to compute. -/
structure State.Settles (s t : State) (h : Highway) : Prop where
  port : t.highway = h
  calm : s.exchange.Calm → t.exchange.Calm

theorem State.Settles.onExchange {t : State} {h : Highway} (hs : s.Settles t h) {f : Exchange → Exchange}
    (hf : ∀ e : Exchange, e.Calm → (f e).Calm) : s.Settles (t.onExchange f) h :=
  ⟨(State.onExchange_highway t f).trans hs.port, fun hcalm => by
    rw [State.exchange_onExchange]; exact hf _ (hs.calm hcalm)⟩

theorem Exchange.Calm.foldl {α : Type} {f : Exchange → α → Exchange} (hf : ∀ e a, e.Calm → (f e a).Calm) {e : Exchange}
    (h : e.Calm) (l : List α) : (l.foldl f e).Calm := by
  induction l generalizing e with
  | nil => exact h
  | cons a l ih => exact ih (hf e a h)

theorem State.takeCadence_settles (h : s.highway.sampleDue = false) :
    s.Settles s.takeCadence { s.highway with cadenceDue := s.highway.cadenceDue - 1 } := by
  unfold State.takeCadence
  split
  · next hdue =>
    refine ⟨?_, fun hcalm => hcalm⟩
    rw [hdue, Nat.zero_sub, ← hdue]
  · rw [State.takeComputation_of_not_due h]
    exact ⟨rfl, fun hcalm => hcalm.of_chans rfl⟩

theorem State.takeWaitOrders_settles (h : s.highway.sampleDue = false) :
    s.Settles s.takeWaitOrders { s.highway with waitOrdersDue := s.highway.waitOrdersDue - 1 } := by
  unfold State.takeWaitOrders
  split
  · next hdue =>
    refine ⟨?_, fun hcalm => hcalm⟩
    rw [hdue, Nat.zero_sub, ← hdue]
  · rw [State.takeComputation_of_not_due h]
    exact ⟨rfl, fun hcalm => hcalm.of_chans rfl⟩

theorem State.takeWaitPlayers_settles (h : s.highway.sampleDue = false) :
    s.Settles s.takeWaitPlayers { s.highway with waitPlayersDue := s.highway.waitPlayersDue - 1 } := by
  unfold State.takeWaitPlayers
  split
  · next hdue =>
    refine ⟨?_, fun hcalm => hcalm⟩
    rw [hdue, Nat.zero_sub, ← hdue]
  · rw [State.takeComputation_of_not_due h]
    refine State.Settles.onExchange ?_ fun e he => he.of_tones e.tones_countGaps
    exact ⟨rfl, fun hcalm => hcalm.of_chans rfl⟩

theorem State.takeEvaluation_settles (s : State) :
    s.Settles s.takeEvaluation { s.highway with waitGradeDue := s.highway.waitGradeDue - 1 } := by
  unfold State.takeEvaluation
  split
  · next hdue =>
    refine ⟨?_, fun hcalm => hcalm⟩
    rw [hdue, Nat.zero_sub, ← hdue]
  · refine State.Settles.onExchange ?_ fun e he => he.of_tones e.tones_evaluateGrade
    exact ⟨rfl, fun hcalm => hcalm.of_chans rfl⟩

theorem State.Settles.trans {t u : State} {h h' : Highway} (hst : s.Settles t h) (htu : t.Settles u h') : s.Settles u h' :=
  ⟨htu.port, fun hcalm => htu.calm (hst.calm hcalm)⟩

/-- A boundary taken as often as it is due. -/
theorem State.Settles.iterate {f : State → State} {due : Highway → Nat} {dec : Highway → Nat → Highway}
    (hf : ∀ t : State, t.highway.sampleDue = false → t.Settles (f t) (dec t.highway (due t.highway - 1)))
    (hsample : ∀ h n, (dec h n).sampleDue = h.sampleDue) (hdue : ∀ h n, due (dec h n) = n)
    (hdec : ∀ h m n, dec (dec h m) n = dec h n) (hself : ∀ h, dec h (due h) = h) (n : Nat) :
    ∀ t : State, t.highway.sampleDue = false → t.Settles (f^[n] t) (dec t.highway (due t.highway - n)) := by
  induction n with
  | zero =>
    intro t _
    exact ⟨by rw [Nat.sub_zero, hself]; rfl, fun hcalm => hcalm⟩
  | succ n ih =>
    intro t ht
    rw [Function.iterate_succ_apply]
    have hstep := hf t ht
    have hrest := ih (f t) (by rw [hstep.port, hsample]; exact ht)
    rw [hstep.port, hdue, hdec, Nat.sub_sub, Nat.add_comm] at hrest
    exact hstep.trans hrest

/-- Settling the boundaries leaves none of them due, and no cadence event due if none was. -/
theorem State.settleBoundaries_settles (h : s.highway.sampleDue = false) : s.Settles s.settleBoundaries { s.highway with
    cadenceDue := 0, waitOrdersDue := 0, waitPlayersDue := 0, waitGradeDue := 0 } := by
  have gaps : ∀ e : Exchange, e.Calm → (allCircuits.foldl (fun e p => Exchange.gapEnd p e) e).Calm :=
    fun e he => he.foldl (f := fun e p => Exchange.gapEnd p e) (fun _ p h => h.gapEnd p) _
  have waits : ∀ e : Exchange, e.Calm → (allCircuits.foldl (fun e p => Exchange.sendExpiry p e) e).Calm :=
    fun e he => he.foldl (f := fun e p => Exchange.sendExpiry p e) (fun e p h => h.of_tones (e.tones_sendExpiry p)) _
  have players : ∀ e : Exchange, e.Calm → (allPlayers.foldl (fun e n => Exchange.playerGapEnd n e) e).Calm :=
    fun e he => he.foldl (f := fun e n => Exchange.playerGapEnd n e) (fun e n h => h.of_tones (e.tones_playerGapEnd n)) _
  have h1 := (State.Settles.iterate (due := Highway.cadenceDue) (dec := fun h n => { h with cadenceDue := n })
    (fun t ht => State.takeCadence_settles ht) (fun _ _ => rfl) (fun _ _ => rfl) (fun _ _ _ => rfl) (fun _ => rfl)
    s.highway.cadenceDue s h).onExchange gaps
  unfold State.settleBoundaries
  dsimp only
  generalize (State.takeCadence^[s.highway.cadenceDue] s).onExchange _ = t1 at h1 ⊢
  have hs1 : t1.highway.sampleDue = false := by rw [h1.port]; exact h
  have h2 := (State.Settles.iterate (due := Highway.waitOrdersDue) (dec := fun h n => { h with waitOrdersDue := n })
    (fun t ht => State.takeWaitOrders_settles ht) (fun _ _ => rfl) (fun _ _ => rfl) (fun _ _ _ => rfl) (fun _ => rfl)
    t1.highway.waitOrdersDue t1 hs1).onExchange waits
  generalize (State.takeWaitOrders^[t1.highway.waitOrdersDue] t1).onExchange _ = t2 at h2 ⊢
  have hs2 : t2.highway.sampleDue = false := by rw [h2.port]; exact hs1
  have h3 := (State.Settles.iterate (due := Highway.waitPlayersDue) (dec := fun h n => { h with waitPlayersDue := n })
    (fun t ht => State.takeWaitPlayers_settles ht) (fun _ _ => rfl) (fun _ _ => rfl) (fun _ _ _ => rfl) (fun _ => rfl)
    t2.highway.waitPlayersDue t2 hs2).onExchange players
  generalize (State.takeWaitPlayers^[t2.highway.waitPlayersDue] t2).onExchange _ = t3 at h3 ⊢
  have hs3 : t3.highway.sampleDue = false := by rw [h3.port]; exact hs2
  have h4 := State.Settles.iterate (due := Highway.waitGradeDue) (dec := fun h n => { h with waitGradeDue := n })
    (fun t _ => State.takeEvaluation_settles t) (fun _ _ => rfl) (fun _ _ => rfl) (fun _ _ _ => rfl) (fun _ => rfl)
    t3.highway.waitGradeDue t3 hs3
  have hall := ((h1.trans h2).trans h3).trans h4
  refine ⟨hall.port.trans ?_, hall.calm⟩
  rw [h3.port, h2.port, h1.port]
  simp only [Nat.sub_self]

end

/-! ### Frame pulse -/

/-- A frame start as the statement writes it out (R87, R93). -/
theorem Highway.frameStart_eq (h : Highway) (n : Nat) (hn : n = if h.baseCount + 1 = 800 then 0 else h.baseCount + 1) :
    h.frameStart = { h with
      map := h.next, pulseUs := 0, baseCount := n, sending := some 0
      sampleDue := true, channelsDue := true, playersDue := true
      cadenceDue := h.cadenceDue + if n % 80 = 0 then 1 else 0
      waitOrdersDue := h.waitOrdersDue + if n = 0 then 1 else 0
      waitPlayersDue := h.waitPlayersDue + if n = 0 then 1 else 0
      waitGradeDue := h.waitGradeDue + if n = 0 then 1 else 0 } := by
  subst hn
  rfl

/-- A pulse within the interval finds no loss overdue (R94). -/
theorem State.overdueLoss_of_in_time {s : State} (h : s.highway.monitor = .lost ∨ s.highway.pulseUs ≤ 250) :
    s.overdueLoss = s := by
  unfold State.overdueLoss
  rw [if_neg]
  rintro ⟨hmonitor, hlate⟩
  have hlate : 250 < s.highway.pulseUs := hlate
  rcases h with h | h
  · rw [h] at hmonitor; cases hmonitor
  · omega

/-- What a pulse makes of a state whose frame before is settled (R87, R96). -/
theorem State.restore_frameStart {t : State} {n : Nat} (hn : n = if t.highway.baseCount + 1 = 800 then 0 else t.highway.baseCount + 1) :
    (let u := if t.highway.monitor = .lost then t.restoreFrames else t
     { u with highway := u.highway.frameStart }) = { t with
      highway := { t.highway with
        map := t.highway.next, pulseUs := 0, baseCount := n, monitor := .running, sending := some 0
        sampleDue := true, channelsDue := true, playersDue := true
        cadenceDue := t.highway.cadenceDue + if n % 80 = 0 then 1 else 0
        waitOrdersDue := t.highway.waitOrdersDue + if n = 0 then 1 else 0
        waitPlayersDue := t.highway.waitPlayersDue + if n = 0 then 1 else 0
        waitGradeDue := t.highway.waitGradeDue + if n = 0 then 1 else 0 }
      wire := if t.highway.monitor = .running then t.wire else
        { submitted := t.wire.submitted ++ [⟨.highwayPort, ⟨.frameRestored, 0, BitVec.ofNat 16 t.highway.lossMs⟩⟩]
          dirty := { t.wire.dirty with global := true } } } := by
  have hstart := t.highway.frameStart_eq n hn
  cases hmonitor : t.highway.monitor with
  | running =>
    simp only [reduceCtorEq, if_false, if_true, hstart, hmonitor]
  | lost =>
    have hrestored := Highway.frameStart_eq { t.highway with monitor := .running } n hn
    simp only [reduceCtorEq, if_false, if_true]
    have hport : t.restoreFrames.highway = { t.highway with monitor := .running } := rfl
    rw [hport, hrestored]
    rfl

/-- A pulse in time, in terms of the settled state. -/
theorem State.takePulse_eq {s : State} (htime : s.highway.monitor = .lost ∨ s.highway.pulseUs ≤ 250) :
    s.takePulse = (let t := s.settleFrame
      let u := if t.highway.monitor = .lost then t.restoreFrames else t
      { u with highway := u.highway.frameStart }) := by
  unfold State.takePulse
  rw [State.overdueLoss_of_in_time htime]

/-! ### Frame loss -/

/-- Loss is declared on a state at the moment of the loss: what the last frame left is settled first (R94, log 9). -/
theorem State.declareLoss_eq {s : State} (htime : s.highway.pulseUs = 251) : s.declareLoss =
    (let t := s.settleFrame.settleBoundaries
     { t with
      highway := { t.highway with monitor := .lost, lossMs := 0, lossUs := 0, sending := none, pin := .highZ }
      wire := { submitted := t.wire.submitted ++ [⟨.highwayPort, ⟨.frameLost, 0, 0⟩⟩]
                dirty := { t.wire.dirty with global := true } } }) := by
  have hframe := s.settleFrame_highway
  have hport := (State.settleBoundaries_settles (s := s.settleFrame) (by rw [hframe])).port
  have hus : s.settleFrame.settleBoundaries.highway.pulseUs = 251 := by rw [hport, hframe]; exact htime
  unfold State.declareLoss
  dsimp only
  generalize s.settleFrame.settleBoundaries = t at hus ⊢
  have hlate : t.highway.pulseUs - (Config.lossUs + 1) = 0 := by rw [hus]; rfl
  rw [hlate]
  rfl

/-- Settles O20. -/
theorem framePulseAndFrameLoss : Obligations.FramePulseAndFrameLoss := by
  refine ⟨fun s n h hrun htime hn hh => ?pulse, fun s hrun hmonitor hus => ?loss⟩
  case pulse =>
    have hexec : exec .framePulse s = .next s.takePulse := event_of_running hrun
    rw [hexec, State.takePulse_eq htime]
    have hport := s.settleFrame_highway
    have haside := s.aside_settleFrame
    constructor
    · generalize s.settleFrame = t at hport haside
      obtain ⟨-, hbus, hreports, hstore⟩ := State.aside_eq haside
      have hn' : n = if t.highway.baseCount + 1 = 800 then 0 else t.highway.baseCount + 1 := by rw [hport]; exact hn
      refine ⟨_, congrArg _ (State.restore_frameStart hn'), ?_, hbus, hreports, hstore⟩
      rw [hh]
      dsimp only
      rw [hport]
    · intro h1 h2 h3 hchans hplayers
      rw [State.settleFrame_idle h1 h2 h3 hchans hplayers, hh]
      exact congrArg _ (State.restore_frameStart hn)
  case loss =>
    have hclock : ∀ d, (s.runClock d).highway = { s.highway with pulseUs := s.highway.pulseUs + d } := by
      intro d
      rw [State.runClock_of_running hrun]
      simp only [Highway.run, hmonitor]
    have hexec : exec .frameLoss s = .next (s.runClock (251 - s.highway.pulseUs)).declareLoss := by
      refine (event_of_running hrun).trans (congrArg _ ?_)
      rw [State.passInterval, if_pos hmonitor]
      rfl
    have hkeep : ∀ d, (s.runClock d).bus = s.bus ∧ (s.runClock d).chans = s.chans ∧ (s.runClock d).players = s.players
        ∧ (s.runClock d).orders = s.orders ∧ (s.runClock d).wire = s.wire := by
      intro d
      rw [State.runClock_of_running hrun]
      exact ⟨rfl, rfl, rfl, rfl, rfl⟩
    have hport := hclock (251 - s.highway.pulseUs)
    obtain ⟨hbus, hchans, hplayers, horders, hwire⟩ := hkeep (251 - s.highway.pulseUs)
    generalize s.runClock (251 - s.highway.pulseUs) = u at hexec hport hbus hchans hplayers horders hwire ⊢
    have hus' : u.highway.pulseUs = 251 := by
      rw [hport]
      show s.highway.pulseUs + (251 - s.highway.pulseUs) = 251
      omega
    have hframe := u.settleFrame_highway
    have hsettles := State.settleBoundaries_settles (s := u.settleFrame) (by rw [hframe])
    have haside : u.settleFrame.settleBoundaries.aside = u.aside := by
      rw [State.aside_settleBoundaries, State.aside_settleFrame]
    have hcalm := hsettles.calm u.settleFrame_calm
    have hloss := hsettles.port
    rw [hframe, hport] at hloss
    refine ⟨_, hexec.trans (congrArg _ (State.declareLoss_eq hus')), ?_⟩
    dsimp only
    obtain ⟨-, hbus', hreports, hstore⟩ := State.aside_eq haside
    refine ⟨?_, fun k r hr => hcalm k r hr, hbus'.trans hbus, hreports, hstore, ?_⟩
    · rw [hloss]
      show Highway.mk .. = Highway.mk ..
      rw [show s.highway.pulseUs + (251 - s.highway.pulseUs) = 251 by omega]
    · intro h1 h2 h3 h4 h5 h6 h7 hc hp ho
      have hidle : u.settleFrame = u := State.settleFrame_idle (by rw [hport]; exact h1) (by rw [hport]; exact h2)
        (by rw [hport]; exact h3) (by rw [hchans]; exact hc)
        (fun m => by
          have hm := (hp m).1
          unfold Exchange.cycleEndDue Exchange.player State.exchange at hm ⊢
          rw [hplayers]; exact hm)
      have hidle' : u.settleBoundaries = u := State.settleBoundaries_idle (by rw [hport]; exact h4) (by rw [hport]; exact h5)
        (by rw [hport]; exact h6) (by rw [hport]; exact h7) (by rw [horders]; exact ho)
        (fun m => by rw [hplayers]; exact (hp m).2)
      rw [hidle, hidle', hwire]

end Sys2Proof.Machine
end

