-- ==== Sys2Proof/Proofs/Boundaries.lean ====
section
/-!
PROOF. The boundaries the order unit and the player pool take (chapters 1.5 and 6.4), expiry requests and their answers (chapter
6.5), and the notices that leave an entry in place (chapter 1.6).
-/
namespace Sys2Proof.Machine

/-! ### Boundaries -/

section
variable {s : State}

theorem State.takeCadence_of_due (hsample : s.highway.sampleDue = false) (hdue : 0 < s.highway.cadenceDue) :
    s.takeCadence = { s with
      highway := { s.highway with cadenceDue := s.highway.cadenceDue - 1 }, orders := s.orders.countGaps } := by
  unfold State.takeCadence
  rw [if_neg (Nat.pos_iff_ne_zero.1 hdue), State.takeComputation_of_not_due hsample]

theorem State.takeWaitOrders_of_due (hsample : s.highway.sampleDue = false) (hdue : 0 < s.highway.waitOrdersDue) :
    s.takeWaitOrders = { s with
      highway := { s.highway with waitOrdersDue := s.highway.waitOrdersDue - 1 }, orders := s.orders.countWaits } := by
  unfold State.takeWaitOrders
  rw [if_neg (Nat.pos_iff_ne_zero.1 hdue), State.takeComputation_of_not_due hsample]

theorem State.takeWaitPlayers_of_due (hsample : s.highway.sampleDue = false) (hdue : 0 < s.highway.waitPlayersDue) :
    s.takeWaitPlayers = State.onExchange
      { s with highway := { s.highway with waitPlayersDue := s.highway.waitPlayersDue - 1 } } Exchange.countGaps := by
  unfold State.takeWaitPlayers
  rw [if_neg (Nat.pos_iff_ne_zero.1 hdue), State.takeComputation_of_not_due hsample]

end

/-- A player's count of its inter-cycle gap (R111). -/
def Player.countGap (P : Player) : Player := if P.state = .gap then { P with gapLeft := P.gapLeft - 1 } else P

/-- Counting its gap leaves a player at rest. -/
theorem Player.atRest_countGap (l : PlayerPool) (P : Player) : P.countGap.atRest l = P.atRest l := by
  unfold Player.countGap
  split <;> rfl

/-- Whether a player is at rest depends on the recording view alone of its pool. -/
theorem Player.atRest_congr (P : Player) {l m : PlayerPool} (h : l.view = m.view) : P.atRest l = P.atRest m := by
  unfold Player.atRest PlayerPool.lengthOf PlayerPool.gapOf PlayerPool.viewOf
  rw [h]

/-- With the players at rest and nothing waiting, counting the gaps of the players does nothing else. -/
theorem Exchange.countGaps_rest {e : Exchange} (hw : e.players.waitList = [])
    (h : ∀ n : PlayNo, (e.player n).atRest e.players = true) : e.countGaps = { e with players := { e.players with
      players := e.players.players.map Player.countGap } } := by
  refine Exchange.closePool_rest hw fun n => ?_
  have hn : (e.players.players.map Player.countGap)[n] = (e.player n).countGap := Vector.getElem_map _ n.isLt
  have hrest := (Player.atRest_countGap e.players (e.player n)).trans (h n)
  rw [← hn] at hrest
  exact (Player.atRest_congr _ rfl).trans hrest

/-- Settles O31. -/
theorem boundariesCountGapsAndWaits : Obligations.BoundariesCountGapsAndWaits := by
  intro s hrun hsample
  refine ⟨fun hdue => ⟨_, event_of_running hrun, ?_⟩, fun hdue => ⟨_, event_of_running hrun, ?_⟩,
    fun hdue hw hrest => ⟨_, event_of_running hrun, ?_⟩⟩
  · rw [State.takeCadence_of_due hsample hdue]
    exact ⟨fun p => Vector.getElem_map _ p.isLt, rfl⟩
  · rw [State.takeWaitOrders_of_due hsample hdue]
    exact ⟨fun p => Vector.getElem_map _ p.isLt, rfl⟩
  · rw [State.takeWaitPlayers_of_due hsample hdue, State.onExchange,
      Exchange.countGaps_rest hw fun n => hrest n List.not_mem_nil]
    exact ⟨fun n => Vector.getElem_map _ n.isLt, rfl⟩

/-! ### Notices -/

theorem Circuit.takes_eq_true {C : Circuit} {g : Tag} (htag : C.tag = g)
    (hstate : C.state = .channelWait ∨ C.state = .tone ∨ C.state = .annWait ∨ C.state = .hear) : C.takes g = true := by
  rcases hstate with h | h | h | h <;> simp [Circuit.takes, htag, h]

theorem Circuit.takes_eq_false {C : Circuit} {g : Tag} (htag : C.tag ≠ g) : C.takes g = false := by
  simp [Circuit.takes, htag]

/-- A change of state shows in the status word (R26). -/
theorem Circuit.sameShown_of_state_ne {C D : Circuit} (h : C.state ≠ D.state) : C.sameShown D = false := by
  simp [Circuit.sameShown, h]

theorem Circuit.sameShown_of_binding_ne {C D : Circuit} (h : C.binding ≠ D.binding) : C.sameShown D = false := by
  simp [Circuit.sameShown, h]

theorem Circuit.sameShown_of_set_ne {C D : Circuit} (h : C.set ≠ D.set) : C.sameShown D = false := by
  simp [Circuit.sameShown, h]

section
variable {e : Exchange} {p : Circ} {g : Tag} {C : Circuit}

theorem Exchange.takeChannelNotice_cons {ok : ChannelMessage → Bool} {f : ChannelNotice → Exchange → Exchange}
    {x : ChannelNotice} {rest : List ChannelNotice} (h : e.chans.notices = x :: rest) (hok : ok x.what = true) :
    e.takeChannelNotice ok f = f x { e with chans := { e.chans with notices := rest } } := by
  unfold Exchange.takeChannelNotice
  rw [h]
  exact if_pos hok

theorem Exchange.takePlayerNotice_cons {ok : PlayerMessage → Bool} {f : PlayerNotice → Exchange → Exchange}
    {x : PlayerNotice} {rest : List PlayerNotice} (h : e.players.notices = x :: rest) (hok : ok x.what = true) :
    e.takePlayerNotice ok f = f x { e with players := { e.players with notices := rest } } := by
  unfold Exchange.takePlayerNotice
  rw [h]
  exact if_pos hok

theorem Exchange.servedOnChannel_of_waiting (hp : e.circuit p = C) (htag : C.tag = g) (hstate : C.state = .channelWait)
    (k : ChanNo) : e.servedOnChannel p g k = e.showCircuit p { C with state := .tone, binding := .channel k } := by
  unfold Exchange.servedOnChannel
  rw [hp]
  dsimp only
  rw [if_pos ⟨C.takes_eq_true htag (.inl hstate), hstate⟩]
  exact Exchange.setCircuit_of_shown (Circuit.sameShown_of_state_ne (by rw [hp, hstate]; exact CircuitState.noConfusion))

theorem Exchange.servedMoved_of_waiting (hp : e.circuit p = C) (htag : C.tag = g) (hstate : C.state = .annWait)
    (hbinding : C.binding = .waitList) (n : PlayNo) :
    e.servedMoved p g n = e.showCircuit p { C with binding := .joinList n } := by
  unfold Exchange.servedMoved
  rw [hp]
  dsimp only
  rw [if_pos ⟨C.takes_eq_true htag (.inr (.inr (.inl hstate))), hstate⟩]
  exact Exchange.setCircuit_of_shown (Circuit.sameShown_of_binding_ne (by rw [hp, hbinding]; exact Binding.noConfusion))

theorem Exchange.servedListener_of_waiting (hp : e.circuit p = C) (htag : C.tag = g) (hstate : C.state = .annWait)
    (n : PlayNo) : e.servedListener p g n = e.showCircuit p { C with
      state := .hear, binding := .listener n, waited := 0, limit := .counting } := by
  unfold Exchange.servedListener
  rw [hp]
  dsimp only
  rw [if_pos ⟨C.takes_eq_true htag (.inr (.inr (.inl hstate))), hstate⟩]
  exact Exchange.setCircuit_of_shown (Circuit.sameShown_of_state_ne (by rw [hp, hstate]; exact CircuitState.noConfusion))

/-- A notice whose tag is not the circuit's changes nothing (R4). -/
theorem Exchange.served_of_stale (hp : e.circuit p = C) (htag : C.tag ≠ g) :
    (∀ k, e.servedOnChannel p g k = e) ∧ (∀ n, e.servedMoved p g n = e) ∧ (∀ n, e.servedListener p g n = e) := by
  have htakes := C.takes_eq_false htag
  refine ⟨fun k => ?_, fun n => ?_, fun n => ?_⟩
  · simp [Exchange.servedOnChannel, hp, htakes]
  · simp [Exchange.servedMoved, hp, htakes]
  · simp [Exchange.servedListener, hp, htakes]

theorem Exchange.onNotice_of_stale (hp : e.circuit p = C) (htag : C.tag ≠ g) (f : Cls → Entry → Exchange → Exchange) :
    e.onNotice p g f = e := by
  simp [Exchange.onNotice, hp, C.takes_eq_false htag]

end

/-- The commands by which the order unit takes a message of a pool. -/
theorem exec_takesNotice {s : State} (hrun : s.running = true) :
    exec (.servedNotice .channels) s
        = .next (s.onExchange (Exchange.takeChannelNotice ChannelMessage.isServed Exchange.applyChannelServed))
      ∧ exec (.servedNotice .players) s
        = .next (s.onExchange (Exchange.takePlayerNotice PlayerMessage.isServed Exchange.applyPlayerServed))
      ∧ exec .expiryAnswer s
        = .next (s.onExchange (Exchange.takePlayerNotice PlayerMessage.isAnswer Exchange.applyAnswer))
      ∧ exec .doneNotice s = .next (s.onExchange (Exchange.takeChannelNotice (fun m => m == .done) fun x e =>
          e.onNotice x.circ x.tag (Exchange.complete x.circ .treatmentDone)))
      ∧ exec .withdrawnNotice s = .next (s.onExchange (Exchange.takeChannelNotice (fun m => m == .withdrawn) fun x e =>
          e.onNotice x.circ x.tag (Exchange.complete x.circ .planWithdrawn)))
      ∧ exec .repeatsExhaustedNotice s = .next (s.onExchange (Exchange.takePlayerNotice (fun m => m == .exhausted) fun x e =>
          e.onNotice x.circ x.tag (Exchange.followOn x.circ)))
      ∧ exec .unavailableNotice s = .next (s.onExchange (Exchange.takePlayerNotice (fun m => m == .unavailable) fun x e =>
          e.onNotice x.circ x.tag (Exchange.fallBack x.circ .annUnavailable))) := by
  refine ⟨?_, ?_, ?_, ?_, ?_, ?_, ?_⟩
  · unfold exec execServedNotice
    exact event_of_running hrun
  · unfold exec execServedNotice
    exact event_of_running hrun
  · show execExpiryAnswer s = _
    exact event_of_running hrun
  · show execDoneNotice s = _
    exact event_of_running hrun
  · show execWithdrawnNotice s = _
    exact event_of_running hrun
  · show execRepeatsExhaustedNotice s = _
    exact event_of_running hrun
  · show execUnavailableNotice s = _
    exact event_of_running hrun

/-- Settles O34. -/
theorem servedAndStaleNotices : Obligations.ServedAndStaleNotices := by
  intro p g s C hrun hC
  obtain ⟨hservedChannels, hservedPlayers, hanswer, hdone, hwithdrawn, hexhausted, hunavailable⟩ := exec_takesNotice hrun
  have hcircuit : ∀ (cs : ChannelPool) (ps : PlayerPool),
      Exchange.circuit { s.exchange with chans := cs, players := ps } p = C := fun _ _ => hC
  refine ⟨fun m rest hnotices => ?channels, fun m rest hnotices => ?players⟩
  case channels =>
    have htake : ∀ (ok : ChannelMessage → Bool) (f : ChannelNotice → Exchange → Exchange), ok m = true →
        s.onExchange (Exchange.takeChannelNotice ok f)
          = s.withExchange (f ⟨p, g, m⟩ { s.exchange with chans := { s.chans with notices := rest } }) :=
      fun ok f hok => congrArg s.withExchange (Exchange.takeChannelNotice_cons (by exact hnotices) hok)
    refine ⟨fun k how hm htag hstate => ?_, fun htag i hi => ?_⟩
    · subst hm
      rw [hservedChannels, htake _ _ rfl]
      exact congrArg (fun e => Host.Outcome.next (s.withExchange e))
        (Exchange.servedOnChannel_of_waiting (hcircuit _ _) htag hstate k)
    · obtain ⟨hserved, -, -⟩ := Exchange.served_of_stale (hcircuit { s.chans with notices := rest } s.players) htag
      have hnotice := Exchange.onNotice_of_stale (hcircuit { s.chans with notices := rest } s.players) htag
      rcases hi with ⟨rfl, k, how, rfl⟩ | ⟨rfl, rfl⟩ | ⟨rfl, rfl⟩
      · rw [hservedChannels, htake _ _ rfl]
        exact congrArg (fun e => Host.Outcome.next (s.withExchange e)) (hserved k)
      · rw [hdone, htake _ _ rfl]
        exact congrArg (fun e => Host.Outcome.next (s.withExchange e)) (hnotice _)
      · rw [hwithdrawn, htake _ _ rfl]
        exact congrArg (fun e => Host.Outcome.next (s.withExchange e)) (hnotice _)
  case players =>
    have htake : ∀ (ok : PlayerMessage → Bool) (f : PlayerNotice → Exchange → Exchange), ok m = true →
        s.onExchange (Exchange.takePlayerNotice ok f)
          = s.withExchange (f ⟨p, g, m⟩ { s.exchange with players := { s.players with notices := rest } }) :=
      fun ok f hok => congrArg s.withExchange (Exchange.takePlayerNotice_cons (by exact hnotices) hok)
    refine ⟨fun n hm htag hstate hbinding => ?_, fun n htag hstate i hi => ?_, fun hm => ?_, fun htag i hi => ?_⟩
    · subst hm
      rw [hservedPlayers, htake _ _ rfl]
      exact congrArg (fun e => Host.Outcome.next (s.withExchange e))
        (Exchange.servedMoved_of_waiting (hcircuit _ _) htag hstate hbinding n)
    · have hheard := Exchange.servedListener_of_waiting (hcircuit s.chans { s.players with notices := rest }) htag hstate n
      rcases hi with ⟨rfl, rfl⟩ | ⟨rfl, rfl⟩
      · rw [hservedPlayers, htake _ _ rfl]
        exact congrArg (fun e => Host.Outcome.next (s.withExchange e)) hheard
      · rw [hanswer, htake _ _ rfl]
        exact congrArg (fun e => Host.Outcome.next (s.withExchange e)) hheard
    · subst hm
      rw [hanswer, htake _ _ rfl]
      rfl
    · obtain ⟨-, hmoved, hlistener⟩ := Exchange.served_of_stale (hcircuit s.chans { s.players with notices := rest }) htag
      have hnotice := Exchange.onNotice_of_stale (hcircuit s.chans { s.players with notices := rest }) htag
      rcases hi with ⟨rfl, n, rfl | rfl⟩ | ⟨rfl, rfl | ⟨n, rfl⟩⟩ | ⟨rfl, rfl⟩ | ⟨rfl, rfl⟩
      · rw [hservedPlayers, htake _ _ rfl]
        exact congrArg (fun e => Host.Outcome.next (s.withExchange e)) (hmoved n)
      · rw [hservedPlayers, htake _ _ rfl]
        exact congrArg (fun e => Host.Outcome.next (s.withExchange e)) (hlistener n)
      · rw [hanswer, htake _ _ rfl]
        exact congrArg (fun e => Host.Outcome.next (s.withExchange e)) (hnotice _)
      · rw [hanswer, htake _ _ rfl]
        exact congrArg (fun e => Host.Outcome.next (s.withExchange e)) (hlistener n)
      · rw [hexhausted, htake _ _ rfl]
        exact congrArg (fun e => Host.Outcome.next (s.withExchange e)) (hnotice _)
      · rw [hunavailable, htake _ _ rfl]
        exact congrArg (fun e => Host.Outcome.next (s.withExchange e)) (hnotice _)

/-! ### Expiry requests and their answers -/

theorem mem_allPlayers (n : PlayNo) : n ∈ allPlayers := by revert n; decide

/-- The one member that passes is the one found. -/
theorem find?_eq_some_of_unique {α : Type} {p : α → Bool} {l : List α} {a : α} (ha : a ∈ l) (hp : p a = true)
    (hunique : ∀ b, b ≠ a → p b = false) : l.find? p = some a := by
  cases hfind : l.find? p with
  | none => exact absurd hp (List.find?_eq_none.1 hfind a ha)
  | some b =>
    by_contra hne
    have hb := hunique b fun h => hne (by rw [h])
    rw [List.find?_some hfind] at hb
    cases hb

section
variable {e : Exchange} {c : Circ} {n : PlayNo}

theorem Exchange.listenerAt_eq_some (hn : ∃ l ∈ (e.player n).listeners, l.circ = c)
    (hothers : ∀ m, m ≠ n → ∀ l ∈ (e.player m).listeners, l.circ ≠ c) : e.listenerAt c = some n := by
  refine find?_eq_some_of_unique (mem_allPlayers n) ?_ fun m hm => ?_
  · rw [List.any_eq_true]
    obtain ⟨l, hl, hc⟩ := hn
    exact ⟨l, hl, beq_iff_eq.2 hc⟩
  · rw [List.any_eq_false]
    exact fun l hl hc => hothers m hm l hl (beq_iff_eq.1 hc)

theorem Exchange.listenerAt_eq_none (h : ∀ m, ∀ l ∈ (e.player m).listeners, l.circ ≠ c) : e.listenerAt c = none := by
  refine List.find?_eq_none.2 fun m _ hany => ?_
  obtain ⟨l, hl, hc⟩ := List.any_eq_true.1 hany
  exact h m l hl (beq_iff_eq.1 hc)

theorem Exchange.joinAt_eq_some (hn : ∃ j ∈ (e.player n).joins, j.circ = c)
    (hothers : ∀ m, m ≠ n → ∀ j ∈ (e.player m).joins, j.circ ≠ c) : e.joinAt c = some n := by
  refine find?_eq_some_of_unique (mem_allPlayers n) ?_ fun m hm => ?_
  · rw [List.any_eq_true]
    obtain ⟨j, hj, hc⟩ := hn
    exact ⟨j, hj, beq_iff_eq.2 hc⟩
  · rw [List.any_eq_false]
    exact fun j hj hc => hothers m hm j hj (beq_iff_eq.1 hc)

theorem Exchange.joinAt_eq_none (h : ∀ m, ∀ j ∈ (e.player m).joins, j.circ ≠ c) : e.joinAt c = none := by
  refine List.find?_eq_none.2 fun m _ hany => ?_
  obtain ⟨j, hj, hc⟩ := List.any_eq_true.1 hany
  exact h m j hj (beq_iff_eq.1 hc)

/-- A player record replaced, its status word marked. -/
def Exchange.showPlayer (n : PlayNo) (P : Player) (e : Exchange) : Exchange :=
  { e with
    players := { e.players with players := e.players.players.set n P }
    wire := { e.wire with dirty := e.wire.dirty.put (.player n) true } }

/-- A mark on top of a player record replaced leaves it marked once. -/
theorem Exchange.mark_setPlayer (e : Exchange) (n : PlayNo) (P : Player) :
    (e.setPlayer n P).mark (.player n) = e.showPlayer n P := by
  unfold Exchange.setPlayer
  dsimp only
  split
  · rfl
  · simp [Exchange.mark, Wire.mark, Exchange.showPlayer]

theorem Exchange.showPlayer_player (n : PlayNo) (P : Player) (m : PlayNo) :
    (e.showPlayer n P).player m = if m = n then P else e.player m :=
  vector_getElem_set_fin e.players.players n m P

theorem AnnListener.filter_ne_self {l : List AnnListener} {c : Circ} (h : ∀ x ∈ l, x.circ ≠ c) :
    l.filter (fun x => x.circ != c) = l :=
  List.filter_eq_self.2 fun x hx => bne_iff_ne.2 (h x hx)

/-- A circuit leaves the join list of a player that keeps a listener (R112). -/
theorem Exchange.removeFrom_of_heard {P : Player} (hP : e.player n = P) (hlisteners : ∀ l ∈ P.listeners, l.circ ≠ c)
    (hheard : P.listeners ≠ []) : e.removeFrom n c = e.showPlayer n { P with joins := P.joins.filter fun j => j.circ != c } := by
  unfold Exchange.removeFrom Exchange.afterRemoval
  dsimp only
  rw [hP, AnnListener.filter_ne_self hlisteners, Exchange.setPlayer_player, if_neg fun h => hheard h.1,
    if_neg fun h => hheard h.1, Exchange.mark_setPlayer]

end

/-- A circuit at the wait limit has its request sent (R14). -/
theorem Exchange.sendExpiry_of_reached {e : Exchange} {p : Circ} {C : Circuit} (hp : e.circuit p = C)
    (hlimit : C.limit = .reached) : e.sendExpiry p = { e with orders := { e.orders with
      circuits := e.orders.circuits.set p { C with limit := .requested }
      expiryReqs := e.orders.expiryReqs ++ [⟨p, C.tag⟩] } } := by
  unfold Exchange.sendExpiry
  rw [hp]
  dsimp only
  rw [if_pos hlimit, Exchange.setCircuit_of_same (by rw [hp]; simp [Circuit.sameShown])]

theorem exec_waitLimitReached {s : State} (hrun : s.running = true) (p : Circ) :
    exec (.waitLimitReached p) s = .next (s.onExchange (Exchange.sendExpiry p)) := by
  show execWaitLimitReached p s = _
  exact event_of_running hrun

theorem exec_expiryRequest {s : State} (hrun : s.running = true) :
    exec .expiryRequest s = .next (s.onExchange Exchange.takeExpiryReq) := by
  show execExpiryRequest s = _
  exact event_of_running hrun

/-- Settles O33. -/
theorem expiryRequestsAreAnswered : Obligations.ExpiryRequestsAreAnswered := by
  refine ⟨fun p s C hrun hC hlimit => ?_, fun s u q rest answer hrun hreqs hrest hu hanswer => ?_⟩
  · rw [exec_waitLimitReached hrun, State.onExchange, Exchange.sendExpiry_of_reached (e := s.exchange) hC hlimit]
    rfl
  · subst hu hanswer
    generalize he : ({ s.exchange with orders := { s.orders with expiryReqs := rest } } : Exchange) = e
    have hplayers : e.players = s.players := by rw [← he]; rfl
    have hplayer : ∀ m, e.player m = s.players.players[m] := fun m => by rw [← he]; rfl
    have hexec : ∀ f, e.takeExpiry q = f → exec .expiryRequest s = .next (s.withExchange f) := by
      intro f hf
      refine (exec_expiryRequest hrun).trans (congrArg (fun e => Host.Outcome.next (s.withExchange e)) ?_)
      have htake : s.exchange.takeExpiryReq
          = Exchange.takeExpiry { s.exchange with orders := { s.orders with expiryReqs := rest } } q := by
        unfold Exchange.takeExpiryReq
        have hreqs' : s.exchange.orders.expiryReqs = q :: rest := hreqs
        rw [hreqs']
        rfl
      rw [htake, he, hf]
    have close : ∀ f : Exchange, f.players.waitList = [] → f.players.view = s.players.view →
        (∀ m, (f.player m).atRest s.players = (s.players.players[m]).atRest s.players) → f.closePool = f :=
      fun f hw hview hsame => Exchange.closePool_rest hw fun m =>
        (Player.atRest_congr _ hview).trans ((hsame m).trans (hrest m List.not_mem_nil))
    refine ⟨fun n hw hn hothers => ?_, fun hlisteners => ⟨fun n P hw hP hn hheard hothers => ?_, fun hjoins => ⟨fun x hx hxc => ?_,
      fun hw => ?_⟩⟩⟩
    · have hat : e.listenerAt q.circ = some n := Exchange.listenerAt_eq_some (by rw [hplayer]; exact hn)
        fun m hm l hl => hothers m hm l (by rw [← hplayer]; exact hl)
      refine (hexec (e.playNotify q.circ q.tag (.listening n)) ?_).trans ?_
      · unfold Exchange.takeExpiry
        rw [hat]
        exact close _ (by rw [← hw, ← hplayers]; rfl) (by rw [← hplayers]; rfl) fun m => by rw [← hplayer]; rfl
      · rw [← he]; rfl
    · have hat : e.listenerAt q.circ = none := Exchange.listenerAt_eq_none fun m l hl =>
        hlisteners m l (by rw [← hplayer]; exact hl)
      have hjoin : e.joinAt q.circ = some n := Exchange.joinAt_eq_some (by rw [hplayer, hP]; exact hn)
        fun m hm j hj => hothers m hm j (by rw [← hplayer]; exact hj)
      have hnone : ∀ l ∈ P.listeners, l.circ ≠ q.circ := fun l hl => hlisteners n l (by rw [hP]; exact hl)
      have hremove := Exchange.removeFrom_of_heard (e := e) (n := n) ((hplayer n).trans hP) hnone hheard
      refine (hexec ((e.showPlayer n { P with joins := P.joins.filter fun j => j.circ != q.circ }).playNotify q.circ q.tag .expired) ?_).trans ?_
      · unfold Exchange.takeExpiry
        rw [hat]
        dsimp only
        rw [hjoin]
        dsimp only
        rw [hremove]
        refine close _ (by rw [← hw, ← hplayers]; rfl) (by rw [← hplayers]; rfl) fun m => ?_
        refine (congrArg (Player.atRest s.players) (Exchange.showPlayer_player n _ m)).trans ?_
        split
        · next hm => rw [hm, hP]; rfl
        · rw [hplayer]
      · rw [← he]; rfl
    · have hat : e.listenerAt q.circ = none := Exchange.listenerAt_eq_none fun m l hl =>
        hlisteners m l (by rw [← hplayer]; exact hl)
      have hjoin : e.joinAt q.circ = none := Exchange.joinAt_eq_none fun m j hj =>
        hjoins m j (by rw [← hplayer]; exact hj)
      refine (hexec ((e.setWaitList []).playNotify q.circ q.tag .expired) ?_).trans ?_
      · unfold Exchange.takeExpiry
        rw [hat]
        dsimp only
        rw [hjoin]
        dsimp only
        have hany : (e.players.waitList.any fun w => w.circ == q.circ) = true := by rw [hplayers, hx]; simp [hxc]
        have hfilter : (e.players.waitList.filter fun w => w.circ != q.circ) = [] := by rw [hplayers, hx]; simp [hxc]
        rw [if_pos hany, hfilter]
        exact close _ rfl (by rw [← hplayers]; rfl) fun m => by rw [← hplayer]; rfl
      · rw [← he]; rfl
    · have hat : e.listenerAt q.circ = none := Exchange.listenerAt_eq_none fun m l hl =>
        hlisteners m l (by rw [← hplayer]; exact hl)
      have hjoin : e.joinAt q.circ = none := Exchange.joinAt_eq_none fun m j hj =>
        hjoins m j (by rw [← hplayer]; exact hj)
      refine (hexec (e.playNotify q.circ q.tag .notHeld) ?_).trans ?_
      · unfold Exchange.takeExpiry
        rw [hat]
        dsimp only
        rw [hjoin]
        dsimp only
        rw [hplayers, hw]
        exact close _ (by rw [← hw, ← hplayers]; rfl) (by rw [← hplayers]; rfl) fun m => by rw [← hplayer]; rfl
      · rw [← he]; rfl

end Sys2Proof.Machine
end

