-- ==== Sys2Proof/Proofs/ToneChannels.lean ====
section
/-!
PROOF. What the channel pool does with the requests of the order unit, as the statements about it are worded: a reference given up
(chapter 2.6), a leave, a channel freed and the queue served with it (chapters 3.5 and 3.6), a tone start (chapter 3.2).
-/
namespace Sys2Proof.Machine

/-! ### References to banks -/

/-- A reference given up (R39, R40). -/
theorem State.onExchange_dropRef {s t : State} {b : Bank} (h : s.givesUp b t) : s.onExchange (Exchange.dropRef b) = t := by
  have hdrop : s.exchange.dropRef b = (if (s.plans.bank b).state = .draining ∧ (s.plans.bank b).refs - 1 = 0 then
      (Exchange.mark { s.exchange with plans := s.plans.setBank b { s.plans.bank b with
        state := .idle, refs := (s.plans.bank b).refs - 1 } } .global).submit .planTable .bankSwitched
          (((s.plans.setBank b { s.plans.bank b with state := .idle, refs := (s.plans.bank b).refs - 1 }).live.map
            Bank.num).getD 2) b.num
    else { s.exchange with plans := s.plans.setBank b { s.plans.bank b with refs := (s.plans.bank b).refs - 1 } }) := rfl
  rw [State.onExchange, hdrop]
  rcases h with ⟨hkeeps, rfl⟩ | ⟨l, hlive, hdraining, hlast, rfl⟩
  · rw [if_neg fun hends => hkeeps.elim (fun h => h hends.1) fun h => h hends.2]
    rfl
  · have hlive' : (s.plans.setBank b { s.plans.bank b with state := .idle, refs := (s.plans.bank b).refs - 1 }).live
        = some l := by cases b <;> exact hlive
    rw [if_pos ⟨hdraining, hlast⟩, hlive', hlast]
    rfl

/-- Giving up a reference moves no selector, no plan and no channel. -/
theorem State.givesUp_keeps {s t : State} {b : Bank} (h : s.givesUp b t) :
    t.chans = s.chans ∧ t.plans.live = s.plans.live ∧ ∀ c q, t.plans.plan c q = s.plans.plan c q := by
  rcases h with ⟨-, rfl⟩ | ⟨l, -, -, -, rfl⟩ <;>
  · refine ⟨rfl, by cases b <;> rfl, fun c q => ?_⟩
    cases b <;> cases c <;> rfl

section
variable {t : PlanTable} {q : PlanNo} {b : Bank}

theorem PlanTable.allocate_of_valid (hlive : t.live = some b) (hvalid : (t.plan b q).status = .valid) :
    t.allocate q = some (b, t.setBank b { t.bank b with refs := (t.bank b).refs + 1 }) := by
  unfold PlanTable.allocate
  rw [hlive]
  exact if_pos hvalid

theorem PlanTable.allocate_eq_none (h : ∀ b, t.live = some b → (t.plan b q).status ≠ .valid) : t.allocate q = none := by
  unfold PlanTable.allocate
  cases hlive : t.live with
  | none => rfl
  | some b => exact if_neg (h b hlive)

theorem PlanTable.plan_setBank_refs (b c : Bank) (n : Nat) :
    (t.setBank b { t.bank b with refs := n }).plan c q = t.plan c q := by
  cases b <;> cases c <;> rfl

end

theorem State.not_planUsable {s : State} {q : PlanNo} (h : ¬ s.planUsable q) :
    ∀ b, s.plans.live = some b → (s.plans.plan b q).status ≠ .valid :=
  fun b hlive hvalid => h ⟨b, hlive, hvalid⟩

/-! ### Serving the wait queue -/

/-- A waiter as a listener, and the notices it is sent (R48, R64). -/
def ToneWaiter.listener (w : ToneWaiter) : ToneListener := ⟨w.circ, w.tag, w.isPrivate⟩

def ToneWaiter.notice (w : ToneWaiter) (m : ChannelMessage) : ChannelNotice := ⟨w.circ, w.tag, m⟩

section
variable {e : Exchange} {k : ChanNo} {r : Run}

/-- Waiters join channel `k` in their order, each sent served. -/
theorem Exchange.foldl_serveInto (ws : List ToneWaiter) (hr : e.chan k = some r) :
    ws.foldl (Exchange.serveInto k) e = { e with chans := { e.chans with
      chans := e.chans.chans.set k (some { r with
        listeners := ws.foldl (fun ls w => insertToneListener w.listener ls) r.listeners })
      notices := e.chans.notices ++ ws.map fun w => w.notice (.served k .joined) } } := by
  induction ws generalizing e r with
  | nil =>
    have hself : e.chans.chans.set k (some r) = e.chans.chans := by
      rw [← hr]
      exact Vector.set_getElem_self k.isLt
    simp only [List.foldl_nil, List.map_nil, List.append_nil, hself]
  | cons w ws ih =>
    have hstep : e.serveInto k w = { e with chans := { e.chans with
        chans := e.chans.chans.set k (some { r with listeners := insertToneListener w.listener r.listeners })
        notices := e.chans.notices ++ [w.notice (.served k .joined)] } } := by
      unfold Exchange.serveInto Exchange.joinChan
      rw [hr]
      rfl
    rw [List.foldl_cons, ih (r := { r with listeners := insertToneListener w.listener r.listeners })
      (by rw [hstep]; exact Exchange.setChan_chan e k _), hstep]
    simp only [Vector.set_set, List.append_assoc, List.map_cons, List.singleton_append, List.foldl_cons]

theorem Exchange.serveShared_eq (q : PlanNo) (hr : e.chan k = some r) : e.serveShared k q = { e with chans := {
    chans := e.chans.chans.set k (some { r with
      listeners := (e.chans.queue.filter (ToneWaiter.sharedOn q)).foldl (fun ls w => insertToneListener w.listener ls)
        r.listeners })
    queue := e.chans.queue.filter fun w => !w.sharedOn q
    notices := e.chans.notices
      ++ (e.chans.queue.filter (ToneWaiter.sharedOn q)).map fun w => w.notice (.served k .joined) } } := by
  unfold Exchange.serveShared
  exact Exchange.foldl_serveInto (e := e.setToneQueue (e.chans.queue.filter fun w => !w.sharedOn q)) _ hr

theorem Exchange.serveQueueFrom_cons_of_unusable (w : ToneWaiter) (rest : List ToneWaiter)
    (h : e.plans.allocate w.plan = none) : Exchange.serveQueueFrom k (w :: rest) e
      = Exchange.serveQueueFrom k rest ((e.setToneQueue rest).chanNotify w.circ w.tag .withdrawn) := by
  have halloc : (e.setToneQueue rest).allocChan k w.plan ⟨w.circ, w.tag, w.isPrivate⟩ = none := by
    unfold Exchange.allocChan
    rw [Exchange.setToneQueue_plans, h]
  rw [Exchange.serveQueueFrom, halloc]

/-- Waiters whose plan cannot be used are sent withdrawn in their order (R64). -/
theorem Exchange.serveQueueFrom_unusable (before rest : List ToneWaiter)
    (h : ∀ w ∈ before, e.plans.allocate w.plan = none) : Exchange.serveQueueFrom k (before ++ rest) e
      = Exchange.serveQueueFrom k rest { e with chans := { e.chans with
          queue := if before = [] then e.chans.queue else rest
          notices := e.chans.notices ++ before.map fun w => w.notice .withdrawn } } := by
  induction before generalizing e with
  | nil => simp
  | cons w before ih =>
    have hw := h w List.mem_cons_self
    rw [List.cons_append, Exchange.serveQueueFrom_cons_of_unusable w _ hw,
      ih (e := (e.setToneQueue (before ++ rest)).chanNotify w.circ w.tag .withdrawn)
        fun x hx => h x (List.mem_cons_of_mem w hx)]
    congr 1
    simp only [Exchange.chanNotify, Exchange.setToneQueue, List.append_assoc, List.map_cons, List.singleton_append,
      List.cons_ne_nil, if_false]
    cases before <;> rfl

/-- A waiter whose plan is valid takes the channel; when it is shared, the other shared waiters on its plan join it (R64). -/
theorem Exchange.serveQueueFrom_cons_of_usable {b : Bank} (w : ToneWaiter) (rest : List ToneWaiter)
    (hlive : e.plans.live = some b) (hvalid : (e.plans.plan b w.plan).status = .valid) :
    Exchange.serveQueueFrom k (w :: rest) e =
      (let joined := if w.isPrivate then [] else rest.filter (ToneWaiter.sharedOn w.plan)
      { e with
        plans := e.plans.setBank b { e.plans.bank b with refs := (e.plans.bank b).refs + 1 }
        chans := {
          chans := e.chans.chans.set k (some { Run.start w.isPrivate b w.plan (e.plans.plan b w.plan) w.listener with
            listeners := joined.foldl (fun ls y => insertToneListener y.listener ls) [w.listener] })
          queue := rest.filter fun y => w.isPrivate || !y.sharedOn w.plan
          notices := e.chans.notices ++ [w.notice (.served k .allocated)]
            ++ joined.map fun y => y.notice (.served k .joined) } }) := by
  generalize ht : e.plans.setBank b { e.plans.bank b with refs := (e.plans.bank b).refs + 1 } = t
  have hplan : t.plan b w.plan = e.plans.plan b w.plan := by rw [← ht]; exact PlanTable.plan_setBank_refs b b _
  have halloc : (e.setToneQueue rest).allocChan k w.plan ⟨w.circ, w.tag, w.isPrivate⟩ = some (Exchange.setChan k
      (some (Run.start w.isPrivate b w.plan (e.plans.plan b w.plan) w.listener)) { e.setToneQueue rest with plans := t }) := by
    unfold Exchange.allocChan
    rw [Exchange.setToneQueue_plans, PlanTable.allocate_of_valid hlive hvalid, ht]
    dsimp only
    rw [hplan]
    rfl
  rw [Exchange.serveQueueFrom, halloc]
  dsimp only
  cases hprivate : w.isPrivate with
  | true =>
    simp only [Bool.true_or, List.filter_true, if_true, List.foldl_nil, List.map_nil, List.append_nil]
    rfl
  | false =>
    simp only [Bool.false_or, Bool.false_eq_true, if_false]
    rw [Exchange.serveShared_eq w.plan (r := Run.start false b w.plan (e.plans.plan b w.plan) w.listener)
      (by exact Exchange.setChan_chan _ k _)]
    simp only [Exchange.chanNotify, Exchange.setChan, Exchange.setToneQueue, Vector.set_set]
    rfl

end

/-- The channel as the statements write an allocation out (R50). -/
theorem Run.start_eq_allocated (s : State) (v : Bool) (b : Bank) (q : PlanNo) (l : ToneListener) (ls : List ToneListener) :
    { Run.start v b q (s.plans.plan b q) l with listeners := ls } = s.allocated v b q ls := rfl

/-- FREE channel `k` serves the queue (R64). -/
theorem State.onExchange_serveToneQueue {s t : State} {k : ChanNo} (h : s.servesWaiters k t) :
    s.onExchange (Exchange.serveToneQueue k) = t := by
  unfold State.onExchange Exchange.serveToneQueue
  rcases h with ⟨hnone, rfl⟩ | ⟨b, before, after, joined, x, hlive, hqueue, hbefore, hx, hjoined, rfl⟩
  · have hall : ∀ w ∈ s.exchange.chans.queue, s.exchange.plans.allocate w.plan = none := fun w hw =>
      PlanTable.allocate_eq_none (State.not_planUsable (hnone w hw))
    have hserve := Exchange.serveQueueFrom_unusable (e := s.exchange) (k := k) s.exchange.chans.queue [] hall
    rw [List.append_nil] at hserve
    rw [hserve]
    rfl
  · have hall : ∀ w ∈ before, s.exchange.plans.allocate w.plan = none := fun w hw =>
      PlanTable.allocate_eq_none fun c hc => by
        obtain rfl : b = c := Option.some.inj (hlive.symm.trans hc)
        exact hbefore w hw
    have hqueue' : s.exchange.chans.queue = before ++ x :: after := hqueue
    rw [hqueue', Exchange.serveQueueFrom_unusable _ _ hall,
      Exchange.serveQueueFrom_cons_of_usable (b := b) x after (by exact hlive) (by exact hx), hjoined]
    have hqueued : (after.filter fun y => x.isPrivate || !y.sharedOn x.plan)
        = after.filter fun y => x.isPrivate || y.isPrivate || y.plan != x.plan := by
      refine List.filter_congr fun y _ => ?_
      unfold ToneWaiter.sharedOn
      cases x.isPrivate <;> cases y.isPrivate <;> simp [bne]
    dsimp only
    rw [hqueued]
    rfl

/-! ### A channel freed, and leaves -/

section
variable {s t : State} {p : Circ} {k : ChanNo} {r : Run}

theorem State.onExchange_onExchange (s : State) (f g : Exchange → Exchange) :
    (s.onExchange f).onExchange g = s.onExchange fun e => g (f e) := rfl

/-- Channel `k` becomes FREE and serves the queue (R62). -/
theorem State.onExchange_freeChan (hr : s.chans.chans[k] = some r) (h : s.freesChannel k r t) :
    s.onExchange (Exchange.freeChan k true) = t := by
  obtain ⟨u, hu, ht⟩ := h
  have hdrop := State.onExchange_dropRef hu
  have hserve := State.onExchange_serveToneQueue ht
  have hfree : s.exchange.freeChan k true = ((s.exchange.setChan k none).dropRef r.bank).serveToneQueue k := by
    unfold Exchange.freeChan
    have hr' : s.exchange.chan k = some r := hr
    rw [hr']
    rfl
  rw [State.onExchange, hfree, ← hserve, ← hdrop]
  rfl

theorem Exchange.chanOf_eq_some {e : Exchange} (hr : e.chan k = some r) (hp : ∃ l ∈ r.listeners, l.circ = p)
    (hothers : ∀ (j : ChanNo) (u : Run), j ≠ k → e.chan j = some u → ∀ l ∈ u.listeners, l.circ ≠ p) :
    e.chanOf p = some k := by
  refine find?_eq_some_of_unique (List.mem_finRange k) ?_ fun j hj => ?_
  · rw [hr]
    obtain ⟨l, hl, hc⟩ := hp
    exact List.any_eq_true.2 ⟨l, hl, beq_iff_eq.2 hc⟩
  · cases hu : e.chan j with
    | none => rfl
    | some u => exact List.any_eq_false.2 fun l hl hc => hothers j u hj hu l hl (beq_iff_eq.1 hc)

theorem Exchange.chanOf_eq_none {e : Exchange}
    (h : ∀ (j : ChanNo) (u : Run), e.chan j = some u → ∀ l ∈ u.listeners, l.circ ≠ p) : e.chanOf p = none := by
  refine List.find?_eq_none.2 fun j _ hany => ?_
  cases hu : e.chan j with
  | none => rw [hu] at hany; cases hany
  | some u =>
    rw [hu] at hany
    obtain ⟨l, hl, hc⟩ := List.any_eq_true.1 hany
    exact h j u hu l hl (beq_iff_eq.1 hc)

/-- Circuit `p` leaves the channel pool (R61). -/
theorem State.onExchange_leaveTone (h : s.leavesChannels p t) : s.onExchange (Exchange.leaveTone p) = t := by
  unfold State.onExchange Exchange.leaveTone
  rcases h with ⟨⟨x, hx, hxp⟩, rfl⟩ | ⟨hqueue, hheld⟩
  · have hany : (s.exchange.chans.queue.any fun w => w.circ == p) = true :=
      List.any_eq_true.2 ⟨x, hx, beq_iff_eq.2 hxp⟩
    rw [if_pos hany]
    rfl
  · have hany : (s.exchange.chans.queue.any fun w => w.circ == p) = false :=
      List.any_eq_false.2 fun w hw hc => hqueue w hw (beq_iff_eq.1 hc)
    rw [if_neg (by rw [hany]; exact Bool.false_ne_true)]
    rcases hheld with ⟨hnone, rfl⟩ | ⟨k, r, others, hr, hp, hothers, rfl, hrest⟩
    · rw [Exchange.chanOf_eq_none (by exact hnone)]
      rfl
    · have hr' : s.exchange.chan k = some r := hr
      rw [Exchange.chanOf_eq_some hr' hp (by exact hothers)]
      dsimp only
      rw [hr']
      dsimp only
      rcases hrest with ⟨hsome, rfl⟩ | ⟨hnone, hfree⟩
      · rw [if_neg hsome]
        rfl
      · rw [if_pos hnone, hnone]
        generalize hu :
          ({ s with chans := { s.chans with chans := s.chans.chans.set k (some { r with listeners := [] }) } } : State) = u
        have hku : u.chans.chans[k] = some { r with listeners := [] } := by
          rw [← hu]
          exact Exchange.setChan_chan s.exchange k _
        have hfree' : u.freesChannel k { r with listeners := [] } t := by
          obtain ⟨v, hv, ht⟩ := hfree
          refine ⟨v, ?_, ht⟩
          have hsame : ({ u with chans := { u.chans with chans := u.chans.chans.set k none } } : State)
              = { s with chans := { s.chans with chans := s.chans.chans.set k none } } := by
            rw [← hu]
            simp only [Vector.set_set]
          rw [hsame]
          exact hv
        have hfreed := State.onExchange_freeChan hku hfree'
        rw [← hfreed, ← hu]
        rfl

end

/-! ### Tone starts -/

/-- The lowest-numbered channel that passes is the one found. -/
theorem find?_allChannels {f : ChanNo → Bool} {k : ChanNo} (hk : f k = true) (hbelow : ∀ j, j < k → f j = false) :
    allChannels.find? f = some k := by
  refine find?_of_rising (f := Fin.val) ?_ (List.mem_finRange k) hk fun j hj => ?_
  · exact (List.pairwise_lt_finRange 16).imp fun h => h
  · by_contra hlt
    rw [hbelow j (Fin.lt_def.2 (Nat.not_le.1 hlt))] at hj
    cases hj

section
variable {e : Exchange} {s : State} {q : PlanNo} {b : Bank} {k : ChanNo}

theorem Exchange.freeChannel_eq_some (hk : e.chan k = none) (hbelow : ∀ j, j < k → e.chan j ≠ none) :
    e.freeChannel = some k :=
  find?_allChannels (by rw [hk]; rfl) fun j hj => by
    obtain ⟨r, hr⟩ := Option.ne_none_iff_exists'.1 (hbelow j hj)
    rw [hr]
    rfl

theorem Exchange.freeChannel_eq_none (h : ∀ j, e.chan j ≠ none) : e.freeChannel = none := by
  refine List.find?_eq_none.2 fun j _ hj => h j (Option.isNone_iff_eq_none.1 hj)

/-- With the plan valid in the live bank, the channel pool joins the channels the statement calls joinable (R37, R49). -/
theorem Exchange.joinable_eq (hplans : e.plans = s.plans) (hchans : e.chans.chans = s.chans.chans)
    (hlive : s.plans.live = some b) (hvalid : (s.plans.plan b q).status = .valid) :
    e.joinable q = allChannels.find? (s.joinable q) := by
  unfold Exchange.joinable
  congr 1
  funext k
  unfold State.joinable Exchange.chan
  rw [hchans, hplans]
  cases s.chans.chans[k] with
  | none => rfl
  | some r =>
    dsimp only
    unfold PlanTable.joinGranted
    by_cases hb : r.bank = b
    · rw [hb, hlive, hvalid]
      simp
    · have hne : (s.plans.live == some r.bank) = false := by
        rw [hlive]
        simpa using fun h => hb h.symm
      rw [hne, Bool.false_and]

theorem Exchange.joinChan_eq {r : Run} (hr : e.chan k = some r) (l : ToneListener) :
    e.joinChan k l = e.setChan k (some { r with listeners := insertToneListener l r.listeners }) := by
  unfold Exchange.joinChan
  rw [hr]

theorem Exchange.startFree_eq (hlive : e.plans.live = some b) (hvalid : (e.plans.plan b q).status = .valid)
    (l : ToneListener) : e.startFree k q l = (.served k .allocated, Exchange.setChan k
      (some (Run.start l.isPrivate b q (e.plans.plan b q) l))
      { e with plans := e.plans.setBank b { e.plans.bank b with refs := (e.plans.bank b).refs + 1 } }) := by
  unfold Exchange.startFree Exchange.allocChan
  rw [PlanTable.allocate_of_valid hlive hvalid]
  dsimp only
  rw [PlanTable.plan_setBank_refs]

end

end Sys2Proof.Machine
end

