-- ==== Sys2Proof/Proofs/ToneStarts.lean ====
section
/-!
PROOF. The start of a tone entry (chapters 1.3 and 3.2): the order unit's side of it, with the record of the circuit, and the pool's.
-/
namespace Sys2Proof.Machine

/-- A circuit bound by a start, whatever its record said before of state, binding, gap and wait (R13, R14). -/
def Circuit.bound (D : Circuit) (st : CircuitState) (b : Binding) : Circuit :=
  { D with state := st, binding := b, gapLeft := 0, waited := 0, limit := .counting }

/-- The exchange at the start of an entry: that of `s`, with circuit `p` holding a record `D` that the start of `C` binds. Its
status word is marked already, but for a circuit in GAP, whose start is what changes the word. -/
structure Exchange.Starting (e : Exchange) (s : State) (p : Circ) (C D : Circuit) : Prop where
  tag : D.tag = C.tag + 1
  bound : ∀ st b, D.bound st b = C.started st b
  exchange : e = s.exchange.showCircuit p D ∨ D.state = .gap
    ∧ e = { s.exchange with orders := { s.orders with circuits := s.orders.circuits.set p D } }

section
variable {e : Exchange} {s t : State} {p : Circ} {C D : Circuit}

theorem Exchange.Starting.circuit (h : e.Starting s p C D) : e.circuit p = D := by
  rcases h.exchange with he | ⟨-, he⟩
  · rw [he, Exchange.showCircuit_circuit]
  · rw [he]
    exact Exchange.circuit_replaced p D s.exchange

theorem Exchange.Starting.pools (h : e.Starting s p C D) :
    e.plans = s.plans ∧ e.chans = s.chans ∧ e.players = s.players ∧ e.cong = s.cong
      ∧ e.wire.submitted = s.wire.submitted := by
  rcases h.exchange with he | ⟨-, he⟩ <;> rw [he] <;> exact ⟨rfl, rfl, rfl, rfl, rfl⟩

/-- Binding the circuit gives the record of `Circuit.started` and marks its status word, whatever the pools have done since. -/
theorem Exchange.Starting.bindCircuit (h : e.Starting s p C D) {st : CircuitState} (b : Binding) (hst : st ≠ .gap)
    {x : Exchange} (horders : x.orders = e.orders) (hdirty : x.wire.dirty = e.wire.dirty) :
    x.bindCircuit p st b = { x with
      orders := { s.orders with circuits := s.orders.circuits.set p (C.started st b) }
      wire := { x.wire with dirty := s.wire.dirty.put (.circuit p) true } } := by
  have hx : x.circuit p = D := by
    unfold Exchange.circuit
    rw [horders]
    exact h.circuit
  have hbind : x.bindCircuit p st b = x.setCircuit p (C.started st b) := by
    rw [← h.bound]
    unfold Exchange.bindCircuit
    rw [hx]
    rfl
  rw [hbind]
  obtain ⟨w, pl, ch, py, od, cg⟩ := x
  obtain ⟨sub, dirty⟩ := w
  dsimp only at horders hdirty
  rcases h.exchange with rfl | ⟨hgap, rfl⟩
  · subst horders hdirty
    rw [Exchange.setCircuit]
    split <;>
    · simp only [Exchange.mark, Wire.mark, Exchange.showCircuit, DirtyMarks.put_put, Vector.set_set]
      rfl
  · rw [Exchange.setCircuit_of_shown, horders, hdirty]
    · simp only [Exchange.showCircuit, Vector.set_set]
      rfl
    · rw [hx]
      exact Circuit.sameShown_of_state_ne fun heq => hst (heq.symm.trans hgap)

/-- The channel pool's answer to a start, by the cases of the statements (R49, R50). -/
theorem Exchange.Starting.startTone (h : e.Starting s p C D) {v : Bool} {q : PlanNo} {b : Bank} (l : ToneListener)
    (hl : l = ⟨p, C.tag + 1, v⟩) (hlive : s.plans.live = some b) (hvalid : (s.plans.plan b q).status = .valid) :
    (∀ k : ChanNo, s.chans.chans[k] = none → (∀ j : ChanNo, j < k → s.chans.chans[j] ≠ none) →
      (v = true ∨ ∀ j, s.joinable q j = false) → e.startTone p (C.tag + 1) v q = (.served k .allocated, Exchange.setChan k
        (some (s.allocated v b q [l]))
        { e with plans := s.plans.setBank b { s.plans.bank b with refs := (s.plans.bank b).refs + 1 } }))
    ∧ (∀ (k : ChanNo) (r : Run), s.chans.chans[k] = some r → s.joinable q k = true →
      (∀ j : ChanNo, j < k → s.joinable q j = false) → (v = true → ∀ j : ChanNo, s.chans.chans[j] ≠ none) →
      e.startTone p (C.tag + 1) v q = (.served k (if v then .degraded else .joined),
        (fun x : Exchange => if v then x.submit .channelPool .privateDegraded p.val (0x100 * k.val + q.val) else x)
          (e.setChan k (some { r with listeners := insertToneListener l r.listeners }))))
    ∧ ((∀ j, s.joinable q j = false) → (∀ j : ChanNo, s.chans.chans[j] ≠ none) →
      e.startTone p (C.tag + 1) v q = (.queued, e.queueTone p (C.tag + 1) v q)) := by
  obtain ⟨hplans, hchans, -⟩ := h.pools
  have hchan : ∀ j, e.chan j = s.chans.chans[j] := fun j => by rw [Exchange.chan, hchans]
  have hjoin : e.joinable q = allChannels.find? (s.joinable q) :=
    Exchange.joinable_eq hplans (by rw [hchans]) hlive hvalid
  have hnojoin : (∀ j, s.joinable q j = false) → e.joinable q = none := fun hno => by
    rw [hjoin]
    exact List.find?_eq_none.2 fun j _ hj => Bool.false_ne_true ((hno j).symm.trans hj)
  have hnofree : (∀ j : ChanNo, s.chans.chans[j] ≠ none) → e.freeChannel = none := fun hno =>
    Exchange.freeChannel_eq_none fun j => by rw [hchan]; exact hno j
  refine ⟨fun k hk hbelow hv => ?_, fun k r hr hk hbelow hv => ?_, fun hno hfull => ?_⟩
  · have hfree : e.freeChannel = some k :=
      Exchange.freeChannel_eq_some ((hchan k).trans hk) fun j hj => by rw [hchan]; exact hbelow j hj
    have hstart := Exchange.startFree_eq (e := e) (k := k) (q := q) (b := b) (by rw [hplans]; exact hlive)
      (by rw [hplans]; exact hvalid) l
    rw [hplans] at hstart
    subst hl
    cases v with
    | true =>
      rw [Exchange.startTone, if_pos rfl, Exchange.startPrivate, hfree]
      exact hstart
    | false =>
      rw [Exchange.startTone, if_neg Bool.false_ne_true, Exchange.startShared,
        hnojoin (hv.resolve_left Bool.false_ne_true), hfree]
      exact hstart
  · have hfound : e.joinable q = some k := by
      rw [hjoin]
      exact find?_allChannels hk hbelow
    have hjoined := Exchange.joinChan_eq ((hchan k).trans hr) l
    subst hl
    cases v with
    | true =>
      rw [Exchange.startTone, if_pos rfl, Exchange.startPrivate, hnofree (hv rfl), hfound]
      dsimp only
      rw [hjoined]
      rfl
    | false =>
      rw [Exchange.startTone, if_neg Bool.false_ne_true, Exchange.startShared, hfound]
      dsimp only
      rw [hjoined]
      rfl
  · cases v with
    | true => rw [Exchange.startTone, if_pos rfl, Exchange.startPrivate, hnofree hfull, hnojoin hno]
    | false =>
      rw [Exchange.startTone, if_neg Bool.false_ne_true, Exchange.startShared, hnojoin hno, hnofree hfull]

/-- A tone entry starts (R13, R49, R50). -/
theorem Exchange.Starting.startToneEntry (h : e.Starting s p C D) (c : Cls) (x : Entry) {v : Bool} {q : PlanNo}
    (hs : s.startsTone p C v q t) : ∃ e', e.startToneEntry p c x v q = (true, e') ∧ s.withExchange e' = t := by
  obtain ⟨b, hlive, hvalid, hcases⟩ := hs
  obtain ⟨hfree, hjoin, hqueue⟩ := h.startTone (v := v) _ rfl hlive hvalid
  have husable : e.plans.validLive q = true := by
    rw [h.pools.1]
    exact (State.validLive_iff s q).2 ⟨b, hlive, hvalid⟩
  have hserved : ∀ (k : ChanNo) (how : ServedHow) (x' : Exchange), e.startTone p (C.tag + 1) v q = (.served k how, x') →
      e.startToneEntry p c x v q = (true, x'.bindCircuit p .tone (.channel k)) := fun k how x' hstart => by
    rw [Exchange.startToneEntry, if_pos husable, h.circuit, h.tag, hstart]
  have hqueued : ∀ x' : Exchange, e.startTone p (C.tag + 1) v q = (.queued, x') →
      e.startToneEntry p c x v q = (true, x'.bindCircuit p .channelWait .channelQueue) := fun x' hstart => by
    rw [Exchange.startToneEntry, if_pos husable, h.circuit, h.tag, hstart]
  rcases hcases with ⟨k, hk, hbelow, hv, rfl⟩ | ⟨k, r, u, hr, hk, hbelow, hv, rfl, rfl⟩ | ⟨hno, hfull, rfl⟩
  · refine ⟨_, hserved _ _ _ (hfree k hk hbelow hv), ?_⟩
    rw [h.bindCircuit (.channel k) (by decide) (by rfl) (by rfl)]
    rcases h.exchange with rfl | ⟨-, rfl⟩ <;> rfl
  · refine ⟨_, hserved _ _ _ (hjoin k r hr hk hbelow hv), ?_⟩
    rw [h.bindCircuit (.channel k) (by decide) (by cases v <;> rfl) (by cases v <;> rfl)]
    rcases h.exchange with rfl | ⟨-, rfl⟩ <;> cases v <;> rfl
  · refine ⟨_, hqueued _ (hqueue hno hfull), ?_⟩
    rw [h.bindCircuit .channelQueue (by decide) (by rfl) (by rfl)]
    rcases h.exchange with rfl | ⟨-, rfl⟩ <;> rfl

end

end Sys2Proof.Machine
end

