-- ==== Sys2Proof/Proofs/OrderSets.lean ====
section
/-!
PROOF. What an order does to the set of its circuit (chapters 1.2 to 1.5): below the active class, in a changeover gap, emptying the
set, and the start on a QUIET circuit. O25, O26, O27.
-/
namespace Sys2Proof.Machine

/-! ### The set and its active class -/

/-- A class written at or above the active one is the active one. -/
theorem activeClass_set_above {T : TreatmentSet} {c d : Cls} (x : Entry) (h : activeClass T = some d) (hc : d ≤ c) :
    activeClass (T.set c (some x)) = some c := by
  unfold activeClass at h ⊢
  simp only [Vector.getElem_set]
  revert h hc
  revert c d
  apply cls_cases <;> apply cls_cases <;> simp <;> intros <;> split_ifs at * <;> simp_all

theorem activeClass_isSome_iff {T : TreatmentSet} {d : Cls} (h : activeClass T = some d) : T[d] ≠ none := by
  unfold activeClass at h
  revert h
  revert d
  apply cls_cases <;> simp <;> intros <;> split_ifs at * <;> simp_all [Option.isSome_iff_ne_none]

theorem activeClass_set_none_ne {T : TreatmentSet} (d : Cls) : activeClass (T.set d none) ≠ some d := fun h =>
  activeClass_isSome_iff h (Vector.getElem_set_self d.isLt)

theorem activeClass_empty : activeClass (Vector.replicate 4 none) = none := rfl

/-- The set of class `d` alone, without it. -/
theorem set_none_of_only {T : TreatmentSet} {c : Cls} (h : ∀ d : Cls, d ≠ c → T[d] = none) :
    T.set c none = Vector.replicate 4 none := by
  refine Vector.ext fun i hi => ?_
  rw [Vector.getElem_set, Vector.getElem_replicate]
  split_ifs with hic
  · rfl
  · exact h ⟨i, hi⟩ fun heq => hic (congrArg Fin.val heq).symm

theorem Circuit.active_of_consistent {C : Circuit} (hC : C.consistent = true) (h : C.state ≠ .quiet) :
    ∃ d, activeClass C.set = some d := by
  unfold Circuit.consistent at hC
  simp only [Bool.and_eq_true, beq_iff_eq] at hC
  obtain ⟨⟨-, hquiet⟩, -⟩ := hC
  rw [beq_eq_false_iff_ne.2 h] at hquiet
  exact Option.isSome_iff_exists.1 (Option.isNone_eq_false_iff.1 hquiet.symm)

theorem Circuit.not_quiet_of_consistent {C : Circuit} {d : Cls} (hC : C.consistent = true) (hd : activeClass C.set = some d) :
    C.state ≠ .quiet := fun h => by
  rw [(Circuit.quiet_of_consistent hC h).1, activeClass_empty] at hd
  cases hd

theorem Circuit.latched_of_consistent {C : Circuit} (hC : C.consistent = true) :
    C.latched = (activeEntry C.set).bind fun x => x.origin.map Origin.grade := by
  unfold Circuit.consistent at hC
  simp only [Bool.and_eq_true, beq_iff_eq] at hC
  exact hC.2

theorem Circuit.binding_eq_none_iff {C : Circuit} (hC : C.consistent = true) :
    C.binding = .none ↔ C.state = .quiet ∨ C.state = .gap := by
  unfold Circuit.consistent at hC
  simp only [Bool.and_eq_true] at hC
  obtain ⟨⟨hfits, -⟩, -⟩ := hC
  unfold bindingFits at hfits
  cases hstate : C.state <;> cases hbinding : C.binding <;> rw [hstate, hbinding] at hfits <;> simp_all

/-! ### An order that takes away the active entry -/

/-- The record of a circuit whose set has become `T`, bound nowhere (R11, R12, R15). -/
def Circuit.unbound (T : TreatmentSet) (C : Circuit) : Circuit :=
  { C with
    set := T, binding := .none, waited := 0, limit := .counting
    latched := (activeEntry T).bind fun x => x.origin.map Origin.grade }

/-- What follows the leave of a circuit with record `C` whose set becomes `T` (R11, R12, R19). -/
def Exchange.afterLeave (p : Circ) (C : Circuit) (T : TreatmentSet) (x : Exchange) : Exchange :=
  let y := (x.setCircuit p { C with binding := .none, waited := 0, limit := .counting }).setCircuit p (C.unbound T)
  if activeClass T = none then y.enterQuiet p
  else if C.state = .gap then y
  else y.proceed p C.state

section
variable {e x : Exchange} {s t : State} {p : Circ} {w : Word} {i : Instr} {C : Circuit} {c d : Cls} {T : TreatmentSet}
  {reps : Option (Fin 16)}

/-- A change of set that is not below the active class releases the binding and settles the new set (R10 to R12). -/
theorem Exchange.changeSet_eq {before placed : Option Cls} {T0 : TreatmentSet} (hp : e.circuit p = C)
    (hbefore : activeClass C.set = before) (hchange : ¬ (activeClass T0 = before ∧ (placed = none ∨ placed ≠ before)))
    (hdormant : T0.makeDormant (if placed = before then none else before) reps = T) (hleave : e.leave p = (reps, x))
    (hx : x.circuit p = C) : e.changeSet p T0 placed = x.afterLeave p C T := by
  have hrelease : e.release p
      = (reps, x.setCircuit p { C with binding := .none, waited := 0, limit := .counting }) := by
    rw [Exchange.release, hleave, hx]
  rw [Exchange.changeSet, hp, hbefore]
  dsimp only
  rw [if_neg hchange, hrelease]
  dsimp only
  rw [hdormant, Exchange.setCircuit_circuit]
  rfl

/-- A QUIET order as a change of set (R10). -/
theorem exec_quiet (hhead : s.headIs p.val w = true) (hC : s.orders.circuits[p] = C) (hcode : w.toNat / 4096 = 0)
    (hcls : c.val = w.toNat / 1024 % 4) :
    exec (.quiet p w) s = .next (s.taken.onExchange (Exchange.changeSet p (C.set.set c none) none)) := by
  obtain rfl := orderClass_eq w c hcls
  have hp : s.taken.exchange.circuit p = C := hC
  refine (hearingWord_of_headIs (code := 0) hhead hcode.symm).trans ?_
  rw [State.onExchange, Exchange.orderQuiet, hp]
  rfl

/-- An accepted order as a change of set (R10). -/
theorem exec_accepts {k : Treatment} (hhead : s.headIs p.val w = true) (hC : s.orders.circuits[p] = C)
    (hcls : c.val = w.toNat / 1024 % 4) (haccept : s.accepts p w i k) : exec i s = .next (s.taken.onExchange
      (Exchange.changeSet p (C.set.set c (some (C.newEntry k))) (some c))) := by
  have hp : s.taken.exchange.circuit p = C := hC
  rw [exec_of_accepts hhead haccept, orderClass_eq w c hcls, State.onExchange, Exchange.place, hp]
  rfl

/-- A dormant entry as the statements write it out (R17). -/
theorem Entry.dormant_eq (reps : Option (Fin 16)) (x : Entry) : x.dormant reps = (match x.origin, x.treat, reps with
    | some o, _, _ => ⟨.congestion o.route, none, none, none⟩
    | none, .announce r _, some n => { x with treat := .announce r n }
    | none, _, _ => x) := by
  obtain ⟨treat, follow, fallback, origin⟩ := x
  cases origin with
  | some o => rfl
  | none => cases treat <;> cases reps <;> rfl

/-- An order that takes away the active entry: the circuit leaves its pool, and its set `T` is settled (R10 to R12, R17). -/
theorem exec_of_supersedes (hhead : s.headIs p.val w = true) (hC : s.orders.circuits[p] = C)
    (hd : activeClass C.set = some d) (hsup : s.supersedes p w i C d reps T)
    (hleave : s.taken.exchange.leave p = (reps, x)) (hx : x.circuit p = C) :
    exec i s = .next (s.taken.withExchange (x.afterLeave p C T)) := by
  have hp : s.taken.exchange.circuit p = C := hC
  have hset : ∀ {placed : Option Cls} {T0 : TreatmentSet},
      exec i s = .next (s.taken.onExchange (Exchange.changeSet p T0 placed)) →
      ¬ (activeClass T0 = some d ∧ (placed = none ∨ placed ≠ some d)) →
      T0.makeDormant (if placed = some d then none else some d) reps = T →
      exec i s = .next (s.taken.withExchange (x.afterLeave p C T)) := fun hexec hchange hdormant => by
    rw [hexec, State.onExchange, Exchange.changeSet_eq hp hd hchange hdormant hleave hx]
  rcases hsup with ⟨hcode, rfl, rfl⟩ | ⟨hcode, rfl, hcls, rfl⟩ | ⟨kind, c, haccept, hcls, hdc, rfl⟩
  · refine hset (placed := none) (hearingWord_of_headIs (code := 5) hhead hcode.symm) ?_ ?_
    · rintro ⟨h, -⟩
      cases h
    · unfold TreatmentSet.makeDormant
      rw [if_neg (by exact Option.some_ne_none d ∘ Eq.symm)]
      dsimp only
      rw [if_neg (by rw [activeClass_empty]; exact (Option.some_ne_none d).symm)]
      refine Vector.ext fun i hi => ?_
      rw [Vector.getElem_set]
      split_ifs <;> simp
  · refine hset (exec_quiet hhead hC hcode hcls) (fun h => activeClass_set_none_ne d h.1) ?_
    unfold TreatmentSet.makeDormant
    rw [if_neg (by exact Option.some_ne_none d ∘ Eq.symm)]
    dsimp only
    rw [if_neg (activeClass_set_none_ne d)]
    simp
  · have hactive := activeClass_set_above (C.newEntry kind) hd hdc
    refine hset (exec_accepts hhead hC hcls haccept) (fun h => ?_) ?_
    · rw [hactive] at h
      rcases h.2 with h2 | h2
      · cases h2
      · exact h2 h.1
    · by_cases hcd : c = d
      · subst hcd
        rw [if_pos rfl, if_pos rfl]
        rfl
      · have hne : c.val ≠ d.val := fun h => hcd (Fin.ext h)
        rw [if_neg (fun h => hcd (Option.some.inj h)), if_neg hcd]
        unfold TreatmentSet.makeDormant
        dsimp only
        rw [hactive, if_neg fun h => hcd (Option.some.inj h)]
        have hget : (C.set.set c (some (C.newEntry kind)))[d] = C.set[d] := Vector.getElem_set_ne _ _ hne
        rw [hget, Vector.set_comm _ _ hne]
        have hfun : Entry.dormant reps = _ := funext (Entry.dormant_eq reps)
        rw [hfun]
        rfl

/-- In QUIET and in GAP there is nothing to leave. -/
theorem Exchange.leave_of_unbound (hp : e.circuit p = C) (hC : C.binding = .none) : e.leave p = (none, e) := by
  rw [Exchange.leave, hp, hC]

theorem Exchange.afterLeave_of_bound (hx : x.circuit p = C) (hC : C.binding ≠ .none) :
    x.afterLeave p C T = if activeClass T = none then (x.showCircuit p (C.unbound T)).enterQuiet p
      else if C.state = .gap then x.showCircuit p (C.unbound T) else (x.showCircuit p (C.unbound T)).proceed p C.state := by
  have hshown : x.setCircuit p { C with binding := .none, waited := 0, limit := .counting }
      = x.showCircuit p { C with binding := .none, waited := 0, limit := .counting } :=
    Exchange.setCircuit_of_shown (by rw [hx]; exact Circuit.sameShown_of_binding_ne hC)
  rw [Exchange.afterLeave, hshown, Exchange.setCircuit_showCircuit]

theorem Exchange.enterQuiet_showCircuit (p : Circ) (C : Circuit) (e : Exchange) :
    (e.showCircuit p C).enterQuiet p = e.showCircuit p C.toQuiet := by
  rw [Exchange.enterQuiet, Exchange.showCircuit_circuit, Exchange.setCircuit_showCircuit]

/-- With no entry left the circuit enters QUIET (R11). -/
theorem Exchange.afterLeave_of_empty (hx : x.circuit p = C) (hstate : C.state ≠ .quiet)
    (hT : activeClass T = none) : x.afterLeave p C T = x.showCircuit p (C.unbound T).toQuiet := by
  by_cases hb : C.binding = .none
  · rw [Exchange.afterLeave, if_pos hT, Exchange.enterQuiet, Exchange.setCircuit_circuit]
    have hshown : ∀ D : Circuit, D.state = C.state → D.sameShown (C.unbound T).toQuiet = false := fun D hD =>
      Circuit.sameShown_of_state_ne fun h => hstate (hD.symm.trans h)
    have hfirst : x.setCircuit p { C with binding := .none, waited := 0, limit := .counting }
        = { x with orders := { x.orders with
            circuits := x.orders.circuits.set p { C with binding := .none, waited := 0, limit := .counting } } } := by
      refine Exchange.setCircuit_of_same ?_
      rw [hx]
      simp [Circuit.sameShown, hb]
    rw [Exchange.setCircuit_of_shown (by rw [Exchange.setCircuit_circuit]; exact hshown _ rfl), hfirst]
    unfold Exchange.setCircuit
    split
    · simp only [Exchange.showCircuit, Vector.set_set]
    · simp only [Exchange.showCircuit, Exchange.mark, Wire.mark, DirtyMarks.put_put, Vector.set_set]
  · rw [Exchange.afterLeave_of_bound hx hb, if_pos hT, Exchange.enterQuiet_showCircuit]

/-- In GAP the new set is put in place, the gap going on (R19). -/
theorem Exchange.afterLeave_of_gap (hx : x.circuit p = C) (hC : C.consistent = true) (hstate : C.state = .gap)
    (hT : activeClass T ≠ none) : x.afterLeave p C T = if T = C.set then
      { x with orders := { x.orders with circuits := x.orders.circuits.set p (C.unbound T) } }
    else x.showCircuit p (C.unbound T) := by
  have hb : C.binding = .none := (Circuit.binding_eq_none_iff hC).2 (.inr hstate)
  have hfirst : x.setCircuit p { C with binding := .none, waited := 0, limit := .counting }
      = { x with orders := { x.orders with
          circuits := x.orders.circuits.set p { C with binding := .none, waited := 0, limit := .counting } } } := by
    refine Exchange.setCircuit_of_same ?_
    rw [hx]
    simp [Circuit.sameShown, hb]
  rw [Exchange.afterLeave]
  dsimp only
  rw [if_neg hT, if_pos hstate, hfirst]
  split_ifs with hsame
  · rw [Exchange.setCircuit_of_same]
    · simp only [Vector.set_set]
    · rw [Exchange.circuit_replaced]
      simp [Circuit.sameShown, Circuit.unbound, hsame, Circuit.latched_of_consistent hC]
  · rw [Exchange.setCircuit_of_shown, Exchange.showCircuit_replaced]
    rw [Exchange.circuit_replaced]
    exact Circuit.sameShown_of_set_ne fun h => hsame h.symm

/-! ### Orders that change only the set -/

theorem State.withExchange_showCircuit (s : State) (p : Circ) (C : Circuit) :
    s.withExchange (s.exchange.showCircuit p C) = s.showCircuit p C := rfl

/-- A change of set below the active class (R10). -/
theorem Exchange.changeSet_below (y : Option Entry) (placed : Option Cls) (hplaced : placed = none ∨ placed = some c)
    (hp : e.circuit p = C) (hC : C.consistent = true) (hd : activeClass C.set = some d) (hc : c < d) :
    e.changeSet p (C.set.set c y) placed = (fun e' : Exchange => if placed = none then e' else e'.mark (.circuit p))
      (e.setCircuit p { C with set := C.set.set c y }) := by
  have hbelow : placed = none ∨ placed ≠ some d := hplaced.imp_right fun h h2 =>
    absurd (Option.some.inj (h.symm.trans h2)) (Fin.ne_of_lt hc)
  rw [Exchange.changeSet, hp, hd]
  dsimp only
  rw [if_pos ⟨(activeClass_set_below y hd hc).1, hbelow⟩, Circuit.withSet_below y hC hd hc]

/-- QUIET of a class below the active one removes its entry, if there is one. -/
theorem exec_quiet_below (hhead : s.headIs p.val w = true) (hC : s.orders.circuits[p] = C) (hok : C.consistent = true)
    (hcls : c.val = w.toNat / 1024 % 4) (hd : activeClass C.set = some d) (hc : c < d) (hcode : w.toNat / 4096 = 0) :
    exec (.quiet p w) s = .next (if C.set[c] = none then s.taken
      else s.taken.showCircuit p { C with set := C.set.set c none }) := by
  have hp : s.taken.exchange.circuit p = C := hC
  refine (exec_quiet hhead hC hcode hcls).trans (congrArg Host.Outcome.next ?_)
  rw [State.onExchange, Exchange.changeSet_below none none (.inl rfl) hp hok hd hc]
  dsimp only
  rw [if_pos rfl]
  split_ifs with hnone
  · have hself : C.set.set c none = C.set := by
      rw [← hnone]
      exact Vector.set_getElem_self c.isLt
    have hcircuits : s.taken.exchange.orders.circuits.set p C = s.taken.exchange.orders.circuits := by
      rw [← hp]
      exact Vector.set_getElem_self p.isLt
    rw [hself, Exchange.setCircuit_of_same (by rw [hp]; simp [Circuit.sameShown]), hcircuits]
    rfl
  · rw [Exchange.setCircuit_of_shown, State.withExchange_showCircuit]
    rw [hp]
    refine Circuit.sameShown_of_set_ne fun h => hnone ?_
    have hget := congrArg (fun T : TreatmentSet => T[c]) h
    exact hget.trans (Vector.getElem_set_self c.isLt)

/-- An accepted order below the active class places its entry. -/
theorem exec_accepts_below {k : Treatment} (hhead : s.headIs p.val w = true) (hC : s.orders.circuits[p] = C)
    (hok : C.consistent = true) (hcls : c.val = w.toNat / 1024 % 4) (hd : activeClass C.set = some d) (hc : c < d)
    (haccept : s.accepts p w i k) : exec i s = .next (s.taken.showCircuit p
      { C with set := C.set.set c (some ⟨k, C.detailFollowOn, C.detailFallback, none⟩) }) := by
  have hp : s.taken.exchange.circuit p = C := hC
  rw [exec_accepts hhead hC hcls haccept, State.onExchange, Exchange.changeSet_below _ (some c) (.inr rfl) hp hok hd hc]
  dsimp only
  rw [if_neg (Option.some_ne_none c)]
  unfold Exchange.setCircuit
  split <;> simp only [Exchange.mark, Wire.mark, DirtyMarks.put_put] <;> rfl

end

/-- Settles O25. -/
theorem orderChangesOnlyTheSet : Obligations.OrderChangesOnlyTheSet := by
  intro p w s c d C hhead hC hok hcls hd
  refine ⟨fun hc => ⟨exec_quiet_below hhead hC hok hcls hd hc, fun i k =>
    exec_accepts_below hhead hC hok hcls hd hc⟩, ?_⟩
  rintro i T E hgap hsup hT rfl
  have hp : s.taken.exchange.circuit p = C := hC
  have hb : C.binding = .none := (Circuit.binding_eq_none_iff hok).2 (.inr hgap)
  rw [exec_of_supersedes hhead hC hd hsup (Exchange.leave_of_unbound hp hb) hp,
    Exchange.afterLeave_of_gap hp hok hgap hT]
  have hE : C.unbound T = { C with
      set := T, waited := 0, limit := .counting, latched := (activeEntry T).bind fun x => x.origin.map Origin.grade } := by
    rw [Circuit.unbound, hb]
  rw [hE]
  split_ifs <;> rfl

end Sys2Proof.Machine
end

