-- ==== Sys2Proof/Proofs/QuietOrders.lean ====
section
/-!
PROOF. Orders that empty the set of a circuit, and tone orders on a QUIET circuit (chapters 1.2, 1.3, 3.2 and 3.5). O26, O27.
-/
namespace Sys2Proof.Machine

section
variable {e x : Exchange} {s t : State} {p : Circ} {w : Word} {i : Instr} {C : Circuit} {c d : Cls} {T : TreatmentSet}
  {reps : Option (Fin 16)}

/-! ### Orders that empty the set -/

/-- QUIET of the only class present, or CLEAR_ALL. -/
def emptying (p : Circ) (w : Word) (i : Instr) (C : Circuit) : Prop :=
  w.toNat / 4096 = 5 ∧ i = .clearAll p w
    ∨ w.toNat / 4096 = 0 ∧ i = .quiet p w ∧ ∀ d : Cls, d.val ≠ w.toNat / 1024 % 4 → C.set[d] = none

theorem supersedes_of_emptying (h : emptying p w i C) (hd : activeClass C.set = some d) :
    s.supersedes p w i C d reps (Vector.replicate 4 none) := by
  rcases h with ⟨hcode, rfl⟩ | ⟨hcode, rfl, honly⟩
  · exact .inl ⟨hcode, rfl, rfl⟩
  · have hcls : d.val = w.toNat / 1024 % 4 := by
      by_contra hne
      exact activeClass_isSome_iff hd (honly d hne)
    refine .inr (.inl ⟨hcode, rfl, hcls, (set_none_of_only fun c hc => honly c fun h => hc (Fin.ext ?_)).symm⟩)
    rw [h, hcls]

/-- An order that empties the set of a circuit not in QUIET takes it out of its pool and to QUIET (R11, R12). -/
theorem exec_of_emptying (hhead : s.headIs p.val w = true) (hC : s.orders.circuits[p] = C) (hok : C.consistent = true)
    (hstate : C.state ≠ .quiet) (h : emptying p w i C) : exec i s = .next (s.taken.withExchange
      ((s.taken.exchange.leave p).2.showCircuit p (C.unbound (Vector.replicate 4 none)).toQuiet)) := by
  obtain ⟨d, hd⟩ := Circuit.active_of_consistent hok hstate
  have hx : (s.taken.exchange.leave p).2.circuit p = C := by
    rw [Exchange.circuit, Exchange.circuits_leave]
    exact hC
  generalize hleave : s.taken.exchange.leave p = left at hx ⊢
  rw [exec_of_supersedes (reps := left.1) hhead hC hd (supersedes_of_emptying h hd) hleave hx,
    Exchange.afterLeave_of_empty hx hstate activeClass_empty]

/-- An order that empties the set of a circuit in QUIET changes nothing. -/
theorem exec_of_emptying_quiet (hhead : s.headIs p.val w = true) (hC : s.orders.circuits[p] = C) (hok : C.consistent = true)
    (hstate : C.state = .quiet) (h : emptying p w i C) : exec i s = .next s.taken := by
  obtain ⟨hset, -, hlatched⟩ := Circuit.quiet_of_consistent hok hstate
  have hp : s.taken.exchange.circuit p = C := hC
  have hcircuits : s.taken.exchange.orders.circuits.set p C = s.taken.exchange.orders.circuits := by
    rw [← hp]
    exact Vector.set_getElem_self p.isLt
  have hsame : s.taken.onExchange (Exchange.changeSet p (Vector.replicate 4 none) none) = s.taken := by
    have hwith : C.withSet (Vector.replicate 4 none) = C := by
      obtain ⟨⟩ := C
      simp only at hset hlatched
      subst hset hlatched
      rfl
    rw [State.onExchange, Exchange.changeSet, hp, hset]
    dsimp only
    rw [if_pos ⟨rfl, .inl rfl⟩, if_pos rfl, hwith,
      Exchange.setCircuit_of_same (by rw [hp]; simp [Circuit.sameShown]), hcircuits]
    rfl
  rcases h with ⟨hcode, rfl⟩ | ⟨hcode, rfl, -⟩
  · exact (hearingWord_of_headIs (code := 5) hhead hcode.symm).trans (congrArg Host.Outcome.next hsame)
  · have hclear : C.set.set (orderClass w) none = Vector.replicate 4 none := by
      rw [hset]
      exact set_none_of_only fun d _ => Vector.getElem_replicate d.isLt
    have hexec := exec_quiet (c := orderClass w) hhead hC hcode (by
      simp [orderClass, field])
    rw [hexec, hclear, hsame]

/-- The leave of a circuit in TONE or CHANNEL_WAIT goes to the channel pool (R12). -/
theorem Exchange.leave_of_tone (hp : e.circuit p = C) (hok : C.consistent = true)
    (hstate : C.state = .tone ∨ C.state = .channelWait) : e.leave p = (none, e.leaveTone p) := by
  unfold Circuit.consistent at hok
  simp only [Bool.and_eq_true] at hok
  obtain ⟨⟨hfits, -⟩, -⟩ := hok
  rw [Exchange.leave, hp]
  unfold bindingFits at hfits
  rcases hstate with hstate | hstate <;> rw [hstate] at hfits <;>
  · cases hb : C.binding <;> rw [hb] at hfits <;> first | rfl | exact absurd hfits Bool.false_ne_true

/-- Leaving the channel pool, from `s` to `t`, as the exchange that follows it. -/
theorem State.leaveTone_of_leavesChannels (h : s.leavesChannels p t) :
    s.withExchange (s.exchange.leaveTone p) = t ∧ s.exchange.leaveTone p = t.exchange :=
  have hleave := State.onExchange_leaveTone h
  ⟨hleave, by rw [← hleave]; rfl⟩

/-- An order that empties the set of a circuit held by the channel pool. -/
theorem exec_of_emptying_tone (hhead : s.headIs p.val w = true) (hC : s.orders.circuits[p] = C) (hok : C.consistent = true)
    (hstate : C.state = .tone ∨ C.state = .channelWait) (h : emptying p w i C) (ht : s.taken.leavesChannels p t) :
    exec i s = .next (t.showCircuit p (C.unbound (Vector.replicate 4 none)).toQuiet) := by
  have hp : s.taken.exchange.circuit p = C := hC
  have hne : C.state ≠ .quiet := by rcases hstate with h | h <;> rw [h] <;> decide
  rw [exec_of_emptying hhead hC hok hne h, Exchange.leave_of_tone hp hok hstate]
  dsimp only
  obtain ⟨hwith, -⟩ := State.leaveTone_of_leavesChannels ht
  rw [← hwith]
  rfl

end

/-- Settles O26. -/
theorem emptyingOrderEntersQuiet : Obligations.EmptyingOrderEntersQuiet := by
  rintro p w s i C D hhead hC hok hempty rfl
  have hp : s.taken.exchange.circuit p = C := hC
  have hD : (C.unbound (Vector.replicate 4 none)).toQuiet = { C with
      set := Vector.replicate 4 none, state := .quiet, binding := .none, gapLeft := 0, waited := 0, latched := none
      limit := .counting } := rfl
  refine ⟨fun hquiet => exec_of_emptying_quiet hhead hC hok hquiet hempty, fun hstate => ?_, fun hgap => ?_,
    fun hwait hqueued => ?_, fun k r others htone hbinding hqueue hr hp hothers hls => ⟨fun hsome => ?_, fun hnone hempt hlive => ?_⟩⟩
  · have hcong : (s.taken.exchange.leave p).2.cong = s.cong := by
      unfold Exchange.leave
      split <;> first
        | rfl
        | exact (Exchange.outer_eq (Exchange.outer_leaveTone _ p)).2
        | exact (Exchange.outer_eq (Exchange.outer_leaveAnn _ p)).2.trans (Exchange.drainExpiry_frame _).2
    refine ⟨_, exec_of_emptying hhead hC hok hstate hempty, ?_, ?_, rfl, rfl, rfl, rfl, hcong, rfl⟩
    · have hcircuits := Exchange.circuits_leave s.taken.exchange p
      rw [← hD]
      exact congrArg (fun v : Vector Circuit 64 => v.set p _) hcircuits
    · exact Vector.getElem_set_self p.isLt
  · have hleave : s.taken.exchange.leave p = (none, s.taken.exchange) :=
      Exchange.leave_of_unbound hp ((Circuit.binding_eq_none_iff hok).2 (.inr hgap))
    rw [exec_of_emptying hhead hC hok (by rw [hgap]; decide) hempty, hleave]
    rfl
  · exact exec_of_emptying_tone hhead hC hok (.inr hwait) hempty (.inl ⟨hqueued, rfl⟩)
  · exact exec_of_emptying_tone hhead hC hok (.inl htone) hempty
      (.inr ⟨hqueue, .inr ⟨k, r, others, hr, hp, hothers, hls, .inl ⟨hsome, rfl⟩⟩⟩)
  · refine (exec_of_emptying_tone hhead hC hok (.inl htone) hempty
      (.inr ⟨hqueue, .inr ⟨k, r, others, hr, hp, hothers, hls, .inr ⟨hnone, _,
        .inl ⟨.inl ?_, rfl⟩, .inl ⟨?_, rfl⟩⟩⟩⟩)).trans ?_
    · exact fun h => absurd (hlive.symm.trans h) (by decide)
    · intro y hy
      have hy' : y ∈ s.chans.queue := hy
      rw [hempt] at hy'
      cases hy'
    · rw [hD]
      refine congrArg Host.Outcome.next ?_
      have hqueue' : s.taken.chans.queue = [] := hempt
      simp only [hqueue', List.map_nil, List.append_nil]
      rw [← hqueue']
      rfl

/-! ### Tone orders on a QUIET circuit -/

section
variable {s t : State} {p : Circ} {w : Word} {i : Instr} {C : Circuit} {c : Cls} {k : Treatment}

/-- The record of a QUIET circuit in which an order has placed its entry (R10). -/
def Circuit.placed (c : Cls) (k : Treatment) (C : Circuit) : Circuit :=
  { C with
    set := (Vector.replicate 4 none).set c (some (C.newEntry k)), waited := 0, limit := .counting, latched := none }

/-- An accepted order on a QUIET circuit starts its entry (R10, R11). -/
theorem exec_accepts_quiet (hhead : s.headIs p.val w = true) (hC : s.orders.circuits[p] = C) (hok : C.consistent = true)
    (hquiet : C.state = .quiet) (hcls : c.val = w.toNat / 1024 % 4) (haccept : s.accepts p w i k) :
    exec i s = .next (s.taken.withExchange ((s.taken.exchange.showCircuit p (C.placed c k)).startActive p)) := by
  rw [exec_of_accepts hhead haccept, orderClass_eq w c hcls, State.onExchange,
    Exchange.place_quiet p c k s.taken.exchange C (by exact hC) hok hquiet]
  rfl

/-- The start of an entry whose circuit's status word is marked already. -/
theorem Exchange.starting_showCircuit {e : Exchange} {D : Circuit} (he : e = s.exchange.showCircuit p C)
    (hD : D = { C with tag := C.tag + 1 }) : (e.bumpTag p).Starting s p C D := by
  subst he hD
  refine ⟨rfl, fun st b => rfl, .inl ?_⟩
  rw [Exchange.bumpTag, Exchange.showCircuit_circuit, Exchange.setCircuit_showCircuit]

/-- The start of a tone entry whose circuit's status word is marked already. -/
theorem State.startEntry_tone {x : Entry} {v : Bool} {q : PlanNo} (hx : x.treat = if v then .tonePrivate q else .toneShared q)
    (hs : s.startsTone p C v q t) :
    ∃ e', (s.exchange.showCircuit p C).startEntry p c x = (true, e') ∧ s.withExchange e' = t := by
  have hstarting := Exchange.starting_showCircuit (s := s) (p := p) (C := C) rfl rfl
  obtain ⟨e', hstart, ht⟩ := hstarting.startToneEntry c x hs
  refine ⟨e', ?_, ht⟩
  unfold Exchange.startEntry
  rw [hx, ← hstart]
  cases v <;> rfl

/-- An accepted tone order on a QUIET circuit. -/
theorem exec_toneOrder_quiet {v : Bool} {q : PlanNo} (hhead : s.headIs p.val w = true) (hC : s.orders.circuits[p] = C)
    (hok : C.consistent = true) (hquiet : C.state = .quiet) (hcls : c.val = w.toNat / 1024 % 4)
    (haccept : s.accepts p w i (if v then .tonePrivate q else .toneShared q))
    (hs : s.taken.startsTone p (C.placed c (if v then .tonePrivate q else .toneShared q)) v q t) : exec i s = .next t := by
  obtain ⟨e', hstart, ht⟩ := State.startEntry_tone (c := c)
    (x := C.newEntry (if v then .tonePrivate q else .toneShared q)) rfl hs
  rw [exec_accepts_quiet hhead hC hok hquiet hcls haccept,
    (Exchange.startActive_single p c _ _ (by rw [Exchange.showCircuit_circuit]; rfl)).1 e' hstart, ht]

end

/-- Settles O27. -/
theorem toneOrderOnAQuietCircuit : Obligations.ToneOrderOnAQuietCircuit := by
  rintro p w s c q b v i C D noJoin noFree hhead hC hok hquiet hcls hq hlive hvalid horder rfl hnoJoin hnoFree
  have haccept : s.accepts p w i (if v then .tonePrivate q else .toneShared q) := by
    refine .inl ⟨q, hq, ⟨b, hlive, hvalid⟩, ?_⟩
    cases v with
    | true => exact .inr ⟨horder.1, horder.2, rfl⟩
    | false => exact .inl ⟨horder.1, horder.2, rfl⟩
  have hexec : ∀ t, s.taken.startsTone p (C.placed c (if v then .tonePrivate q else .toneShared q)) v q t → exec i s = .next t :=
    fun t hs => exec_toneOrder_quiet hhead hC hok hquiet hcls haccept hs
  have hlatched : C.latched = none := (Circuit.quiet_of_consistent hok hquiet).2.2
  have hbound : ∀ st bd, (C.placed c (if v then .tonePrivate q else .toneShared q)).started st bd = { C with
      set := (Vector.replicate 4 none).set c
        (some ⟨if v then .tonePrivate q else .toneShared q, C.detailFollowOn, C.detailFallback, none⟩)
      tag := C.tag + 1, gapLeft := 0, waited := 0, limit := .counting, state := st, binding := bd } := fun st bd => by
    rw [Circuit.started, Circuit.placed, hlatched]
    rfl
  refine ⟨fun k hk hbelow hv => ?_, fun k r hr hk hbelow hv => ?_, fun hno hfull => ?_⟩
  · rw [← hbound]
    exact hexec _ ⟨b, hlive, hvalid, .inl ⟨k, hk, hbelow, hv.imp_right hnoJoin.1, rfl⟩⟩
  · rw [← hbound]
    exact hexec _ ⟨b, hlive, hvalid, .inr (.inl ⟨k, r, _, hr, hk, hbelow, fun h => hnoFree.1 (hv h), rfl, rfl⟩)⟩
  · rw [← hbound]
    exact hexec _ ⟨b, hlive, hvalid, .inr (.inr ⟨hnoJoin.1 hno, hnoFree.1 hfull, rfl⟩)⟩

end Sys2Proof.Machine
end

