-- ==== Sys2Proof/Proofs/ChannelCycles.lean ====
section
/-!
PROOF. The cadence of a channel and the ends of its cycles (chapters 3.3 to 3.6): the next cycle, the final action, the move to the
live bank, and the service of the queue by a freed channel. O38, O39, O40, O41.
-/
namespace Sys2Proof.Machine

/-! ### Cadence -/

section
variable {s : State} {k : ChanNo}

theorem exec_frameStartChannels (hrun : s.running = true) : exec .frameStartChannels s = .next s.takeChannelsFrame :=
  event_of_running hrun

theorem exec_cadenceUnitEnd (hrun : s.running = true) :
    exec (.cadenceUnitEnd k) s = .next (s.onExchange (Exchange.unitEnd k)) := by
  show execCadenceUnitEnd k s = _
  exact event_of_running hrun

theorem exec_segmentEnd (hrun : s.running = true) :
    exec (.segmentEnd k) s = .next (s.onExchange (Exchange.segmentEnd k)) := by
  show execSegmentEnd k s = _
  exact event_of_running hrun

theorem exec_cycleEnd (hrun : s.running = true) : exec (.cycleEnd k) s = .next (s.onExchange (Exchange.cycleEnd k)) := by
  show execCycleEnd k s = _
  exact event_of_running hrun

theorem exec_drainingNotice (hrun : s.running = true) :
    exec .drainingNotice s = .next (s.onExchange Exchange.takeDrainNotice) := by
  show execDrainingNotice s = _
  exact event_of_running hrun

theorem Run.takeFrame_eq (r : Run) : r.takeFrame = if r.computed = false then r
    else if r.holding then { r with computed := false }
    else if r.unitFrames = 79 then { r with unitFrames := 0, computed := false, due := .unitEnd }
    else { r with unitFrames := r.unitFrames + 1, computed := false } := by
  unfold Run.takeFrame Run.countFrame
  cases hcomputed : r.computed with
  | false => simp
  | true =>
    have h80 : r.unitFrames + 1 = Config.unitFrames ↔ r.unitFrames = 79 := Nat.succ_inj (b := 79)
    simp only [h80, if_true, Bool.true_eq_false, if_false]
    split_ifs <;> rfl

end

/-- Settles O38. -/
theorem cadenceRunsByFramesUnitsAndSegments : Obligations.CadenceRunsByFramesUnitsAndSegments := by
  refine ⟨fun s hrun hdue hsample => ?_, fun k s r pl hrun hr hpl => ?_, fun b rest s hrun hnotices => ?_⟩
  · refine ⟨_, exec_frameStartChannels hrun, fun k => ?_, ?_⟩ <;>
      rw [State.takeChannelsFrame, if_pos hdue, State.takeComputation_of_not_due hsample]
    · refine (Vector.getElem_map _ k.isLt).trans ?_
      exact congrArg (fun f => Option.map f _) (funext Run.takeFrame_eq)
    · rfl
  · have hr' : s.exchange.chan k = some r := hr
    refine ⟨fun hdue => ?_, fun hdue hlast => ?_, fun j hdue hj hused => ?_⟩
    · rw [exec_cadenceUnitEnd hrun, State.onExchange, Exchange.unitEnd, hr']
      dsimp only
      rw [if_pos hdue]
      have hend : r.endUnit = { r with segLeft := r.segLeft - 1, due := if r.segLeft ≤ 1 then .segmentEnd else .none } := by
        unfold Run.endUnit
        split_ifs with hle
        · rw [Nat.sub_eq_zero_of_le hle]
        · rfl
      rw [hend]
      rfl
    · rw [exec_segmentEnd hrun, State.onExchange, Exchange.segmentEnd, hr']
      dsimp only
      have hpl' : s.exchange.plans.plan r.bank r.plan = pl := hpl.symm
      rw [if_pos hdue, Run.endSegment, hpl', if_neg (Nat.not_lt.2 hlast)]
      rfl
    · rw [exec_segmentEnd hrun, State.onExchange, Exchange.segmentEnd, hr']
      dsimp only
      have hpl' : s.exchange.plans.plan r.bank r.plan = pl := hpl.symm
      have hidx : Fin.ofNat 6 (r.segIndex.val + 1) = j := Fin.ext (by
        rw [← hj]
        exact Nat.mod_eq_of_lt j.isLt)
      rw [if_pos hdue, Run.endSegment, hpl', if_pos (hj ▸ hused), hidx]
      rfl
  · refine ⟨_, exec_drainingNotice hrun, fun k => ?_, ?_⟩ <;>
    · have hn : s.exchange.plans.drainNotices = b :: rest := hnotices
      rw [State.onExchange, Exchange.takeDrainNotice, hn]
      first | rfl | exact Vector.getElem_map _ k.isLt

/-! ### The end of a cycle -/

section
variable {e : Exchange} {s t : State} {k : ChanNo} {r : Run} {pl : Plan} {m : ChannelMessage}

theorem Exchange.cycleOn_next (hpl : e.plans.plan r.bank r.plan = pl) (h : r.isPrivate = false ∨ pl.repeats = 0) :
    e.cycleOn k r = e.setChan k (some (r.nextCycle pl)) := by
  rw [Exchange.cycleOn, hpl]
  refine if_neg fun hcount => h.elim (fun hv => ?_) fun hz => hcount.2 (congrArg BitVec.toNat hz)
  rw [hv] at hcount
  exact Bool.false_ne_true hcount.1

theorem Exchange.cycleOn_count (hpl : e.plans.plan r.bank r.plan = pl) (hv : r.isPrivate = true) (hn : pl.repeats ≠ 0) :
    e.cycleOn k r = if pl.repeats.toNat ≤ r.cycles + 1 then e.finalAction k { r with cycles := r.cycles + 1 } pl
      else e.setChan k (some ({ r with cycles := r.cycles + 1 }.nextCycle pl)) := by
  rw [Exchange.cycleOn, hpl]
  exact if_pos ⟨hv, fun h => hn (BitVec.eq_of_toNat_eq h)⟩

theorem Plan.lastSegment_eq {j : Fin 6} (h : j.val + 1 = pl.segCount.toNat) : pl.lastSegment = j := by
  refine Fin.ext ?_
  rw [Plan.lastSegment, ← h]
  exact Nat.mod_eq_of_lt j.isLt

theorem PlanTable.chainValid_of {T : PlanTable} {b : Bank} {q : PlanNo} {n : BitVec 5} (hq : n.toNat = q.val)
    (h : (T.plan b q).status = .valid) : T.chainValid b n = true := by
  have hof : (Fin.ofNat 16 n.toNat : PlanNo) = q := Fin.ext (by
    rw [hq]
    exact Nat.mod_eq_of_lt q.isLt)
  unfold PlanTable.chainValid
  rw [hof, h, hq]
  simp

theorem PlanTable.chainValid_eq_false {T : PlanTable} {b : Bank} {n : BitVec 5}
    (h : ∀ q : PlanNo, n.toNat = q.val → (T.plan b q).status ≠ .valid) : T.chainValid b n = false := by
  unfold PlanTable.chainValid
  by_cases hn : n.toNat < 16
  · have hq := h (Fin.ofNat 16 n.toNat) (Nat.mod_eq_of_lt hn).symm
    rw [beq_eq_false_iff_ne.2 hq, Bool.and_false]
  · rw [decide_eq_false hn, Bool.false_and]

/-- The listeners of channel `k` are sent `m` and removed. -/
theorem Exchange.dismiss_eq (hr : e.chan k = some r) (m : ChannelMessage) : e.dismiss k m = { e with chans := { e.chans with
    chans := e.chans.chans.set k (some { r with listeners := [] })
    notices := e.chans.notices ++ r.listeners.map fun l => ⟨l.circ, l.tag, m⟩ } } := by
  have hfold : ∀ (ls : List ToneListener) (x : Exchange), ls.foldl (fun e l => e.chanNotify l.circ l.tag m) x
      = { x with chans := { x.chans with notices := x.chans.notices ++ ls.map fun l => ⟨l.circ, l.tag, m⟩ } } := by
    intro ls
    induction ls with
    | nil => intro x; simp
    | cons l ls ih => intro x; rw [List.foldl_cons, ih]; simp [Exchange.chanNotify]
  rw [Exchange.dismiss, hr]
  dsimp only
  rw [hfold]
  rfl

/-- The listeners of a run are sent `m`. -/
def State.told (r : Run) (m : ChannelMessage) (s : State) : State :=
  { s with chans := { s.chans with
      notices := s.chans.notices ++ r.listeners.map fun l => ⟨l.circ, l.tag, m⟩ } }

/-- What a freed channel ran does not matter but for its bank. -/
theorem State.freesChannel_congr {s' : State} {r' : Run} (hbank : r'.bank = r.bank)
    (hsame : ({ s' with chans := { s'.chans with chans := s'.chans.chans.set k none } } : State)
      = { s with chans := { s.chans with chans := s.chans.chans.set k none } })
    (h : s.freesChannel k r t) : s'.freesChannel k r' t := by
  obtain ⟨u, hu, ht⟩ := h
  refine ⟨u, ?_, ht⟩
  rw [hsame, hbank]
  exact hu

/-- Channel `k`, its listeners sent `m`, becomes FREE and serves the queue (R59, R62). -/
theorem State.onExchange_dismiss (r' : Run) (hr : s.chans.chans[k] = some r') (hls : r'.listeners = r.listeners)
    (hbank : r'.bank = r.bank) (h : (s.told r m).freesChannel k r t) :
    s.onExchange (fun e => (e.dismiss k m).freeChan k true) = t := by
  have hr' : s.exchange.chan k = some r' := hr
  rw [← State.onExchange_onExchange s (Exchange.dismiss k m) (Exchange.freeChan k true)]
  have hdismiss : s.onExchange (Exchange.dismiss k m) = { s.told r m with chans := { (s.told r m).chans with
      chans := s.chans.chans.set k (some { r' with listeners := [] }) } } := by
    rw [State.onExchange, Exchange.dismiss_eq hr' m, hls]
    rfl
  rw [hdismiss]
  refine State.onExchange_freeChan (r := { r' with listeners := [] }) (Vector.getElem_set_self k.isLt)
    (State.freesChannel_congr hbank ?_ h)
  simp only [Vector.set_set]
  rfl

theorem Exchange.dropRef_withChans (b : Bank) (c : ChannelPool) (e : Exchange) :
    Exchange.dropRef b { e with chans := c } = { e.dropRef b with chans := c } := by
  unfold Exchange.dropRef
  dsimp only
  split_ifs <;> rfl

/-- The reference of a channel whose move is answered withdrawn goes before its listeners are dismissed; it might go after (R38,
R62). -/
theorem Exchange.dropRef_dismiss (hr : e.chan k = some r) (m : ChannelMessage) :
    ((e.dropRef r.bank).dismiss k m).freeChan k false = (e.dismiss k m).freeChan k true := by
  have hself : e.dropRef r.bank = { e.dropRef r.bank with chans := e.chans } := Exchange.dropRef_withChans r.bank e.chans e
  have hr' : (e.dropRef r.bank).chan k = some r := by
    rw [hself]
    exact hr
  have hchans : (e.dropRef r.bank).chans = e.chans := by rw [hself]
  rw [Exchange.dismiss_eq hr m, Exchange.dismiss_eq hr' m, hchans]
  have hget : ∀ (x : Exchange), Exchange.chan { x with chans := { e.chans with
      chans := e.chans.chans.set k (some { r with listeners := [] })
      notices := e.chans.notices ++ r.listeners.map fun l => ⟨l.circ, l.tag, m⟩ } } k = some { r with listeners := [] } :=
    fun x => Vector.getElem_set_self k.isLt
  rw [Exchange.freeChan, Exchange.freeChan, hget, hget]
  dsimp only
  rw [if_neg Bool.false_ne_true, if_pos rfl]
  exact congrArg (Exchange.serveToneQueue k) (Exchange.dropRef_withChans r.bank _ e).symm

theorem State.servesWaiters_empty (h : s.chans.queue = []) : s.servesWaiters k s := by
  refine .inl ⟨fun y hy => ?_, ?_⟩
  · rw [h] at hy
    cases hy
  · rw [h, List.map_nil, List.append_nil]
    obtain ⟨p, b, rp, w, o, pl, ⟨c, q, n⟩⟩ := s
    simp only at h
    rw [h]

/-- The end of a cycle with no move pending (R56). -/
theorem exec_cycleEnd_on (hrun : s.running = true) (hr : s.chans.chans[k] = some r) (hdue : r.due = .cycleEnd)
    (hmove : r.movePending = false) : exec (.cycleEnd k) s = .next (s.onExchange (Exchange.cycleOn k r)) := by
  have hr' : s.exchange.chan k = some r := hr
  rw [exec_cycleEnd hrun, State.onExchange, Exchange.cycleEnd, hr']
  dsimp only
  rw [if_neg fun h => h hdue, if_neg (by rw [hmove]; exact Bool.false_ne_true)]
  rfl

/-- The final action of a PRIVATE channel that has run its repeats (R58, R59). -/
theorem exec_cycleEnd_final (hrun : s.running = true) (hr : s.chans.chans[k] = some r) (hdue : r.due = .cycleEnd)
    (hmove : r.movePending = false) (hpl : pl = s.plans.plan r.bank r.plan) (hv : r.isPrivate = true) (hn : pl.repeats ≠ 0)
    (hlast : pl.repeats.toNat ≤ r.cycles + 1) : exec (.cycleEnd k) s
      = .next (s.onExchange (Exchange.finalAction k { r with cycles := r.cycles + 1 } pl)) := by
  rw [exec_cycleEnd_on hrun hr hdue hmove, State.onExchange, Exchange.cycleOn_count hpl.symm hv hn, if_pos hlast]
  rfl

/-- SILENCE, and a CHAIN that is not valid, free the channel (R59, R60). -/
theorem exec_cycleEnd_silence {v : State} (hrun : s.running = true) (hr : s.chans.chans[k] = some r)
    (hdue : r.due = .cycleEnd) (hmove : r.movePending = false) (hpl : pl = s.plans.plan r.bank r.plan)
    (hpriv : r.isPrivate = true) (hn : pl.repeats ≠ 0) (hlast : pl.repeats.toNat ≤ r.cycles + 1)
    (hfinal : pl.final = .silence ∧ v = s
      ∨ pl.final = .chain ∧ (∀ q : PlanNo, pl.chainPlan.toNat = q.val → (s.plans.plan r.bank q).status ≠ .valid)
        ∧ v = s.submit .channelPool .planInvalid pl.chainPlan.toNat (0x100 + 0x10 * r.bank.num + k.val))
    (h : (v.told r .done).freesChannel k r t) : exec (.cycleEnd k) s = .next t := by
  rw [exec_cycleEnd_final hrun hr hdue hmove hpl hpriv hn hlast]
  refine congrArg Host.Outcome.next ?_
  generalize hr1 : ({ r with cycles := r.cycles + 1 } : Run) = r1
  have hbank : r1.bank = r.bank := by rw [← hr1]
  have hls : r1.listeners = r.listeners := by rw [← hr1]
  have hfree : ∀ u : State, u = { v with chans := { v.chans with chans := v.chans.chans.set k (some r1) } } →
      u.onExchange (Exchange.silence k) = t := fun u hu => by
    refine State.onExchange_dismiss r1 (r := r) (by rw [hu]; exact Vector.getElem_set_self k.isLt) hls hbank
      (State.freesChannel_congr rfl ?_ h)
    rw [hu]
    simp only [State.told, Vector.set_set]
  rcases hfinal with ⟨hsilence, rfl⟩ | ⟨hchain, hinvalid, rfl⟩
  · rw [← hfree _ rfl, State.onExchange, Exchange.finalAction, hsilence]
    rfl
  · have hnot : s.exchange.plans.chainValid r1.bank pl.chainPlan = false := by
      rw [hbank]
      exact PlanTable.chainValid_eq_false hinvalid
    rw [← hfree _ rfl, State.onExchange, Exchange.finalAction, hchain]
    dsimp only
    rw [if_neg (by rw [hnot]; exact Bool.false_ne_true), hbank]
    rfl

end

/-- Settles O39. -/
theorem cycleEndRepeatsOrTakesTheFinalAction : Obligations.CycleEndRepeatsOrTakesTheFinalAction := by
  intro k s r pl hrun hr hdue hmove hpl
  have hpl' : s.exchange.plans.plan r.bank r.plan = pl := hpl.symm
  refine ⟨fun hnext => ?_, fun hv hleft => ?_, fun hv hn hlast => ⟨fun j hhold hj => ?_, fun q hchain hq hvalid => ?_,
    fun v hfinal hqueue hlive => ?_⟩⟩
  · rw [exec_cycleEnd_on hrun hr hdue hmove, State.onExchange, Exchange.cycleOn_next hpl' hnext]
    rfl
  · have hn : pl.repeats ≠ 0 := fun h => by
      rw [h] at hleft
      exact Nat.not_lt_zero _ hleft
    rw [exec_cycleEnd_on hrun hr hdue hmove, State.onExchange, Exchange.cycleOn_count hpl' hv hn,
      if_neg (Nat.not_le.2 hleft)]
    rfl
  · rw [exec_cycleEnd_final hrun hr hdue hmove hpl hv hn hlast, State.onExchange, Exchange.finalAction, hhold]
    dsimp only
    rw [Plan.lastSegment_eq hj]
    rfl
  · have hof : (Fin.ofNat 16 pl.chainPlan.toNat : PlanNo) = q := Fin.ext (by
      rw [hq]
      exact Nat.mod_eq_of_lt q.isLt)
    rw [exec_cycleEnd_final hrun hr hdue hmove hpl hv hn hlast, State.onExchange, Exchange.finalAction, hchain]
    dsimp only
    rw [if_pos (PlanTable.chainValid_of hq (by exact hvalid)), hof]
    rfl
  · refine exec_cycleEnd_silence (v := v) hrun hr hdue hmove hpl hv hn hlast hfinal ?_
    have hkeeps : v.plans = s.plans ∧ v.chans = s.chans := by
      rcases hfinal with ⟨-, rfl⟩ | ⟨-, -, rfl⟩ <;> exact ⟨rfl, rfl⟩
    obtain ⟨hplans, hchans⟩ := hkeeps
    refine ⟨_, .inl ⟨.inl ?_, rfl⟩, ?_⟩
    · have hlive' : (v.plans.bank r.bank).state = .live := by rw [hplans]; exact hlive
      exact fun h => absurd (hlive'.symm.trans h) (by decide)
    · rw [← hplans, ← hchans]
      exact State.servesWaiters_empty (by
        show v.chans.queue = []
        rw [hchans]
        exact hqueue)

end Sys2Proof.Machine
end

