-- ==== Sys2Proof/Proofs/FreedChannels.lean ====
section
/-!
PROOF. The end of a cycle with a move pending (chapters 2.6 and 3.4), and a channel that becomes FREE and serves the queue (chapters
3.5 and 3.6). O40, O41.
-/
namespace Sys2Proof.Machine

section
variable {e : Exchange} {s t : State} {k : ChanNo} {r : Run} {b l : Bank} {old : BankRecord}

/-- A reference to a DRAINING bank given up (R40). -/
theorem State.givesUp_draining (hold : s.plans.bank b = old) (hdraining : old.state = .draining)
    (hlive : s.plans.live = some l) : s.givesUp b (if old.refs - 1 = 0 then
      (State.mark { s with plans := s.plans.setBank b { old with state := .idle, refs := 0 } } .global).submit
        .planTable .bankSwitched l.num b.num
    else { s with plans := s.plans.setBank b { old with refs := old.refs - 1 } }) := by
  subst hold
  split_ifs with hlast
  · exact .inr ⟨l, hlive, hdraining, hlast, rfl⟩
  · exact .inl ⟨.inr hlast, rfl⟩

theorem PlanTable.plan_setBank_of_plans {T : PlanTable} {R : BankRecord} (h : R.plans = (T.bank b).plans) (c : Bank)
    (q : PlanNo) : (T.setBank b R).plan c q = T.plan c q := by
  unfold PlanTable.plan
  cases b <;> cases c <;> first | rfl | exact congrArg (fun v : Vector Plan 16 => v[q]) h

theorem Exchange.dropRef_plan (b : Bank) (e : Exchange) (c : Bank) (q : PlanNo) :
    (e.dropRef b).plans.plan c q = e.plans.plan c q := by
  unfold Exchange.dropRef
  dsimp only
  split_ifs
  · exact PlanTable.plan_setBank_of_plans
      (R := { e.plans.bank b with state := .idle, refs := (e.plans.bank b).refs - 1 }) rfl c q
  · exact PlanTable.plan_setBank_of_plans (R := { e.plans.bank b with refs := (e.plans.bank b).refs - 1 }) rfl c q

theorem PlanTable.moveAnswer_of_draining {T : PlanTable} {q : PlanNo} (hdraining : (T.bank b).state = .draining)
    (hlive : T.live = some l) :
    T.moveAnswer b q = if (T.plan l q).status = .valid then .moved l else .withdrawn := by
  rw [PlanTable.moveAnswer, if_neg (by rw [hdraining]; decide), hlive]

/-- A move answered withdrawn frees the channel, its listeners sent withdrawn (R56, R62, R63). -/
theorem exec_cycleEnd_withdrawn (hrun : s.running = true) (hr : s.chans.chans[k] = some r) (hdue : r.due = .cycleEnd)
    (hmove : r.movePending = true) (hdraining : (s.plans.bank r.bank).state = .draining) (hlive : s.plans.live = some l)
    (hvalid : (s.plans.plan l r.plan).status ≠ .valid) (h : (s.told r .withdrawn).freesChannel k r t) :
    exec (.cycleEnd k) s = .next t := by
  have hr' : s.exchange.chan k = some r := hr
  have hanswer : s.exchange.plans.moveAnswer r.bank r.plan = .withdrawn :=
    (PlanTable.moveAnswer_of_draining (by exact hdraining) (by exact hlive)).trans (if_neg hvalid)
  rw [exec_cycleEnd hrun, State.onExchange, Exchange.cycleEnd, hr']
  dsimp only
  rw [if_neg fun hne => hne hdue, if_pos hmove, hanswer]
  dsimp only
  rw [Exchange.dropRef_dismiss hr', ← State.onExchange_dismiss r hr rfl rfl h]
  rfl

/-- A channel moved to the live bank `l`, with the shared waiters `joined` it takes on the way, and then run on as `next` (R56,
R57). -/
theorem exec_cycleEnd_moved {joined : List ToneWaiter} {r1 next : Run} (hrun : s.running = true)
    (hr : s.chans.chans[k] = some r) (hdue : r.due = .cycleEnd) (hmove : r.movePending = true)
    (hold : old = s.plans.bank r.bank) (hdraining : old.state = .draining) (hlive : s.plans.live = some l) (hl : l ≠ r.bank)
    (hvalid : (s.plans.plan l r.plan).status = .valid)
    (hjoined : joined = if r.isPrivate then [] else s.chans.queue.filter fun y => !y.isPrivate && y.plan == r.plan)
    (hr1 : r1 = { r with
      movePending := false, bank := l
      listeners := joined.foldl (fun ls y => insertToneListener ⟨y.circ, y.tag, y.isPrivate⟩ ls) r.listeners })
    (hnext : ∀ x : Exchange, x.plans.plan l r.plan = s.plans.plan l r.plan →
      x.cycleOn k r1 = x.setChan k (some next)) :
    exec (.cycleEnd k) s = .next ((fun (T : PlanTable) (t : State) =>
      if old.refs - 1 = 0 then
        (State.mark { t with plans := T.setBank r.bank { old with state := .idle, refs := 0 } } .global).submit
          .planTable .bankSwitched l.num r.bank.num
      else { t with plans := T.setBank r.bank { old with refs := old.refs - 1 } })
      (s.plans.setBank l { s.plans.bank l with refs := (s.plans.bank l).refs + 1 })
      { s with chans := {
          chans := s.chans.chans.set k (some next)
          queue := s.chans.queue.filter fun y => r.isPrivate || y.isPrivate || y.plan != r.plan
          notices := s.chans.notices ++ joined.map fun y => ⟨y.circ, y.tag, .served k .joined⟩ } }) := by
  have hr' : s.exchange.chan k = some r := hr
  have hanswer : s.exchange.plans.moveAnswer r.bank r.plan = .moved l :=
    (PlanTable.moveAnswer_of_draining (by rw [hold] at hdraining; exact hdraining) (by exact hlive)).trans (if_pos hvalid)
  generalize hT : s.plans.setBank l { s.plans.bank l with refs := (s.plans.bank l).refs + 1 } = T
  have hbank : T.bank r.bank = old := by
    rw [← hT, hold]
    revert hl
    cases l <;> cases r.bank <;> intro hl <;> first | rfl | exact absurd rfl hl
  have hlive' : T.live = some l := by
    rw [← hT, ← hlive]
    cases l <;> rfl
  have hplan : T.plan l r.plan = s.plans.plan l r.plan := by
    rw [← hT]
    exact PlanTable.plan_setBank_refs l l _
  have hadd : s.exchange.plans.addRef l = T := hT
  generalize he1 : Exchange.dropRef r.bank { s.exchange with plans := T } = e1
  have hchans1 : e1.chans = s.chans := by
    rw [← he1, Exchange.dropRef_chans]
    rfl
  -- after the move and the joins, the channel pool alone has changed
  have hserved : (fun x : Exchange => if r.isPrivate then x else x.serveShared k r.plan)
      (e1.setChan k (some { r with movePending := false, bank := l })) = { e1 with chans := {
        chans := s.chans.chans.set k (some r1)
        queue := s.chans.queue.filter fun y => r.isPrivate || y.isPrivate || y.plan != r.plan
        notices := s.chans.notices ++ joined.map fun y => ⟨y.circ, y.tag, .served k .joined⟩ } } := by
    generalize hrm : ({ r with movePending := false, bank := l } : Run) = rm
    have hr1m : r1 = { rm with
        listeners := joined.foldl (fun ls y => insertToneListener ⟨y.circ, y.tag, y.isPrivate⟩ ls) rm.listeners } := by
      rw [hr1, ← hrm]
    dsimp only
    rw [hr1m, hjoined]
    cases r.isPrivate with
    | true =>
      simp only [if_true, Bool.true_or, List.filter_true, List.foldl_nil, List.map_nil, List.append_nil]
      rw [Exchange.setChan, hchans1]
    | false =>
      have hqueue : (s.chans.queue.filter fun w => !w.sharedOn r.plan)
          = s.chans.queue.filter fun y => false || y.isPrivate || y.plan != r.plan := by
        refine List.filter_congr fun y _ => ?_
        unfold ToneWaiter.sharedOn
        cases y.isPrivate <;> simp [bne]
      rw [if_neg Bool.false_ne_true, if_neg Bool.false_ne_true,
        Exchange.serveShared_eq r.plan (Exchange.setChan_chan e1 k (some rm)), ← hqueue]
      simp only [Exchange.setChan, hchans1, Vector.set_set]
      rfl
  have hdrop := State.onExchange_dropRef (State.givesUp_draining (s := { s with
    plans := T
    chans := {
      chans := s.chans.chans.set k (some next)
      queue := s.chans.queue.filter fun y => r.isPrivate || y.isPrivate || y.plan != r.plan
      notices := s.chans.notices ++ joined.map fun y => ⟨y.circ, y.tag, .served k .joined⟩ } })
    hbank hdraining hlive')
  dsimp only
  refine (exec_cycleEnd hrun).trans (congrArg Host.Outcome.next (Eq.trans ?_ hdrop))
  rw [State.onExchange, Exchange.cycleEnd, hr']
  dsimp only
  rw [if_neg fun hne => hne hdue, if_pos hmove, hanswer]
  dsimp only
  rw [hadd, he1]
  dsimp only at hserved
  rw [hserved]
  generalize hC : ({
    chans := s.chans.chans.set k (some r1)
    queue := s.chans.queue.filter fun y => r.isPrivate || y.isPrivate || y.plan != r.plan
    notices := s.chans.notices ++ joined.map fun y => ⟨y.circ, y.tag, .served k .joined⟩ } : ChannelPool) = c1
  have hget : Exchange.chan { e1 with chans := c1 } k = some r1 := by
    rw [← hC]
    exact Vector.getElem_set_self k.isLt
  rw [hget]
  dsimp only
  rw [hnext _ (by rw [← he1]; exact (Exchange.dropRef_plan _ _ _ _).trans hplan), ← he1, ← hC]
  unfold Exchange.setChan
  simp only [Vector.set_set]
  rw [State.onExchange]
  exact congrArg s.withExchange (Exchange.dropRef_withChans r.bank _ { s.exchange with plans := T }).symm

end

/-- Settles O40. -/
theorem cycleEndMovesToTheLiveBank : Obligations.CycleEndMovesToTheLiveBank := by
  rintro k s r l old pl left joined hrun hr hdue hmove hjoined hold hdraining hlive hl rfl rfl
  obtain ⟨r1, hr1⟩ : ∃ r1 : Run, r1 = { r with
      movePending := false, bank := l
      listeners := joined.foldl (fun ls y => insertToneListener ⟨y.circ, y.tag, y.isPrivate⟩ ls) r.listeners } := ⟨_, rfl⟩
  have hplan : ∀ x : Exchange, x.plans.plan l r.plan = s.plans.plan l r.plan →
      x.plans.plan r1.bank r1.plan = s.plans.plan l r.plan := fun x hx => by rw [hr1]; exact hx
  have hpriv : r1.isPrivate = r.isPrivate := by rw [hr1]
  have hcycles : r1.cycles = r.cycles := by rw [hr1]
  refine ⟨fun counted u hvalid hcounted hu => ⟨fun hnext => ?_, fun j hc hlast hhold hj => ?_⟩, fun hvalid hqueue => ?_⟩
  · refine exec_cycleEnd_moved hrun hr hdue hmove hold hdraining hlive hl hvalid hjoined hr1 fun x hx => ?_
    rw [hu]
    cases counted with
    | true =>
      obtain ⟨hv, hn⟩ := hcounted.1 rfl
      have hleft := hnext.resolve_left (by decide)
      rw [Exchange.cycleOn_count (hplan x hx) (hpriv.trans hv) hn, hcycles, if_neg (Nat.not_le.2 hleft), hr1]
      rfl
    | false =>
      have hnot : r1.isPrivate = false ∨ (s.plans.plan l r.plan).repeats = 0 := by
        rw [hpriv]
        by_contra h
        rw [not_or, Bool.not_eq_false] at h
        exact Bool.false_ne_true (hcounted.2 h)
      rw [Exchange.cycleOn_next (hplan x hx) hnot, hr1]
      rfl
  · subst hc
    obtain ⟨hv, hn⟩ := hcounted.1 rfl
    have hjoined' : joined = [] := by rw [hjoined, if_pos hv]
    have hexec := exec_cycleEnd_moved (next := { u with segIndex := j, holding := true }) hrun hr hdue hmove hold hdraining
      hlive hl hvalid hjoined hr1 fun x hx => by
        rw [Exchange.cycleOn_count (hplan x hx) (hpriv.trans hv) hn, hcycles, if_pos hlast, Exchange.finalAction, hhold,
          Plan.lastSegment_eq hj, hu, hr1, hjoined']
        rfl
    simp only [hjoined', hv, Bool.true_or, List.filter_true, List.map_nil, List.append_nil] at hexec
    exact hexec
  · subst hold
    have hgives := State.givesUp_draining (s := { s with chans := { s.chans with
      chans := s.chans.chans.set k none
      notices := s.chans.notices ++ r.listeners.map fun x => ⟨x.circ, x.tag, .withdrawn⟩ } }) (b := r.bank) rfl hdraining hlive
    refine exec_cycleEnd_withdrawn hrun hr hdue hmove hdraining hlive hvalid ⟨_, hgives, State.servesWaiters_empty ?_⟩
    dsimp only
    split_ifs <;> exact hqueue

/-- Settles O41. -/
theorem freedChannelServesTheQueue : Obligations.FreedChannelServesTheQueue := by
  rintro k s t r pl told hr hpl rfl
  refine ⟨fun hrun hdue hmove hv hn hlast => ⟨fun hsilence hfree => ?_, fun hchain hinvalid hfree => ?_⟩,
    fun l hrun hdue hmove hdraining hlive hl hvalid hfree => ?_,
    fun p w i C hhead hC hok htone hempty hqueue hsome hall hothers hfree => ?_⟩
  · exact exec_cycleEnd_silence hrun hr hdue hmove hpl hv hn hlast (.inl ⟨hsilence, rfl⟩) hfree
  · exact exec_cycleEnd_silence hrun hr hdue hmove hpl hv hn hlast (.inr ⟨hchain, hinvalid, rfl⟩) hfree
  · exact exec_cycleEnd_withdrawn hrun hr hdue hmove hdraining hlive hvalid hfree
  · obtain ⟨x, hx⟩ := List.exists_mem_of_ne_nil _ hsome
    have hnone : r.listeners.filter (fun l => l.circ != p) = [] :=
      List.filter_eq_nil_iff.2 fun l hl hne => by
        rw [hall l hl] at hne
        exact (bne_self_eq_false p).symm.trans hne |> Bool.false_ne_true
    exact exec_of_emptying_tone hhead hC hok (.inl htone) hempty (.inr ⟨hqueue, .inr ⟨k, r, [], hr, ⟨x, hx, hall x hx⟩,
      hothers, hnone.symm, .inr ⟨rfl, hfree⟩⟩⟩)

end Sys2Proof.Machine
end

