-- ==== Sys2Proof/Proofs/BankSwitch.lean ====
section
/-!
PROOF. The live-bank word (chapter 2.4): the incoming bank judged plan by plan, the switch, and the two refusals. O37.
-/
namespace Sys2Proof.Machine

/-! ### One plan judged -/

/-- A plan after its validation (R34, R35). -/
def Plan.judged (q : Plan) : Plan :=
  if q.status ≠ .unvalidated then q
  else if q.validFlag = true ∧ q.passes = true then q.clamped
  else { q with status := .invalid }

/-- The reports of the validation of plan `p` of bank `b`, which holds `q` (R43). -/
def Plan.judgement (b : Bank) (p : PlanNo) (q : Plan) : List Report :=
  if q.status ≠ .unvalidated ∨ q.validFlag = false then []
  else if q.passes = false then [⟨.planInvalid, BitVec.ofNat 6 p.val, BitVec.ofNat 16 b.num⟩]
  else if q.clampFlags = 0 then []
  else [⟨.planClamped, BitVec.ofNat 6 p.val, BitVec.ofNat 16 (0x100 * b.num + q.clampFlags)⟩]

/-- Reports the plan table submits. -/
def Exchange.tableReports (l : List Report) (e : Exchange) : Exchange :=
  { e with wire := { e.wire with submitted := e.wire.submitted ++ l.map fun x => ⟨.planTable, x⟩ } }

theorem Exchange.tableReports_nil (e : Exchange) : e.tableReports [] = e := by
  unfold Exchange.tableReports
  rw [List.map_nil, List.append_nil]

theorem Exchange.tableReports_tableReports (l m : List Report) (e : Exchange) :
    (e.tableReports l).tableReports m = e.tableReports (l ++ m) := by
  unfold Exchange.tableReports
  simp only [List.map_append, List.append_assoc]

theorem PlanTable.setBank_self (T : PlanTable) (b : Bank) : T.setBank b (T.bank b) = T := by cases b <;> rfl

theorem PlanTable.bank_setBank (T : PlanTable) (b : Bank) (R : BankRecord) : (T.setBank b R).bank b = R := by
  cases b <;> rfl

theorem PlanTable.setBank_setBank (T : PlanTable) (b : Bank) (R S : BankRecord) :
    (T.setBank b R).setBank b S = T.setBank b S := by
  cases b <;> rfl

/-- The exchange with bank `b` holding the plans `V`. -/
def Exchange.withPlans (b : Bank) (V : Vector Plan 16) (e : Exchange) : Exchange :=
  { e with plans := e.plans.setBank b { e.plans.bank b with plans := V } }

theorem Exchange.withPlans_self (b : Bank) (e : Exchange) : e.withPlans b (e.plans.bank b).plans = e := by
  unfold Exchange.withPlans
  rw [PlanTable.setBank_self]

theorem Exchange.withPlans_plans (b : Bank) (V : Vector Plan 16) (e : Exchange) :
    ((e.withPlans b V).plans.bank b).plans = V := by
  rw [Exchange.withPlans, PlanTable.bank_setBank]

theorem Exchange.withPlans_withPlans (b : Bank) (V W : Vector Plan 16) (e : Exchange) :
    (e.withPlans b V).withPlans b W = e.withPlans b W := by
  unfold Exchange.withPlans
  simp only [PlanTable.bank_setBank, PlanTable.setBank_setBank]

theorem Exchange.validatePlan_eq (b : Bank) (e : Exchange) (p : PlanNo) (V : Vector Plan 16) (l : List Report) :
    Exchange.validatePlan b ((e.withPlans b V).tableReports l) p
      = (e.withPlans b (V.set p (V[p].judged))).tableReports (l ++ V[p].judgement b p) := by
  have hplans : (((e.withPlans b V).tableReports l).plans.bank b).plans = V := Exchange.withPlans_plans b V e
  have hput : ∀ q : Plan, ({ (e.withPlans b V).tableReports l with
      plans := ((e.withPlans b V).tableReports l).plans.setBank b { ((e.withPlans b V).tableReports l).plans.bank b with
        plans := V.set p q } } : Exchange) = (e.withPlans b (V.set p q)).tableReports l := fun q => by
    rw [← Exchange.withPlans_withPlans b V (V.set p q) e]
    rfl
  have hself : V.set p V[p] = V := Vector.set_getElem_self p.isLt
  rw [Exchange.validatePlan, hplans]
  dsimp only
  unfold Plan.judged Plan.judgement
  by_cases hstatus : V[p].status ≠ .unvalidated
  · rw [if_pos hstatus, if_pos hstatus, if_pos (.inl hstatus), hself, List.append_nil]
  · rw [if_neg hstatus, if_neg hstatus]
    by_cases hflag : V[p].validFlag = false
    · have hnot : ¬ (V[p].validFlag = true ∧ V[p].passes = true) := fun h => Bool.false_ne_true (hflag.symm.trans h.1)
      rw [if_pos hflag, if_pos (Or.inr hflag), if_neg hnot, hput, List.append_nil]
    · rw [if_neg hflag, if_neg (not_or.2 ⟨hstatus, hflag⟩)]
      by_cases hpasses : V[p].passes = true
      · have hnot : ¬ V[p].passes = false := fun h => Bool.false_ne_true (h.symm.trans hpasses)
        rw [if_pos hpasses, if_neg hnot, if_pos (And.intro (Bool.eq_true_of_not_eq_false hflag) hpasses)]
        split_ifs
        · rw [hput, List.append_nil]
        · rw [hput, ← Exchange.tableReports_tableReports]
          rfl
      · have hnot : ¬ (V[p].validFlag = true ∧ V[p].passes = true) := fun h => hpasses h.2
        rw [if_neg hpasses, if_pos (Bool.eq_false_of_not_eq_true hpasses), if_neg hnot, hput,
          ← Exchange.tableReports_tableReports]
        rfl

/-! ### The incoming bank judged -/

/-- Plans judged in their order. -/
theorem Exchange.foldl_validatePlan (b : Bank) (ps : List PlanNo) (hnodup : ps.Nodup) (e : Exchange) (V : Vector Plan 16)
    (l : List Report) : ∃ W : Vector Plan 16,
      ps.foldl (Exchange.validatePlan b) ((e.withPlans b V).tableReports l)
        = (e.withPlans b W).tableReports (l ++ (ps.map fun p => V[p].judgement b p).flatten)
      ∧ ∀ p : PlanNo, W[p] = if p ∈ ps then V[p].judged else V[p] := by
  induction ps generalizing V l with
  | nil => exact ⟨V, by simp, by simp⟩
  | cons p ps ih =>
    obtain ⟨hp, hnodup⟩ := List.nodup_cons.1 hnodup
    obtain ⟨W, hfold, hW⟩ := ih hnodup (V.set p (V[p].judged)) (l ++ V[p].judgement b p)
    have hother : ∀ q ∈ ps, (V.set p (V[p].judged))[q] = V[q] := fun q hq => by
      rw [vector_getElem_set_fin, if_neg]
      rintro rfl
      exact hp hq
    refine ⟨W, ?_, fun q => ?_⟩
    · rw [List.foldl_cons, Exchange.validatePlan_eq, hfold, List.map_cons, List.flatten_cons, List.append_assoc]
      have hmap : (ps.map fun q => ((V.set p (V[p].judged))[q]).judgement b q) = ps.map fun q => V[q].judgement b q :=
        List.map_congr_left fun q hq => by rw [hother q hq]
      rw [hmap]
    · rw [hW q]
      by_cases hq : q ∈ ps
      · rw [if_pos hq, if_pos (List.mem_cons_of_mem p hq), hother q hq]
      · rw [if_neg hq, vector_getElem_set_fin]
        by_cases hqp : q = p
        · subst hqp
          rw [if_pos rfl, if_pos List.mem_cons_self]
        · rw [if_neg hqp, if_neg fun h => (List.mem_cons.1 h).elim hqp hq]

theorem Exchange.validateBank_eq (b : Bank) (e : Exchange) : ∃ W : Vector Plan 16,
    e.validateBank b = (e.withPlans b W).tableReports
      (allPlans.map fun p => ((e.plans.bank b).plans[p]).judgement b p).flatten
    ∧ ∀ p : PlanNo, W[p] = ((e.plans.bank b).plans[p]).judged := by
  obtain ⟨W, hfold, hW⟩ := Exchange.foldl_validatePlan b allPlans (List.nodup_finRange 16) e (e.plans.bank b).plans []
  rw [Exchange.withPlans_self, Exchange.tableReports_nil, List.nil_append] at hfold
  exact ⟨W, hfold, fun p => (hW p).trans (if_pos (List.mem_finRange p))⟩

/-- The checks of R34 as the statement words them. -/
theorem Plan.passes_iff (q : Plan) : q.passes = true ↔ 1 ≤ q.f1.toNat ∧ 1 ≤ q.segCount.toNat ∧ q.segCount.toNat ≤ 6
    ∧ (∀ j : Fin 6, j.val < q.segCount.toNat → q.segs[j].kind ≠ .invalid ∧ 1 ≤ q.segs[j].duration.toNat)
    ∧ q.final ≠ .invalid ∧ (q.final = .chain → q.chainPlan.toNat < 16) := by
  have hsegs : q.segsOk = true ↔
      ∀ j : Fin 6, j.val < q.segCount.toNat → q.segs[j].kind ≠ .invalid ∧ 1 ≤ q.segs[j].duration.toNat := by
    have hdur : ∀ g : Segment, g.duration ≠ 0 ↔ 1 ≤ g.duration.toNat := fun g => by
      rw [Nat.one_le_iff_ne_zero]
      exact not_congr ⟨fun h => by rw [h]; rfl, fun h => BitVec.eq_of_toNat_eq h⟩
    unfold Plan.segsOk
    rw [List.all_eq_true]
    simp only [Bool.and_eq_true, bne_iff_ne, hdur]
    constructor
    · intro h j hj
      refine h _ (List.mem_take_iff_getElem.2 ⟨j.val, ?_, ?_⟩)
      · simp only [Vector.length_toList, Nat.lt_min]
        exact ⟨hj, j.isLt⟩
      · simp
    · intro h g hg
      obtain ⟨j, hj, rfl⟩ := List.mem_take_iff_getElem.1 hg
      simp only [Vector.length_toList, Nat.lt_min] at hj
      have hget := h ⟨j, hj.2⟩ hj.1
      simpa using hget
  unfold Plan.passes
  simp only [Bool.and_eq_true, Bool.or_eq_true, decide_eq_true_eq, bne_iff_ne, hsegs, ne_eq, and_assoc, imp_iff_not_or]

/-! ### The switch -/

/-- The table once bank `b`, its plans judged to `W`, is LIVE (R36 step 1). -/
def PlanTable.switched (b : Bank) (W : Vector Plan 16) (T : PlanTable) : PlanTable :=
  { T.setBank b { T.bank b with plans := W, state := .live } with live := some b }

theorem PlanTable.switched_bank_other {T : PlanTable} {b o : Bank} (W : Vector Plan 16) (h : o ≠ b) :
    (T.switched b W).bank o = T.bank o := by
  revert h
  cases b <;> cases o <;> intro h <;> first | rfl | exact absurd rfl h

theorem PlanTable.switched_bank (T : PlanTable) (b : Bank) (W : Vector Plan 16) :
    (T.switched b W).bank b = { T.bank b with plans := W, state := .live } := by
  cases b <;> rfl

theorem PlanTable.switched_drainNotices (T : PlanTable) (b : Bank) (W : Vector Plan 16) :
    (T.switched b W).drainNotices = T.drainNotices := by
  cases b <;> rfl

theorem PlanTable.setBank_bank_ne {T : PlanTable} {b o : Bank} (R : BankRecord) (h : o ≠ b) :
    (T.setBank b R).bank o = T.bank o := by
  revert h
  cases b <;> cases o <;> intro h <;> first | rfl | exact absurd rfl h

theorem PlanTable.setBank_live (T : PlanTable) (b : Bank) (R : BankRecord) : (T.setBank b R).live = T.live := by
  cases b <;> rfl

/-- An accepted switch (R34 to R36). -/
theorem Exchange.switchTo_eq (b : Bank) (e : Exchange) : ∃ W : Vector Plan 16,
    (∀ p : PlanNo, W[p] = ((e.plans.bank b).plans[p]).judged)
    ∧ e.switchTo b = { e with
        plans := (e.plans.switched b W).retireBank e.plans.live
        wire := {
          submitted := e.wire.submitted
            ++ ((allPlans.map fun p : PlanNo => Plan.judgement b p (e.plans.bank b).plans[p]).flatten
              ++ if (e.plans.switched b W).settlesAtOnce e.plans.live then
                [(⟨.bankSwitched, BitVec.ofNat 6 b.num, BitVec.ofNat 16 ((e.plans.live.map Bank.num).getD 2)⟩ : Report)]
                else []).map fun x => ⟨.planTable, x⟩
          dirty := e.wire.dirty.put .global true } } := by
  obtain ⟨W, hvalidate, hW⟩ := Exchange.validateBank_eq b e
  refine ⟨W, hW, ?_⟩
  have hplans : ({ (e.validateBank b).plans.setBank b { (e.validateBank b).plans.bank b with state := .live } with
      live := some b } : PlanTable) = e.plans.switched b W := by
    rw [hvalidate]
    cases b <;> rfl
  rw [Exchange.switchTo]
  dsimp only
  rw [hplans, hvalidate]
  split_ifs
  · simp only [List.map_append, ← List.append_assoc]
    rfl
  · rw [List.append_nil]
    rfl

theorem PlanTable.settlesAtOnce_iff {T : PlanTable} {b : Bank} (W : Vector Plan 16) (h : T.live ≠ some b) :
    (T.switched b W).settlesAtOnce T.live = true ↔ ∀ o, T.live = some o → (T.bank o).refs = 0 := by
  cases hlive : T.live with
  | none => exact ⟨fun _ o ho => absurd ho (Option.some_ne_none o).symm, fun _ => rfl⟩
  | some o =>
    have hne : o ≠ b := fun ho => h (by rw [hlive, ho])
    rw [PlanTable.settlesAtOnce, PlanTable.switched_bank_other W hne, beq_iff_eq]
    exact ⟨fun hrefs p hp => by rw [← Option.some.inj hp]; exact hrefs, fun hall => hall o rfl⟩

/-- The outgoing bank (R36). -/
theorem PlanTable.retireBank_some (T : PlanTable) (o : Bank) : T.retireBank (some o) =
    { T.setBank o { T.bank o with state := if (T.bank o).refs = 0 then .idle else .draining } with
      drainNotices := T.drainNotices ++ ((some o).filter fun o => (T.bank o).refs != 0).toList } := by
  unfold PlanTable.retireBank
  dsimp only
  split_ifs with hrefs
  · simp only [Option.filter_some, hrefs, bne_self_eq_false, Bool.false_eq_true, if_false, Option.toList_none,
      List.append_nil]
    cases o <;> rfl
  · simp only [Option.filter_some, bne_iff_ne, ne_eq, hrefs, not_false_eq_true, if_true, Option.toList_some]

section
variable {s : State} {b : Bank} {w : Word}

theorem exec_liveBankWord (hhead : s.headIs 0x30E w = true) :
    exec (.liveBankWordWrite w) s = .next (s.taken.onExchange (Exchange.liveBankWrite w)) := by
  show execLiveBankWordWrite w s = _
  exact handOver_of_headIs hhead

/-- The report lists of the statement are the judgements in plan order. -/
theorem reports_eq_judgements {usable : Plan → Prop} {flags : Plan → Nat} {reports : List (List Report)} {V : Vector Plan 16}
    (husable : ∀ q, usable q ↔ q.passes = true) (hflags : ∀ q, flags q = q.clampFlags) (hlength : reports.length = 16)
    (hreports : ∀ (p : PlanNo) (q : Plan), q = V[p] →
      (q.status ≠ .unvalidated ∨ q.validFlag = false → reports[p.val]? = some [])
      ∧ (q.status = .unvalidated → q.validFlag = true → ¬ usable q →
        reports[p.val]? = some [⟨.planInvalid, BitVec.ofNat 6 p.val, BitVec.ofNat 16 b.num⟩])
      ∧ (q.status = .unvalidated → q.validFlag = true → usable q →
        reports[p.val]? = some (if flags q = 0 then []
          else [⟨.planClamped, BitVec.ofNat 6 p.val, BitVec.ofNat 16 (0x100 * b.num + flags q)⟩]))) :
    reports = allPlans.map fun p => V[p].judgement b p := by
  refine List.ext_getElem? fun i => ?_
  by_cases hi : i < 16
  · obtain ⟨hskip, hinvalid, hvalid⟩ := hreports ⟨i, hi⟩ _ rfl
    have hmap : (allPlans.map fun p => V[p].judgement b p)[i]? = some (V[(⟨i, hi⟩ : PlanNo)].judgement b ⟨i, hi⟩) := by
      simp [allPlans, hi]
    rw [hmap, Plan.judgement]
    split_ifs with h1 h2 h3
    · exact hskip h1
    · obtain ⟨hstatus, hflag⟩ := not_or.1 h1
      exact hinvalid (not_not.1 hstatus) (Bool.eq_true_of_not_eq_false hflag) fun h => by
        rw [(husable _).1 h] at h2
        cases h2
    · obtain ⟨hstatus, hflag⟩ := not_or.1 h1
      refine (hvalid (not_not.1 hstatus) (Bool.eq_true_of_not_eq_false hflag)
        ((husable _).2 (Bool.eq_true_of_not_eq_false h2))).trans ?_
      rw [hflags, if_pos h3]
    · obtain ⟨hstatus, hflag⟩ := not_or.1 h1
      refine (hvalid (not_not.1 hstatus) (Bool.eq_true_of_not_eq_false hflag)
        ((husable _).2 (Bool.eq_true_of_not_eq_false h2))).trans ?_
      rw [hflags, if_neg h3]
  · rw [List.getElem?_eq_none (by omega), List.getElem?_eq_none (by simp [allPlans]; omega)]

end

/-- Settles O37. -/
theorem liveBankWordSwitchesBanks : Obligations.LiveBankWordSwitchesBanks := by
  intro w s b hhead hb
  have hof : liveBankOf w = b := hb.symm
  refine ⟨fun hlive => ?_, fun hdraining => ?_, fun usable flags reports free hidle hother husable hflags hreports hfree => ?_⟩
  · have hlive' : (s.taken.exchange.plans.bank b).state = .live := hlive
    rw [exec_liveBankWord hhead, State.onExchange, Exchange.liveBankWrite, hof, hlive']
    rfl
  · have hdraining' : (s.taken.exchange.plans.bank b).state = .draining := hdraining
    rw [exec_liveBankWord hhead, State.onExchange, Exchange.liveBankWrite, hof, hdraining']
    dsimp only
    unfold Wire.submitWord Wire.submit
    rw [BitVec.ofNat_toNat, BitVec.setWidth_eq]
    rfl
  · have hidle' : (s.taken.exchange.plans.bank b).state = .idle := hidle
    have hpasses : ∀ q, usable q ↔ q.passes = true := fun q => (husable q).trans q.passes_iff.symm
    have hreports' := reports_eq_judgements hpasses hflags hreports.1 hreports.2
    obtain ⟨W, hW, hswitch⟩ := Exchange.switchTo_eq b s.taken.exchange
    have hplans : s.taken.exchange.plans = s.plans := rfl
    rw [hplans, ← hreports'] at hswitch
    rw [hplans] at hW
    have hsettles := PlanTable.settlesAtOnce_iff W hother
    have hexec : exec (.liveBankWordWrite w) s = .next (s.taken.withExchange (s.taken.exchange.switchTo b)) := by
      rw [exec_liveBankWord hhead, State.onExchange, Exchange.liveBankWrite, hof, hidle']
    rw [hswitch] at hexec
    have hsome : ∀ o, s.plans.live = some o → o ≠ b := fun o ho hob => hother (by rw [ho, hob])
    have hnew : ((s.plans.switched b W).retireBank s.plans.live).live = some b
        ∧ ((s.plans.switched b W).retireBank s.plans.live).bank b = { s.plans.bank b with plans := W, state := .live } := by
      cases hlive : s.plans.live with
      | none => exact ⟨rfl, s.plans.switched_bank b W⟩
      | some o =>
        rw [PlanTable.retireBank_some]
        refine ⟨PlanTable.setBank_live _ o _, ?_⟩
        exact (PlanTable.setBank_bank_ne _ (hsome o hlive).symm).trans (s.plans.switched_bank b W)
    refine ⟨_, hexec, rfl, hnew.1, congrArg BankRecord.state hnew.2, (congrArg BankRecord.refs hnew.2).trans rfl, fun p q hq => ?_,
      fun o ho => ?_, fun hnone o ho => ?_, ?_, rfl, fun last hlast hnot => ?_⟩
    · have hplan : (((s.plans.switched b W).retireBank s.plans.live).bank b).plans[p] = q.judged := by
        rw [hnew.2, hq]
        exact hW p
      refine ⟨fun hstatus => hplan.trans (if_pos hstatus), fun hstatus hflag huse => hplan.trans ?_,
        fun hstatus hbad => hplan.trans ?_⟩
      · rw [Plan.judged, if_neg (not_not.2 hstatus), if_pos ⟨hflag, (hpasses q).1 huse⟩]
        rfl
      · rw [Plan.judged, if_neg (not_not.2 hstatus), if_neg]
        rintro ⟨hflag, hpass⟩
        rcases hbad with hbad | hbad
        · exact Bool.false_ne_true (hbad.symm.trans hflag)
        · exact hbad ((hpasses q).2 hpass)
    · show ((s.plans.switched b W).retireBank s.plans.live).bank o = _
      rw [ho, PlanTable.retireBank_some, PlanTable.switched_bank_other W (hsome o ho)]
      exact PlanTable.bank_setBank _ o _
    · show ((s.plans.switched b W).retireBank s.plans.live).bank o = _
      rw [hnone]
      exact PlanTable.switched_bank_other W ho
    · show ((s.plans.switched b W).retireBank s.plans.live).drainNotices = _
      cases hlive : s.plans.live with
      | none => exact (s.plans.switched_drainNotices b W).trans (List.append_nil _).symm
      | some o =>
        simp only [PlanTable.retireBank_some, PlanTable.switched_drainNotices, Option.filter_some,
          PlanTable.switched_bank_other W (hsome o hlive)]
    · show s.wire.submitted ++ _ = _
      by_cases hf : free
      · rw [if_pos (hsettles.2 (hfree.1 hf)), hlast hf]
      · rw [if_neg fun h => hf (hfree.2 (hsettles.1 h)), hnot hf]

end Sys2Proof.Machine
end

