-- ==== Sys2Proof/Proofs/StoreCommands.lean ====
section
/-!
PROOF. The store command words (chapters 8.3, 8.7 and 8.8): their pairing, the checks of the confirms, hold, status, the store-lock
input and the player pool's answer. O46, O47, O51.
-/
namespace Sys2Proof.Machine

/-! ### A store command word at the head of the queue -/

theorem storeCode_eq (w : Word) : storeCode w = w.toNat / 4096 := by
  have hlt := w.isLt
  simp only [storeCode, field]
  omega

theorem storeRecording_eq {w : Word} {r : RecNo} (h : r.val = w.toNat % 32) : storeRecording w = r := by
  refine Fin.ext ?_
  simp only [storeRecording, field, Fin.ofNat]
  omega

theorem storeWord_of_headIs {s : State} {code : Nat} {w : Word} {f : State → State} (h : s.headIs 0x312 w = true)
    (hc : w.toNat / 4096 = code) : storeWord code w f s = .next (f s.taken) := by
  rw [storeWord, storeCode_eq, if_pos hc, handOver_of_headIs h]

section
variable {s : State} {w : Word}

theorem exec_loadBegin (h : s.headIs 0x312 w = true) (hc : w.toNat / 4096 = 1) :
    exec (.loadBegin w) s = .next (s.taken.onStore (StoreSide.beginWith .load w)) := storeWord_of_headIs h hc

theorem exec_retireBegin (h : s.headIs 0x312 w = true) (hc : w.toNat / 4096 = 5) :
    exec (.retireBegin w) s = .next (s.taken.onStore (StoreSide.beginWith .retire w)) := storeWord_of_headIs h hc

theorem exec_configBegin (h : s.headIs 0x312 w = true) (hc : w.toNat / 4096 = 7) :
    exec (.configBegin w) s = .next (s.taken.onStore (StoreSide.beginWith .config w)) := storeWord_of_headIs h hc

theorem exec_loadConfirm (h : s.headIs 0x312 w = true) (hc : w.toNat / 4096 = 2) : exec (.loadConfirm w) s
    = .next (s.taken.onStore (StoreSide.confirmWith .load w (StoreSide.loadConfirmed (storeRecording w)))) :=
  storeWord_of_headIs h hc

theorem exec_retireConfirm (h : s.headIs 0x312 w = true) (hc : w.toNat / 4096 = 6) : exec (.retireConfirm w) s
    = .next (s.taken.onStore (StoreSide.confirmWith .retire w (StoreSide.retireConfirmed (storeRecording w)))) :=
  storeWord_of_headIs h hc

theorem exec_configConfirm (h : s.headIs 0x312 w = true) (hc : w.toNat / 4096 = 8) : exec (.configConfirm w) s
    = .next (s.taken.onStore (StoreSide.confirmWith .config w (StoreSide.configConfirmed s.taken.bus.settings.words))) :=
  storeWord_of_headIs h hc

theorem exec_chunkReady (h : s.headIs 0x312 w = true) (hc : w.toNat / 4096 = 3) :
    exec (.chunkReady w) s = .next (s.taken.onStore (StoreSide.chunkReady w)) := storeWord_of_headIs h hc

theorem exec_loadAbandon (h : s.headIs 0x312 w = true) (hc : w.toNat / 4096 = 4) :
    exec (.loadAbandon w) s = .next (s.taken.onStore (StoreSide.loadAbandon w)) := storeWord_of_headIs h hc

theorem exec_storeHold (h : s.headIs 0x312 w = true) (hc : w.toNat / 4096 = 9) :
    exec (.storeHold w) s = .next (s.taken.onStore (StoreSide.holdStore w)) := storeWord_of_headIs h hc

theorem exec_storeResume (h : s.headIs 0x312 w = true) (hc : w.toNat / 4096 = 10) :
    exec (.storeResume w) s = .next (s.taken.onStore (StoreSide.resumeStore w)) := storeWord_of_headIs h hc

theorem exec_clearStoreStatus (h : s.headIs 0x312 w = true) (hc : w.toNat / 4096 = 11) :
    exec (.clearStoreStatus w) s = .next (s.taken.onStore (StoreSide.clearStatus w)) := storeWord_of_headIs h hc

theorem exec_invalidStoreCommand (h : s.headIs 0x312 w = true) (hc : w.toNat / 4096 = 0 ∨ 12 ≤ w.toNat / 4096) :
    exec (.invalidStoreCommand w) s = .next (s.taken.onStore (StoreSide.invalidCommand w)) := by
  show execInvalidStoreCommand w s = _
  rw [execInvalidStoreCommand, storeCode_eq, if_pos hc, handOver_of_headIs h]

end

/-! ### Pairing (R139) -/

/-- Command word `w` is reported out of sequence `n` times, and the pending begin is `b`. -/
def StoreSide.sequenced (w : Word) (n : Nat) (b : Option PendingBegin) (v : StoreSide) : StoreSide :=
  ⟨{ v.wire with
      submitted := v.wire.submitted
        ++ List.replicate n ⟨.storeController, ⟨.sequenceError, BitVec.ofNat 6 (storeRecording w).val, w⟩⟩ },
    { v.store with pendingBegin := b }⟩

/-- How often a command word that breaks a pending begin is reported for it. -/
def StoreController.broken (c : StoreController) : Nat := if c.pendingBegin = none then 0 else 1

section
variable {v : StoreSide} {w : Word}

theorem StoreSide.sequenced_sequenced (w : Word) (n m : Nat) (b c : Option PendingBegin) (v : StoreSide) :
    (v.sequenced w n b).sequenced w m c = v.sequenced w (n + m) c := by
  unfold StoreSide.sequenced
  simp only [List.append_assoc, List.replicate_append_replicate]

theorem StoreSide.sequenced_zero (h : v.store.pendingBegin = none) : v.sequenced w 0 none = v := by
  unfold StoreSide.sequenced
  rw [← h, List.replicate_zero, List.append_nil]

theorem StoreSide.sequenceError_eq (v : StoreSide) (w : Word) : v.sequenceError w = v.sequenced w 1 v.store.pendingBegin := by
  unfold StoreSide.sequenceError StoreSide.submit Wire.submit StoreSide.sequenced
  rw [BitVec.ofNat_toNat, BitVec.setWidth_eq]
  rfl

theorem StoreSide.breakBegin_eq (v : StoreSide) (w : Word) : v.breakBegin w = v.sequenced w v.store.broken none := by
  unfold StoreSide.breakBegin StoreController.broken
  split_ifs with h
  · exact (StoreSide.sequenced_zero h).symm
  · rw [StoreSide.sequenceError_eq]
    rfl

theorem StoreSide.breakBegin_sequenceError (v : StoreSide) (w : Word) :
    (v.breakBegin w).sequenceError w = v.sequenced w (v.store.broken + 1) none := by
  rw [StoreSide.breakBegin_eq, StoreSide.sequenceError_eq]
  exact StoreSide.sequenced_sequenced w _ 1 none none v

/-- A confirm without its begin, or with another recording field. -/
theorem StoreSide.confirmWith_unpaired (k : BeginKind) (f : StoreSide → StoreSide) :
    (v.store.pendingBegin = none → v.confirmWith k w f = v.sequenced w 1 none)
    ∧ ∀ b, v.store.pendingBegin = some b → (b.kind ≠ k → v.confirmWith k w f = v.sequenced w 2 none)
      ∧ (b.kind = k → b.recording ≠ storeRecording w → v.confirmWith k w f = v.sequenced w 1 none) := by
  refine ⟨fun h => ?_, fun b hb => ⟨fun hkind => ?_, fun hkind hrec => ?_⟩⟩
  · rw [StoreSide.confirmWith, h]
    exact (StoreSide.sequenceError_eq v w).trans (by rw [h])
  · rw [StoreSide.confirmWith, hb]
    dsimp only
    rw [if_neg hkind, StoreSide.sequenceError_eq, StoreSide.sequenceError_eq]
    exact StoreSide.sequenced_sequenced w 1 1 none none (v.on fun c => { c with pendingBegin := none })
  · rw [StoreSide.confirmWith, hb]
    dsimp only
    rw [if_pos hkind, if_neg hrec, StoreSide.sequenceError_eq]
    rfl

/-- A confirm that completes its pair is taken. -/
theorem StoreSide.confirmWith_paired {k : BeginKind} (f : StoreSide → StoreSide)
    (hb : v.store.pendingBegin = some ⟨k, storeRecording w⟩) :
    v.confirmWith k w f = f (v.on fun c => { c with pendingBegin := none }) := by
  rw [StoreSide.confirmWith, hb]
  dsimp only
  rw [if_pos rfl, if_pos rfl]

/-! ### Hold, resume and status -/

theorem StoreSide.holdStore_held (w : Word) (h : v.store.hold = true) :
    v.holdStore w = v.sequenced w v.store.broken none := by
  rw [StoreSide.holdStore, StoreSide.breakBegin_eq]
  exact if_pos h

theorem StoreSide.holdStore_free (w : Word) (h : v.store.hold ≠ true) : v.holdStore w
    = StoreSide.mark ((v.sequenced w v.store.broken none).on fun c => { c with hold := true }) .global := by
  rw [StoreSide.holdStore, StoreSide.breakBegin_eq]
  exact if_neg h

theorem StoreSide.resumeStore_held (w : Word) (h : v.store.hold = true) : v.resumeStore w
    = (StoreSide.mark ((v.sequenced w v.store.broken none).on fun c => { c with hold := false }) .global).advanceEngine := by
  rw [StoreSide.resumeStore, StoreSide.breakBegin_eq]
  exact if_pos h

theorem StoreSide.resumeStore_free (w : Word) (h : v.store.hold ≠ true) :
    v.resumeStore w = v.sequenced w v.store.broken none := by
  rw [StoreSide.resumeStore, StoreSide.breakBegin_eq]
  exact if_neg h

theorem StoreSide.clearStatus_eq (v : StoreSide) (w : Word) : v.clearStatus w =
    StoreSide.mark ((v.sequenced w v.store.broken none).status fun c => { c with
      eraseFail := false, programFail := false, supplyAbort := false, lastRefusal := none
      lamp := if c.sticky then Lamp.off else c.lamp }) .global := by
  rw [StoreSide.clearStatus, StoreSide.breakBegin_eq]

/-- The engine does not go on unless it is in RECEIVING with a session (R142). -/
theorem StoreSide.advanceEngine_of_not (h : v.store.engine ≠ .receiving ∨ v.store.session = none) :
    v.advanceEngine = v := by
  unfold StoreSide.advanceEngine
  cases hsession : v.store.session with
  | none => rfl
  | some ss =>
    dsimp only
    cases v.store.readyBuf ss.nextProg with
    | none => rfl
    | some b => exact if_neg fun hgo => h.elim (fun hne => hne hgo.1) fun hnone => by rw [hnone] at hsession; cases hsession

end

/-- Settles O46. -/
theorem storeCommandPairing : Obligations.StoreCommandPairing := by
  rintro w s i r code broken after hhead hr rfl rfl rfl
  obtain rfl := storeRecording_eq hr
  have hafter : ∀ {f : StoreSide → StoreSide} {n : Nat} {b : Option PendingBegin},
      exec i s = .next (s.taken.onStore f) → f s.taken.storeSide = s.taken.storeSide.sequenced w n b →
      exec i s = .next (s.taken.withStoreSide (s.taken.storeSide.sequenced w n b)) := fun hexec heq => by
    rw [hexec, State.onStore, heq]
  refine ⟨fun kind hbegin => ?begins, fun hcommand => ?outOfSequence, fun kind hconfirm => ?confirms, fun u hu => ?others,
    fun hcommand => ?broken⟩
  case begins =>
    have hf : ∀ k, (StoreSide.beginWith k w) s.taken.storeSide
        = s.taken.storeSide.sequenced w s.store.broken (some ⟨k, storeRecording w⟩) := fun k => by
      rw [StoreSide.beginWith, StoreSide.breakBegin_eq]
      rfl
    rcases hbegin with ⟨hc, rfl, rfl⟩ | ⟨hc, rfl, rfl⟩ | ⟨hc, rfl, rfl⟩
    · exact hafter (exec_loadBegin hhead hc) (hf _)
    · exact hafter (exec_retireBegin hhead hc) (hf _)
    · exact hafter (exec_configBegin hhead hc) (hf _)
  case outOfSequence =>
    have hbroken := StoreSide.breakBegin_sequenceError s.taken.storeSide w
    rcases hcommand with ⟨hc, rfl⟩ | ⟨hnone, ⟨hc, rfl⟩ | ⟨hc, rfl⟩⟩
    · exact hafter (exec_invalidStoreCommand hhead hc) hbroken
    · refine hafter (exec_chunkReady hhead hc) (Eq.trans ?_ hbroken)
      have hsession : (s.taken.storeSide.breakBegin w).store.session = none := by
        rw [StoreSide.breakBegin_eq]
        exact hnone
      rw [StoreSide.chunkReady, hsession]
    · refine hafter (exec_loadAbandon hhead hc) (Eq.trans ?_ hbroken)
      have hsession : (s.taken.storeSide.breakBegin w).store.session = none := by
        rw [StoreSide.breakBegin_eq]
        exact hnone
      rw [StoreSide.loadAbandon, hsession]
  case confirms =>
    have hpairs : ∀ f, exec i s = .next (s.taken.onStore (StoreSide.confirmWith kind w f)) → _ := fun f hexec =>
      have hunpaired := StoreSide.confirmWith_unpaired (v := s.taken.storeSide) (w := w) kind f
      And.intro (fun hb => hafter hexec (hunpaired.1 hb)) fun b hb =>
        And.intro (fun hkind => hafter hexec ((hunpaired.2 b hb).1 hkind)) fun hkind hrec =>
          hafter hexec ((hunpaired.2 b hb).2 hkind hrec)
    rcases hconfirm with ⟨hc, rfl, rfl⟩ | ⟨hc, rfl, rfl⟩ | ⟨hc, rfl, rfl⟩
    · exact hpairs _ (exec_loadConfirm hhead hc)
    · exact hpairs _ (exec_retireConfirm hhead hc)
    · exact hpairs _ (exec_configConfirm hhead hc)
  case others =>
    subst hu
    refine ⟨fun hc => ?_, fun hc hstill => ?_, fun hc => ?_⟩
    · rw [exec_storeHold hhead hc, State.onStore]
      by_cases hhold : s.store.hold = true
      · rw [if_pos hhold, StoreSide.holdStore_held w (by exact hhold)]
        rfl
      · rw [if_neg hhold, StoreSide.holdStore_free w (by exact hhold)]
        rfl
    · rw [exec_storeResume hhead hc, State.onStore]
      by_cases hhold : s.store.hold = true
      · rw [if_pos hhold, StoreSide.resumeStore_held w (by exact hhold), StoreSide.advanceEngine_of_not (by exact hstill)]
        rfl
      · rw [if_neg hhold, StoreSide.resumeStore_free w (by exact hhold)]
        rfl
    · rw [exec_clearStoreStatus hhead hc, State.onStore, StoreSide.clearStatus_eq]
      rfl
  case broken =>
    have hunbroken : ∀ v : StoreSide, (v.sequenced w v.store.broken none).breakBegin w = v.breakBegin w := fun v => by
      rw [StoreSide.breakBegin_eq v]
      exact if_pos rfl
    rcases hcommand with ⟨hc, rfl⟩ | ⟨hc, rfl⟩ | ⟨hc, rfl⟩
    · rw [exec_chunkReady hhead hc]
      refine (congrArg Host.Outcome.next ?_).trans (exec_chunkReady (by exact hhead) hc).symm
      refine congrArg s.taken.withStoreSide ?_
      unfold StoreSide.chunkReady
      rw [← hunbroken]
      rfl
    · rw [exec_loadAbandon hhead hc]
      refine (congrArg Host.Outcome.next ?_).trans (exec_loadAbandon (by exact hhead) hc).symm
      refine congrArg s.taken.withStoreSide ?_
      unfold StoreSide.loadAbandon
      rw [← hunbroken]
      rfl
    · rw [exec_storeResume hhead hc]
      refine (congrArg Host.Outcome.next ?_).trans (exec_storeResume (by exact hhead) hc).symm
      refine congrArg s.taken.withStoreSide ?_
      unfold StoreSide.resumeStore
      rw [← hunbroken]
      rfl

end Sys2Proof.Machine
end

