-- ==== Sys2Proof/Proofs/StoreChecks.lean ====
section
/-!
PROOF. The checks of the confirms (chapters 8.4 to 8.6), hold and resume, status, the store-lock input and the withdrawn answer
(chapters 8.5, 8.7 and 8.8). O47, O51.
-/
namespace Sys2Proof.Machine

/-! ### The checks of the confirms -/

/-- Of two tests that exclude each other, those that pass either. -/
theorem length_filter_or {α : Type} (f g h : α → Bool) (l : List α) (hfg : ∀ x, f x = true → g x = false) :
    (l.filter fun x => h x && (f x || g x)).length
      = ((l.filter h).filter f).length + ((l.filter h).filter g).length := by
  induction l with
  | nil => rfl
  | cons x l ih =>
    cases hh : h x with
    | false => simp [hh, ih]
    | true =>
      cases hf : f x with
      | true => simp [hh, hf, hfg x hf, ih]; omega
      | false => cases hg : g x <;> simp [hh, hf, hg, ih]; omega

theorem audioSegments_eq : audioSegments = (List.finRange 256).filter fun g => g != 0 := by
  have hcons : List.finRange 256 = 0 :: (List.finRange 255).map Fin.succ := List.finRange_succ
  rw [audioSegments, allSegments, hcons, List.tail_cons, List.filter_cons_of_neg (by decide)]
  refine (List.filter_eq_self.2 fun g hg => ?_).symm
  obtain ⟨h, -, rfl⟩ := List.mem_map.1 hg
  exact bne_iff_ne.2 (Fin.succ_ne_zero h)

theorem StoreController.free_length (c : StoreController) : c.free.length = ((List.finRange 256).filter fun g =>
    g != 0 && (c.segMap[g] == .erased || c.segMap[g] == .dirty)).length := by
  have hexcl : ∀ g : SegNo, (c.segMap[g] == .erased) = true → (c.segMap[g] == .dirty) = false := fun g h => by
    rw [beq_iff_eq.1 h]
    rfl
  rw [length_filter_or (fun g : SegNo => c.segMap[g] == .erased) (fun g => c.segMap[g] == .dirty) (fun g => g != 0) _ hexcl,
    StoreController.free, List.length_append, audioSegments_eq]

section
variable {s : State} {w : Word} {v : StoreSide} {r : RecNo} {x : RefusalReason}

/-- A confirm refused, its begin being gone. -/
theorem State.onStore_refuse (op : Nat) (x : RefusalReason) (subject : Nat) (s : State) :
    s.withStoreSide (StoreSide.refuse op x subject (s.storeSide.on fun c => { c with pendingBegin := none }))
      = (State.mark { s with store := { s.store with pendingBegin := none, lastRefusal := some x } }
        .storeStatus).submit .storeController .loadRefused subject (0x100 * op + x.code) := rfl

theorem StoreSide.loadConfirmed_refused (h : v.store.loadCheck r = some x) : v.loadConfirmed r = v.refuse 0 x r.val := by
  rw [StoreSide.loadConfirmed, h]

theorem StoreSide.retireConfirmed_refused (h : v.store.retireCheck r = some x) :
    v.retireConfirmed r = v.refuse 1 x r.val := by
  rw [StoreSide.retireConfirmed, h]

theorem StoreSide.configConfirmed_refused (ws : List Word) (h : v.store.configCheck = some x) :
    v.configConfirmed ws = v.refuse 2 x 32 := by
  rw [StoreSide.configConfirmed, h]

end

/-- Settles O47. -/
theorem confirmsAreCheckedInOrder : Obligations.ConfirmsAreCheckedInOrder := by
  rintro w s i r code n subject op kind sticky x hhead hr rfl hpair rfl rfl hcases
  obtain rfl := storeRecording_eq hr
  have hconfirm : ∀ {f : StoreSide → StoreSide} {op subject : Nat},
      exec i s = .next (s.taken.onStore (StoreSide.confirmWith kind w f)) →
      f (s.taken.storeSide.on fun c => { c with pendingBegin := none })
        = StoreSide.refuse op x subject (s.taken.storeSide.on fun c => { c with pendingBegin := none }) →
      exec i s = .next ((State.mark { s.taken with store := { s.store with pendingBegin := none, lastRefusal := some x } }
        .storeStatus).submit .storeController .loadRefused subject (0x100 * op + x.code)) := fun hexec hf => by
    rw [hexec, State.onStore, StoreSide.confirmWith_paired _ (by exact hpair), hf]
    rfl
  rcases hcases with ⟨hc, rfl, rfl, rfl, rfl, hx⟩ | ⟨hc, rfl, rfl, rfl, rfl, hx⟩ | ⟨hc, rfl, rfl, rfl, rfl, hx⟩
  · refine hconfirm (exec_loadConfirm hhead hc) (StoreSide.loadConfirmed_refused ?_)
    rw [hx, StoreController.loadCheck, StoreController.free_length]
    simp only [Bool.and_eq_true]
    rfl
  · refine hconfirm (exec_retireConfirm hhead hc) (StoreSide.retireConfirmed_refused ?_)
    rw [hx, StoreController.retireCheck]
    simp only [Bool.and_eq_true]
    rfl
  · exact hconfirm (exec_configConfirm hhead hc) (StoreSide.configConfirmed_refused _ hx.symm)

/-! ### Hold, resume, status, lock and the withdrawn answer -/

section
variable {v : StoreSide} {ss : Session} {b : Bank}

theorem StoreController.readyBuf_eq_some {c : StoreController} {j : Nat} (hb : (c.buf b).state = .ready ∧ (c.buf b).chunk = j)
    (hfirst : b = .A ∨ ¬ ((c.buf .A).state = .ready ∧ (c.buf .A).chunk = j)) : c.readyBuf j = some b := by
  unfold StoreController.readyBuf
  cases b with
  | A => exact if_pos hb
  | B => exact (if_neg (hfirst.resolve_left (by decide))).trans (if_pos hb)

theorem StoreController.readyBuf_eq_none {c : StoreController} {j : Nat}
    (h : ∀ b, ¬ ((c.buf b).state = .ready ∧ (c.buf b).chunk = j)) : c.readyBuf j = none :=
  (if_neg (h .A)).trans (if_neg (h .B))

/-- In RECEIVING, not held, the engine takes the READY chunk it waits for (R142). -/
theorem StoreSide.advanceEngine_ready (hsession : v.store.session = some ss) (hready : v.store.readyBuf ss.nextProg = some b)
    (hengine : v.store.engine = .receiving) (hhold : v.store.hold = false) :
    v.advanceEngine = StoreSide.mark (v.status fun c => { c.setBuf b { c.buf b with state := .programming } with
      engine := .programming, session := some { ss with nextCode := 2048 * ss.nextProg } }) .global := by
  rw [StoreSide.advanceEngine, hsession]
  dsimp only
  rw [hready]
  dsimp only
  rw [if_pos ⟨hengine, hhold⟩, StoreSide.setEngine, if_neg]
  · rfl
  · have hkeeps : ∀ (c : StoreController) (y : ChunkBuf), (c.setBuf b y).engine = c.engine := fun c y => by
      cases b <;> rfl
    intro h
    have hprog : v.store.engine = .programming := (hkeeps v.store _).symm.trans h
    rw [hengine] at hprog
    cases hprog

theorem StoreSide.advanceEngine_waiting (hsession : v.store.session = some ss)
    (hready : v.store.readyBuf ss.nextProg = none) : v.advanceEngine = v := by
  rw [StoreSide.advanceEngine, hsession]
  dsimp only
  rw [hready]

theorem exec_storeLockChange (applied : Bool) {s : State} (hrun : s.running = true) : exec (.storeLockChange applied) s
    = .next (if applied = s.store.lock then s else State.mark { s with store := { s.store with lock := applied } } .global) := by
  show execStoreLockChange applied s = _
  rw [execStoreLockChange]
  by_cases happlied : applied = s.store.lock
  · rw [if_neg fun h => h.2 happlied, if_pos happlied, happlied]
  · rw [if_pos ⟨hrun, happlied⟩, if_neg happlied]

theorem exec_withdrawnAnswer {s : State} {r : RecNo} {rest : List RecNo} {j : RetireJob} (hrun : s.running = true)
    (hanswers : s.players.withdrawnAnswers = r :: rest) (hretire : s.store.retire = some j) (hrec : j.recording = r)
    (hanswered : j.answered = false) : exec .withdrawnAnswer s = .next (State.mark { s with
      players := { s.players with withdrawnAnswers := rest }
      store := { s.store with
        retire := some { j with answered := true }
        dir := s.store.dir.set r { s.store.dir[r] with state := .retiring } } } (.directory r)) := by
  have hexec : exec .withdrawnAnswer s = .next s.takeWithdrawn := event_of_running hrun
  rw [hexec, State.takeWithdrawn, hanswers]
  dsimp only
  rw [State.onStore, StoreSide.withdrawn]
  have hretire' : (State.storeSide { s with players := { s.players with withdrawnAnswers := rest } }).store.retire
      = some j := hretire
  rw [hretire']
  dsimp only
  rw [if_pos ⟨hrec, hanswered⟩]
  rfl

end

/-- Settles O51. -/
theorem holdStatusLockAndWithdrawnAnswer : Obligations.HoldStatusLockAndWithdrawnAnswer := by
  refine ⟨fun w s hhead hpending => ?_, fun b s hrun => exec_storeLockChange b hrun, fun s r rest j hrun =>
    exec_withdrawnAnswer hrun⟩
  have hbroken : s.taken.storeSide.store.broken = 0 := if_pos hpending
  have hsequenced : s.taken.storeSide.sequenced w s.taken.storeSide.store.broken none = s.taken.storeSide := by
    rw [hbroken]
    exact StoreSide.sequenced_zero hpending
  refine ⟨fun hc => ?_, fun hc hstill => ?_, fun ss awaited hc hengine hsession hawaited =>
    ⟨fun hhold => ?_, fun hhold hnone => ?_, fun b hhold hb hfirst => ?_⟩, fun hc => ?_⟩
  · rw [exec_storeHold hhead hc, State.onStore]
    by_cases hhold : s.store.hold = true
    · rw [if_pos hhold, StoreSide.holdStore_held w (by exact hhold), hsequenced]
      rfl
    · rw [if_neg hhold, StoreSide.holdStore_free w (by exact hhold), hsequenced]
      rfl
  · rw [exec_storeResume hhead hc, State.onStore]
    by_cases hhold : s.store.hold = true
    · rw [if_pos hhold, StoreSide.resumeStore_held w (by exact hhold), hsequenced,
        StoreSide.advanceEngine_of_not (by exact hstill)]
      rfl
    · rw [if_neg hhold, StoreSide.resumeStore_free w (by exact hhold), hsequenced]
      rfl
  · have hfree : s.store.hold ≠ true := by rw [hhold]; exact Bool.false_ne_true
    rw [exec_storeResume hhead hc, State.onStore, StoreSide.resumeStore_free w (by exact hfree), hsequenced]
    rfl
  · have hready : s.store.readyBuf ss.nextProg = none :=
      StoreController.readyBuf_eq_none fun b h => hnone b ((hawaited b).2 h)
    rw [exec_storeResume hhead hc, State.onStore, StoreSide.resumeStore_held w (by exact hhold), hsequenced,
      StoreSide.advanceEngine_waiting (ss := ss) (by exact hsession) (by exact hready)]
    rfl
  · have hready : s.store.readyBuf ss.nextProg = some b :=
      StoreController.readyBuf_eq_some ((hawaited b).1 hb) (hfirst.imp_right fun h h2 => h ((hawaited .A).2 h2))
    rw [exec_storeResume hhead hc, State.onStore, StoreSide.resumeStore_held w (by exact hhold), hsequenced,
      StoreSide.advanceEngine_ready (ss := ss) (b := b) (by exact hsession) (by exact hready) (by exact hengine) (by rfl)]
    cases b <;> rfl
  · rw [exec_clearStoreStatus hhead hc, State.onStore, StoreSide.clearStatus_eq, hsequenced]
    rfl

end Sys2Proof.Machine
end

