-- ==== Sys2Proof/Proofs/ConfirmedWork.lean ====
section
/-!
PROOF. Accepted confirms (chapters 8.4 to 8.6). O48.
-/
namespace Sys2Proof.Machine

/-! ### The allocation of a load -/

section
variable {c : StoreController} {r : RecNo}

theorem StoreController.free_eq (c : StoreController) : c.free =
    ((List.finRange 256).filter fun g => g != 0 && c.segMap[g] == .erased)
      ++ (List.finRange 256).filter fun g => g != 0 && c.segMap[g] == .dirty := by
  rw [StoreController.free, audioSegments_eq, List.filter_filter, List.filter_filter]
  simp only [Bool.and_comm]

theorem StoreController.free_nodup (c : StoreController) : c.free.Nodup := by
  have hnodup : audioSegments.Nodup := by
    rw [audioSegments_eq]
    exact (List.nodup_finRange 256).filter _
  refine List.Nodup.append (hnodup.filter _) (hnodup.filter _) fun g herased hdirty => ?_
  have h1 := beq_iff_eq.1 (List.mem_filter.1 herased).2
  have h2 := beq_iff_eq.1 (List.mem_filter.1 hdirty).2
  rw [h1] at h2
  cases h2

theorem StoreController.free_state {g : SegNo} (hg : g ∈ c.free) : c.segMap[g] = .erased ∨ c.segMap[g] = .dirty := by
  rcases List.mem_append.1 hg with h | h
  · exact .inl (beq_iff_eq.1 (List.mem_filter.1 h).2)
  · exact .inr (beq_iff_eq.1 (List.mem_filter.1 h).2)

/-- Segments become USED in the segment map alone. -/
theorem StoreController.useSegs_eq (r : RecNo) (i : Nat) (l : List SegNo) (c : StoreController) :
    c.useSegs r i l = { c with segMap := (c.useSegs r i l).segMap } := by
  induction l generalizing i c with
  | nil => rfl
  | cons g l ih =>
    rw [StoreController.useSegs, ih]
    rfl

/-- What segments become USED depends on the segment map alone. -/
theorem StoreController.useSegs_congr (r : RecNo) (i : Nat) (l : List SegNo) {c d : StoreController}
    (h : c.segMap = d.segMap) : (c.useSegs r i l).segMap = (d.useSegs r i l).segMap := by
  induction l generalizing i c d with
  | nil => exact h
  | cons g l ih =>
    refine ih (i + 1) ?_
    show c.segMap.set _ _ = d.segMap.set _ _
    rw [h]

theorem StoreController.useSegs_of_not_mem (i : Nat) {l : List SegNo} (c : StoreController) {h : SegNo} (hl : h ∉ l) :
    (c.useSegs r i l).segMap[h] = c.segMap[h] := by
  induction l generalizing i c with
  | nil => rfl
  | cons g l ih =>
    obtain ⟨hg, hl⟩ := not_or.1 (mt List.mem_cons.2 hl)
    rw [StoreController.useSegs, ih _ _ hl]
    exact (vector_getElem_set_fin _ _ _ _).trans (if_neg hg)

theorem StoreController.useSegs_of_mem (i : Nat) {l : List SegNo} (c : StoreController) (hnodup : l.Nodup) {j : Nat} {g : SegNo}
    (hj : l[j]? = some g) : (c.useSegs r i l).segMap[g] = .used r (i + j) := by
  induction l generalizing i j c with
  | nil => cases hj
  | cons h l ih =>
    obtain ⟨hh, hl⟩ := List.nodup_cons.1 hnodup
    rw [StoreController.useSegs]
    cases j with
    | zero =>
      obtain rfl : h = g := Option.some.inj hj
      rw [StoreController.useSegs_of_not_mem _ _ hh]
      exact (vector_getElem_set_fin _ _ _ _).trans (if_pos rfl)
    | succ j =>
      rw [ih (i + 1) _ hl (j := j) hj, Nat.add_right_comm]
      rfl

end

/-! ### An opened session -/

section
variable {v : StoreSide} {r : RecNo} {segs : List SegNo}

theorem StoreSide.setEngine_of_ne {x : Engine} (h : v.store.engine ≠ x) :
    v.setEngine x = StoreSide.mark (v.on fun c => { c with engine := x }) .global := if_neg h

/-- The store controller with the session of a load opened (R140). -/
def StoreController.opened (r : RecNo) (segs : List SegNo) (c : StoreController) : StoreController :=
  { c with
    dir := c.dir.set r (c.loadRecord segs), segMap := (c.useSegs r 0 segs).segMap
    session := some (c.newSession r segs) }

theorem StoreSide.openSession_eq (hengine : v.store.engine = .idle)
    (hsegs : v.store.free.take (segmentsFor v.store.paramLength) = segs) : v.openSession r =
      (fun u : StoreSide => if (segs.any fun g => v.store.segMap[g] == .dirty) = true then u else u.enterReceiving)
        ⟨((v.wire.mark (.directory r)).mark .storeStatus).mark .global,
          { v.store.opened r segs with engine := .preparing }⟩ := by
  have huse := StoreController.useSegs_eq r 0 segs { v.store with dir := v.store.dir.set r (v.store.loadRecord segs) }
  have hmap : (StoreController.useSegs r 0 segs
      { v.store with dir := v.store.dir.set r (v.store.loadRecord segs) }).segMap = (v.store.useSegs r 0 segs).segMap :=
    StoreController.useSegs_congr r 0 segs rfl
  have hopened : (v.setDir r (v.store.loadRecord segs)).status (fun x =>
      { x.useSegs r 0 segs with session := some (v.store.newSession r segs) })
      = ⟨(v.wire.mark (.directory r)).mark .storeStatus, v.store.opened r segs⟩ := by
    refine congrArg (StoreSide.mk ((v.wire.mark (.directory r)).mark .storeStatus)) ?_
    show ({ StoreController.useSegs r 0 segs { v.store with dir := v.store.dir.set r (v.store.loadRecord segs) } with
      session := some (v.store.newSession r segs) } : StoreController) = v.store.opened r segs
    rw [huse, hmap]
    rfl
  rw [StoreSide.openSession]
  dsimp only
  rw [hsegs, hopened, StoreSide.setEngine_of_ne (by
    show v.store.engine ≠ _
    rw [hengine]
    decide)]
  rfl

theorem StoreSide.enterReceiving_eq {ss : Session} (hsession : v.store.session = some ss) (hne : v.store.engine ≠ .receiving) :
    v.enterReceiving = StoreSide.submit (StoreSide.status (fun c => c.fill .A 0)
      (StoreSide.mark (v.on fun c => { c with engine := .receiving }) .global)) .loadStep ss.recording.val 0 := by
  rw [StoreSide.enterReceiving, hsession, StoreSide.setEngine_of_ne hne]

theorem StoreController.loadCheck_none {c : StoreController} {r : RecNo} (hpos : 1 ≤ c.paramLength)
    (hmax : c.paramLength ≤ 2084880) (hdir : c.dir[r].state = .absent) (hsticky : c.sticky = false)
    (hengine : c.engine = .idle) (hsession : c.session = none) (hspace : segmentsFor c.paramLength ≤ c.free.length)
    (hlock : flagsPermanent c.paramFlags = false ∨ c.lock = false) : c.loadCheck r = none := by
  unfold StoreController.loadCheck
  rw [if_neg, if_neg (not_not.2 hdir), if_neg (by rw [hsticky]; exact Bool.false_ne_true), if_neg, if_neg (Nat.not_lt.2 hspace),
    if_neg]
  · rintro ⟨hp, hl⟩
    rcases hlock with h | h
    · exact Bool.false_ne_true (h.symm.trans hp)
    · exact Bool.false_ne_true (h.symm.trans hl)
  · rintro (h | h)
    · exact h hengine
    · exact h hsession
  · rintro (h | h)
    · rw [h] at hpos
      exact Nat.not_lt_zero 0 hpos
    · exact Nat.not_lt.2 hmax h

theorem StoreController.retireCheck_none {c : StoreController} {r : RecNo} (hdir : c.dir[r].state = .available)
    (hsticky : c.sticky = false) (hengine : c.engine = .idle) (hlock : c.dir[r].permanent = false ∨ c.lock = false) :
    c.retireCheck r = none := by
  unfold StoreController.retireCheck
  rw [if_neg (not_not.2 hdir), if_neg (by rw [hsticky]; exact Bool.false_ne_true), if_neg (not_not.2 hengine), if_neg]
  rintro ⟨hp, hl⟩
  rcases hlock with h | h
  · exact Bool.false_ne_true (h.symm.trans hp)
  · exact Bool.false_ne_true (h.symm.trans hl)

theorem StoreController.configCheck_none {c : StoreController} (hsticky : c.sticky = false) (hengine : c.engine = .idle)
    (hlock : c.lock = false) : c.configCheck = none := by
  unfold StoreController.configCheck
  rw [if_neg (by rw [hsticky]; exact Bool.false_ne_true), if_neg (not_not.2 hengine),
    if_neg (by rw [hlock]; exact Bool.false_ne_true)]

theorem StoreSide.retireConfirmed_accepted (hcheck : v.store.retireCheck r = none) (hne : v.store.engine ≠ .retiring) :
    v.retireConfirmed r = StoreSide.mark (v.on fun c => { c with
      engine := .retiring, retire := some ⟨r, c.dir[r].segCount, c.segsOf r, false⟩
      poolNotices := c.poolNotices ++ [.withdrawal r] }) .global := by
  rw [StoreSide.retireConfirmed, hcheck]
  exact StoreSide.setEngine_of_ne hne

theorem StoreSide.configConfirmed_accepted (ws : List Word) (hcheck : v.store.configCheck = none)
    (hne : v.store.engine ≠ .configWriting) : v.configConfirmed ws = StoreSide.mark (v.on fun c => { c with
      engine := .configWriting, segMap := c.segMap.set 0 .configAbsent, config := some ⟨ws, .erase⟩ }) .global := by
  rw [StoreSide.configConfirmed, hcheck]
  exact StoreSide.setEngine_of_ne hne

end

/-! ### The segments of a recording -/

theorem filterMap_getElem?_range {α : Type} (l : List α) : (List.range l.length).filterMap (fun j => l[j]?) = l := by
  induction l with
  | nil => rfl
  | cons x l ih =>
    rw [List.length_cons, List.range_succ_eq_map, List.filterMap_cons]
    simpa [List.filterMap_map, Function.comp_def] using ih

theorem StoreController.segsOf_eq {c : StoreController} {r : RecNo} {segs : List SegNo}
    (hlength : segs.length = c.dir[r].segCount)
    (h : ∀ (j : Nat) (g h : SegNo), segs[j]? = some g → (c.segMap[h] = .used r j ↔ h = g)) : c.segsOf r = segs := by
  rw [StoreController.segsOf, ← hlength]
  refine Eq.trans (List.filterMap_congr fun j hj => ?_) (filterMap_getElem?_range segs)
  obtain ⟨g, hget⟩ : ∃ g, segs[j]? = some g := ⟨_, List.getElem?_eq_getElem (List.mem_range.1 hj)⟩
  rw [hget]
  exact find?_eq_some_of_unique (List.mem_finRange _) (beq_iff_eq.2 ((h j _ _ hget).2 rfl))
    fun g hg => beq_eq_false_iff_ne.2 fun heq => hg ((h j _ _ hget).1 heq)

/-- Settles O48. -/
theorem acceptedConfirmsBeginTheirWork : Obligations.AcceptedConfirmsBeginTheirWork := by
  rintro w s r code n hhead hr rfl hef hpf hsa hengine rfl
  obtain rfl := storeRecording_eq hr
  have hsticky : s.store.sticky = false := by rw [StoreController.sticky, hef, hpf, hsa]; rfl
  refine ⟨fun all segs clean hc hpair hpos hmax hdir hsession hlock hall hsegs hlength hclean => ?load,
    fun segs hc hpair hdir hlock hlength hmap => ?retire, fun hc hpair hlock => ?config⟩
  case load =>
    obtain ⟨c, hcdef⟩ : ∃ c : StoreController, c = { s.store with pendingBegin := none } := ⟨_, rfl⟩
    have hfree : c.free = all := by
      rw [hall, StoreController.free_eq, hcdef]
    have htake : c.free.take (segmentsFor c.paramLength) = segs := by
      rw [hfree, hsegs, hcdef]
      rfl
    have hspace : segmentsFor c.paramLength ≤ c.free.length := by
      have hle := List.length_take_le' (segmentsFor c.paramLength) c.free
      rw [htake, hlength] at hle
      rw [hcdef] at hle ⊢
      exact hle
    have hcheck : c.loadCheck (storeRecording w) = none := by
      refine StoreController.loadCheck_none ?_ ?_ ?_ ?_ ?_ ?_ hspace ?_ <;> rw [hcdef] <;> assumption
    have hnodup : segs.Nodup := by
      rw [← htake]
      exact c.free_nodup.sublist (List.take_sublist _ _)
    have hexec : exec (.loadConfirm w) s
        = .next (s.taken.withStoreSide (StoreSide.openSession (storeRecording w) ⟨s.wire, c⟩)) := by
      rw [exec_loadConfirm hhead hc, State.onStore, StoreSide.confirmWith_paired _ (by exact hpair)]
      have hv : (s.taken.storeSide.on fun c => { c with pendingBegin := none }) = ⟨s.wire, c⟩ := by rw [hcdef]; rfl
      rw [hv, StoreSide.loadConfirmed]
      dsimp only
      rw [hcheck]
    have hany : (segs.any fun g => c.segMap[g] == .dirty) = true ↔ ¬ clean := by
      rw [hclean, List.any_eq_true, hcdef]
      constructor
      · rintro ⟨g, hg, hdirty⟩ hall
        rw [hall g hg] at hdirty
        cases hdirty
      · intro hnot
        push Not at hnot
        obtain ⟨g, hg, hne⟩ := hnot
        refine ⟨g, hg, beq_iff_eq.2 ?_⟩
        have hgfree : g ∈ c.free := by
          rw [← htake] at hg
          exact List.mem_of_mem_take hg
        have hstate := StoreController.free_state hgfree
        rw [hcdef] at hstate
        exact hstate.resolve_left hne
    have hmapped : ∀ (j : Nat) (g : SegNo), segs[j]? = some g →
        (c.useSegs (storeRecording w) 0 segs).segMap[g] = .used (storeRecording w) j := fun j g hj => by
      rw [StoreController.useSegs_of_mem 0 c hnodup hj, Nat.zero_add]
    have hother : ∀ g : SegNo, g ∉ segs → (c.useSegs (storeRecording w) 0 segs).segMap[g] = s.store.segMap[g] :=
      fun g hg => by rw [StoreController.useSegs_of_not_mem 0 c hg, hcdef]
    have hopen := StoreSide.openSession_eq (v := ⟨s.wire, c⟩) (r := storeRecording w) (by rw [hcdef]; exact hengine) htake
    have hrecord : c.loadRecord segs = ⟨.loading, segs.headD 0,
        (s.store.paramHigh.toNat * 65536 + s.store.paramLow.toNat + 8175) / 8176,
        s.store.paramHigh.toNat * 65536 + s.store.paramLow.toNat, s.store.paramFlags.getLsbD 15,
        s.store.paramFlags.getLsbD 14, min (s.store.paramFlags.toNat % 64) 50⟩ := by
      have hgap : flagsGap s.store.paramFlags = min (s.store.paramFlags.toNat % 64) 50 := by simp [flagsGap, field]
      rw [StoreController.loadRecord, hlength, hcdef, ← hgap]
      rfl
    rw [hopen] at hexec
    by_cases hdirty : (segs.any fun g => c.segMap[g] == .dirty) = true
    · have hnot : ¬ clean := hany.1 hdirty
      dsimp only at hexec
      rw [if_pos hdirty] at hexec
      refine ⟨_, hexec, hmapped, hother, fun h => absurd h hnot, fun _ => ⟨rfl, by rw [hcdef]; rfl⟩, ?_,
        fun h => absurd h hnot, fun _ => rfl⟩
      simp only [StoreController.opened, hrecord, StoreController.newSession]
      rw [hcdef]
      rfl
    · have hyes : clean := not_not.1 (mt hany.2 hdirty)
      dsimp only at hexec
      rw [if_neg hdirty, StoreSide.enterReceiving_eq rfl (by show Engine.preparing ≠ _; decide)] at hexec
      refine ⟨_, hexec, hmapped, hother, fun _ => ⟨rfl, rfl⟩, fun h => absurd hyes h, ?_, fun _ => rfl,
        fun h => absurd hyes h⟩
      simp only [StoreController.opened, hrecord, StoreController.newSession]
      rw [hcdef]
      rfl
  case retire =>
    have hsegs : StoreController.segsOf { s.store with pendingBegin := none } (storeRecording w) = segs :=
      StoreController.segsOf_eq hlength hmap
    rw [exec_retireConfirm hhead hc, State.onStore, StoreSide.confirmWith_paired _ (by exact hpair),
      StoreSide.retireConfirmed_accepted
        (StoreController.retireCheck_none (by exact hdir) (by exact hsticky) (by exact hengine) (by exact hlock))
        (by show s.store.engine ≠ _; rw [hengine]; decide), ← hsegs]
    rfl
  case config =>
    have hsettings : s.taken.bus.settings = s.bus.settings := Bus.giveWay_settings _
    rw [exec_configConfirm hhead hc, hsettings, State.onStore, StoreSide.confirmWith_paired _ (by exact hpair),
      StoreSide.configConfirmed_accepted _
        (StoreController.configCheck_none (by exact hsticky) (by exact hengine) (by exact hlock))
        (by show s.store.engine ≠ _; rw [hengine]; decide)]
    rfl

end Sys2Proof.Machine
end

