-- ==== Sys2Proof/Proofs/ChunkBuffers.lean ====
section
/-!
PROOF. The chunk buffers and LOAD_ABANDON (chapter 8.4). O49, O50.
-/
namespace Sys2Proof.Machine

section
variable {v : StoreSide} {c : StoreController} {ss : Session} {b : Bank} {x : ChunkBuf} {w : Word} {s : State}

/-! ### The load buffer -/

theorem StoreController.bufIn_eq_none {y : BufState} (hA : c.bufA.state ≠ y) (hB : c.bufB.state ≠ y) : c.bufIn y = none :=
  (if_neg hA).trans (if_neg hB)

theorem StoreController.bufIn_eq_some {y : BufState} (h : c.bufIn y = some b) : (c.buf b).state = y := by
  unfold StoreController.bufIn at h
  split_ifs at h with hA hB
  · obtain rfl := Option.some.inj h
    exact hA
  · obtain rfl := Option.some.inj h
    exact hB

/-- A load-buffer word in the bytes of a buffer, low byte first (R141). -/
theorem ChunkBuf.byte_writeWord (k : Nat) (w : Word) (hwf : memWf 0xFF#8 x.bytes = true) (j : Nat) :
    (x.writeWord k w).byte j = if j = 2 * k then BitVec.ofNat 8 w.toNat
      else if j = 2 * k + 1 then BitVec.ofNat 8 (w.toNat / 256) else x.byte j := by
  have hlow : memWf Config.erasedByte (memWrite Config.erasedByte x.bytes (2 * k) (w.setWidth 8)) = true := memWrite_wf hwf
  have hset : (w.setWidth 8 : Byte) = BitVec.ofNat 8 w.toNat := BitVec.eq_of_toNat_eq (by simp)
  have hshift : ((w >>> 8).setWidth 8 : Byte) = BitVec.ofNat 8 (w.toNat / 256) :=
    BitVec.eq_of_toNat_eq (by simp [Nat.shiftRight_eq_div_pow])
  unfold ChunkBuf.byte ChunkBuf.writeWord
  dsimp only
  rw [memRead_memWrite hlow, memRead_memWrite (by exact hwf), hset, hshift]
  split_ifs <;> first | rfl | omega

theorem exec_loadBufferWrite {k : Fin 1024} (hhead : s.headIs (0x800 + k.val) w = true) :
    exec (.loadBufferWrite k w) s = .next (s.taken.onStore (StoreSide.bufferWord k.val w)) := by
  show execLoadBufferWrite k w s = _
  exact handOver_of_headIs hhead

/-! ### CHUNK_READY -/

theorem StoreSide.breakBegin_of_none (w : Word) (h : v.store.pendingBegin = none) : v.breakBegin w = v := if_pos h

theorem StoreController.buf_setBuf (c : StoreController) (b : Bank) (x : ChunkBuf) : (c.setBuf b x).buf b = x := by
  cases b <;> rfl

theorem StoreController.buf_other_setBuf (c : StoreController) (b : Bank) (x : ChunkBuf) :
    (c.setBuf b x).buf b.other = c.buf b.other := by
  cases b <;> rfl

/-- The buffers once the FILLING one, `b`, is READY with its chunk, and the session counts it (R141). -/
def StoreController.chunkTaken (b : Bank) (ss : Session) (c : StoreController) : StoreController :=
  { (c.setBuf b { c.buf b with state := .ready }).setBuf b.other
      (if (c.buf b.other).state = .empty ∧ ss.nextRecv + 1 < ss.chunks then ⟨.filling, [], ss.nextRecv + 1⟩
        else c.buf b.other) with
    session := some { ss with
      nextRecv := ss.nextRecv + 1
      busyReported := if (c.buf b.other).state = .empty ∧ ss.nextRecv + 1 < ss.chunks then false else ss.busyReported } }

theorem StoreSide.readyChunk_none (h : v.store.bufIn .filling = none) :
    v.readyChunk ss = v.submit .chunkOverrun ss.recording.val ss.nextRecv := by
  rw [StoreSide.readyChunk, h]

theorem StoreSide.readyChunk_some (h : v.store.bufIn .filling = some b) :
    v.readyChunk ss = (v.status (StoreController.chunkTaken b ss)).advanceEngine := by
  rw [StoreSide.readyChunk, h]
  have hfun : ∀ c : StoreController, (fun (c : StoreController) =>
      let c : StoreController := { c.setBuf b { c.buf b with state := .ready } with
        session := some { ss with nextRecv := ss.nextRecv + 1 } }
      if (c.buf (otherBuf b)).state = .empty ∧ ss.nextRecv + 1 < ss.chunks then c.fill (otherBuf b) (ss.nextRecv + 1)
      else c) c = c.chunkTaken b ss := fun c => by
    have hother : StoreController.buf { c.setBuf b { c.buf b with state := .ready } with
        session := some { ss with nextRecv := ss.nextRecv + 1 } } (otherBuf b) = c.buf b.other := by cases b <;> rfl
    dsimp only
    rw [hother, StoreController.chunkTaken]
    split_ifs <;> cases b <;> rfl
  exact congrArg (fun f => (v.status f).advanceEngine) (funext hfun)

theorem StoreSide.advanceEngine_held (h : v.store.engine ≠ .receiving ∨ v.store.hold = true) : v.advanceEngine = v := by
  unfold StoreSide.advanceEngine
  cases v.store.session with
  | none => rfl
  | some ss =>
    dsimp only
    cases v.store.readyBuf ss.nextProg with
    | none => rfl
    | some b => exact if_neg fun hgo => h.elim (fun hne => hne hgo.1) fun hhold => Bool.false_ne_true (hgo.2.symm.trans hhold)

end

/-- Settles O49. -/
theorem chunkBuffersFillAndTurnReady : Obligations.ChunkBuffersFillAndTurnReady := by
  refine ⟨fun k w s hhead => ⟨fun hnone => ?_, fun ss hsession => ⟨fun b hfill hwf => ?_, fun hA hB => ⟨fun hbusy => ?_,
    fun hbusy => ?_⟩⟩⟩, fun w s ss hhead hc hpending hsession => ⟨fun hA hB => ?_, fun b x y c hfill hx hy hchunk hc' => ?_⟩⟩
  · have hnone' : s.taken.storeSide.store.session = none := hnone
    rw [exec_loadBufferWrite hhead, State.onStore, StoreSide.bufferWord, hnone']
    rfl
  · have hsession' : s.taken.storeSide.store.session = some ss := hsession
    have hfill' : s.taken.storeSide.store.bufIn .filling = some b := hfill
    refine ⟨_, (s.store.buf b).writeWord k.val w, ?_, rfl, ChunkBuf.byte_writeWord k.val w hwf⟩
    rw [exec_loadBufferWrite hhead, State.onStore, StoreSide.bufferWord, hsession']
    dsimp only
    rw [hfill']
    rfl
  · have hsession' : s.taken.storeSide.store.session = some ss := hsession
    have hfill' : s.taken.storeSide.store.bufIn .filling = none := StoreController.bufIn_eq_none hA hB
    rw [exec_loadBufferWrite hhead, State.onStore, StoreSide.bufferWord, hsession']
    dsimp only
    rw [hfill']
    dsimp only
    rw [if_pos hbusy]
    rfl
  · have hsession' : s.taken.storeSide.store.session = some ss := hsession
    have hfill' : s.taken.storeSide.store.bufIn .filling = none := StoreController.bufIn_eq_none hA hB
    rw [exec_loadBufferWrite hhead, State.onStore, StoreSide.bufferWord, hsession']
    dsimp only
    rw [hfill']
    dsimp only
    rw [if_neg (by rw [hbusy]; exact Bool.false_ne_true)]
    rfl
  · have hsession' : s.taken.storeSide.store.session = some ss := hsession
    rw [exec_chunkReady hhead hc, State.onStore, StoreSide.chunkReady,
      StoreSide.breakBegin_of_none w (by exact hpending), hsession']
    dsimp only
    rw [StoreSide.readyChunk_none (StoreController.bufIn_eq_none hA hB)]
    rfl
  · have hsession' : s.taken.storeSide.store.session = some ss := hsession
    have htaken : c = s.store.chunkTaken b ss := by rw [hc', StoreController.chunkTaken, hx, hy]
    have hexec : exec (.chunkReady w) s = .next (s.taken.withStoreSide (StoreSide.advanceEngine ⟨s.wire.mark .storeStatus, c⟩)) := by
      rw [exec_chunkReady hhead hc, State.onStore, StoreSide.chunkReady,
        StoreSide.breakBegin_of_none w (by exact hpending), hsession']
      dsimp only
      rw [StoreSide.readyChunk_some (by exact hfill), htaken]
      rfl
    have hkeeps : c.engine = s.store.engine ∧ c.hold = s.store.hold := by
      rw [hc']
      cases b <;> exact ⟨rfl, rfl⟩
    refine ⟨fun hstill => ?_, fun hengine hhold hnext hfirst => ?_⟩
    · rw [hexec, StoreSide.advanceEngine_held (by
        show c.engine ≠ _ ∨ c.hold = true
        rw [hkeeps.1, hkeeps.2]
        exact hstill)]
      rfl
    · obtain ⟨u, hu, hnextProg⟩ : ∃ u, c.session = some u ∧ u.nextProg = ss.nextProg := by rw [hc']; exact ⟨_, rfl, rfl⟩
      have hready : c.readyBuf u.nextProg = some b := by
        have hb : c.buf b = { x with state := .ready } := by
          rw [hc']
          cases b <;> rfl
        refine StoreController.readyBuf_eq_some ?_ ?_
        · rw [hb]
          exact ⟨rfl, by rw [hnextProg, hnext]; exact hchunk⟩
        · rw [hnextProg, hnext]
          rcases hfirst with h | h
          · exact .inl h
          · cases b with
            | A => exact .inl rfl
            | B =>
              right
              rintro ⟨hstate, hch⟩
              rw [hc'] at hstate hch
              simp only [StoreController.buf, StoreController.setBuf, Bank.other] at hstate hch
              by_cases hroom : y.state = .empty ∧ ss.nextRecv + 1 < ss.chunks
              · rw [if_pos hroom] at hstate
                cases hstate
              · rw [if_neg hroom] at hstate hch
                exact h.elim (fun h => h hstate) fun h => h hch
      rw [hexec, StoreSide.advanceEngine_ready (ss := u) (b := b) (by exact hu) (by exact hready)
        (by exact hkeeps.1.trans hengine) (by exact hkeeps.2.trans hhold)]
      have hb : c.buf b = { x with state := .ready } := by
        rw [hc']
        cases b <;> rfl
      have hset : c.setBuf b { c.buf b with state := .programming } = c.setBuf b { x with state := .programming } := by
        rw [hb]
      have hsess : (c.setBuf b { x with state := .programming }).session = some u := by
        cases b <;> exact hu
      simp only [StoreSide.status, StoreSide.on, hset, hu, Option.map_some, hnextProg]
      rfl

/-- Settles O50. -/
theorem loadAbandonEndsTheSession : Obligations.LoadAbandonEndsTheSession := by
  intro w s ss hhead hc hpending hsession hengine hnodup
  have hsession' : s.taken.storeSide.store.session = some ss := hsession
  have hexec : exec (.loadAbandon w) s = .next (s.taken.withStoreSide
      (s.taken.storeSide.endSession.submit .loadAbandoned ss.recording.val ss.nextProg)) := by
    rw [exec_loadAbandon hhead hc, State.onStore, StoreSide.loadAbandon,
      StoreSide.breakBegin_of_none w (by exact hpending), hsession']
  cases hstep : s.store.stepInProgress with
  | true =>
    rw [StoreSide.endSession_of_step hsession' (by exact hstep)] at hexec
    refine ⟨_, hexec, rfl, rfl, rfl, rfl, rfl, ?_, ?_, fun _ => ⟨rfl, rfl, rfl⟩, fun h => absurd h (by decide), rfl⟩
    · simp [Wire.mark, DirtyMarks.get_put, StoreSide.submit, Wire.submit]
    · simp [Wire.mark, DirtyMarks.get_put, StoreSide.submit, Wire.submit]
  | false =>
    have hstore := StoreSide.endSession_store_of_no_step hsession' (by exact hstep)
    have hwire : s.taken.storeSide.endSession.wire
        = ((s.wire.mark (.directory ss.recording)).mark .storeStatus).mark .global := by
      rw [StoreSide.endSession_of_no_step hsession' (by exact hstep), StoreSide.settle_wire rfl]
      exact if_neg hengine
    generalize s.taken.storeSide.endSession = u at hexec hstore hwire
    obtain ⟨uw, us⟩ := u
    dsimp only at hstore hwire
    subst hstore hwire
    refine ⟨_, hexec, rfl, rfl, rfl, rfl, rfl, ?_, ?_, fun h => absurd h (by decide), fun _ => ⟨rfl, rfl, ?_, fun g hg => ?_, fun h hh => ?_⟩, rfl⟩
    · simp [Wire.mark, DirtyMarks.get_put, StoreSide.submit, Wire.submit]
    · simp [Wire.mark, DirtyMarks.get_put, StoreSide.submit, Wire.submit]
    · simp [Wire.mark, DirtyMarks.get_put, StoreSide.submit, Wire.submit]
    · exact StoreController.settleSegs_segMap _ hnodup hg
    · exact StoreController.settleSegs_segMap_of_not_mem _ hh

end Sys2Proof.Machine
end

