-- ==== Sys2Proof/Proofs/RefillService.lean ====
section
/-!
PROOF. The refill service of the store controller (chapter 8.9), and what the end of a step on the store port has in common. O52.
-/
namespace Sys2Proof.Machine

/-! ### The end of a step on the store port -/

section
variable {s : State} {x : PortStep} {us : Nat} {p : PortStep → Bool}

/-- At the end of its step the local clock has run the time the step had left (R135, log 2). -/
theorem State.atStepEnd_of_port (f : State → State) (hport : s.store.port = some ⟨x, us⟩) (hp : p x = true) :
    s.atStepEnd p f = f (s.runClock us) := by
  rw [State.atStepEnd, hport]
  exact if_pos hp

/-- The store controller when the step on its port ends. -/
theorem State.runClock_store (hrun : s.running = true) (hport : s.store.port = some ⟨x, us⟩) :
    (s.runClock us).store = { s.store with lamp := s.store.lamp.run us, port := some ⟨x, us - us⟩ } := by
  rw [State.runClock_of_running hrun, hport]
  rfl

theorem State.runClock_wire (s : State) (d : Nat) : (s.runClock d).wire = s.wire := by
  unfold State.runClock
  split <;> rfl

theorem exec_refillReadDone (hrun : s.running = true) (hport : s.store.port = some ⟨x, us⟩) (hx : x.isRefill = true) :
    exec .refillReadDone s = .next { s.runClock us with store := (s.runClock us).store.refillDone } := by
  show execRefillReadDone s = _
  refine (event_of_running hrun).trans ?_
  rw [State.atStepEnd_of_port _ hport hx]

end

/-! ### The arbiter's choice -/

/-- The request that every other one gives way to is the one chosen (R153). -/
theorem foldl_betterRefill {level : PlayNo → Nat} {q : RefillReq} (l : List RefillReq) (a : RefillReq) (hq : a = q ∨ q ∈ l)
    (hbest : ∀ x ∈ a :: l, x ≠ q → level q.player < level x.player ∨ level q.player = level x.player ∧ q.player < x.player) :
    l.foldl (betterRefill level) a = q := by
  induction l generalizing a with
  | nil => exact hq.resolve_right (List.not_mem_nil)
  | cons b l ih =>
    have hworse : ∀ y : RefillReq, (level q.player < level y.player ∨ level q.player = level y.player ∧ q.player < y.player) →
        betterRefill level q y = q ∧ betterRefill level y q = q := fun y hy => by
      unfold betterRefill
      refine ⟨if_neg ?_, if_pos (hy.imp_right fun h => ⟨h.1, h.2⟩)⟩
      rintro (hlt | ⟨heq, hlt⟩)
      · rcases hy with hy | ⟨hy, -⟩ <;> omega
      · rcases hy with hy | ⟨-, hy⟩
        · omega
        · exact lt_asymm hlt hy
    have hself : betterRefill level q q = q := by
      unfold betterRefill
      split <;> rfl
    rw [List.foldl_cons]
    by_cases ha : a = q
    · subst ha
      have hstay : betterRefill level a b = a := by
        by_cases hb : b = a
        · rw [hb, hself]
        · exact (hworse b (hbest b (List.mem_cons_of_mem _ List.mem_cons_self) hb)).1
      rw [hstay]
      exact ih a (.inl rfl) fun x hx => hbest x (by
        rcases List.mem_cons.1 hx with rfl | hx
        · exact List.mem_cons_self
        · exact List.mem_cons_of_mem _ (List.mem_cons_of_mem _ hx))
    · have hq' := hq.resolve_left ha
      by_cases hb : b = q
      · subst hb
        rw [(hworse a (hbest a List.mem_cons_self ha)).2]
        exact ih b (.inl rfl) fun x hx => hbest x (List.mem_cons_of_mem _ hx)
      · have hmem : q ∈ l := (List.mem_cons.1 hq').resolve_left (Ne.symm hb)
        refine ih _ (.inr hmem) fun x hx => hbest x ?_
        rcases List.mem_cons.1 hx with rfl | hx
        · unfold betterRefill
          split
          · exact List.mem_cons_of_mem _ List.mem_cons_self
          · exact List.mem_cons_self
        · exact List.mem_cons_of_mem _ (List.mem_cons_of_mem _ hx)

theorem chooseRefill_eq {level : PlayNo → Nat} {q : RefillReq} {l : List RefillReq} (hq : q ∈ l)
    (hbest : ∀ x ∈ l, x ≠ q → level q.player < level x.player ∨ level q.player = level x.player ∧ q.player < x.player) :
    chooseRefill level l = some q := by
  cases l with
  | nil => cases hq
  | cons a l =>
    exact congrArg some (foldl_betterRefill l a ((List.mem_cons.1 hq).imp_left Eq.symm) hbest)

theorem StoreController.startRefill_eq {level : PlayNo → Nat} {c : StoreController} {q : RefillReq} (hport : c.port = none)
    (hq : chooseRefill level c.refillQ = some q) : c.startRefill level = { c with
      refillQ := c.refillQ.filter fun x => x != q
      port := if c.dir[q.recording].state = .available then some ⟨.refill q true, 40⟩ else none } := by
  rw [StoreController.startRefill, if_pos hport, hq]
  dsimp only
  split_ifs
  · rfl
  · rw [hport]

/-! ### The codes of a read -/

/-- A code of a recording lies in the segment of its index (R135, R136). -/
theorem StoreController.codeAt_eq {c : StoreController} {r : RecNo} {j : Nat} {g : SegNo}
    (hg : c.segMap[g] = .used r (j / 8176)) (hunique : ∀ h : SegNo, c.segMap[h] = .used r (j / 8176) → h = g) :
    c.codeAt r j = storeByte c.bytes g (16 + j % 8176) := by
  have hseg : c.segOf r (j / Config.segmentCodes) = some g :=
    find?_eq_some_of_unique (List.mem_finRange g) (beq_iff_eq.2 hg)
      fun h hne => beq_eq_false_iff_ne.2 fun heq => hne (hunique h heq)
  rw [StoreController.codeAt, hseg]
  rfl

theorem StoreController.refillDone_eq {c : StoreController} {q : RefillReq} {send : Bool} {us : Nat}
    (hport : c.port = some ⟨.refill q send, us⟩) : c.refillDone = { c with
      port := none
      deliveries := if send then c.deliveries
        ++ [⟨q.player, q.gen, (List.range q.count).map fun i => c.codeAt q.recording (q.start + i)⟩] else c.deliveries } := by
  rw [StoreController.refillDone, hport]
  cases send <;> rfl

/-- Settles O52. -/
theorem refillsAreServed : Obligations.RefillsAreServed := by
  refine ⟨fun s q rest hrun hreqs => ?_, fun s q level hrun hport hlevel hq _ hbest => ?_,
    fun s u q us send codes hrun hport hu => ?_⟩
  · have hexec : exec .refillRequest s = .next s.takeRefillReq := event_of_running hrun
    rw [hexec, State.takeRefillReq, hreqs]
    dsimp only
    unfold StoreController.enqueueRefill
    cases s.store.port with
    | none => rfl
    | some port =>
      obtain ⟨step, us⟩ := port
      cases step <;> rfl
  · subst hlevel
    have hexec : exec .refillReadStart s = .next { s with store := s.store.startRefill s.fifoLevel } := by
      show execRefillReadStart s = _
      exact event_of_running hrun
    rw [hexec, StoreController.startRefill_eq hport (chooseRefill_eq hq hbest)]
  · have hstore : u.store = { s.store with lamp := s.store.lamp.run us, port := some ⟨.refill q send, us - us⟩ } := by
      rw [hu]
      exact State.runClock_store hrun hport
    have hport' : u.store.port = some ⟨.refill q send, us - us⟩ := by rw [hstore]
    have hexec := exec_refillReadDone hrun hport rfl
    rw [← hu, StoreController.refillDone_eq hport'] at hexec
    refine ⟨fun hsend => ?_, fun hsend hlength hcodes => ?_⟩
    · rw [hexec, hsend]
      rfl
    · have hlist : ((List.range q.count).map fun i => u.store.codeAt q.recording (q.start + i)) = codes := by
        refine List.ext_getElem? fun j => ?_
        by_cases hj : j < q.count
        · obtain ⟨c, hc⟩ : ∃ c, codes[j]? = some c := ⟨_, List.getElem?_eq_getElem (hlength.symm ▸ hj)⟩
          obtain ⟨g, hg, hunique, hbyte⟩ := hcodes j c hc
          rw [hc, List.getElem?_map, List.getElem?_range hj, Option.map_some, hbyte,
            StoreController.codeAt_eq (g := g) (by rw [hstore]; exact hg) (by rw [hstore]; exact hunique), hstore]
          rfl
        · rw [List.getElem?_eq_none (by simpa using hj), List.getElem?_eq_none (by omega)]
      rw [hexec, hlist, hsend, if_pos rfl, hstore]

end Sys2Proof.Machine
end

