-- ==== Sys2Proof/Proofs/EraseSteps.lean ====
section
/-!
PROOF. The erase of a segment (chapter 8.7): pulses, verifies, resumption, what a complete erase leads to, and the last step of an
abandoned load. O53.
-/
namespace Sys2Proof.Machine

/-! ### The erase commands -/

section
variable {s : State} {x : PortStep} {us : Nat}

theorem exec_erasePulseStart (hrun : s.running = true) (good : Bool) :
    exec (.erasePulseStart good) s = .next (s.onStore (StoreSide.startPulse good)) := by
  show execErasePulseStart good s = _
  exact event_of_running hrun

theorem exec_erasePulseResume (hrun : s.running = true) (good : Bool) (left : List (Nat × Byte)) :
    exec (.erasePulseResume good left) s = .next (s.onStore (StoreSide.resumePulse good left)) := by
  show execErasePulseResume good left s = _
  exact event_of_running hrun

theorem exec_erasePulseDone (hrun : s.running = true) (hport : s.store.port = some ⟨x, us⟩) (hx : x.isPulse = true)
    (left : List (Nat × Byte)) :
    exec (.erasePulseDone left) s = .next ((s.runClock us).onStore (StoreSide.pulseDone left)) := by
  show execErasePulseDone left s = _
  refine (event_of_running hrun).trans ?_
  rw [State.atStepEnd_of_port _ hport hx]

theorem exec_eraseVerifyDone (hrun : s.running = true) (hport : s.store.port = some ⟨x, us⟩) (hx : x.isVerify = true) :
    exec .eraseVerifyDone s = .next ((s.runClock us).onStore StoreSide.verifyDone) := by
  show execEraseVerifyDone s = _
  refine (event_of_running hrun).trans ?_
  rw [State.atStepEnd_of_port _ hport hx]

end

section
variable {v : StoreSide} {c : StoreController} {g : SegNo} {us : Nat} {ss : Session} {left : List (Nat × Byte)}

/-! ### The start of a step -/

theorem StoreController.mayStart_eq (hport : c.port = none) (hsuspended : c.suspended = none) (hrefills : c.refillQ = [])
    (hsettling : c.settling = none) : c.mayStart = !c.hold := by
  rw [StoreController.mayStart, hport, hsuspended, hrefills, hsettling]
  cases c.hold <;> rfl

/-- No step starts for an abandoned load (R144). -/
theorem StoreController.mayStart_settling (h : c.settling = some ss) : c.mayStart = false := by
  rw [StoreController.mayStart, h]
  exact Bool.and_false _

theorem StoreSide.startPulse_of_not_mayStart (good : Bool) (h : v.store.mayStart = false) : v.startPulse good = v := by
  rw [StoreSide.startPulse]
  cases v.store.eraseTarget with
  | none => rfl
  | some g => exact if_neg (by rw [h]; exact Bool.false_ne_true)

theorem StoreSide.startPulse_good (htarget : v.store.eraseTarget = some g) (h : v.store.mayStart = true) :
    v.startPulse true = v.on fun c => { c with
      supplyGood := true, port := some ⟨.erasePulse g, 5000⟩, pulses := c.pulses + 1
      session := c.session.map (Session.touch g) } := by
  rw [StoreSide.startPulse, htarget]
  exact if_pos h

theorem StoreSide.resumePulse_good (hsuspended : v.store.suspended = some ⟨g, us⟩) (hport : v.store.port = none)
    (hrefills : v.store.refillQ = []) : v.resumePulse true left = v.on fun c => { c with
      supplyGood := true, suspended := none, port := some ⟨.erasePulse g, us⟩ } := by
  rw [StoreSide.resumePulse, hsuspended]
  exact if_pos ⟨hport, hrefills⟩

/-! ### The end of a pulse and of a verify -/

theorem StoreSide.pulseDone_eq (hport : v.store.port = some ⟨.erasePulse g, us⟩) : v.pulseDone left =
    (fun w : StoreSide => if v.store.settling.isSome then w.settle
      else w.on fun c => { c with port := some ⟨.eraseVerify g, Config.eraseVerifyUs⟩ })
      (v.on fun c => { c with bytes := leaveResidue g left c.bytes, port := none }) := by
  rw [StoreSide.pulseDone, hport]
  rfl

theorem StoreSide.verifyDone_eq (hport : v.store.port = some ⟨.eraseVerify g, us⟩) : v.verifyDone =
    (fun w : StoreSide => if segErased v.store.bytes g then w.eraseDone g
      else if 100 ≤ v.store.pulses then w.fail .eraseFail g
      else if v.store.settling.isSome then w.settle else w) (v.on fun c => { c with port := none }) := by
  rw [StoreSide.verifyDone, hport]
  rfl

/-! ### A complete erase -/

theorem StoreSide.eraseDone_session (h : v.store.session = some ss) : v.eraseDone g =
    (fun w : StoreSide => if (ss.erased g).segs.any SessionSeg.toErase then w else w.enterReceiving)
      (v.on fun c => { c with pulses := 0, attempts := 0, session := some (ss.erased g) }) := by
  have hsession : (v.on StoreController.noStep).store.session = some ss := h
  rw [StoreSide.eraseDone]
  dsimp only
  rw [hsession]
  rfl

theorem StoreSide.eraseDone_settling (hnone : v.store.session = none) (h : v.store.settling = some ss) : v.eraseDone g =
    StoreSide.settle (v.on fun c => { c with pulses := 0, attempts := 0, settling := some (ss.erased g) }) := by
  have hsession : (v.on StoreController.noStep).store.session = none := hnone
  have hsettling : (v.on StoreController.noStep).store.settling = some ss := h
  rw [StoreSide.eraseDone]
  dsimp only
  rw [hsession, hsettling]
  rfl

theorem StoreSide.eraseDone_retire {j : RetireJob} (hsession : v.store.session = none) (hsettling : v.store.settling = none)
    (h : v.store.retire = some j) : v.eraseDone g =
    (fun w : StoreSide => if j.remaining.filter (fun x => x != g) = [] then
        w.retired { j with remaining := j.remaining.filter fun x => x != g } else w)
      (v.on fun c => { c with
        pulses := 0, attempts := 0, segMap := c.segMap.set g .erased
        retire := some { j with remaining := j.remaining.filter fun x => x != g } }) := by
  have hsession : (v.on StoreController.noStep).store.session = none := hsession
  have hsettling : (v.on StoreController.noStep).store.settling = none := hsettling
  have hretire : (v.on StoreController.noStep).store.retire = some j := h
  rw [StoreSide.eraseDone]
  dsimp only
  rw [hsession, hsettling, hretire]
  rfl

theorem StoreSide.eraseDone_config {j : ConfigJob} (hsession : v.store.session = none) (hsettling : v.store.settling = none)
    (hretire : v.store.retire = none) (h : v.store.config = some j) : v.eraseDone g =
      v.on fun c => { c with pulses := 0, attempts := 0, config := some { j with phase := .values } } := by
  have hsession : (v.on StoreController.noStep).store.session = none := hsession
  have hsettling : (v.on StoreController.noStep).store.settling = none := hsettling
  have hretire : (v.on StoreController.noStep).store.retire = none := hretire
  have hconfig : (v.on StoreController.noStep).store.config = some j := h
  rw [StoreSide.eraseDone]
  dsimp only
  rw [hsession, hsettling, hretire, hconfig]
  rfl

theorem StoreSide.retired_eq (j : RetireJob) (h : v.store.engine = .retiring) : v.retired j =
    StoreSide.mark (((v.setDir j.recording DirRecord.absent).on fun c => { c with retire := none, engine := .idle }).submit
      .retired j.recording.val j.segCount) .global := by
  rw [StoreSide.retired, StoreSide.setEngine_of_ne]
  · rfl
  · show v.store.engine ≠ _
    rw [h]
    decide

theorem Session.erased_seg (g : SegNo) (ss : Session) :
    (ss.erased g).segs.map SessionSeg.seg = ss.segs.map SessionSeg.seg := by
  rw [Session.erased, List.map_map]
  refine List.map_congr_left fun x _ => ?_
  show (if x.seg = g then _ else x).seg = x.seg
  split <;> rfl

/-! ### The settling of an abandoned load -/

/-- The step an abandoned load waited for has ended: the statement's words for `StoreSide.settle` (R144). -/
theorem State.settles_settle {s : State} (hsettling : v.store.settling = some ss) (hengine : v.store.engine ≠ .idle)
    (hnodup : (ss.segs.map SessionSeg.seg).Nodup) (hwire : v.wire = s.wire)
    (hstore : ({ v.store with settling := none, pulses := 0, attempts := 0 } : StoreController)
      = { s.store with settling := none, pulses := 0, attempts := 0 }) : s.settles ss (s.withStoreSide v.settle) := by
  have hmap : v.store.segMap = s.store.segMap := (congrArg StoreController.segMap hstore).trans rfl
  have hsegs : v.settle.store.segMap = (v.store.settleSegs ss).segMap := by rw [StoreSide.settle_store hsettling]
  refine ⟨fun y hy => ?_, fun h hh => ?_, ?_⟩
  · show v.settle.store.segMap[y.seg] = _
    rw [hsegs, StoreController.settleSegs_segMap v.store hnodup hy, hmap]
  · show v.settle.store.segMap[h] = _
    rw [hsegs, StoreController.settleSegs_segMap_of_not_mem v.store hh, hmap]
  · have hsettled : v.settle.store = { s.store with
        segMap := v.settle.store.segMap, pulses := 0, attempts := 0, settling := none, engine := .idle } := by
      have hfields := congrArg (fun c : StoreController =>
        ({ c with segMap := (v.store.settleSegs ss).segMap, engine := .idle } : StoreController)) hstore
      rw [hsegs, StoreSide.settle_store hsettling]
      exact hfields
    have hmark : v.settle.wire = s.wire.mark .global := by
      rw [StoreSide.settle_wire hsettling, if_neg hengine, hwire]
    rw [State.withStoreSide, hmark]
    exact congrArg (fun c : StoreController => ({ s with wire := s.wire.mark .global, store := c } : State)) hsettled

end

/-- Settles O53. -/
theorem eraseStepsRun : Obligations.EraseStepsRun := by
  refine ⟨fun s g hrun htarget hport hsuspended hrefills hsettling => ⟨fun hhold good => ?_, fun hhold => ?_⟩,
    fun s g us left hrun hsuspended hport hrefills => ?_, fun s u g us left hrun hport hsettling hwf hleft hbound hu => ?pulse,
    fun s u g us hrun hport hsettling hwf hu => ?verify, fun s ss good hsettling => ?_,
    fun s u ss g us hrun hsettling hengine hnodup hwf hu => ?abandoned⟩
  · have hmay := StoreController.mayStart_eq hport hsuspended hrefills hsettling
    rw [hhold] at hmay
    rw [exec_erasePulseStart hrun, State.onStore, StoreSide.startPulse_of_not_mayStart good (by exact hmay)]
    rfl
  · have hmay := StoreController.mayStart_eq hport hsuspended hrefills hsettling
    rw [hhold] at hmay
    rw [exec_erasePulseStart hrun, State.onStore, StoreSide.startPulse_good (by exact htarget) (by exact hmay)]
    rfl
  · rw [exec_erasePulseResume hrun, State.onStore,
      StoreSide.resumePulse_good (by exact hsuspended) (by exact hport) (by exact hrefills)]
    rfl
  case pulse =>
    have hstore := State.runClock_store hrun hport
    have hexec := exec_erasePulseDone hrun hport rfl left
    rw [← hu] at hstore hexec
    have hkeep : ∀ {α : Type} (f : StoreController → α), f u.store = f _ := fun f => congrArg f hstore
    have hport' : u.storeSide.store.port = some ⟨.erasePulse g, us - us⟩ := hkeep StoreController.port
    have hsettling' : u.storeSide.store.settling = none := (hkeep StoreController.settling).trans hsettling
    have hbytes : u.store.bytes = s.store.bytes := hkeep StoreController.bytes
    rw [State.onStore, StoreSide.pulseDone_eq hport', hsettling'] at hexec
    refine ⟨_, hexec, fun h off hoff => ?_, rfl⟩
    show storeByte (leaveResidue g left u.store.bytes) h off = _
    rw [hbytes]
    exact storeByte_leaveResidue hwf hleft hbound g h hoff
  case verify =>
    have hstore := State.runClock_store hrun hport
    have hexec := exec_eraseVerifyDone hrun hport rfl
    rw [← hu] at hstore hexec
    have hkeep : ∀ {α : Type} (f : StoreController → α), f u.store = f _ := fun f => congrArg f hstore
    have hport' : u.storeSide.store.port = some ⟨.eraseVerify g, us - us⟩ := hkeep StoreController.port
    have hsettling' : u.store.settling = none := (hkeep StoreController.settling).trans hsettling
    have hbytes : u.storeSide.store.bytes = s.store.bytes := hkeep StoreController.bytes
    have hpulses : u.storeSide.store.pulses = s.store.pulses := hkeep StoreController.pulses
    have hsession' : u.store.session = s.store.session := hkeep StoreController.session
    have hretire' : u.store.retire = s.store.retire := hkeep StoreController.retire
    have hconfig' : u.store.config = s.store.config := hkeep StoreController.config
    have hengine' : u.store.engine = s.store.engine := hkeep StoreController.engine
    have hmap : u.store.segMap = s.store.segMap := hkeep StoreController.segMap
    have hdir : u.store.dir = s.store.dir := hkeep StoreController.dir
    rw [State.onStore, StoreSide.verifyDone_eq hport', hbytes, hpulses] at hexec
    dsimp only at hexec
    refine ⟨fun hbad hfew => ?_, fun hall => ?_⟩
    · rw [if_neg (by rw [segErased_eq_false hwf hbad]; exact Bool.false_ne_true), if_neg (Nat.not_le.2 hfew),
        if_neg (by rw [show u.storeSide.store.settling = none from hsettling']; exact Bool.false_ne_true)] at hexec
      exact hexec
    · rw [if_pos ((segErased_iff hwf g).2 hall)] at hexec
      rw [← hsession', ← hretire', ← hconfig', ← hengine', ← hmap, ← hdir]
      refine ⟨fun j hsession hretire hconfig => ?_, fun j hsession hretire => ⟨fun hsome => ?_, fun hnone hengine => ?_⟩,
        fun ss ss' hsession hss' => ⟨fun hmore => ?_, fun hlast hengine => ?_⟩⟩
      · rw [hexec, StoreSide.eraseDone_config (j := j) (by exact hsession) (by exact hsettling') (by exact hretire)
          (by exact hconfig)]
        rfl
      · rw [hexec, StoreSide.eraseDone_retire (j := j) (by exact hsession) (by exact hsettling') (by exact hretire)]
        dsimp only
        rw [if_neg hsome]
        rfl
      · rw [hexec, StoreSide.eraseDone_retire (j := j) (by exact hsession) (by exact hsettling') (by exact hretire)]
        dsimp only
        rw [if_pos hnone, StoreSide.retired_eq _ (by exact hengine)]
        rfl
      · rw [hexec, StoreSide.eraseDone_session (ss := ss) (by exact hsession)]
        dsimp only
        rw [if_pos (List.any_eq_true.2 (by rw [hss'] at hmore; exact hmore)), hss']
        rfl
      · have hany : ((ss.erased g).segs.any SessionSeg.toErase) = false := List.any_eq_false.2 fun x hx => by
          rw [hss'] at hlast
          rw [hlast x hx]
          exact Bool.false_ne_true
        rw [hexec, StoreSide.eraseDone_session (ss := ss) (by exact hsession)]
        dsimp only
        rw [hany, if_neg Bool.false_ne_true, StoreSide.enterReceiving_eq (ss := ss.erased g) (by rfl) (by
          show u.store.engine ≠ _
          rw [hengine]
          decide), hss']
        rfl
  · by_cases hrun : s.running = true
    · rw [exec_erasePulseStart hrun, State.onStore,
        StoreSide.startPulse_of_not_mayStart good (StoreController.mayStart_settling (by exact hsettling))]
      rfl
    · show execErasePulseStart good s = _
      rw [execErasePulseStart, event, if_neg hrun]
  case abandoned =>
    refine ⟨fun left hport hleft hbound => ?_, fun hport hsession => ?_⟩
    · have hstore := State.runClock_store hrun hport
      have hexec := exec_erasePulseDone hrun hport rfl left
      rw [← hu] at hstore hexec
      have hkeep : ∀ {α : Type} (f : StoreController → α), f u.store = f _ := fun f => congrArg f hstore
      have hport' : u.storeSide.store.port = some ⟨.erasePulse g, us - us⟩ := hkeep StoreController.port
      have hsettling' : u.store.settling = some ss := (hkeep StoreController.settling).trans hsettling
      have hengine' : u.store.engine = s.store.engine := hkeep StoreController.engine
      have hbytes : u.store.bytes = s.store.bytes := hkeep StoreController.bytes
      obtain ⟨w, hw⟩ : ∃ w : StoreSide, w = u.storeSide.on fun c =>
        { c with bytes := leaveResidue g left c.bytes, port := none } := ⟨_, rfl⟩
      rw [State.onStore, StoreSide.pulseDone_eq hport', ← hw] at hexec
      dsimp only at hexec
      rw [if_pos (by rw [show u.storeSide.store.settling = some ss from hsettling']; rfl)] at hexec
      have hws : w.store.settling = some ss := by rw [hw]; exact hsettling'
      have hwb : w.settle.store.bytes = leaveResidue g left s.store.bytes := by
        rw [StoreSide.settle_store hws, hw, ← hbytes]
        rfl
      refine ⟨_, hexec, fun h off hoff => ?_, ?_⟩
      · show storeByte w.settle.store.bytes h off = _
        rw [hwb]
        exact storeByte_leaveResidue hwf hleft hbound g h hoff
      · refine State.settles_settle (s := { u with store := { u.store with bytes := w.settle.store.bytes, port := none } })
          hws ?_ hnodup ?_ ?_
        · rw [hw]
          show u.store.engine ≠ _
          rw [hengine']
          exact hengine
        · rw [hw]
          rfl
        · rw [hwb, hw, ← hbytes]
          rfl
    · have hstore := State.runClock_store hrun hport
      have hexec := exec_eraseVerifyDone hrun hport rfl
      rw [← hu] at hstore hexec
      have hkeep : ∀ {α : Type} (f : StoreController → α), f u.store = f _ := fun f => congrArg f hstore
      have hport' : u.storeSide.store.port = some ⟨.eraseVerify g, us - us⟩ := hkeep StoreController.port
      have hsettling' : u.store.settling = some ss := (hkeep StoreController.settling).trans hsettling
      have hsession' : u.store.session = none := (hkeep StoreController.session).trans hsession
      have hengine' : u.store.engine ≠ .idle := by
        rw [(hkeep StoreController.engine).trans rfl]
        exact hengine
      have hbytes : u.storeSide.store.bytes = s.store.bytes := hkeep StoreController.bytes
      have hpulses : u.storeSide.store.pulses = s.store.pulses := hkeep StoreController.pulses
      rw [State.onStore, StoreSide.verifyDone_eq hport', hbytes, hpulses] at hexec
      dsimp only at hexec
      refine ⟨fun hall => ?_, fun hbad hfew => ?_⟩
      · rw [if_pos ((segErased_iff hwf g).2 hall),
          StoreSide.eraseDone_settling (ss := ss) (by exact hsession') (by exact hsettling')] at hexec
        refine ⟨_, hexec, State.settles_settle (s := { u with store := { u.store with port := none } }) (ss := ss.erased g)
          (by rfl) (by exact hengine') (by rw [Session.erased_seg]; exact hnodup) (by rfl) (by rfl)⟩
      · rw [if_neg (by rw [segErased_eq_false hwf hbad]; exact Bool.false_ne_true), if_neg (Nat.not_le.2 hfew),
          if_pos (by rw [show u.storeSide.store.settling = some ss from hsettling']; rfl)] at hexec
        exact ⟨_, hexec, State.settles_settle (s := { u with store := { u.store with port := none } })
          (by exact hsettling') (by exact hengine') hnodup (by rfl) (by rfl)⟩

end Sys2Proof.Machine
end

