-- ==== Sys2Proof/Proofs/ProgramSteps.lean ====
section
/-!
PROOF. A program step (chapter 8.7): attempts, verification, and what a step that has verified leads to. O54.
-/
namespace Sys2Proof.Machine

/-! ### The program commands -/

section
variable {s : State} {x : PortStep} {us : Nat}

theorem exec_programAttemptStart (hrun : s.running = true) (good : Bool) :
    exec (.programAttemptStart good) s = .next (s.onStore (StoreSide.startAttempt good)) := by
  show execProgramAttemptStart good s = _
  exact event_of_running hrun

theorem exec_programAttemptDone (hrun : s.running = true) (hport : s.store.port = some ⟨x, us⟩) (hx : x.isAttempt = true)
    (missed : List Byte) :
    exec (.programAttemptDone missed) s = .next ((s.runClock us).onStore (StoreSide.attemptDone missed)) := by
  show execProgramAttemptDone missed s = _
  refine (event_of_running hrun).trans ?_
  rw [State.atStepEnd_of_port _ hport hx]

end

section
variable {v : StoreSide} {c : StoreController} {x : ProgramStep} {us : Nat} {ss : Session} {missed : List Byte} {b : Bank}
  {m : List Host.Cell}

theorem StoreSide.startAttempt_of_not_mayStart (good : Bool) (h : v.store.mayStart = false) : v.startAttempt good = v := by
  rw [StoreSide.startAttempt]
  cases v.store.programTarget with
  | none => rfl
  | some x => exact if_neg (by rw [h]; exact Bool.false_ne_true)

theorem StoreSide.startAttempt_good (htarget : v.store.programTarget = some x) (h : v.store.mayStart = true) :
    v.startAttempt true = v.on fun c => { c with
      supplyGood := true, port := some ⟨.attempt x, 250⟩, attempts := c.attempts + 1
      session := c.session.map (Session.touch x.seg) } := by
  rw [StoreSide.startAttempt, htarget]
  exact if_pos h

theorem StoreSide.attemptDone_eq (hport : v.store.port = some ⟨.attempt x, us⟩) : v.attemptDone missed =
    (fun w : StoreSide => if verifies w.store.bytes x then (if v.store.settling.isSome then w.settle else w.stepDone x)
      else if 8 ≤ v.store.attempts then w.fail .programFail x.seg
      else if v.store.settling.isSome then w.settle else w)
      (v.on fun c => { c with bytes := programBytes x.seg x.bytes missed c.bytes, port := none }) := by
  rw [StoreSide.attemptDone, hport]
  rfl

/-- The verify of an attempt passes exactly when every named byte holds its value (R150). -/
theorem verifies_programBytes_iff (hm : memWf Config.erasedByte m = true) (hbound : ∀ c ∈ x.bytes, c.1 < 8192)
    (hnodup : (x.bytes.map Prod.fst).Nodup) : verifies (programBytes x.seg x.bytes missed m) x = true ↔
      ∀ (j off : Nat) (v : Byte), x.bytes[j]? = some (off, v) →
        storeByte m x.seg off &&& (v ||| missed.getD j 0) = v := by
  rw [verifies, List.all_eq_true]
  constructor
  · intro h j off v hj
    rw [← storeByte_programBytes_of_mem hm hbound hnodup hj]
    exact eq_of_beq (h (off, v) (List.mem_of_getElem? hj))
  · rintro h ⟨off, v⟩ hc
    obtain ⟨j, hj⟩ := List.getElem?_of_mem hc
    rw [storeByte_programBytes_of_mem hm hbound hnodup hj, h j off v hj]
    exact beq_self_eq_true v

/-! ### What a step and a failure leave of the bytes -/

theorem StoreController.settleSegs_bytes (ss : Session) (c : StoreController) : (c.settleSegs ss).bytes = c.bytes := by
  rw [StoreController.settleSegs_eq]

theorem StoreSide.dropWork_bytes (v : StoreSide) : v.dropWork.1.store.bytes = v.store.bytes := by
  unfold StoreSide.dropWork
  split
  · exact StoreController.settleSegs_bytes _ _
  · exact StoreController.settleSegs_bytes _ _
  · exact (congrArg StoreController.bytes
      (foldl_setSeg_eq (key := id) (f := fun _ _ => SegState.dirty) _ _)).trans rfl
  · rfl

theorem StoreSide.fail_bytes (f : StoreFlag) (g : SegNo) (v : StoreSide) : (v.fail f g).store.bytes = v.store.bytes := by
  rw [StoreSide.fail]
  dsimp only
  rw [StoreSide.mark_store, StoreSide.setEngine_bytes, StoreSide.submit_store, StoreSide.on_store, ← StoreSide.dropWork_bytes v]
  cases f <;> rfl

theorem StoreController.setBuf_bytes (b : Bank) (y : ChunkBuf) (c : StoreController) : (c.setBuf b y).bytes = c.bytes := by
  cases b <;> rfl

theorem StoreSide.advanceEngine_bytes (v : StoreSide) : v.advanceEngine.store.bytes = v.store.bytes := by
  unfold StoreSide.advanceEngine
  split
  · rfl
  · split
    · rfl
    · split
      · rw [StoreSide.setEngine_bytes]
        exact StoreController.setBuf_bytes _ _ _
      · rfl

/-! ### A chunk is programmed -/

/-- The buffers and the session once the chunk in buffer `b` is programmed: the buffer is free, or FILLING (R142). -/
def StoreController.chunkFreed (b : Bank) (ss : Session) (refill : Bool) (c : StoreController) : StoreController :=
  { c.setBuf b (if refill then ⟨.filling, [], ss.nextRecv⟩ else ⟨.empty, [], 0⟩) with
    session := some { ss with nextProg := ss.nextProg + 1, busyReported := !refill && ss.busyReported } }

/-- The store lamp at a LOAD_STEP: a pulse, unless a failure shows on it (R154). -/
def StoreController.stepLamp (c : StoreController) : StoreController :=
  if c.sticky then c else { c with lamp := c.lamp.request }

theorem StoreController.bufIn_isNone_iff {y : BufState} : (c.bufIn y).isNone = true ↔ ∀ b, (c.buf b).state ≠ y := by
  constructor
  · intro h b hb
    unfold StoreController.bufIn at h
    split_ifs at h with hA hB
    · cases h
    · cases h
    · cases b with
      | A => exact hA hb
      | B => exact hB hb
  · intro h
    rw [StoreController.bufIn_eq_none (h .A) (h .B)]
    rfl

theorem StoreSide.chunkDone_eq {refill : Bool} (hsession : v.store.session = some ss) (hb : v.store.bufIn .programming = some b)
    (hrefill : refill = true ↔ (v.store.buf b.other).state ≠ .filling ∧ ss.nextRecv < ss.chunks) : v.chunkDone =
    (fun w : StoreSide => if ss.nextProg + 1 < ss.chunks then (w.setEngine .receiving).advanceEngine
      else w.setEngine .finishing)
      (((v.status (StoreController.chunkFreed b ss refill)).submit .loadStep ss.recording.val (ss.nextProg + 1)).on
        StoreController.stepLamp) := by
  have hfree : ∀ (c : StoreController) (z : Option Session), (({ c.setBuf b ChunkBuf.cleared with session := z } :
      StoreController).bufIn .filling).isNone = true ↔ (c.buf b.other).state ≠ .filling := fun c z =>
    StoreController.bufIn_isNone_iff.trans (by
      cases b
      · exact ⟨fun h => h .B, fun h o => o.casesOn BufState.noConfusion h⟩
      · exact ⟨fun h => h .A, fun h o => o.casesOn h BufState.noConfusion⟩)
  have hfun : (if (({ v.store.setBuf b ChunkBuf.cleared with session := some { ss with nextProg := ss.nextProg + 1 } } :
        StoreController).bufIn .filling).isNone ∧ ss.nextRecv < ss.chunks then
      StoreController.fill b ss.nextRecv
        { v.store.setBuf b ChunkBuf.cleared with session := some { ss with nextProg := ss.nextProg + 1 } }
      else { v.store.setBuf b ChunkBuf.cleared with session := some { ss with nextProg := ss.nextProg + 1 } })
      = v.store.chunkFreed b ss refill := by
    cases hr : refill with
    | false =>
      rw [if_neg fun h => Bool.false_ne_true (hr.symm.trans (hrefill.2 ⟨(hfree _ _).1 h.1, h.2⟩))]
      rfl
    | true =>
      obtain ⟨hother, hmore⟩ := hrefill.1 hr
      rw [if_pos ⟨(hfree _ _).2 hother, hmore⟩]
      cases b <;> rfl
  rw [StoreSide.chunkDone, hsession, hb]
  dsimp only
  have hstatus : (v.status fun (c : StoreController) =>
      if (({ c.setBuf b ChunkBuf.cleared with session := some { ss with nextProg := ss.nextProg + 1 } } :
          StoreController).bufIn .filling).isNone ∧ ss.nextRecv < ss.chunks then
        StoreController.fill b ss.nextRecv
          { c.setBuf b ChunkBuf.cleared with session := some { ss with nextProg := ss.nextProg + 1 } }
      else { c.setBuf b ChunkBuf.cleared with session := some { ss with nextProg := ss.nextProg + 1 } })
      = v.status (StoreController.chunkFreed b ss refill) :=
    congrArg (fun c => StoreSide.mark { v with store := c } .storeStatus) hfun
  rw [hstatus]
  rfl

theorem Bank.eq_other_of_ne {o b : Bank} (h : o ≠ b) : o = b.other := by
  cases o <;> cases b <;> first | rfl | exact absurd rfl h

theorem StoreController.stepLamp_eq (c : StoreController) :
    c.stepLamp = { c with lamp := if c.sticky then c.lamp else c.lamp.request } := by
  rw [StoreController.stepLamp]
  split <;> rfl

/-- What a chunk's end leads to: the last one to FINISHING, else RECEIVING, or the next chunk at once (R142). -/
theorem StoreSide.chunkDone_cases {refill more : Bool} {y : ChunkBuf} (hsession : v.store.session = some ss)
    (hb : v.store.bufIn .programming = some b) (hengine : v.store.engine = .programming) (hy : y = v.store.buf b.other)
    (hrefill : refill = true ↔ y.state ≠ .filling ∧ ss.nextRecv < ss.chunks)
    (hmore : more = true ↔ ss.nextProg + 1 < ss.chunks ∧ v.store.hold = false ∧ y.state = .ready
      ∧ y.chunk = ss.nextProg + 1) : v.chunkDone =
    (StoreSide.mark (v.status fun c =>
      (StoreController.setBuf b (if refill then ⟨.filling, [], ss.nextRecv⟩ else ⟨.empty, [], 0⟩) { c with
        engine := if ss.chunks ≤ ss.nextProg + 1 then .finishing else if more then .programming else .receiving
        lamp := if c.sticky then c.lamp else c.lamp.request
        session := some { ss with
          nextProg := ss.nextProg + 1, busyReported := !refill && ss.busyReported
          nextCode := if more then 2048 * (ss.nextProg + 1) else ss.nextCode } }).setBuf b.other
        (if more then { y with state := .programming } else y)) .global).submit .loadStep ss.recording.val (ss.nextProg + 1) := by
  rw [StoreSide.chunkDone_eq hsession hb (by rw [← hy]; exact hrefill)]
  obtain ⟨w, hw⟩ : ∃ w, w = ((v.status (StoreController.chunkFreed b ss refill)).submit .loadStep ss.recording.val
    (ss.nextProg + 1)).on StoreController.stepLamp := ⟨_, rfl⟩
  rw [← hw]
  rw [StoreSide.on, StoreController.stepLamp_eq] at hw
  have hprog : w.store.engine = .programming := by
    rw [hw]
    cases b <;> exact hengine
  have hhold : w.store.hold = v.store.hold := by
    rw [hw]
    cases b <;> rfl
  have hother : w.store.buf b.other = y := by
    rw [hw, hy]
    cases b <;> rfl
  have hown : (w.store.buf b).state ≠ .ready := by
    rw [hw]
    cases b <;> cases refill <;> exact BufState.noConfusion
  dsimp only
  by_cases hlast : ss.nextProg + 1 < ss.chunks
  · rw [if_pos hlast, if_neg (Nat.not_le.2 hlast)]
    rw [StoreSide.setEngine_of_ne (by rw [hprog]; decide)]
    have hws : w.store.session = some { ss with
        nextProg := ss.nextProg + 1, busyReported := !refill && ss.busyReported } := by
      rw [hw]
      rfl
    cases hm : more with
    | true =>
      obtain ⟨_, hfree, hready, hchunk⟩ := hmore.1 hm
      rw [StoreSide.advanceEngine_ready (b := b.other) (by exact hws) (StoreController.readyBuf_eq_some
        ⟨by rw [← hready, ← hother]; rfl, by rw [← hchunk, ← hother]; rfl⟩ (by
          cases b with
          | A => exact .inr fun h => hown h.1
          | B => exact .inl rfl)) (by rfl) (by exact hhold.trans hfree), hw, hy]
      cases b <;> rfl
    | false =>
      have hstays : ∀ z : StoreSide, z.store = { w.store with engine := .receiving } → z.advanceEngine = z := fun z hz => by
        by_cases hfree : v.store.hold = false
        · refine StoreSide.advanceEngine_waiting (ss := { ss with
            nextProg := ss.nextProg + 1, busyReported := !refill && ss.busyReported }) (by rw [hz]; exact hws)
            (StoreController.readyBuf_eq_none fun o ho => ?_)
          rw [hz] at ho
          by_cases hob : o = b
          · rw [hob] at ho
            exact hown ho.1
          · have ho' : y.state = .ready ∧ y.chunk = ss.nextProg + 1 := by
              rw [← hother, ← Bank.eq_other_of_ne hob]
              exact ho
            exact Bool.false_ne_true (hm.symm.trans (hmore.2 ⟨hlast, hfree, ho'⟩))
        · exact StoreSide.advanceEngine_held (.inr (by
            rw [hz]
            exact hhold.trans (eq_true_of_ne_false hfree)))
      rw [hstays _ rfl, hw, hy]
      cases b <;> rfl
  · have hm : more = false := Bool.eq_false_iff.2 fun h => hlast (hmore.1 h).1
    rw [if_neg hlast, if_pos (Nat.le_of_not_lt hlast), hm, StoreSide.setEngine_of_ne (by rw [hprog]; decide), hw, hy]
    cases b <;> rfl

/-! ### A step that has verified -/

theorem StoreSide.loadDone_eq {d : DirRecord} (hsession : v.store.session = some ss) (hd : d = v.store.dir[ss.recording])
    (hengine : v.store.engine ≠ .idle) : v.loadDone =
    (StoreSide.mark (((v.setDir ss.recording { d with state := .available }).status fun c => { c with
      session := none, engine := .idle, bufA := ⟨.empty, [], 0⟩, bufB := ⟨.empty, [], 0⟩
      poolNotices := c.poolNotices ++ [.madeAvailable ss.recording ⟨d.length, d.bargeIn, d.gap⟩] })) .global).submit
      .loadDone ss.recording.val d.segCount := by
  rw [StoreSide.loadDone, hsession]
  dsimp only
  rw [StoreSide.setEngine_of_ne (by exact hengine), hd]
  rfl

theorem StoreSide.stepDone_header {i : Nat} (h : x.what = .header i) (hsession : v.store.session = some ss) :
    v.stepDone x = v.on fun c => { c with pulses := 0, attempts := 0, session := some (ss.headed i) } := by
  rw [StoreSide.stepDone, h]
  show StoreSide.on _ _ = _
  simp only [StoreSide.on, StoreController.noStep, hsession, Option.map_some]

theorem StoreSide.stepDone_codes {upTo : Nat} (h : x.what = .codes upTo) (hsession : v.store.session = some ss) :
    v.stepDone x = (fun w : StoreSide => if ss.chunkEnd ss.nextProg ≤ upTo then w.chunkDone else w)
      (v.on fun c => { c with pulses := 0, attempts := 0, session := some { ss with nextCode := upTo } }) := by
  have hsession' : (v.on StoreController.noStep).store.session = some ss := hsession
  rw [StoreSide.stepDone, h]
  dsimp only
  rw [hsession']
  rfl

theorem StoreSide.stepDone_completionMark (h : x.what = .completionMark) : v.stepDone x =
    StoreSide.loadDone (v.on fun c => { c with pulses := 0, attempts := 0 }) := by
  rw [StoreSide.stepDone, h]
  rfl

theorem StoreSide.stepDone_configValues {j : ConfigJob} (h : x.what = .configValues) (hconfig : v.store.config = some j) :
    v.stepDone x = v.on fun c => { c with pulses := 0, attempts := 0, config := some { j with phase := .mark } } := by
  rw [StoreSide.stepDone, h]
  show StoreSide.on _ _ = _
  simp only [StoreSide.on, StoreController.noStep, hconfig, Option.map_some]

theorem StoreSide.stepDone_configMark (h : x.what = .configMark) (hengine : v.store.engine ≠ .idle) : v.stepDone x =
    (StoreSide.mark (v.on fun c => { c with
      pulses := 0, attempts := 0, segMap := c.segMap.set 0 .configValid, config := none, engine := .idle }) .global).submit
      .loadDone 32 0 := by
  rw [StoreSide.stepDone, h]
  dsimp only
  rw [StoreSide.setEngine_of_ne (by exact hengine)]
  rfl

theorem StoreSide.chunkDone_bytes (v : StoreSide) : v.chunkDone.store.bytes = v.store.bytes := by
  cases hsession : v.store.session with
  | none =>
    rw [StoreSide.chunkDone, hsession]
  | some ss =>
    cases hb : v.store.bufIn .programming with
    | none =>
      rw [StoreSide.chunkDone, hsession, hb]
    | some b =>
      have hkeeps : ∀ (r : Bool) (w : StoreSide), w = (((v.status (StoreController.chunkFreed b ss r)).submit .loadStep
          ss.recording.val (ss.nextProg + 1)).on StoreController.stepLamp) → w.store.bytes = v.store.bytes := by
        rintro r w rfl
        rw [StoreSide.on, StoreController.stepLamp_eq]
        exact StoreController.setBuf_bytes b _ v.store
      rw [StoreSide.chunkDone_eq (refill := decide ((v.store.buf b.other).state ≠ .filling ∧ ss.nextRecv < ss.chunks)) hsession
        hb decide_eq_true_iff]
      dsimp only
      split
      · rw [StoreSide.advanceEngine_bytes, StoreSide.setEngine_bytes, hkeeps _ _ rfl]
      · rw [StoreSide.setEngine_bytes, hkeeps _ _ rfl]

theorem StoreSide.stepDone_bytes (x : ProgramStep) (v : StoreSide) : (v.stepDone x).store.bytes = v.store.bytes := by
  unfold StoreSide.stepDone
  dsimp only
  split
  · rfl
  · split
    · rfl
    · split
      · rw [StoreSide.chunkDone_bytes]
        rfl
      · rfl
  · unfold StoreSide.loadDone
    split
    · rfl
    · rw [StoreSide.setEngine_bytes]
      rfl
  · rfl
  · rw [StoreSide.setEngine_bytes]
    rfl

end

/-- Settles O54. -/
theorem programStepsRun : Obligations.ProgramStepsRun := by
  refine ⟨fun s x hrun htarget hport hsuspended hrefills hsettling => ⟨fun hhold good => ?_, fun hhold => ?_⟩,
    fun s u x us missed hrun hport hsettling hwf hnodup hbound hu => ?attempt, fun s ss good hsettling => ?_,
    fun s u ss x us missed hrun hport hsettling hengine hsegs hwf hnodup hbound hu hends => ?abandoned⟩
  · have hmay := StoreController.mayStart_eq hport hsuspended hrefills hsettling
    rw [hhold] at hmay
    rw [exec_programAttemptStart hrun, State.onStore, StoreSide.startAttempt_of_not_mayStart good (by exact hmay)]
    rfl
  · have hmay := StoreController.mayStart_eq hport hsuspended hrefills hsettling
    rw [hhold] at hmay
    rw [exec_programAttemptStart hrun, State.onStore, StoreSide.startAttempt_good (by exact htarget) (by exact hmay)]
    rfl
  case attempt =>
    have hstore := State.runClock_store hrun hport
    have hexec := exec_programAttemptDone hrun hport rfl missed
    rw [← hu] at hstore hexec
    have hkeep : ∀ {α : Type} (f : StoreController → α), f u.store = f _ := fun f => congrArg f hstore
    have hport' : u.storeSide.store.port = some ⟨.attempt x, us - us⟩ := hkeep StoreController.port
    have hsettling' : u.storeSide.store.settling = none := (hkeep StoreController.settling).trans hsettling
    have hattempts : u.storeSide.store.attempts = s.store.attempts := hkeep StoreController.attempts
    have hbytes : u.store.bytes = s.store.bytes := hkeep StoreController.bytes
    obtain ⟨w, hw⟩ : ∃ w : StoreSide, w = u.storeSide.on fun c =>
      { c with bytes := programBytes x.seg x.bytes missed c.bytes, port := none } := ⟨_, rfl⟩
    have hwb : w.store.bytes = programBytes x.seg x.bytes missed s.store.bytes := by
      rw [hw, ← hbytes]
      rfl
    have hpass := verifies_programBytes_iff (missed := missed) hwf hbound hnodup
    obtain ⟨r, hr⟩ : ∃ r : StoreSide, r = if verifies (programBytes x.seg x.bytes missed s.store.bytes) x then w.stepDone x
      else if 8 ≤ s.store.attempts then w.fail .programFail x.seg else w := ⟨_, rfl⟩
    have hdone : exec (.programAttemptDone missed) s = .next (u.withStoreSide r) := by
      rw [hexec, State.onStore, StoreSide.attemptDone_eq hport', ← hw, hsettling', hattempts, hr, ← hwb]
      rfl
    have hrb : r.store.bytes = programBytes x.seg x.bytes missed s.store.bytes := by
      rw [hr]
      split_ifs
      · rw [StoreSide.stepDone_bytes, hwb]
      · rw [StoreSide.fail_bytes, hwb]
      · exact hwb
    refine ⟨_, _, hdone, hrb, fun j off v hj => ?_, fun g off hoff hne => ?_, fun hbad hfew => ?_, fun hall c hc => ?_⟩
    · show storeByte r.store.bytes x.seg off = _
      rw [hrb]
      exact storeByte_programBytes_of_mem hwf hbound hnodup hj
    · show storeByte r.store.bytes g off = _
      rw [hrb]
      exact storeByte_programBytes_of_not_mem hwf hbound hoff hne
    · obtain ⟨j, off, v, hj, hne⟩ := hbad
      rw [hr, if_neg fun h => hne (hpass.1 h j off v hj), if_neg (Nat.not_le.2 hfew), hw, ← hbytes]
      rfl
    · rw [if_pos (hpass.2 hall)] at hr
      have hsession' : w.store.session = s.store.session := by
        rw [hw]
        exact hkeep StoreController.session
      have hconfig' : w.store.config = s.store.config := by
        rw [hw]
        exact hkeep StoreController.config
      have hengine' : w.store.engine = s.store.engine := by
        rw [hw]
        exact hkeep StoreController.engine
      have hhold' : w.store.hold = s.store.hold := by
        rw [hw]
        exact hkeep StoreController.hold
      have hbuf' : ∀ o, w.store.buf o = s.store.buf o := fun o => by
        rw [hw]
        exact hkeep fun c => c.buf o
      have hprog' : w.store.bufIn .programming = s.store.bufIn .programming := by
        rw [hw]
        exact hkeep fun c => c.bufIn .programming
      have hdir' : u.store.dir = s.store.dir := hkeep StoreController.dir
      have hmap' : u.store.segMap = s.store.segMap := hkeep StoreController.segMap
      have hnotices' : u.store.poolNotices = s.store.poolNotices := hkeep StoreController.poolNotices
      have hsticky' : (s.store.eraseFail || s.store.programFail || s.store.supplyAbort) = w.store.sticky := by
        rw [hw]
        exact (hkeep StoreController.sticky).symm
      have hcw : w = ⟨u.wire, { c with pulses := u.store.pulses, attempts := u.store.attempts }⟩ := by
        rw [hw, hc, ← hbytes]
        rfl
      refine ⟨fun i ss hwhat hsession => ?_, fun upTo ss hwhat hsession hshort => ?_,
        fun upTo ss b o y refill more hwhat hsession hend hb hengine ho hy hrefill hmore => ?_,
        fun ss d hwhat hsession hd hengine => ?_, fun j hwhat hconfig => ?_, fun hwhat hengine => ?_⟩
      · refine ⟨ss.headed i, ?_, rfl, by simp [Session.headed], fun j y hj => by simp [Session.headed, hj]⟩
        rw [hr, StoreSide.stepDone_header hwhat (hsession'.trans hsession), hcw]
        rw [hc]
        rfl
      · rw [hr, StoreSide.stepDone_codes hwhat (hsession'.trans hsession)]
        dsimp only
        rw [if_neg (Nat.not_le.2 (by exact hshort)), hcw, hc]
        rfl
      · have hob := Bank.eq_other_of_ne ho
        rw [← hhold'] at hmore
        rw [hr, StoreSide.stepDone_codes hwhat (hsession'.trans hsession)]
        dsimp only
        rw [if_pos (by exact hend), StoreSide.chunkDone_cases (b := b) (refill := refill) (more := more) (y := y)
          (ss := { ss with nextCode := upTo }) (by rfl) (by exact hprog'.trans hb) (by exact hengine'.trans hengine)
          (by rw [hy, hob]; exact (hbuf' _).symm) (by exact hrefill) (by exact hmore),
          hsticky', hob, hcw, hc]
        rfl
      · rw [hr, StoreSide.stepDone_completionMark hwhat, StoreSide.loadDone_eq (ss := ss) (d := d)
          (by exact hsession'.trans hsession) (by rw [hd, ← hdir', hw]; rfl) (by exact fun h => hengine (hengine'.symm.trans h)),
          hcw, hc, ← hdir', ← hnotices']
        rfl
      · rw [hr, StoreSide.stepDone_configValues hwhat (hconfig'.trans hconfig), hcw, hc]
        rfl
      · rw [hr, StoreSide.stepDone_configMark hwhat (by rw [hengine']; exact hengine), hcw, hc, ← hmap']
        rfl
  · by_cases hrun : s.running = true
    · rw [exec_programAttemptStart hrun, State.onStore,
        StoreSide.startAttempt_of_not_mayStart good (StoreController.mayStart_settling (by exact hsettling))]
      rfl
    · show execProgramAttemptStart good s = _
      rw [execProgramAttemptStart, event, if_neg hrun]
  case abandoned =>
    have hstore := State.runClock_store hrun hport
    have hexec := exec_programAttemptDone hrun hport rfl missed
    rw [← hu] at hstore hexec
    have hkeep : ∀ {α : Type} (f : StoreController → α), f u.store = f _ := fun f => congrArg f hstore
    have hport' : u.storeSide.store.port = some ⟨.attempt x, us - us⟩ := hkeep StoreController.port
    have hsettling' : u.storeSide.store.settling = some ss := (hkeep StoreController.settling).trans hsettling
    have hattempts : u.storeSide.store.attempts = s.store.attempts := hkeep StoreController.attempts
    have hengine' : u.store.engine = s.store.engine := hkeep StoreController.engine
    have hbytes : u.store.bytes = s.store.bytes := hkeep StoreController.bytes
    obtain ⟨w, hw⟩ : ∃ w : StoreSide, w = u.storeSide.on fun c =>
      { c with bytes := programBytes x.seg x.bytes missed c.bytes, port := none } := ⟨_, rfl⟩
    have hwb : w.store.bytes = programBytes x.seg x.bytes missed s.store.bytes := by
      rw [hw, ← hbytes]
      rfl
    have hws : w.store.settling = some ss := by rw [hw]; exact hsettling'
    have hdone : exec (.programAttemptDone missed) s = .next (u.withStoreSide w.settle) := by
      rw [hexec, State.onStore, StoreSide.attemptDone_eq hport', ← hw, hsettling', hattempts]
      dsimp only
      rw [hwb]
      by_cases hall : verifies (programBytes x.seg x.bytes missed s.store.bytes) x = true
      · rw [if_pos hall]
        rfl
      · have hfew : s.store.attempts < 8 :=
          hends.resolve_right fun h => hall ((verifies_programBytes_iff hwf hbound hnodup).2 h)
        rw [if_neg hall, if_neg (Nat.not_le.2 hfew)]
        rfl
    have hsettled : w.settle.store.bytes = programBytes x.seg x.bytes missed s.store.bytes := by
      rw [StoreSide.settle_store hws, ← hwb]
    refine ⟨_, hdone, fun j off v hj => ?_, fun g off hoff hne => ?_, ?_⟩
    · show storeByte w.settle.store.bytes x.seg off = _
      rw [hsettled]
      exact storeByte_programBytes_of_mem hwf hbound hnodup hj
    · show storeByte w.settle.store.bytes g off = _
      rw [hsettled]
      exact storeByte_programBytes_of_not_mem hwf hbound hoff hne
    · refine State.settles_settle (s := { u with store := { u.store with bytes := w.settle.store.bytes, port := none } })
        hws ?_ hsegs ?_ ?_
      · rw [hw]
        show u.store.engine ≠ _
        rw [hengine']
        exact hengine
      · rw [hw]
        rfl
      · rw [hsettled, hw, ← hbytes]
        rfl

end Sys2Proof.Machine
end

