-- ==== Sys2Proof/Proofs/StoreFailures.lean ====
section
/-!
PROOF. The failures of the store (chapter 8.7): supply low, an erase or a program step that does not verify. O55.
-/
namespace Sys2Proof.Machine

section
variable {v : StoreSide} {f : StoreFlag} {g : SegNo} {ss : Session} {x : ProgramStep} {us : Nat} {left : List (Nat × Byte)}
  {missed : List Byte}

/-! ### The work in hand is dropped -/

theorem StoreSide.dropWork_session (h : v.store.session = some ss) : v.dropWork =
    ((v.setDir ss.recording DirRecord.absent).status fun c => { (c.settleSegs ss).emptyBufs with session := none },
      ss.recording.val) := by
  rw [StoreSide.dropWork, h]

theorem StoreSide.dropWork_settling (hsession : v.store.session = none) (h : v.store.settling = some ss) : v.dropWork =
    (v.on fun c => { c.settleSegs ss with settling := none }, ss.recording.val) := by
  rw [StoreSide.dropWork, hsession, h]

theorem StoreSide.dropWork_retire {j : RetireJob} (hsession : v.store.session = none) (hsettling : v.store.settling = none)
    (h : v.store.retire = some j) : v.dropWork = ((v.setDir j.recording DirRecord.absent).on fun c =>
      { j.remaining.foldl (fun c g => c.setSeg g .dirty) c with retire := none }, j.recording.val) := by
  rw [StoreSide.dropWork, hsession, hsettling, h]

theorem StoreSide.dropWork_config (hsession : v.store.session = none) (hsettling : v.store.settling = none)
    (hretire : v.store.retire = none) : v.dropWork = (v.on fun c => { c with config := none }, 32) := by
  rw [StoreSide.dropWork, hsession, hsettling, hretire]

theorem foldl_dirty_eq (l : List SegNo) (c : StoreController) : l.foldl (fun c g => c.setSeg g .dirty) c
    = { c with segMap := (l.foldl (fun c g => c.setSeg g .dirty) c).segMap } :=
  foldl_setSeg_eq (key := id) (f := fun _ _ => SegState.dirty) l c

theorem foldl_dirty_segMap (l : List SegNo) (c : StoreController) (h : SegNo) :
    (l.foldl (fun c g => c.setSeg g .dirty) c).segMap[h] = if h ∈ l then .dirty else c.segMap[h] := by
  induction l generalizing c with
  | nil => rfl
  | cons g l ih =>
    refine (ih _).trans ?_
    rw [show (c.setSeg g .dirty).segMap[h] = if h = g then .dirty else c.segMap[h] from vector_getElem_set_fin _ _ _ _]
    by_cases hl : h ∈ l
    · rw [if_pos hl, if_pos (List.mem_cons_of_mem g hl)]
    · rw [if_neg hl]
      exact if_congr (by rw [List.mem_cons, or_iff_left hl]) rfl rfl

/-- Dropping the work moves only what belongs to a work (R151). -/
theorem StoreSide.dropWork_store (v : StoreSide) : v.dropWork.1.store = { v.store with
    segMap := v.dropWork.1.store.segMap, dir := v.dropWork.1.store.dir, session := v.dropWork.1.store.session
    settling := v.dropWork.1.store.settling, retire := v.dropWork.1.store.retire, config := v.dropWork.1.store.config
    bufA := v.dropWork.1.store.bufA, bufB := v.dropWork.1.store.bufB } := by
  cases hsession : v.store.session with
  | some ss =>
    rw [StoreSide.dropWork_session hsession]
    dsimp only
    rw [StoreSide.status_store, StoreController.settleSegs_eq]
    rfl
  | none =>
    cases hsettling : v.store.settling with
    | some ss =>
      rw [StoreSide.dropWork_settling hsession hsettling]
      dsimp only
      rw [StoreSide.on_store, StoreController.settleSegs_eq]
    | none =>
      cases hretire : v.store.retire with
      | some j =>
        rw [StoreSide.dropWork_retire hsession hsettling hretire]
        dsimp only
        rw [StoreSide.on_store, foldl_dirty_eq]
        rfl
      | none =>
        rw [StoreSide.dropWork_config hsession hsettling hretire]
        rfl

theorem StoreSide.dropWork_settling_none (h : v.store.settling = none) : v.dropWork.1.store.settling = none := by
  cases hsession : v.store.session with
  | some ss =>
    rw [StoreSide.dropWork_session hsession, ← h]
    dsimp only
    rw [StoreSide.status_store, StoreController.settleSegs_eq]
    rfl
  | none =>
    cases hretire : v.store.retire with
    | some j =>
      rw [StoreSide.dropWork_retire hsession h hretire, ← h]
      dsimp only
      rw [StoreSide.on_store, foldl_dirty_eq]
      rfl
    | none =>
      rw [StoreSide.dropWork_config hsession h hretire, ← h]
      rfl

theorem StoreSide.dropWork_of_no_session (h : v.store.session = none) : v.dropWork.1.store.session = none
    ∧ v.dropWork.1.store.bufA = v.store.bufA ∧ v.dropWork.1.store.bufB = v.store.bufB := by
  cases hsettling : v.store.settling with
  | some ss =>
    rw [StoreSide.dropWork_settling h hsettling]
    dsimp only
    rw [StoreSide.on_store, StoreController.settleSegs_eq]
    exact ⟨h, rfl, rfl⟩
  | none =>
    cases hretire : v.store.retire with
    | some j =>
      rw [StoreSide.dropWork_retire h hsettling hretire]
      dsimp only
      rw [StoreSide.on_store, foldl_dirty_eq]
      exact ⟨h, rfl, rfl⟩
    | none =>
      rw [StoreSide.dropWork_config h hsettling hretire]
      exact ⟨h, rfl, rfl⟩

/-! ### A failure -/

theorem StoreSide.fail_store (f : StoreFlag) (g : SegNo) (v : StoreSide) : (v.fail f g).store = { v.dropWork.1.store with
    engine := .idle, port := none, suspended := none, lamp := ⟨.idle, 0, false⟩, pulses := 0, attempts := 0
    eraseFail := v.store.eraseFail || f == .eraseFail, programFail := v.store.programFail || f == .programFail
    supplyAbort := v.store.supplyAbort || f == .supplyAbort
    segMap := v.dropWork.1.store.segMap.set g (failedSeg f g) } := by
  have herase : v.dropWork.1.store.eraseFail = v.store.eraseFail :=
    (congrArg StoreController.eraseFail v.dropWork_store).trans rfl
  have hprogram : v.dropWork.1.store.programFail = v.store.programFail :=
    (congrArg StoreController.programFail v.dropWork_store).trans rfl
  have hsupply : v.dropWork.1.store.supplyAbort = v.store.supplyAbort :=
    (congrArg StoreController.supplyAbort v.dropWork_store).trans rfl
  rw [StoreSide.fail]
  dsimp only
  rw [StoreSide.mark_store, StoreSide.setEngine_store, StoreSide.submit_store, StoreSide.on_store,
    ← herase, ← hprogram, ← hsupply]
  cases f <;> simp [StoreController.setFlag, StoreController.setSeg, StoreController.noStep, Lamp.off]

theorem StoreSide.fail_wire (f : StoreFlag) (g : SegNo) (h : v.store.engine ≠ .idle) : (v.fail f g).wire =
    (v.dropWork.1.wire.submit .storeController .storeError v.dropWork.2 (0x100 * f.code + g.val)).mark .global := by
  have hengine : v.dropWork.1.store.engine ≠ .idle := by
    rw [StoreSide.dropWork_store]
    exact h
  rw [StoreSide.fail]
  dsimp only
  rw [StoreSide.setEngine_of_ne (by cases f <;> exact hengine)]
  rfl

/-! ### The failing commands -/

theorem StoreSide.startPulse_low (htarget : v.store.eraseTarget = some g) (h : v.store.mayStart = true) :
    v.startPulse false = (v.on fun c => { c with supplyGood := false }).fail .supplyAbort g := by
  rw [StoreSide.startPulse, htarget]
  exact if_pos h

theorem StoreSide.startAttempt_low (htarget : v.store.programTarget = some x) (h : v.store.mayStart = true) :
    v.startAttempt false = (v.on fun c => { c with supplyGood := false }).fail .supplyAbort x.seg := by
  rw [StoreSide.startAttempt, htarget]
  exact if_pos h

theorem StoreSide.resumePulse_low (hsuspended : v.store.suspended = some ⟨g, us⟩) (hport : v.store.port = none)
    (hrefills : v.store.refillQ = []) : v.resumePulse false left = (v.on fun c => { c with
      supplyGood := false, suspended := none, bytes := leaveResidue g left c.bytes }).fail .supplyAbort g := by
  rw [StoreSide.resumePulse, hsuspended]
  exact if_pos ⟨hport, hrefills⟩

theorem StoreSide.supplyFall_pulse (hport : v.store.port = some ⟨.erasePulse g, us⟩) : v.supplyFall left missed =
    (v.on fun c => { c with supplyGood := false, bytes := leaveResidue g left c.bytes }).fail .supplyAbort g := by
  have hport' : (v.on fun c => { c with supplyGood := false }).store.port = some ⟨.erasePulse g, us⟩ := hport
  rw [StoreSide.supplyFall]
  dsimp only
  rw [hport']
  rfl

theorem StoreSide.supplyFall_attempt (hport : v.store.port = some ⟨.attempt x, us⟩) : v.supplyFall left missed =
    (v.on fun c => { c with supplyGood := false, bytes := programBytes x.seg x.bytes missed c.bytes }).fail
      .supplyAbort x.seg := by
  have hport' : (v.on fun c => { c with supplyGood := false }).store.port = some ⟨.attempt x, us⟩ := hport
  rw [StoreSide.supplyFall]
  dsimp only
  rw [hport']
  rfl

theorem StoreSide.supplyFall_idle (h : ∀ q, v.store.port = some q → q.step.isPulse = false ∧ q.step.isAttempt = false) :
    v.supplyFall left missed = v.on fun c => { c with supplyGood := false } := by
  rw [StoreSide.supplyFall]
  dsimp only
  split
  · next heq => exact absurd (show false = true from (h _ heq).1.symm) Bool.false_ne_true
  · next heq => exact absurd (show false = true from (h _ heq).2.symm) Bool.false_ne_true
  · rfl

/-- Command `i` ends in a failure at segment `g` of the store side `v`, which has the state's records. -/
structure State.FailsWith (s u : State) (i : Instr) (g : SegNo) (f : StoreFlag) (v : StoreSide) : Prop where
  runs : exec i s = .next (u.withStoreSide (v.fail f g))
  wire : v.wire = s.wire
  store : v.store = { s.store with
    bytes := v.store.bytes, lamp := v.store.lamp, port := v.store.port, suspended := v.store.suspended
    supplyGood := s.store.supplyGood && f != .supplyAbort }

theorem State.failsWith_low {s u : State} {i : Instr} (hruns : exec i s = .next (u.withStoreSide (v.fail .supplyAbort g)))
    (hwire : v.wire = s.wire) (hstore : v.store = { s.store with
      bytes := v.store.bytes, lamp := v.store.lamp, port := v.store.port, suspended := v.store.suspended
      supplyGood := false }) : s.FailsWith u i g .supplyAbort v :=
  ⟨hruns, hwire, by
    rw [show (s.store.supplyGood && StoreFlag.supplyAbort != .supplyAbort) = false from Bool.and_false _]
    exact hstore⟩

end

/-- Settles O55. -/
theorem failuresEndTheWork : Obligations.FailuresEndTheWork := by
  refine ⟨fun s left missed hidle => ?_, fun s i g f us x left missed hrun hengine hcase => ?_⟩
  · show Host.Outcome.next (s.onStore (StoreSide.supplyFall left missed)) = _
    rw [State.onStore, StoreSide.supplyFall_idle (by exact hidle)]
    rfl
  obtain ⟨u, v, hfails, hu, hstart, houtside⟩ : ∃ u v, s.FailsWith u i g f v
      ∧ u = (if i = .eraseVerifyDone ∨ i = .programAttemptDone missed then s.runClock us else s)
      ∧ (i = .erasePulseStart false ∨ i = .programAttemptStart false ∨ i = .eraseVerifyDone → v.store.bytes = s.store.bytes)
      ∧ (memWf 0xFF#8 s.store.bytes = true → (∀ c ∈ x.bytes, c.1 < 8192) → ∀ (h : SegNo) (off : Nat), h ≠ g → off < 8192 →
        storeByte v.store.bytes h off = storeByte s.store.bytes h off) := by
    rcases hcase with ⟨hport, hsuspended, hrefills, hhold, hsettling, rfl, hstart⟩ | ⟨hport, hsuspended, hrefills, rfl, rfl⟩
      | ⟨hport, rfl, rfl⟩ | ⟨hport, hwf, hbad, hpulses, rfl, rfl⟩
      | ⟨hport, rfl, hnodup, hbound, hbad, hwf, hattempts, rfl, rfl⟩
    · have hmay : s.store.mayStart = true := by
        rw [StoreController.mayStart_eq hport hsuspended hrefills hsettling, hhold]
        rfl
      rcases hstart with ⟨rfl, htarget⟩ | ⟨rfl, htarget, rfl⟩
      · refine ⟨s, s.storeSide.on fun c => { c with supplyGood := false }, State.failsWith_low ?_ rfl rfl,
          (if_neg (by simp)).symm, fun _ => rfl, fun _ _ _ _ _ _ => rfl⟩
        rw [exec_erasePulseStart hrun, State.onStore, StoreSide.startPulse_low (by exact htarget) (by exact hmay)]
      · refine ⟨s, s.storeSide.on fun c => { c with supplyGood := false }, State.failsWith_low ?_ rfl rfl,
          (if_neg (by simp)).symm, fun _ => rfl, fun _ _ _ _ _ _ => rfl⟩
        rw [exec_programAttemptStart hrun, State.onStore, StoreSide.startAttempt_low (by exact htarget) (by exact hmay)]
    · refine ⟨s, s.storeSide.on fun c => { c with
          supplyGood := false, suspended := none, bytes := leaveResidue g left c.bytes }, State.failsWith_low ?_ rfl rfl,
        (if_neg (by simp)).symm, fun h => by simp at h, fun hwf _ h off hne hoff => storeByte_leaveResidue_ne left hwf hne hoff⟩
      rw [exec_erasePulseResume hrun, State.onStore,
        StoreSide.resumePulse_low (by exact hsuspended) (by exact hport) (by exact hrefills)]
    · rcases hport with hport | ⟨hport, rfl⟩
      · refine ⟨s, s.storeSide.on fun c => { c with supplyGood := false, bytes := leaveResidue g left c.bytes },
          State.failsWith_low ?_ rfl rfl, (if_neg (by simp)).symm, fun h => by simp at h,
          fun hwf _ h off hne hoff => storeByte_leaveResidue_ne left hwf hne hoff⟩
        show Host.Outcome.next (s.onStore (StoreSide.supplyFall left missed)) = _
        rw [State.onStore, StoreSide.supplyFall_pulse (by exact hport)]
      · refine ⟨s, s.storeSide.on fun c => { c with
            supplyGood := false, bytes := programBytes x.seg x.bytes missed c.bytes }, State.failsWith_low ?_ rfl rfl,
          (if_neg (by simp)).symm, fun h => by simp at h,
          fun hwf hbound h off hne hoff => storeByte_programBytes_of_not_mem hwf hbound hoff (.inl hne)⟩
        show Host.Outcome.next (s.onStore (StoreSide.supplyFall left missed)) = _
        rw [State.onStore, StoreSide.supplyFall_attempt (by exact hport)]
    · have hstore := State.runClock_store hrun hport
      have hexec := exec_eraseVerifyDone hrun hport rfl
      obtain ⟨u, hu⟩ : ∃ u, u = s.runClock us := ⟨_, rfl⟩
      rw [← hu] at hstore hexec
      have hkeep : ∀ {α : Type} (f : StoreController → α), f u.store = f _ := fun f => congrArg f hstore
      have hport' : u.storeSide.store.port = some ⟨.eraseVerify g, us - us⟩ := hkeep StoreController.port
      have hbytes : u.storeSide.store.bytes = s.store.bytes := hkeep StoreController.bytes
      have hpulses' : u.storeSide.store.pulses = s.store.pulses := hkeep StoreController.pulses
      refine ⟨u, u.storeSide.on fun c => { c with port := none }, ⟨?_, ?_, ?_⟩, hu.trans (if_pos (.inl rfl)).symm,
        fun _ => hbytes, fun _ _ h off _ _ => by rw [← hbytes]; rfl⟩
      · rw [hexec, State.onStore, StoreSide.verifyDone_eq hport', hbytes, hpulses']
        dsimp only
        rw [if_neg (by rw [segErased_eq_false hwf hbad]; exact Bool.false_ne_true), if_pos hpulses]
      · exact (congrArg State.wire hu).trans (State.runClock_wire s us)
      · rw [StoreSide.on_store, show u.storeSide.store = u.store from rfl, hstore]
        simp
    · have hstore := State.runClock_store hrun hport
      have hexec := exec_programAttemptDone hrun hport rfl missed
      obtain ⟨u, hu⟩ : ∃ u, u = s.runClock us := ⟨_, rfl⟩
      rw [← hu] at hstore hexec
      have hkeep : ∀ {α : Type} (f : StoreController → α), f u.store = f _ := fun f => congrArg f hstore
      have hport' : u.storeSide.store.port = some ⟨.attempt x, us - us⟩ := hkeep StoreController.port
      have hattempts' : u.storeSide.store.attempts = s.store.attempts := hkeep StoreController.attempts
      have hbytes : u.storeSide.store.bytes = s.store.bytes := hkeep StoreController.bytes
      refine ⟨u, u.storeSide.on fun c => { c with bytes := programBytes x.seg x.bytes missed c.bytes, port := none },
        ⟨?_, ?_, ?_⟩, hu.trans (if_pos (.inr rfl)).symm, fun h => by simp at h, fun hwf hbound h off hne hoff => ?_⟩
      · obtain ⟨j, off, b, hj, hne⟩ := hbad
        rw [hexec, State.onStore, StoreSide.attemptDone_eq hport', hattempts']
        dsimp only
        rw [StoreSide.on_store, if_neg fun h => hne ((verifies_programBytes_iff hwf hbound hnodup).1
          (by rw [← hbytes]; exact h) j off b hj), if_pos hattempts]
      · exact (congrArg State.wire hu).trans (State.runClock_wire s us)
      · rw [StoreSide.on_store, show u.storeSide.store = u.store from rfl, hstore]
        simp
      · rw [StoreSide.on_store, hbytes]
        exact storeByte_programBytes_of_not_mem hwf hbound hoff (.inl hne)
  obtain ⟨hruns, hwire, hstore⟩ := hfails
  have hkeep : ∀ {α : Type} (k : StoreController → α), k v.store = k _ := fun k => congrArg k hstore
  have hsession : v.store.session = s.store.session := hkeep StoreController.session
  have hsettling : v.store.settling = s.store.settling := hkeep StoreController.settling
  have hretire : v.store.retire = s.store.retire := hkeep StoreController.retire
  have hconfig : v.store.config = s.store.config := hkeep StoreController.config
  have hdir : v.store.dir = s.store.dir := hkeep StoreController.dir
  have hmap : v.store.segMap = s.store.segMap := hkeep StoreController.segMap
  have hbufs : v.store.bufA = s.store.bufA ∧ v.store.bufB = s.store.bufB :=
    ⟨hkeep StoreController.bufA, hkeep StoreController.bufB⟩
  have hengine' : v.store.engine ≠ .idle := fun h => hengine ((hkeep StoreController.engine).symm.trans h)
  have hbytes := StoreSide.fail_bytes f g v
  have hfailed := StoreSide.fail_store f g v
  have hreported := StoreSide.fail_wire f g hengine'
  have hseg : ∀ h : SegNo, h ≠ g → (v.fail f g).store.segMap[h] = v.dropWork.1.store.segMap[h] := fun h hne => by
    rw [hfailed]
    exact (vector_getElem_set_fin _ _ _ _).trans (if_neg hne)
  have hkept : ∀ {α : Type} (k : StoreController → α), k (v.fail f g).store = k _ := fun k => congrArg k hfailed
  refine ⟨_, u, hruns, hu, ?_, fun hnone => ?_, fun h => hbytes.trans (hstart h), fun hwf hx h off hne hoff => ?_, ?_, ?_⟩
  · refine congrArg (fun c : StoreController => ({ u with wire := (v.fail f g).wire, store := c } : State)) (hfailed.trans ?_)
    show _ = ({ s.store with
      engine := _, port := _, suspended := _, lamp := _, pulses := _, attempts := _, eraseFail := _, programFail := _
      supplyAbort := _, supplyGood := _, bytes := (v.fail f g).store.bytes, segMap := (v.fail f g).store.segMap
      dir := (v.fail f g).store.dir, session := (v.fail f g).store.session, settling := (v.fail f g).store.settling
      retire := (v.fail f g).store.retire, config := (v.fail f g).store.config, bufA := (v.fail f g).store.bufA
      bufB := (v.fail f g).store.bufB } : StoreController)
    rw [hfailed, StoreSide.dropWork_store, hstore]
  · exact (hkept StoreController.settling).trans (StoreSide.dropWork_settling_none (hsettling.trans hnone))
  · show storeByte (v.fail f g).store.bytes h off = _
    rw [hbytes]
    exact houtside hwf hx h off hne hoff
  · show (v.fail f g).store.segMap[g] = _
    rw [hfailed]
    exact (vector_getElem_set_fin _ _ _ _).trans (if_pos rfl)
  · rintro report rfl
    rw [← hsession, ← hsettling, ← hretire, ← hconfig, ← hdir, ← hmap, ← hwire, ← hbufs.1, ← hbufs.2]
    refine ⟨fun ss h => ?_, fun h => ?_, fun ss hnone h => ?_, fun j hnone hnosettle h => ?_,
      fun hnone hnosettle hnoretire => ?_⟩
    · rw [StoreSide.dropWork_session h] at hkept hreported hseg
      rw [StoreSide.status_store, StoreController.settleSegs_eq] at hkept
      exact ⟨hkept StoreController.session, hkept StoreController.bufA, hkept StoreController.bufB,
        hkept StoreController.retire, hkept StoreController.config, hkept StoreController.dir,
        (congrArg Wire.submitted hreported).trans rfl, (congrArg Wire.dirty hreported).trans rfl,
        fun hnodup y hy hne => (hseg y.seg hne).trans (StoreController.settleSegs_segMap _ hnodup hy),
        fun h hne hh => (hseg h hne).trans (StoreController.settleSegs_segMap_of_not_mem _ hh)⟩
    · obtain ⟨hs, hA, hB⟩ := StoreSide.dropWork_of_no_session h
      exact ⟨(hkept StoreController.session).trans hs, (hkept StoreController.bufA).trans hA,
        (hkept StoreController.bufB).trans hB⟩
    · rw [StoreSide.dropWork_settling hnone h] at hkept hreported hseg
      rw [StoreSide.on_store, StoreController.settleSegs_eq] at hkept
      exact ⟨hkept StoreController.settling, hkept StoreController.retire, hkept StoreController.config,
        hkept StoreController.dir, (congrArg Wire.submitted hreported).trans rfl, (congrArg Wire.dirty hreported).trans rfl,
        fun hnodup y hy hne => (hseg y.seg hne).trans (StoreController.settleSegs_segMap _ hnodup hy),
        fun h hne hh => (hseg h hne).trans (StoreController.settleSegs_segMap_of_not_mem _ hh)⟩
    · rw [StoreSide.dropWork_retire hnone hnosettle h] at hkept hreported hseg
      rw [StoreSide.on_store, foldl_dirty_eq] at hkept
      exact ⟨hkept StoreController.retire, hkept StoreController.config, hkept StoreController.dir,
        (congrArg Wire.submitted hreported).trans rfl, (congrArg Wire.dirty hreported).trans rfl,
        fun h hne => (hseg h hne).trans (foldl_dirty_segMap _ _ _)⟩
    · rw [StoreSide.dropWork_config hnone hnosettle hnoretire] at hkept hreported hseg
      exact ⟨(hkept StoreController.retire).trans hnoretire, hkept StoreController.config, hkept StoreController.dir,
        (congrArg Wire.submitted hreported).trans rfl, (congrArg Wire.dirty hreported).trans rfl, hseg⟩

end Sys2Proof.Machine
end

