-- ==== Sys2Proof/Proofs/PoolClose.lean ====
section
/-!
PROOF. The close of an event of the player pool (R106, R114, R115): the wait list served, then each player's wrap check and refill
request.
-/
namespace Sys2Proof.Machine

/-! ### Taking the matching members of a list -/

section
variable {α : Type} {p : α → Bool}

theorem takeMatching_zero (l : List α) : takeMatching p 0 l = ([], l) := by
  rw [takeMatching]

theorem takeMatching_none {l : List α} (n : Nat) (h : ∀ x ∈ l, p x = false) : takeMatching p n l = ([], l) := by
  cases n with
  | zero => exact takeMatching_zero l
  | succ n =>
    induction l with
    | nil => rfl
    | cons x l ih =>
      rw [takeMatching, if_neg (by rw [h x List.mem_cons_self]; exact Bool.false_ne_true),
        ih fun y hy => h y (List.mem_cons_of_mem x hy)]

/-- Room for exactly the members of `older` that match, or for more while `newer` has none. -/
theorem takeMatching_append {older newer : List α} {n : Nat}
    (h : (older.filter p).length = n ∨ (older.filter p).length ≤ n ∧ ∀ x ∈ newer, p x = false) :
    takeMatching p n (older ++ newer) = (older.filter p, older.filter (fun x => !p x) ++ newer) := by
  induction older generalizing n with
  | nil =>
    rcases h with h | h
    · obtain rfl : n = 0 := h.symm
      exact takeMatching_zero newer
    · exact takeMatching_none n h.2
  | cons x older ih =>
    cases hx : p x with
    | true =>
      rw [List.filter_cons_of_pos hx, List.length_cons] at h
      cases n with
      | zero => exact absurd h (by omega)
      | succ n =>
        rw [List.cons_append, takeMatching, if_pos hx, ih (h.imp (fun h => Nat.succ.inj h) fun h =>
          ⟨Nat.le_of_succ_le_succ h.1, h.2⟩), List.filter_cons_of_pos hx, List.filter_cons_of_neg (by simp [hx])]
    | false =>
      rw [List.filter_cons_of_neg (by simp [hx])] at h
      rw [List.filter_cons_of_neg (by simp [hx]), List.filter_cons_of_pos (by simp [hx])]
      cases n with
      | zero =>
        have hnone : older.filter p = [] := List.eq_nil_of_length_eq_zero (by omega)
        have hall : older.filter (fun x => !p x) = older := by
          refine List.filter_eq_self.2 fun y hy => ?_
          rw [Bool.eq_false_iff.2 (List.filter_eq_nil_iff.1 hnone y hy)]
          rfl
        rw [hnone, hall]
        exact takeMatching_zero _
      | succ n => rw [List.cons_append, takeMatching, if_neg (by simp [hx]), ih h]; rfl

theorem takeMatching_all {l : List α} {n : Nat} (h : ∀ x ∈ l, p x = true) (hn : l.length ≤ n) :
    takeMatching p n l = (l, []) := by
  have hall : l.filter p = l := List.filter_eq_self.2 h
  have hnone : l.filter (fun x => !p x) = [] := List.filter_eq_nil_iff.2 fun x hx => by simp [h x hx]
  have htake := takeMatching_append (p := p) (older := l) (newer := []) (n := n)
    (.inr ⟨by rw [hall]; exact hn, fun x hx => by cases hx⟩)
  rw [List.append_nil, hall, hnone] at htake
  exact htake

end

section
variable {e : Exchange} {n : PlayNo} {P : Player} {r : RecNo} {v : ViewRecord}

/-! ### Player records -/

/-- A player record replaced. -/
def Exchange.putPlayer (n : PlayNo) (P : Player) (e : Exchange) : Exchange :=
  { e with players := { e.players with players := e.players.players.set n P } }

theorem Exchange.setPlayer_of_same (h : (e.player n).sameShown P = true) : e.setPlayer n P = e.putPlayer n P := by
  rw [Exchange.setPlayer, if_pos h]
  rfl

theorem Exchange.putPlayer_player (m : PlayNo) : (e.putPlayer n P).player m = if m = n then P else e.player m :=
  vector_getElem_set_fin e.players.players n m P

theorem Exchange.putPlayer_putPlayer (Q : Player) : (e.putPlayer n P).putPlayer n Q = e.putPlayer n Q := by
  simp only [Exchange.putPlayer, Vector.set_set]

theorem Exchange.showPlayer_putPlayer (Q : Player) : (e.putPlayer n P).showPlayer n Q = e.showPlayer n Q := by
  simp only [Exchange.putPlayer, Exchange.showPlayer, Vector.set_set]

theorem Exchange.putPlayer_showPlayer (Q : Player) : (e.showPlayer n P).putPlayer n Q = e.showPlayer n Q := by
  simp only [Exchange.putPlayer, Exchange.showPlayer, Vector.set_set]

theorem Exchange.putPlayer_self : e.putPlayer n (e.player n) = e := by
  rw [← Exchange.setPlayer_of_same (by simp [Player.sameShown]), Exchange.setPlayer_self]

theorem Exchange.putPlayer_of_eq (h : e.player n = P) : e.putPlayer n P = e := by
  rw [← h]
  exact Exchange.putPlayer_self

/-! ### The wrap check and the refill request -/

theorem PlayerPool.lengthOf_of_view {q : PlayerPool} (hrec : P.recording = some r) (hview : q.view[r] = some v) :
    q.lengthOf P = v.length := by
  rw [PlayerPool.lengthOf, PlayerPool.viewOf, hrec, Option.bind_some, hview]
  rfl

theorem PlayerPool.gapOf_of_view {q : PlayerPool} (hrec : P.recording = some r) (hview : q.view[r] = some v) :
    q.gapOf P = v.gap := by
  rw [PlayerPool.gapOf, PlayerPool.viewOf, hrec, Option.bind_some, hview]
  rfl

theorem PlayerPool.wrapCheck_of_not {q : PlayerPool} (hrec : P.recording = some r) (hview : q.view[r] = some v)
    (h : P.state ≠ .playing ∨ P.wrapped = true ∨ P.fetch ≠ v.length ∨ v.gap ≠ 0) : q.wrapCheck P = P := by
  rw [PlayerPool.wrapCheck, PlayerPool.lengthOf_of_view hrec hview, PlayerPool.gapOf_of_view hrec hview]
  refine if_neg fun ⟨hstate, hwrapped, hfetch, hgap, _⟩ => ?_
  rcases h with h | h | h | h
  · exact h hstate
  · exact Bool.false_ne_true (hwrapped.symm.trans h)
  · exact h hfetch
  · exact h hgap

theorem PlayerPool.wrapCheck_shown (q : PlayerPool) (P : Player) :
    (q.wrapCheck P).state = P.state ∧ (q.wrapCheck P).recording = P.recording ∧ P.sameShown (q.wrapCheck P) = true := by
  rw [PlayerPool.wrapCheck]
  split <;> exact ⟨rfl, rfl, by simp [Player.sameShown]⟩

/-- The conditions of a refill request hold: it is sent (R106). -/
theorem Exchange.closePlayer_requests {A : Player} (hA : e.players.wrapCheck (e.player n) = A) (hrec : A.recording = some r)
    (hview : e.players.view[r] = some v) (hstate : A.state ≠ .idle) (hout : A.refillOut = false) (hshort : A.fifo.length ≤ 512)
    (hleft : A.fetch < v.length) : e.closePlayer n = { e with players := { e.players with
      players := e.players.players.set n { A with refillOut := true }
      refillReqs := e.players.refillReqs ++ [⟨n, r, A.fetch, min 512 (v.length - A.fetch), A.gen⟩] } } := by
  have hlength : e.players.lengthOf A = v.length := PlayerPool.lengthOf_of_view hrec hview
  obtain ⟨_, _, hshown⟩ := e.players.wrapCheck_shown (e.player n)
  rw [hA] at hshown
  have hwants : e.players.wantsRefill A = true := by
    rw [PlayerPool.wantsRefill, hlength, hout, decide_eq_true (by exact hshort), decide_eq_true hleft,
      bne_iff_ne.2 hstate]
    rfl
  rw [Exchange.closePlayer, hA]
  dsimp only
  split
  · next h => exact absurd (hrec.symm.trans h) (Option.some_ne_none r)
  · next r' h =>
    obtain rfl : r' = r := Option.some.inj (h.symm.trans hrec)
    rw [if_pos hwants, Exchange.setPlayer_of_same (by exact hshown), hlength]
    rfl

/-- Else nothing is requested. -/
theorem Exchange.closePlayer_stays {A : Player} (hA : e.players.wrapCheck (e.player n) = A) (hrec : A.recording = some r)
    (hview : e.players.view[r] = some v) (hstill : A.refillOut = true ∨ 512 < A.fifo.length ∨ v.length ≤ A.fetch) :
    e.closePlayer n = e.putPlayer n A := by
  obtain ⟨_, _, hshown⟩ := e.players.wrapCheck_shown (e.player n)
  rw [hA] at hshown
  have hwants : ¬ e.players.wantsRefill A = true := by
    rw [PlayerPool.wantsRefill, PlayerPool.lengthOf_of_view hrec hview]
    simp only [Bool.and_eq_true, Bool.not_eq_true', decide_eq_true_eq, Config.refillCodes]
    rintro ⟨⟨⟨_, hout⟩, hshort⟩, hleft⟩
    rcases hstill with h | h | h
    · exact Bool.false_ne_true (hout.symm.trans h)
    · exact absurd (of_decide_eq_true hshort) (Nat.not_le.2 h)
    · exact absurd hleft (Nat.not_lt.2 h)
  rw [Exchange.closePlayer, hA]
  dsimp only
  split
  · exact Exchange.setPlayer_of_same hshown
  · rw [if_neg hwants, Exchange.setPlayer_of_same hshown]

/-! ### The close with one player not at rest -/

theorem Exchange.closePlayer_view (e : Exchange) (n : PlayNo) : (e.closePlayer n).players.view = e.players.view := by
  rw [Exchange.closePlayer]
  dsimp only
  split
  · simp
  · split <;> simp

theorem Exchange.setPlayer_player_of_ne {m : PlayNo} (hne : m ≠ n) : (e.setPlayer n P).player m = e.player m := by
  have hset : (e.setPlayer n P).players.players = e.players.players.set n P := by
    rw [Exchange.setPlayer]
    split <;> rfl
  rw [Exchange.player, hset]
  exact (vector_getElem_set_fin _ _ _ _).trans (if_neg hne)

theorem Exchange.closePlayer_player_of_ne {m : PlayNo} (hne : m ≠ n) : (e.closePlayer n).player m = e.player m := by
  rw [Exchange.closePlayer]
  dsimp only
  split
  · exact Exchange.setPlayer_player_of_ne hne
  · split <;> exact Exchange.setPlayer_player_of_ne hne

/-- A fold one of whose members acts, the others doing nothing before and after it. -/
theorem foldl_only {α β : Type} {f : β → α → β} {b : β} {n : α} {l : List α} (hn : n ∈ l) (hnodup : l.Nodup)
    (hbefore : ∀ a, a ≠ n → f b a = b) (hafter : ∀ a, a ≠ n → f (f b n) a = f b n) : l.foldl f b = f b n := by
  induction l with
  | nil => cases hn
  | cons a l ih =>
    rw [List.nodup_cons] at hnodup
    rw [List.foldl_cons]
    by_cases ha : a = n
    · subst ha
      have hidle : ∀ (l : List α), a ∉ l → l.foldl f (f b a) = f b a := fun l hl => by
        induction l with
        | nil => rfl
        | cons c l ih =>
          rw [List.foldl_cons, hafter c fun h => hl (h ▸ List.mem_cons_self), ih fun h => hl (List.mem_cons_of_mem c h)]
      exact hidle l hnodup.1
    · rw [hbefore a ha]
      exact ih ((List.mem_cons.1 hn).resolve_left fun h => ha h.symm) hnodup.2

theorem allPlayers_nodup : allPlayers.Nodup := by decide

theorem Exchange.closePlayers_only (h : ∀ m, m ≠ n → (e.player m).atRest e.players = true) :
    allPlayers.foldl Exchange.closePlayer e = e.closePlayer n :=
  foldl_only (mem_allPlayers n) allPlayers_nodup (fun m hm => Exchange.closePlayer_rest (h m hm)) fun m hm =>
    Exchange.closePlayer_rest (by
      rw [Exchange.closePlayer_player_of_ne hm, Player.atRest_congr _ (e.closePlayer_view n)]
      exact h m hm)

theorem Exchange.closePlayers_rest (h : ∀ m, (e.player m).atRest e.players = true) :
    allPlayers.foldl Exchange.closePlayer e = e :=
  foldl_idle (fun m => Exchange.closePlayer_rest (h m)) _

/-! ### The wait list with nobody to serve -/

theorem Exchange.moveWaiters_none (r : RecNo) (k : Nat) (h : k = 0 ∨ ∀ w ∈ e.players.waitList, w.recording ≠ r) :
    e.moveWaiters n r k = e := by
  have htake : takeMatching (fun w : AnnWaiter => w.recording == r) k e.players.waitList = ([], e.players.waitList) := by
    rcases h with rfl | h
    · exact takeMatching_zero _
    · exact takeMatching_none k fun w hw => beq_eq_false_iff_ne.2 (h w hw)
  have hlist : e.setWaitList e.players.waitList = e := rfl
  rw [Exchange.moveWaiters, htake]
  simp only [List.map_nil, List.append_nil, List.foldl_nil, hlist]
  exact e.setPlayer_self n

theorem Exchange.serveRooms_idle (h : e.players.scanning = true ∨ ∀ n r, (e.player n).recording = some r →
    e.players.fanout ≤ (e.player n).fanCount ∨ ∀ w ∈ e.players.waitList, w.recording ≠ r) : e.serveRooms = e := by
  rw [Exchange.serveRooms]
  split
  · rfl
  · next hscan =>
    refine foldl_idle (fun n => ?_) _
    rw [Exchange.serveRoom]
    split
    · rfl
    · next r hr =>
      exact Exchange.moveWaiters_none r _ (((h.resolve_left hscan) n r hr).imp_left Nat.sub_eq_zero_of_le)

theorem Exchange.serveIdle_idle (h : (e.player n).state ≠ .idle ∨ ∀ w ∈ e.players.waitList, e.players.available w.recording = false) :
    e.serveIdle n = e := by
  rw [Exchange.serveIdle]
  split
  · next hidle =>
    have hnone : (e.players.waitList.find? fun w => e.players.available w.recording) = none :=
      List.find?_eq_none.2 fun w hw => by
        rw [(h.resolve_left fun hn => hn hidle) w hw]
        exact Bool.false_ne_true
    rw [hnone]
  · rfl

theorem Exchange.serveIdles_idle (h : e.players.scanning = true ∨ (∀ n, (e.player n).state ≠ .idle)
    ∨ ∀ w ∈ e.players.waitList, e.players.available w.recording = false) : e.serveIdles = e := by
  rw [Exchange.serveIdles]
  split
  · rfl
  · next hscan =>
    exact foldl_idle (fun n => Exchange.serveIdle_idle ((h.resolve_left hscan).imp_left fun h => h n)) _

theorem Exchange.serveRooms_empty (hw : e.players.waitList = []) : e.serveRooms = e :=
  Exchange.serveRooms_idle (.inr fun _ _ _ => .inr fun w hmem => by
    rw [hw] at hmem
    cases hmem)

theorem Exchange.serveIdles_empty (hw : e.players.waitList = []) : e.serveIdles = e :=
  Exchange.serveIdles_idle (.inr (.inr fun w hmem => by
    rw [hw] at hmem
    cases hmem))

/-- With nothing waiting and the other players at rest, the close of an event is the close for one player. -/
theorem Exchange.closePool_only (hw : e.players.waitList = []) (h : ∀ m, m ≠ n → (e.player m).atRest e.players = true) :
    e.closePool = e.closePlayer n := by
  rw [Exchange.closePool, Exchange.serveRooms_empty hw, Exchange.serveIdles_empty hw, Exchange.closePlayers_only h]

end

end Sys2Proof.Machine
end

