-- ==== Sys2Proof/Proofs/CodeHandOver.lean ====
section
/-!
PROOF. The hand-over of a code at a frame start (chapters 6.3, 6.4), and the rules of notices and cycle starts.
O42.
-/
namespace Sys2Proof.Machine

section
variable {e : Exchange} {n : PlayNo} {P Q : Player} {r : RecNo} {v : ViewRecord}

/-! ### Notices, marks -/

/-- Notices sent to the order unit, in order. -/
def Exchange.notifyAll (l : List PlayerNotice) (e : Exchange) : Exchange :=
  { e with players := { e.players with notices := e.players.notices ++ l } }

theorem Exchange.foldl_playNotify {α : Type} (c : α → Circ) (g : α → Tag) (m : PlayerMessage) (l : List α) (e : Exchange) :
    l.foldl (fun e x => e.playNotify (c x) (g x) m) e = e.notifyAll (l.map fun x => ⟨c x, g x, m⟩) := by
  induction l generalizing e with
  | nil =>
    rw [List.map_nil, Exchange.notifyAll, List.append_nil]
    rfl
  | cons x l ih =>
    rw [List.foldl_cons, ih]
    simp only [Exchange.notifyAll, Exchange.playNotify, List.map_cons, List.append_assoc, List.singleton_append]

theorem Exchange.showPlayer_setPlayer : (e.setPlayer n P).showPlayer n Q = e.showPlayer n Q := by
  rw [Exchange.setPlayer]
  split
  · exact Exchange.showPlayer_putPlayer Q
  · simp [Exchange.showPlayer, Exchange.mark, Wire.mark]

theorem Exchange.setPlayer_of_state (h : (e.player n).state ≠ P.state) : e.setPlayer n P = e.showPlayer n P := by
  have hshown : ¬ (e.player n).sameShown P = true := fun hs => by
    simp only [Player.sameShown, Bool.and_eq_true, beq_iff_eq] at hs
    exact h hs.1.1.1
  rw [Exchange.setPlayer, if_neg hshown]
  rfl

/-- A cycle start: the join entries become listeners, each with a notice, and the status word is marked (R108). -/
theorem Exchange.startCycle_eq (hP : e.player n = P) : e.startCycle n = (e.showPlayer n { P with
    state := .playing, pos := 0, underrun := false, joins := []
    listeners := P.joins.foldl (fun ls j => insertAnnListener ⟨j.circ, j.tag, j.repeats, true⟩ ls) P.listeners }).notifyAll
      (P.joins.map fun j => ⟨j.circ, j.tag, .listener n⟩) := by
  rw [Exchange.startCycle, hP]
  dsimp only
  rw [Exchange.foldl_playNotify, ← Exchange.mark_setPlayer]
  rfl

/-- A player that holds a FIFO's worth, or has a refill coming, or nothing left to fetch, and no wrap due, is at rest. -/
theorem Player.atRest_of_bound {q : PlayerPool} (hrec : P.recording = some r) (hview : q.view[r] = some v)
    (hwrap : P.state ≠ .playing ∨ P.wrapped = true ∨ P.fetch ≠ v.length ∨ v.gap ≠ 0)
    (hstill : P.refillOut = true ∨ 512 < P.fifo.length ∨ v.length ≤ P.fetch) : P.atRest q = true := by
  rw [Player.atRest, hrec]
  simp only [Bool.and_eq_true, Bool.or_eq_true, bne_iff_ne, decide_eq_true_eq, or_assoc, PlayerPool.lengthOf_of_view hrec hview,
    PlayerPool.gapOf_of_view hrec hview]
  exact ⟨hwrap, hstill⟩

/-! ### The hand-over -/

def Player.unheard (P : Player) : Player := { P with handed := none }

theorem Exchange.handOverCode_silent (h : (e.player n).state ≠ .playing) :
    e.handOverCode n = e.putPlayer n (e.player n).unheard := by
  rw [Exchange.handOverCode]
  dsimp only
  rw [if_neg h]
  exact Exchange.setPlayer_of_same (by simp [Player.sameShown])

/-- The players of a list hand over no code. -/
def Exchange.unheard (l : List PlayNo) (e : Exchange) : Exchange :=
  { e with players := { e.players with
    players := Vector.ofFn fun m => if m ∈ l then (e.player m).unheard else e.player m } }

theorem Exchange.unheard_player (l : List PlayNo) (m : PlayNo) :
    (e.unheard l).player m = if m ∈ l then (e.player m).unheard else e.player m :=
  Vector.getElem_ofFn m.isLt

theorem Exchange.unheard_state (l : List PlayNo) (m : PlayNo) : ((e.unheard l).player m).state = (e.player m).state := by
  rw [Exchange.unheard_player]
  split <;> rfl

theorem Exchange.foldl_handOver_silent {l : List PlayNo} (h : ∀ m ∈ l, (e.player m).state ≠ .playing) :
    l.foldl Exchange.handOverCode e = e.unheard l := by
  induction l generalizing e with
  | nil =>
    have hself : (Vector.ofFn fun m : PlayNo => if m ∈ ([] : List PlayNo) then (e.player m).unheard else e.player m)
        = e.players.players := by
      ext i hi
      rw [Vector.getElem_ofFn, if_neg List.not_mem_nil]
      rfl
    rw [Exchange.unheard, hself]
    rfl
  | cons a l ih =>
    rw [List.foldl_cons, Exchange.handOverCode_silent (h a List.mem_cons_self), ih]
    · have hvec : (Vector.ofFn fun m : PlayNo => if m ∈ l then ((e.putPlayer a (e.player a).unheard).player m).unheard
          else (e.putPlayer a (e.player a).unheard).player m)
          = Vector.ofFn fun m : PlayNo => if m ∈ a :: l then (e.player m).unheard else e.player m := by
        congr 1
        funext m
        rw [Exchange.putPlayer_player]
        by_cases hm : m = a
        · subst hm
          rw [if_pos rfl, if_pos List.mem_cons_self]
          split <;> rfl
        · rw [if_neg hm]
          exact if_congr (by rw [List.mem_cons, or_iff_right hm]) rfl rfl
      rw [Exchange.unheard, hvec]
      rfl
    · intro m hm
      rw [Exchange.putPlayer_player]
      split
      · exact h a List.mem_cons_self
      · exact h m (List.mem_cons_of_mem a hm)

/-- The pool's hand-over when one player is PLAYING: its own step, the others handing over nothing (R109). -/
theorem Exchange.foldl_handOver_one {W : Wire → Wire} (hothers : ∀ m, m ≠ n → (e.player m).state ≠ .playing)
    (hstep : ∀ f : Exchange, f.player n = e.player n →
      f.handOverCode n = { f.putPlayer n Q with wire := W f.wire }) :
    allPlayers.foldl Exchange.handOverCode e = { e with
      wire := W e.wire
      players := { e.players with players := (e.players.players.map Player.unheard).set n Q } } := by
  obtain ⟨l₁, l₂, hl⟩ := List.append_of_mem (mem_allPlayers n)
  have hnodup := allPlayers_nodup
  rw [hl, List.nodup_append, List.nodup_cons] at hnodup
  obtain ⟨_, ⟨hn₂, _⟩, hdisjoint⟩ := hnodup
  have hn₁ : n ∉ l₁ := fun h => hdisjoint n h n List.mem_cons_self rfl
  have hmem : ∀ m, m ≠ n → m ∉ l₂ → m ∈ l₁ := fun m hm h₂ => by
    have hall := hl ▸ mem_allPlayers m
    rw [List.mem_append, List.mem_cons] at hall
    exact hall.resolve_right fun h => h.elim hm h₂
  have hplayer : ∀ m, Exchange.player { (e.unheard l₁).putPlayer n Q with wire := W e.wire } m
      = if m = n then Q else (e.unheard l₁).player m := fun m => Exchange.putPlayer_player m
  rw [hl, List.foldl_append, List.foldl_cons,
    Exchange.foldl_handOver_silent fun m hm => hothers m fun h => hn₁ (h ▸ hm),
    hstep _ ((Exchange.unheard_player l₁ n).trans (if_neg hn₁)), Exchange.foldl_handOver_silent (by
      intro m hm
      have hne : m ≠ n := fun h => hn₂ (h ▸ hm)
      show (Exchange.player { (e.unheard l₁).putPlayer n Q with wire := W e.wire } m).state ≠ _
      rw [hplayer, if_neg hne, Exchange.unheard_state]
      exact hothers m hne)]
  have hvec : (Exchange.unheard l₂ { (e.unheard l₁).putPlayer n Q with wire := W e.wire }).players.players
      = (e.players.players.map Player.unheard).set n Q := by
    refine Vector.ext fun i hi => ?_
    refine ((Exchange.unheard_player l₂ ⟨i, hi⟩).trans ?_).trans (vector_getElem_set_fin _ n ⟨i, hi⟩ _).symm
    rw [hplayer]
    have hmap : (e.players.players.map Player.unheard)[(⟨i, hi⟩ : PlayNo)] = (e.player ⟨i, hi⟩).unheard :=
      Vector.getElem_map _ hi
    rw [hmap]
    by_cases hin : (⟨i, hi⟩ : PlayNo) = n
    · rw [if_pos hin, if_pos hin, if_neg (by rw [hin]; exact hn₂)]
    · rw [if_neg hin, if_neg hin, Exchange.unheard_player]
      by_cases h₂ : (⟨i, hi⟩ : PlayNo) ∈ l₂
      · rw [if_pos h₂]
        split <;> rfl
      · rw [if_neg h₂, if_pos (hmem _ hin h₂)]
  rw [← hvec]
  rfl

theorem Exchange.handOverCode_code {c : Byte} {codes : List Byte} (hP : e.player n = P) (hstate : P.state = .playing)
    (hfifo : P.fifo = c :: codes) :
    e.handOverCode n = e.putPlayer n { P with handed := some c, fifo := codes, pos := P.pos + 1 } := by
  rw [Exchange.handOverCode, hP]
  dsimp only
  rw [if_pos hstate, hfifo]
  exact Exchange.setPlayer_of_same (by simp [Player.sameShown, hP])

theorem Exchange.handOverCode_underrun (hP : e.player n = P) (hstate : P.state = .playing) (hfifo : P.fifo = [])
    (hrec : P.recording = some r) : e.handOverCode n = { e.putPlayer n { P with handed := none, underrun := true } with
      wire := if P.underrun then e.wire else e.wire.submit .playerPool .underrun n.val r.val } := by
  rw [Exchange.handOverCode, hP]
  dsimp only
  rw [if_pos hstate, hfifo]
  dsimp only
  rw [Exchange.setPlayer_of_same (by simp [Player.sameShown, hP]), hrec]
  split <;> rfl

/-- The players of the pool once the hand-over of one has left it as `Q` and the others hand over nothing: their close is that
of the one. -/
theorem Exchange.framePlayers_one {W : Wire → Wire} (hw : e.players.waitList = [])
    (hrest : ∀ m, m ≠ n → (e.player m).atRest e.players = true) (hothers : ∀ m, m ≠ n → (e.player m).state ≠ .playing)
    (hstep : ∀ f : Exchange, f.player n = e.player n → f.handOverCode n = { f.putPlayer n Q with wire := W f.wire }) :
    ∃ f : Exchange, f = { e with
        wire := W e.wire, players := { e.players with players := (e.players.players.map Player.unheard).set n Q } }
      ∧ f.player n = Q ∧ e.framePlayers = f.closePlayer n := by
  refine ⟨_, rfl, (vector_getElem_set_fin _ _ _ _).trans (if_pos rfl), ?_⟩
  rw [Exchange.framePlayers, Exchange.foldl_handOver_one hothers hstep]
  refine Exchange.closePool_only hw fun m hm => ?_
  have hplayer : ((e.players.players.map Player.unheard).set n Q)[m] = (e.player m).unheard :=
    (vector_getElem_set_fin _ n m Q).trans ((if_neg hm).trans (Vector.getElem_map _ m.isLt))
  have hsame : (e.player m).unheard.atRest e.players = true := hrest m hm
  rw [← hplayer] at hsame
  exact (Player.atRest_congr _ rfl).trans hsame

end

theorem exec_frameStartPlayers {s : State} (hrun : s.running = true) (hdue : s.highway.playersDue = true) :
    exec .frameStartPlayers s = .next (State.withExchange { s with highway := { s.highway with playersDue := false } }
      s.exchange.framePlayers) := by
  refine (event_of_running hrun).trans ?_
  rw [State.takePlayersFrame, if_pos hdue]
  rfl

/-- Settles O42. -/
theorem playersHandOverOneCode : Obligations.PlayersHandOverOneCode := by
  intro n s t P r v quiet hrun hdue hwait hP hstate hrec hview hrest hothers hquiet ht
  have hrest' : ∀ m, m ≠ n → (s.exchange.player m).atRest s.exchange.players = true := fun m hm =>
    hrest m (by simpa using hm)
  refine ⟨fun c codes hfifo hq => ?_, fun hfifo hout hq => ?_⟩
  · obtain ⟨f, hf, hfn, hframe⟩ := Exchange.framePlayers_one (e := s.exchange) (n := n) (W := id)
      (Q := { P with handed := some c, fifo := codes, pos := P.pos + 1 }) hwait hrest' (by exact hothers) fun f hfn =>
        Exchange.handOverCode_code (hfn.trans hP) hstate hfifo
    have hA : f.players.wrapCheck (f.player n) = { P with handed := some c, fifo := codes, pos := P.pos + 1 } := by
      rw [hfn]
      refine PlayerPool.wrapCheck_of_not (r := r) (v := v) (by exact hrec) (by rw [hf]; exact hview) ?_
      exact .inr (hquiet.1 hq)
    have hexec : exec .frameStartPlayers s = .next (State.withExchange { s with
        highway := { s.highway with playersDue := false } } (f.closePlayer n)) := by
      rw [exec_frameStartPlayers hrun hdue, ← hframe]
    have hview' : f.players.view[r] = some v := by rw [hf]; exact hview
    refine ⟨fun hstill => ?_, fun hout hshort hleft => ?_⟩
    · have hstays : f.closePlayer n = f :=
        (Exchange.closePlayer_stays hA (by exact hrec) hview' (by exact hstill)).trans (Exchange.putPlayer_of_eq hfn)
      rw [hexec, hstays, hf, ht]
      rfl
    · rw [hexec, Exchange.closePlayer_requests hA (by exact hrec) hview' (by rw [hstate]; decide) (by exact hout)
        (by exact hshort) (by exact hleft), hf, ht]
      simp only [Vector.set_set]
      rfl
  · obtain ⟨f, hf, hfn, hframe⟩ := Exchange.framePlayers_one (e := s.exchange) (n := n)
      (W := fun w => if P.underrun then w else w.submit .playerPool .underrun n.val r.val)
      (Q := { P with handed := none, underrun := true }) hwait hrest' (by exact hothers) fun f hfn =>
        Exchange.handOverCode_underrun (hfn.trans hP) hstate hfifo hrec
    have hA : f.players.wrapCheck (f.player n) = { P with handed := none, underrun := true } := by
      rw [hfn]
      refine PlayerPool.wrapCheck_of_not (r := r) (v := v) (by exact hrec) (by rw [hf]; exact hview) ?_
      exact .inr (hquiet.1 hq)
    have hview' : f.players.view[r] = some v := by rw [hf]; exact hview
    have hstays : f.closePlayer n = f :=
      (Exchange.closePlayer_stays hA (by exact hrec) hview' (.inl hout)).trans (Exchange.putPlayer_of_eq hfn)
    rw [exec_frameStartPlayers hrun hdue, hframe, hstays, hf, ht]
    dsimp only
    split <;> rfl

end Sys2Proof.Machine
end

