-- ==== Sys2Proof/Proofs/AnnouncementCycles.lean ====
section
/-!
PROOF. The announcement cycle (chapters 6.3, 6.4): the cycle end, the gap end and refill deliveries. O43, O44.
-/
namespace Sys2Proof.Machine

section
variable {e : Exchange} {n : PlayNo} {P Q : Player} {r : RecNo} {v : ViewRecord}

theorem Player.endCycle_eq (P : Player) : P.endCycle = { P with
    listeners := P.listeners.filterMap AnnListener.count, pos := 0, wrapped := false
    fifo := if P.wrapped then P.fifo else [], fetch := if P.wrapped then P.fetch else 0 } := by
  rw [Player.endCycle]
  dsimp only
  cases hw : P.wrapped <;> rfl

theorem AnnListener.count_isNone (l : AnnListener) : l.count.isNone = (l.atStart && l.repeats == 1) := by
  rw [AnnListener.count]
  cases l.atStart with
  | false => rfl
  | true =>
    rw [if_pos rfl, Bool.true_and]
    by_cases h0 : l.repeats = 0
    · rw [if_pos h0, h0]
      rfl
    · rw [if_neg h0]
      by_cases h1 : l.repeats = 1
      · rw [if_pos h1, h1]
        rfl
      · rw [if_neg h1, beq_eq_false_iff_ne.2 h1]
        rfl

theorem PlayerPool.primed_iff {q : PlayerPool} (hrec : P.recording = some r) (hview : q.view[r] = some v) :
    q.primed P = true ↔ P.pos = 0 ∧ P.fifo.length = min 1024 v.length := by
  rw [PlayerPool.primed, PlayerPool.lengthOf_of_view hrec hview, Bool.and_eq_true, beq_iff_eq, beq_iff_eq]
  rfl

/-- The state of the pool at the close of a cycle end, with nothing waiting: the listeners whose repeats are used up are sent
exhausted, and step 5 of R110 follows. -/
theorem Exchange.endAnnCycle_eq (hP : e.player n = P) (hw : e.players.waitList = []) : e.endAnnCycle n =
    (Exchange.afterCycle n ((e.setPlayer n P.endCycle).notifyAll
      ((P.listeners.filter fun l => l.atStart && l.repeats == 1).map fun l => ⟨l.circ, l.tag, .exhausted⟩))).closePool := by
  have hlisteners : P.exhausted = P.listeners.filter fun l => l.atStart && l.repeats == 1 := by
    rw [Player.exhausted]
    exact congrArg (fun f => P.listeners.filter f) (funext AnnListener.count_isNone)
  rw [Exchange.endAnnCycle, hP, Exchange.foldl_playNotify, hlisteners, Exchange.serveRooms_empty]
  show (e.setPlayer n P.endCycle).players.waitList = []
  rw [Exchange.setPlayer_players_waitList]
  exact hw

/-- With nobody left the player becomes IDLE (R110 step 5). -/
theorem Exchange.afterCycle_empty (hP : e.player n = P) (hlisteners : P.listeners = []) (hjoins : P.joins = []) :
    e.afterCycle n = e.showPlayer n P.toIdle := by
  rw [Exchange.afterCycle, hP]
  dsimp only
  rw [if_pos ⟨hlisteners, hjoins⟩, Exchange.mark_setPlayer]

/-- With somebody left and a gap, or the FIFO short, the player waits in GAP or PRIMING (R110 step 5). -/
theorem Exchange.afterCycle_waits (hP : e.player n = P) (hrec : P.recording = some r) (hview : e.players.view[r] = some v)
    (hheard : P.listeners ≠ [] ∨ P.joins ≠ []) (h : 1 ≤ v.gap ∨ P.fifo.length ≠ min 1024 v.length) :
    e.afterCycle n = e.showPlayer n { P with
      state := if 1 ≤ v.gap then .gap else .priming, gapLeft := if 1 ≤ v.gap then v.gap else P.gapLeft } := by
  rw [Exchange.afterCycle, hP]
  dsimp only
  rw [if_neg fun ⟨hl, hj⟩ => hheard.elim (fun h => h hl) fun h => h hj, PlayerPool.gapOf_of_view hrec hview]
  by_cases hgap : 1 ≤ v.gap
  · simp only [if_pos hgap]
    exact Exchange.mark_setPlayer e n _
  · simp only [if_neg hgap]
    rw [if_neg fun hprimed => (h.resolve_left hgap) ((PlayerPool.primed_iff hrec hview).1 hprimed).2]
    exact Exchange.mark_setPlayer e n _

theorem Exchange.afterCycle_starts (hP : e.player n = P) (hrec : P.recording = some r) (hview : e.players.view[r] = some v)
    (hheard : P.listeners ≠ [] ∨ P.joins ≠ []) (hgap : v.gap = 0) (hpos : P.pos = 0)
    (hfifo : P.fifo.length = min 1024 v.length) : e.afterCycle n = e.startCycle n := by
  have hnogap : ¬ 1 ≤ v.gap := by omega
  rw [Exchange.afterCycle, hP]
  dsimp only
  rw [if_neg fun ⟨hl, hj⟩ => hheard.elim (fun h => h hl) fun h => h hj, PlayerPool.gapOf_of_view hrec hview, if_neg hnogap,
    if_pos ((PlayerPool.primed_iff hrec hview).2 ⟨hpos, hfifo⟩)]

theorem Exchange.annCycleEnd_of_due (hP : e.player n = P) (hstate : P.state = .playing) (hrec : P.recording = some r)
    (hview : e.players.view[r] = some v) (hpos : P.pos = v.length) : e.annCycleEnd n = e.endAnnCycle n := by
  refine if_pos ?_
  rw [Exchange.cycleEndDue, hP, hstate, hpos, PlayerPool.lengthOf_of_view hrec hview, hrec]
  simp

end

theorem exec_annCycleEnd {s : State} (hrun : s.running = true) (hsample : s.highway.sampleDue = false) (n : PlayNo) :
    exec (.annCycleEnd n) s = .next (s.withExchange (s.exchange.annCycleEnd n)) := by
  show execAnnCycleEnd n s = _
  refine (event_of_running hrun).trans ?_
  rw [State.takeComputation_of_not_due hsample]
  rfl

/-- Settles O43. -/
theorem announcementCycleEnds : Obligations.AnnouncementCycleEnds := by
  intro n s t P r v kept hrun hsample hwait hP hstate hrec hview hpos hrest hkept ht
  have hrest' : ∀ m, m ≠ n → (s.exchange.player m).atRest s.exchange.players = true := fun m hm =>
    hrest m (by simpa using hm)
  obtain ⟨gone, hgone⟩ : ∃ gone : List PlayerNotice,
    gone = (P.listeners.filter fun l => l.atStart && l.repeats == 1).map fun l => ⟨l.circ, l.tag, .exhausted⟩ := ⟨_, rfl⟩
  obtain ⟨R, hR⟩ : ∃ R : Player, R = P.endCycle := ⟨_, rfl⟩
  obtain ⟨f, hf⟩ : ∃ f : Exchange, f = (s.exchange.setPlayer n R).notifyAll gone := ⟨_, rfl⟩
  have hexec : exec (.annCycleEnd n) s = .next (s.withExchange (f.afterCycle n).closePool) := by
    rw [exec_annCycleEnd hrun hsample, Exchange.annCycleEnd_of_due (by exact hP) hstate hrec hview hpos,
      Exchange.endAnnCycle_eq (by exact hP) hwait, ← hgone, ← hR, ← hf]
  have hfn : f.player n = R := by rw [hf]; exact Exchange.setPlayer_player s.exchange n R
  have hfview : f.players.view = s.players.view := by
    rw [hf]
    exact Exchange.setPlayer_players_view s.exchange n R
  have hshow : ∀ Q, f.showPlayer n Q = (s.exchange.showPlayer n Q).notifyAll gone := fun Q => by
    rw [hf]
    exact congrArg (Exchange.notifyAll gone) (Exchange.showPlayer_setPlayer (P := R))
  have hothers : ∀ (Q : Player) (m : PlayNo), m ≠ n →
      ((s.exchange.showPlayer n Q).player m).atRest s.exchange.players = true := fun Q m hm => by
    rw [Exchange.showPlayer_player, if_neg hm]
    exact hrest' m hm
  have hclose : ∀ (g : Exchange) (Q : Player) (l : List PlayerNotice), g = (s.exchange.showPlayer n Q).notifyAll l →
      g.player n = Q ∧ g.players.view = s.players.view ∧ g.closePool = g.closePlayer n := by
    rintro g Q l rfl
    exact ⟨(Exchange.showPlayer_player n Q n).trans (if_pos rfl), rfl, Exchange.closePool_only (by exact hwait) fun m hm =>
      (Player.atRest_congr _ rfl).trans (hothers Q m hm)⟩
  have hcount : P.listeners.filterMap AnnListener.count = kept := by
    rw [hkept]
    rfl
  rw [Player.endCycle_eq, hcount] at hR
  have hRrec : R.recording = some r := by rw [hR]; exact hrec
  have hRview : f.players.view[r] = some v := by rw [hfview]; exact hview
  have hkept' : R.listeners = kept := by rw [hR]
  have hjoins : R.joins = P.joins := by rw [hR]
  refine ⟨fun hnone hnojoins => ?_, fun Q hheard hshort hQ => ?_, fun hheard hgap hwrapped hfull hlong hleft => ?_⟩
  · obtain ⟨hgn, _, hpool⟩ := hclose _ R.toIdle gone (hshow _)
    have hstill : (f.showPlayer n R.toIdle).closePlayer n = f.showPlayer n R.toIdle :=
      Exchange.closePlayer_rest (by rw [hgn]; rfl)
    rw [hexec, Exchange.afterCycle_empty hfn (hkept'.trans hnone) (hjoins.trans hnojoins), hpool, hstill, hshow, ht, hgone, hR]
    rfl
  · have hafter : f.afterCycle n = f.showPlayer n Q := by
      rw [Exchange.afterCycle_waits hfn hRrec hRview (by rw [hkept', hjoins]; exact hheard)
        (hshort.imp_right fun h hlen => h (by
          rw [← hlen, hR]
          dsimp only
          split <;> rfl)), hQ, hR]
    obtain ⟨hgn, hgview, hpool⟩ := hclose _ Q gone (hshow Q)
    have hQrec : Q.recording = some r := by rw [hQ]; exact hrec
    have hQstate : Q.state = .gap ∨ Q.state = .priming := by
      rw [hQ]
      dsimp only
      split
      · exact .inl rfl
      · exact .inr rfl
    have hview' : (f.showPlayer n Q).players.view[r] = some v := by rw [hgview]; exact hview
    have hA : (f.showPlayer n Q).players.wrapCheck ((f.showPlayer n Q).player n) = Q := by
      rw [hgn]
      exact PlayerPool.wrapCheck_of_not hQrec hview' (.inl (by rcases hQstate with h | h <;> rw [h] <;> decide))
    have hgen : Q.gen = P.gen := by rw [hQ]
    refine ⟨fun hout hroom hleft => ?_, fun hstill => ?_⟩
    · rw [hexec, hafter, hpool, Exchange.closePlayer_requests hA hQrec hview'
        (by rcases hQstate with h | h <;> rw [h] <;> decide) hout hroom hleft, hshow, ht, hgone, hgen]
      simp only [Exchange.notifyAll, Exchange.showPlayer, Vector.set_set]
      rfl
    · rw [hexec, hafter, hpool, (Exchange.closePlayer_stays hA hQrec hview' hstill).trans (Exchange.putPlayer_of_eq hgn), hshow,
        ht, hgone]
      rfl
  · have hR' : R = { P with listeners := kept, pos := 0, wrapped := false } := by
      rw [hR]
      simp only [if_pos hwrapped]
    have hafter := (Exchange.afterCycle_starts hfn hRrec hRview (by rw [hkept', hjoins]; exact hheard) hgap (by rw [hR])
      (by rw [hR', min_eq_left hlong]; exact hfull)).trans (Exchange.startCycle_eq hfn)
    rw [hshow] at hafter
    obtain ⟨S, hS⟩ : ∃ S : Player, S = { R with
      state := .playing, pos := 0, underrun := false, joins := []
      listeners := R.joins.foldl (fun ls j => insertAnnListener ⟨j.circ, j.tag, j.repeats, true⟩ ls) R.listeners } := ⟨_, rfl⟩
    rw [← hS] at hafter
    have hall : ∀ l : List PlayerNotice, ((s.exchange.showPlayer n S).notifyAll gone).notifyAll l
        = (s.exchange.showPlayer n S).notifyAll (gone ++ l) := fun l => by
      simp only [Exchange.notifyAll, List.append_assoc]
    obtain ⟨hgn, hgview, hpool⟩ := hclose _ S _ (hafter.trans (hall _))
    have hSrec : S.recording = some r := by rw [hS]; exact hRrec
    have hview' : (f.afterCycle n).players.view[r] = some v := by rw [hgview]; exact hview
    rw [hR', ← hstate] at hS
    have hA : (f.afterCycle n).players.wrapCheck ((f.afterCycle n).player n) = S := by
      rw [hgn]
      refine PlayerPool.wrapCheck_of_not hSrec hview' (.inr (.inr (.inl ?_)))
      rw [hS]
      exact hleft.ne
    have hlen : 512 < S.fifo.length := by
      rw [hS]
      exact hfull ▸ (by decide : 512 < 1024)
    rw [hexec, hpool, (Exchange.closePlayer_stays hA hSrec hview' (.inr (.inl hlen))).trans (Exchange.putPlayer_of_eq hgn),
      hafter, ht, hS, hjoins, ← hgone]
    rfl

/-! ### The gap end and a refill delivery -/

theorem exec_playerGapEnd {s : State} (hrun : s.running = true) (n : PlayNo) :
    exec (.playerGapEnd n) s = .next (s.withExchange (s.exchange.playerGapEnd n)) := by
  show execPlayerGapEnd n s = _
  exact event_of_running hrun

theorem exec_refillDelivery {s : State} {d : Delivery} {rest : List Delivery} (hrun : s.running = true)
    (h : s.store.deliveries = d :: rest) : exec .refillDelivery s = .next
      (State.withExchange { s with store := { s.store with deliveries := rest } } (s.exchange.deliver d)) := by
  refine (event_of_running hrun).trans ?_
  rw [State.takeDelivery, h]
  rfl

section
variable {e : Exchange} {n : PlayNo} {P Q : Player} {r : RecNo} {v : ViewRecord} {g : Tag} {codes : List Byte}

/-- The player in PLAYING from a cycle's start (R108). -/
def Player.started (P : Player) : Player :=
  { P with
    state := .playing, pos := 0, underrun := false, joins := []
    listeners := P.joins.foldl (fun ls j => insertAnnListener ⟨j.circ, j.tag, j.repeats, true⟩ ls) P.listeners }

/-- The close of the event in which a cycle starts, the player then at rest. -/
theorem Exchange.closePool_startCycle (hw : e.players.waitList = [])
    (hrest : ∀ m, m ≠ n → (e.player m).atRest e.players = true) (hP : e.player n = P) (hrec : P.recording = some r)
    (hview : e.players.view[r] = some v) (hwrap : P.fetch ≠ v.length ∨ v.gap ≠ 0)
    (hstill : P.refillOut = true ∨ 512 < P.fifo.length ∨ v.length ≤ P.fetch) : (e.startCycle n).closePool =
    (e.showPlayer n P.started).notifyAll (P.joins.map fun j => ⟨j.circ, j.tag, .listener n⟩) := by
  rw [Exchange.startCycle_eq hP]
  refine Exchange.closePool_rest (by exact hw) fun m => ?_
  by_cases hm : m = n
  · have hself : ((e.showPlayer n P.started).notifyAll (P.joins.map fun j => ⟨j.circ, j.tag, .listener n⟩)).player m
        = P.started := (Exchange.showPlayer_player n _ m).trans (if_pos hm)
    refine (congrArg (fun R => Player.atRest _ R) hself).trans ?_
    exact Player.atRest_of_bound (r := r) (v := v) (by exact hrec) (by exact hview) (.inr (.inr hwrap)) (by exact hstill)
  · have hother : ((e.showPlayer n P.started).notifyAll (P.joins.map fun j => ⟨j.circ, j.tag, .listener n⟩)).player m
        = e.player m := (Exchange.showPlayer_player n _ m).trans (if_neg hm)
    exact ((congrArg (fun R => Player.atRest _ R) hother).trans (Player.atRest_congr _ rfl)).trans (hrest m hm)

theorem Exchange.deliver_stale (hP : e.player n = P) (hgen : P.gen ≠ g) : e.deliver ⟨n, g, codes⟩ = e := by
  rw [Exchange.deliver]
  exact if_neg fun h => hgen (by rw [← hP]; exact h.2)

theorem Exchange.deliver_current (hP : e.player n = P) (hgen : P.gen = g) (hstate : P.state ≠ .idle)
    (hQ : Q = { P with fifo := P.fifo ++ codes, fetch := P.fetch + codes.length, refillOut := false }) :
    e.deliver ⟨n, g, codes⟩ = (if Q.state = .priming ∧ e.players.primed Q = true then (e.putPlayer n Q).startCycle n
      else e.putPlayer n Q).closePool := by
  have hput : e.setPlayer n Q = e.putPlayer n Q :=
    Exchange.setPlayer_of_same (by rw [hP, hQ]; simp [Player.sameShown])
  rw [Exchange.deliver, hP]
  dsimp only
  rw [if_pos ⟨hstate, hgen⟩]
  rw [hQ] at hput ⊢
  simp only [hput]
  rfl

theorem Exchange.playerGapEnd_of_over (hP : e.player n = P) (hstate : P.state = .gap) (hgap : P.gapLeft = 0) :
    e.playerGapEnd n = (if e.players.primed P then e.startCycle n
      else e.setPlayer n { P with state := .priming }).closePool := by
  rw [Exchange.playerGapEnd, hP]
  exact if_pos ⟨hstate, hgap⟩

end

theorem AnnListener.any_remains_iff (ls : List AnnListener) : ls.any AnnListener.remains = true ↔
    ∃ l ∈ ls, l.repeats = 0 ∨ 2 ≤ l.repeats.val ∨ l.atStart = false := by
  rw [List.any_eq_true]
  refine exists_congr fun l => and_congr_right fun _ => ?_
  rw [AnnListener.remains, Bool.or_eq_true, Bool.or_eq_true, beq_iff_eq, decide_eq_true_iff, Bool.not_eq_true', or_assoc]

/-- Settles O44. -/
theorem gapEndsAndRefillsArrive : Obligations.GapEndsAndRefillsArrive := by
  intro n s P r v play hrun hwait hP hrec hview hrest hplay
  have hrest' : ∀ m, m ≠ n → (s.exchange.player m).atRest s.exchange.players = true := fun m hm =>
    hrest m (by simpa using hm)
  have hput : ∀ Q : Player, ∀ m, m ≠ n →
      ((s.exchange.putPlayer n Q).player m).atRest (s.exchange.putPlayer n Q).players = true := fun Q m hm => by
    rw [Exchange.putPlayer_player, if_neg hm]
    exact (Player.atRest_congr _ rfl).trans (hrest' m hm)
  have hself : ∀ Q : Player, (s.exchange.putPlayer n Q).player n = Q := fun Q =>
    (Exchange.putPlayer_player n).trans (if_pos rfl)
  have hprimed : s.exchange.players.primed P = true ↔ P.pos = 0 ∧ P.fifo.length = min 1024 v.length :=
    PlayerPool.primed_iff hrec hview
  refine ⟨fun hstate hgap => ⟨fun hpos hfifo hnogap hstill => ?_, fun hshort hstill => ?_⟩,
    fun g codes rest Q t hdeliveries ht hQ => ⟨fun hgen => ?_, fun hgen hstate hroom hlen hleft => ?_,
      fun hgen hstate hpos hfull hstill hwrap => ?_, fun A wraps hgen hstate hwraps hyes hno => ?_⟩⟩
  · rw [exec_playerGapEnd hrun, Exchange.playerGapEnd_of_over (by exact hP) hstate hgap,
      if_pos (hprimed.2 ⟨hpos, hfifo⟩),
      Exchange.closePool_startCycle hwait hrest' (by exact hP) hrec hview (.inr hnogap) hstill, hplay]
    rfl
  · have hclosed : (s.exchange.showPlayer n { P with state := .priming }).closePool
        = s.exchange.showPlayer n { P with state := .priming } := by
      refine Exchange.closePool_rest (by exact hwait) fun m => ?_
      rw [Exchange.showPlayer_player]
      split
      · exact Player.atRest_of_bound (r := r) (v := v) (by exact hrec) (by exact hview) (.inl (by exact PlayerState.noConfusion))
          (hstill.imp_right Or.inl)
      · next hm => exact (Player.atRest_congr _ rfl).trans (hrest' m hm)
    rw [exec_playerGapEnd hrun, Exchange.playerGapEnd_of_over (by exact hP) hstate hgap,
      if_neg fun h => hshort.ne (hprimed.1 h).2, Exchange.setPlayer_of_state (by
        rw [show s.exchange.player n = P from hP, hstate]
        exact PlayerState.noConfusion), hclosed]
    rfl
  · rw [exec_refillDelivery hrun hdeliveries, Exchange.deliver_stale (by exact hP) hgen, ht]
    rfl
  · have hQrec : Q.recording = some r := by rw [hQ]; exact hrec
    have hQstate : Q.state = .priming := by rw [hQ]; exact hstate
    have hnot : ¬ (Q.state = .priming ∧ s.exchange.players.primed Q = true) := fun h => by
      have hfull := ((PlayerPool.primed_iff hQrec hview).1 h.2).2
      omega
    have hA : (s.exchange.putPlayer n Q).players.wrapCheck ((s.exchange.putPlayer n Q).player n) = Q := by
      rw [hself]
      exact PlayerPool.wrapCheck_of_not hQrec (by exact hview) (.inl (by rw [hQstate]; decide))
    rw [exec_refillDelivery hrun hdeliveries, Exchange.deliver_current (by exact hP) hgen (by rw [hstate]; decide) hQ,
      if_neg hnot, Exchange.closePool_only (by exact hwait) (hput Q),
      Exchange.closePlayer_requests hA hQrec (by exact hview) (by rw [hQstate]; decide) (by rw [hQ]) hroom hleft, ht,
      show Q.gen = g by rw [hQ]; exact hgen]
    simp only [Exchange.putPlayer, Vector.set_set]
    rfl
  · have hQrec : Q.recording = some r := by rw [hQ]; exact hrec
    have hQstate : Q.state = .priming := by rw [hQ]; exact hstate
    have hprimed : s.exchange.players.primed Q = true :=
      (PlayerPool.primed_iff hQrec hview).2 ⟨by rw [hQ]; exact hpos, hfull⟩
    rw [exec_refillDelivery hrun hdeliveries, Exchange.deliver_current (by exact hP) hgen (by rw [hstate]; decide) hQ,
      if_pos ⟨hQstate, hprimed⟩, Exchange.closePool_startCycle (by exact hwait) (hput Q) (hself Q) hQrec (by exact hview) hwrap
        (.inr hstill), Exchange.showPlayer_putPlayer, ht, hplay]
    rfl
  · have hQrec : Q.recording = some r := by rw [hQ]; exact hrec
    have hQstate : Q.state = P.state := by rw [hQ]
    have hcond : wraps ↔ Q.state = .playing ∧ Q.wrapped = false ∧ Q.fetch = v.length ∧ v.gap = 0
        ∧ (Q.joins ≠ [] ∨ Q.listeners.any AnnListener.remains = true) := by
      rw [hwraps, AnnListener.any_remains_iff, hQ]
    have hA : (s.exchange.putPlayer n Q).players.wrapCheck ((s.exchange.putPlayer n Q).player n) = A := by
      rw [hself, PlayerPool.wrapCheck, PlayerPool.lengthOf_of_view hQrec (by exact hview),
        PlayerPool.gapOf_of_view hQrec (by exact hview)]
      by_cases hw : wraps
      · rw [if_pos (hcond.1 hw), hyes hw]
      · rw [if_neg fun h => hw (hcond.2 h), hno hw]
    have hAQ : A.recording = Q.recording ∧ A.gen = Q.gen ∧ A.fifo = Q.fifo ∧ A.state = Q.state ∧ A.refillOut = Q.refillOut := by
      by_cases hw : wraps
      · rw [hyes hw]
        exact ⟨rfl, rfl, rfl, rfl, rfl⟩
      · rw [hno hw]
        exact ⟨rfl, rfl, rfl, rfl, rfl⟩
    obtain ⟨hArec, hAgen, hAfifo, hAstate, hAout⟩ := hAQ
    have hrunning : Q.state ≠ .idle ∧ Q.state ≠ .priming := by
      rw [hQstate]
      rcases hstate with h | h <;> rw [h] <;> decide
    have hdone : exec .refillDelivery s = .next (t.withExchange ((s.exchange.putPlayer n Q).closePlayer n)) := by
      rw [exec_refillDelivery hrun hdeliveries, Exchange.deliver_current (by exact hP) hgen
        (by rw [← hQstate]; exact hrunning.1) hQ, if_neg fun h => hrunning.2 h.1,
        Exchange.closePool_only (by exact hwait) (hput Q), ht]
    refine ⟨fun hroom hleft => ?_, fun hstill => ?_⟩
    · rw [hdone, Exchange.closePlayer_requests hA (hArec.trans hQrec) (by exact hview) (by rw [hAstate]; exact hrunning.1)
        (by rw [hAout, hQ]) (by rw [hAfifo]; exact hroom) hleft, hAgen, ht, show Q.gen = g by rw [hQ]; exact hgen]
      simp only [Exchange.putPlayer, Vector.set_set]
      rfl
    · rw [hdone, Exchange.closePlayer_stays hA (hArec.trans hQrec) (by exact hview) (.inr (by rw [hAfifo]; exact hstill)),
        Exchange.putPlayer_putPlayer, ht]
      rfl

end Sys2Proof.Machine
end

