-- ==== Sys2Proof/Proofs/RecordingView.lean ====
section
/-!
PROOF. The fan-out limit, the recording view and the wait list (chapters 6.6, 6.7). O45.
-/
namespace Sys2Proof.Machine

section
variable {e : Exchange} {n : PlayNo} {P Q : Player} {r : RecNo} {v : ViewRecord} {moved left : List AnnWaiter}

/-! ### Serving the wait list -/

/-- A fold of whose members the first that acts does all there is to do. -/
theorem foldl_lowest {β : Type} {f : β → PlayNo → β} {b : β} {l : List PlayNo} (hsorted : l.Pairwise (· < ·)) (hn : n ∈ l)
    (hbefore : ∀ a, a < n → f b a = b) (hafter : ∀ a, a ≠ n → f (f b n) a = f b n) : l.foldl f b = f b n := by
  induction l with
  | nil => cases hn
  | cons a l ih =>
    rw [List.pairwise_cons] at hsorted
    rw [List.foldl_cons]
    by_cases ha : a = n
    · subst ha
      have hidle : ∀ l : List PlayNo, a ∉ l → l.foldl f (f b a) = f b a := fun l hl => by
        induction l with
        | nil => rfl
        | cons c l ih =>
          rw [List.foldl_cons, hafter c fun h => hl (h ▸ List.mem_cons_self), ih fun h => hl (List.mem_cons_of_mem c h)]
      exact hidle l fun h => lt_irrefl a (hsorted.1 a h)
    · have hmem := (List.mem_cons.1 hn).resolve_left fun h => ha h.symm
      rw [hbefore a (hsorted.1 n hmem)]
      exact ih hsorted.2 hmem

theorem allPlayers_sorted : allPlayers.Pairwise (· < ·) := by decide

def AnnWaiter.join (x : AnnWaiter) : JoinEntry := ⟨x.circ, x.tag, x.repeats⟩

/-- Waiters that move: the wait list is what is left of it, the join list longer, each told (R114, R115). -/
theorem Exchange.moveWaiters_some {k : Nat}
    (htake : takeMatching (fun w : AnnWaiter => w.recording == r) k e.players.waitList = (moved, left)) (hmoved : moved ≠ [])
    (hP : e.player n = P) : e.moveWaiters n r k = ((e.setWaitList left).showPlayer n { P with
      joins := P.joins ++ moved.map AnnWaiter.join }).notifyAll (moved.map fun x => ⟨x.circ, x.tag, .moved n⟩) := by
  have hshow : (e.setWaitList left).setPlayer n { P with joins := P.joins ++ moved.map AnnWaiter.join }
      = (e.setWaitList left).showPlayer n { P with joins := P.joins ++ moved.map AnnWaiter.join } := by
    refine if_neg fun h => hmoved (List.eq_nil_of_length_eq_zero ?_)
    have hsame : P.sameShown { P with joins := P.joins ++ moved.map AnnWaiter.join } = true := by rw [← hP]; exact hP ▸ h
    simp only [Player.sameShown, Bool.and_eq_true, beq_iff_eq, List.length_append, List.length_map] at hsame
    omega
  rw [Exchange.moveWaiters, htake, hP]
  dsimp only
  rw [Exchange.foldl_playNotify]
  exact congrArg (Exchange.notifyAll _) hshow

theorem Exchange.bindPlayer_eq (hP : e.player n = P) : e.bindPlayer n r = e.showPlayer n { P with
    state := .priming, recording := some r, pos := 0, fetch := 0, fifo := [], gapLeft := 0, wrapped := false
    underrun := false } := by
  rw [Exchange.bindPlayer, hP]
  exact Exchange.mark_setPlayer e n _

/-- A player at rest stays so when the view of another recording changes. -/
theorem Player.atRest_setView {q : PlayerPool} {w : Vector (Option ViewRecord) 32} (x : Option ViewRecord)
    (hrec : P.recording ≠ some r) (hw : w = q.view.set r x) (h : P.atRest q = true) :
    P.atRest { q with view := w } = true := by
  rw [hw]
  have hview : ({ q with view := q.view.set r x } : PlayerPool).viewOf P = q.viewOf P := by
    rw [PlayerPool.viewOf, PlayerPool.viewOf]
    cases hr : P.recording with
    | none => rfl
    | some r' =>
      have hne : r' ≠ r := fun h => hrec (by rw [hr, h])
      exact (vector_getElem_set_fin q.view r r' x).trans (if_neg hne)
  have hlength : ({ q with view := q.view.set r x } : PlayerPool).lengthOf P = q.lengthOf P :=
    congrArg (fun o : Option ViewRecord => (o.map ViewRecord.length).getD 0) hview
  have hgap : ({ q with view := q.view.set r x } : PlayerPool).gapOf P = q.gapOf P :=
    congrArg (fun o : Option ViewRecord => (o.map ViewRecord.gap).getD 0) hview
  rw [Player.atRest, hlength, hgap]
  exact h

/-- The lowest-numbered IDLE player binds the recording of the waiters that can be served, takes them and requests its first
refill (R115, R106). -/
theorem Exchange.closePool_binds {g : Tag} {handed : Option Byte} (hscan : e.players.scanning = false)
    (hrooms : ∀ (j : PlayNo), ∀ x ∈ e.players.waitList, (e.player j).recording ≠ some x.recording)
    (hbefore : ∀ j, j < n → (e.player j).state ≠ .idle) (hP : e.player n = { Player.idleWith g with handed := handed })
    (hview : e.players.view[r] = some v) (hlength : 0 < v.length)
    (hfirst : ∀ x ∈ e.players.waitList, e.players.available x.recording = true → x.recording = r)
    (hsome : ∃ x ∈ e.players.waitList, x.recording = r)
    (htake : takeMatching (fun w : AnnWaiter => w.recording == r) e.players.fanout e.players.waitList = (moved, left))
    (hmoved : moved ≠ []) (hsub : ∀ x ∈ left, x ∈ e.players.waitList)
    (hafter : (∀ j, j ≠ n → (e.player j).state ≠ .idle) ∨ ∀ x ∈ left, x.recording ≠ r)
    (hrest : ∀ j, j ≠ n → (e.player j).atRest e.players = true) : e.closePool = { e with
      wire := { e.wire with dirty := e.wire.dirty.put (.player n) true }
      players := { e.players with
        waitList := left
        players := e.players.players.set n { Player.idleWith g with
          handed := handed, state := .priming, recording := some r, refillOut := true, joins := moved.map AnnWaiter.join }
        notices := e.players.notices ++ moved.map fun x => ⟨x.circ, x.tag, .moved n⟩
        refillReqs := e.players.refillReqs ++ [⟨n, r, 0, min 512 v.length, g⟩] } } := by
  obtain ⟨S, hS⟩ : ∃ S : Player, S = { Player.idleWith g with
    handed := handed, state := .priming, recording := some r, joins := moved.map AnnWaiter.join } := ⟨_, rfl⟩
  obtain ⟨B, hB⟩ : ∃ B : Exchange, B = ((e.setWaitList left).showPlayer n S).notifyAll
    (moved.map fun x => ⟨x.circ, x.tag, .moved n⟩) := ⟨_, rfl⟩
  have hBplayer : ∀ j, B.player j = if j = n then S else e.player j := fun j => by
    rw [hB]
    exact Exchange.showPlayer_player (e := e.setWaitList left) n S j
  have hBself : B.player n = S := (hBplayer n).trans (if_pos rfl)
  have hBview : B.players.view = e.players.view := by rw [hB]; rfl
  have hserve : e.serveIdle n = B := by
    obtain ⟨x, hx, hxr⟩ := hsome
    have havailable : e.players.available r = true := by
      rw [PlayerPool.available, hscan, hview]
      rfl
    cases hfind : e.players.waitList.find? fun w => e.players.available w.recording with
    | none => exact absurd (by rw [hxr]; exact havailable) (List.find?_eq_none.1 hfind x hx)
    | some w =>
      have hw : w.recording = r := hfirst w (List.mem_of_find?_eq_some hfind)
        (List.find?_some (p := fun w : AnnWaiter => e.players.available w.recording) hfind)
      rw [Exchange.serveIdle, if_pos (by rw [hP]; rfl), hfind]
      dsimp only
      rw [hw, Exchange.bindPlayer_eq hP,
        Exchange.moveWaiters_some (by exact htake) hmoved ((Exchange.showPlayer_player n _ n).trans (if_pos rfl)), hB, hS]
      simp only [Exchange.setWaitList, Exchange.showPlayer, Vector.set_set, DirtyMarks.put_put]
      rfl
  have hidles : e.serveIdles = B := by
    rw [Exchange.serveIdles, if_neg (by rw [hscan]; exact Bool.false_ne_true),
      foldl_lowest allPlayers_sorted (mem_allPlayers n) (fun j hj => Exchange.serveIdle_idle (.inl (hbefore j hj))) ?_, hserve]
    intro j hj
    rw [hserve]
    refine Exchange.serveIdle_idle (hafter.imp (fun h => by rw [hBplayer, if_neg hj]; exact h j hj) fun h x hx => ?_)
    have hmem : x ∈ left := by rw [hB] at hx; exact hx
    refine Bool.eq_false_iff.2 fun hav => h x hmem (hfirst x (hsub x hmem) ?_)
    rw [hB] at hav
    exact hav
  have hA : B.players.wrapCheck (B.player n) = S := by
    rw [hBself]
    refine PlayerPool.wrapCheck_of_not (r := r) (v := v) (by rw [hS]) (by rw [hBview]; exact hview) (.inl ?_)
    rw [hS]
    exact PlayerState.noConfusion
  rw [Exchange.closePool, Exchange.serveRooms_idle (.inr fun j r' hr => .inr fun w hw h => hrooms j w hw (by rw [hr, h])), hidles,
    Exchange.closePlayers_only (n := n) fun j hj => by
      rw [hBplayer, if_neg hj, Player.atRest_congr _ hBview]
      exact hrest j hj,
    Exchange.closePlayer_requests (r := r) (v := v) hA (by rw [hS]) (by rw [hBview]; exact hview)
      (by rw [hS]; exact PlayerState.noConfusion) (by rw [hS]; rfl) (by rw [hS]; exact Nat.zero_le _)
      (by rw [hS]; exact hlength), hB, hS]
  simp only [Exchange.notifyAll, Exchange.setWaitList, Exchange.showPlayer, Vector.set_set]
  rfl

/-- A player with room takes the waiters for its recording (R114). -/
theorem Exchange.closePool_fills (hscan : e.players.scanning = false) (hP : e.player n = P) (hrec : P.recording = some r)
    (htake : takeMatching (fun w : AnnWaiter => w.recording == r) (e.players.fanout - P.fanCount) e.players.waitList
      = (moved, left)) (hmoved : moved ≠ []) (hsub : ∀ x ∈ left, x ∈ e.players.waitList)
    (hbusy : ∀ j, (e.player j).state ≠ .idle)
    (hothers : ∀ j, j ≠ n → ∀ x ∈ e.players.waitList, (e.player j).recording ≠ some x.recording)
    (hrest : ∀ j, (e.player j).atRest e.players = true) : e.closePool = ((e.setWaitList left).showPlayer n { P with
      joins := P.joins ++ moved.map AnnWaiter.join }).notifyAll (moved.map fun x => ⟨x.circ, x.tag, .moved n⟩) := by
  obtain ⟨S, hS⟩ : ∃ S : Player, S = { P with joins := P.joins ++ moved.map AnnWaiter.join } := ⟨_, rfl⟩
  obtain ⟨B, hB⟩ : ∃ B : Exchange, B = ((e.setWaitList left).showPlayer n S).notifyAll
    (moved.map fun x => ⟨x.circ, x.tag, .moved n⟩) := ⟨_, rfl⟩
  have hBplayer : ∀ j, B.player j = if j = n then S else e.player j := fun j => by
    rw [hB]
    exact Exchange.showPlayer_player (e := e.setWaitList left) n S j
  have hserve : e.serveRoom n = B := by
    rw [Exchange.serveRoom, hP, hrec]
    dsimp only
    rw [Exchange.moveWaiters_some htake hmoved hP, hB, hS]
  have hidle : ∀ (f : Exchange), (∀ x ∈ f.players.waitList, x ∈ e.players.waitList) → ∀ j, j ≠ n → f.player j = e.player j →
      f.serveRoom j = f := fun f hf j hj hplayer => by
    rw [Exchange.serveRoom]
    cases hr : (f.player j).recording with
    | none => rfl
    | some r' =>
      refine Exchange.moveWaiters_none r' _ (.inr fun w hw h => hothers j hj w (hf w hw) ?_)
      rw [← hplayer, hr, h]
  have hrooms : e.serveRooms = B := by
    rw [Exchange.serveRooms, if_neg (by rw [hscan]; exact Bool.false_ne_true),
      foldl_only (mem_allPlayers n) allPlayers_nodup (fun j hj => hidle e (fun _ h => h) j hj rfl) ?_, hserve]
    intro j hj
    rw [hserve]
    exact hidle B (fun x hx => hsub x (by rw [hB] at hx; exact hx)) j hj ((hBplayer j).trans (if_neg hj))
  have hstates : ∀ j, (B.player j).state ≠ .idle := fun j => by
    rw [hBplayer]
    split
    · rw [hS]
      exact hP ▸ hbusy n
    · exact hbusy j
  rw [Exchange.closePool, hrooms, Exchange.serveIdles_idle (.inr (.inl hstates)), Exchange.closePlayers_rest fun j => ?_, hB, hS]
  rw [hBplayer]
  split
  · have hsame : S.atRest B.players = P.atRest e.players := by
      rw [hS, hB]
      rfl
    rw [hsame, ← hP]
    exact hrest n
  · rw [Player.atRest_congr _ (show B.players.view = e.players.view by rw [hB]; rfl)]
    exact hrest j

theorem Player.atRest_of_unbound {q : PlayerPool} (hrec : P.recording = none) (hstate : P.state = .idle) :
    P.atRest q = true := by
  rw [Player.atRest, hrec, hstate]
  rfl

/-- While the recording view scans, nobody is served (R114, R115). -/
theorem Exchange.closePool_scanning (hscan : e.players.scanning = true) (hrest : ∀ j, (e.player j).atRest e.players = true) :
    e.closePool = e := by
  rw [Exchange.closePool, Exchange.serveRooms_idle (.inl hscan), Exchange.serveIdles_idle (.inl hscan),
    Exchange.closePlayers_rest hrest]

/-! ### The notices of the store controller -/

theorem Exchange.dropWaiters_eq (keep : AnnWaiter → Bool) : e.dropWaiters keep =
    (e.setWaitList (e.players.waitList.filter keep)).notifyAll
      ((e.players.waitList.filter fun w => !keep w).map fun x => ⟨x.circ, x.tag, .unavailable⟩) := by
  rw [Exchange.dropWaiters]
  exact Exchange.foldl_playNotify _ _ _ _ _

/-- The waiters older than `newer` that are for the recording move, when there is room for them. -/
theorem takeMatching_waiters {l older newer : List AnnWaiter} {k : Nat} (hl : l = older ++ newer)
    (hmoved : moved = older.filter fun x => x.recording == r) (hleft : left = older.filter (fun x => x.recording != r) ++ newer)
    (hroom : moved.length = k ∨ moved.length ≤ k ∧ ∀ x ∈ newer, x.recording ≠ r) :
    takeMatching (fun w : AnnWaiter => w.recording == r) k l = (moved, left) ∧ (∀ x ∈ left, x ∈ l)
      ∧ (∀ x ∈ moved, x ∈ l ∧ x.recording = r) ∧ ∀ x ∈ l, x.recording ≠ r → x ∈ left := by
  refine ⟨?_, fun x hx => ?_, fun x hx => ?_, fun x hx hne => ?_⟩
  · rw [hl, takeMatching_append, hmoved, hleft]
    · rfl
    · rw [← hmoved]
      exact hroom.imp_right fun h => ⟨h.1, fun x hx => beq_eq_false_iff_ne.2 (h.2 x hx)⟩
  · rw [hleft, List.mem_append] at hx
    rw [hl, List.mem_append]
    exact hx.imp_left List.mem_of_mem_filter
  · rw [hmoved, List.mem_filter, beq_iff_eq] at hx
    exact ⟨by rw [hl]; exact List.mem_append_left _ hx.1, hx.2⟩
  · rw [hl, List.mem_append] at hx
    rw [hleft, List.mem_append]
    exact hx.imp_left fun h => List.mem_filter.2 ⟨h, bne_iff_ne.2 hne⟩

/-- A recording made available is bound by the lowest-numbered IDLE player for the waiters it has (R118, R115). -/
theorem Exchange.makeAvailable_binds {older newer : List AnnWaiter} {g : Tag} {handed : Option Byte}
    (hscan : e.players.scanning = false) (hwait : e.players.waitList = older ++ newer)
    (hmoved : moved = older.filter fun x => x.recording == r) (hsome : moved ≠ [])
    (hleft : left = older.filter (fun x => x.recording != r) ++ newer) (hrest : ∀ j, (e.player j).atRest e.players = true)
    (hlength : 0 < v.length) (hP : e.player n = { Player.idleWith g with handed := handed })
    (hbefore : ∀ j, j < n → (e.player j).state ≠ .idle)
    (hroom : moved.length = e.players.fanout ∧ (∀ j, j ≠ n → (e.player j).state ≠ .idle)
      ∨ moved.length ≤ e.players.fanout ∧ ∀ x ∈ newer, x.recording ≠ r)
    (hnone : ∀ x ∈ left, x.recording ≠ r → e.players.view[x.recording] = none)
    (hrooms : ∀ j, ∀ x ∈ e.players.waitList, (e.player j).recording ≠ some x.recording) :
    e.makeAvailable r v = { e with
      wire := { e.wire with dirty := e.wire.dirty.put (.player n) true }
      players := { e.players with
        view := e.players.view.set r (some v), waitList := left
        players := e.players.players.set n { Player.idleWith g with
          handed := handed, state := .priming, recording := some r, refillOut := true, joins := moved.map AnnWaiter.join }
        notices := e.players.notices ++ moved.map fun x => ⟨x.circ, x.tag, .moved n⟩
        refillReqs := e.players.refillReqs ++ [⟨n, r, 0, min 512 v.length, g⟩] } } := by
  obtain ⟨htake, hsub, hof, hothers⟩ := takeMatching_waiters hwait hmoved hleft (hroom.imp_left fun h => h.1)
  obtain ⟨x₀, hx₀⟩ := List.exists_mem_of_ne_nil _ hsome
  obtain ⟨hmem, hx₀r⟩ := hof x₀ hx₀
  have havailable : ∀ x ∈ e.players.waitList, PlayerPool.available { e.players with
      view := e.players.view.set r (some v) } x.recording = true → x.recording = r := fun x hx hav => by
    by_contra hne
    have hview : (e.players.view.set r (some v))[x.recording] = none :=
      ((vector_getElem_set_fin _ _ _ _).trans (if_neg hne)).trans (hnone x (hothers x hx hne) hne)
    rw [PlayerPool.available] at hav
    dsimp only at hav
    rw [hview] at hav
    exact Bool.false_ne_true ((Bool.and_false _).symm.trans hav)
  refine (Exchange.closePool_binds (n := n) (r := r) (v := v) (moved := moved) (left := left) (g := g) (handed := handed)
    (e := { e with players := { e.players with view := e.players.view.set r (some v) } }) hscan hrooms hbefore hP
    ((vector_getElem_set_fin _ _ _ _).trans (if_pos rfl)) hlength havailable ⟨x₀, hmem, hx₀r⟩ htake hsome hsub ?_ fun j _ => ?_).trans rfl
  · refine hroom.imp (fun h => h.2) fun h x hx => ?_
    rw [hleft, List.mem_append] at hx
    exact hx.elim (fun h => bne_iff_ne.1 (List.mem_filter.1 h).2) (h.2 x)
  · refine Player.atRest_setView (some v) ?_ rfl (hrest j)
    rw [← hx₀r]
    exact hrooms j x₀ hmem

/-- The end of the scan gives the whole view; waiters for what it does not hold are told (R118). -/
theorem Exchange.scanDone_eq {view : Vector (Option ViewRecord) 32} {kept gone : List AnnWaiter}
    (hkept : e.players.waitList.filter (fun x => (view[x.recording]).isSome) = kept)
    (hgone : e.players.waitList.filter (fun x => !(view[x.recording]).isSome) = gone) : e.scanDone view =
    Exchange.closePool (Exchange.notifyAll (gone.map fun x => ⟨x.circ, x.tag, .unavailable⟩) { e with players := { e.players with
      view := view, scanning := false, waitList := kept } }) := by
  rw [Exchange.scanDone]
  dsimp only
  rw [Exchange.dropWaiters_eq]
  dsimp only
  rw [hkept, hgone]
  rfl

/-- At the end of the scan player 0 binds the one recording waited for that the view holds (R118, R115). -/
theorem Exchange.scanDone_binds {view : Vector (Option ViewRecord) 32} {gone : List AnnWaiter} {g : Tag} {handed : Option Byte}
    (hidle : ∀ m, (e.player m).recording = none ∧ (e.player m).state = .idle)
    (hP : e.player 0 = { Player.idleWith g with handed := handed }) (hview : view[r] = some v) (hlength : 0 < v.length)
    (hmoved : moved = e.players.waitList.filter fun x => x.recording == r)
    (hgone : gone = e.players.waitList.filter fun x => x.recording != r) (hnone : ∀ x ∈ gone, view[x.recording] = none)
    (hsome : moved ≠ []) (hroom : moved.length ≤ e.players.fanout) : e.scanDone view = { e with
      wire := { e.wire with dirty := e.wire.dirty.put (.player 0) true }
      players := { e.players with
        view := view, scanning := false, waitList := []
        players := e.players.players.set 0 { Player.idleWith g with
          handed := handed, state := .priming, recording := some r, refillOut := true, joins := moved.map AnnWaiter.join }
        notices := e.players.notices ++ gone.map (fun x => ⟨x.circ, x.tag, .unavailable⟩)
          ++ moved.map fun x => ⟨x.circ, x.tag, .moved 0⟩
        refillReqs := e.players.refillReqs ++ [⟨0, r, 0, min 512 v.length, g⟩] } } := by
  have hkeep : ∀ x ∈ e.players.waitList, (view[x.recording]).isSome = (x.recording == r) := fun x hx => by
    by_cases hxr : x.recording = r
    · subst hxr
      rw [hview, beq_self_eq_true]
      rfl
    · rw [hnone x (by rw [hgone]; exact List.mem_filter.2 ⟨hx, bne_iff_ne.2 hxr⟩), beq_eq_false_iff_ne.2 hxr]
      rfl
  have hof : ∀ x ∈ moved, x.recording = r := fun x hx => by
    rw [hmoved] at hx
    exact beq_iff_eq.1 (List.mem_filter.1 hx).2
  obtain ⟨x₀, hx₀⟩ := List.exists_mem_of_ne_nil _ hsome
  obtain ⟨f, hf⟩ : ∃ f : Exchange, f = Exchange.notifyAll (gone.map fun x => ⟨x.circ, x.tag, .unavailable⟩)
    { e with players := { e.players with view := view, scanning := false, waitList := moved } } := ⟨_, rfl⟩
  have hplayer : ∀ j, f.player j = e.player j := fun j => by rw [hf]; rfl
  have hlist : f.players.waitList = moved := by rw [hf]; rfl
  have hclosed := Exchange.closePool_binds (e := f) (n := 0) (r := r) (v := v) (moved := moved) (left := []) (g := g)
    (handed := handed) (by rw [hf]; rfl) (fun j x _ hrec => by
      rw [hplayer, (hidle j).1] at hrec
      cases hrec) (fun j hj => absurd hj (Nat.not_lt_zero j.val)) ((hplayer 0).trans hP) (by rw [hf]; exact hview) hlength
    (fun x hx _ => hof x (by rw [← hlist]; exact hx)) ⟨x₀, by rw [hlist]; exact hx₀, hof x₀ hx₀⟩ (by
      rw [hlist]
      exact takeMatching_all (fun x hx => beq_iff_eq.2 (hof x hx)) (by rw [hf]; exact hroom)) hsome (fun x hx => by cases hx)
    (.inr fun x hx => by cases hx) fun j _ => by
      rw [hplayer]
      exact Player.atRest_of_unbound (hidle j).1 (hidle j).2
  rw [Exchange.scanDone_eq (kept := moved) (gone := gone) (by rw [hmoved]; exact List.filter_congr hkeep)
    (by rw [hgone]; exact List.filter_congr fun x hx => congrArg (fun b => !b) (hkeep x hx)), ← hf, hclosed, hf]
  rfl

/-- At the end of the scan with nothing waited for in the view, every waiter is told (R118). -/
theorem Exchange.scanDone_unserved {view : Vector (Option ViewRecord) 32}
    (hidle : ∀ m, (e.player m).recording = none ∧ (e.player m).state = .idle)
    (hnone : ∀ x ∈ e.players.waitList, view[x.recording] = none) : e.scanDone view =
    Exchange.notifyAll (e.players.waitList.map fun x => ⟨x.circ, x.tag, .unavailable⟩) { e with players := { e.players with
      view := view, scanning := false, waitList := [] } } := by
  rw [Exchange.scanDone_eq (kept := []) (gone := e.players.waitList)
    (List.filter_eq_nil_iff.2 fun x hx => by rw [hnone x hx]; exact Bool.false_ne_true)
    (List.filter_eq_self.2 fun x hx => by rw [hnone x hx]; rfl)]
  exact Exchange.closePool_rest rfl fun j => Player.atRest_of_unbound (hidle j).1 (hidle j).2

theorem Exchange.unbind_of_ne (h : (e.player n).recording ≠ some r) : e.unbind r n = e := by
  rw [Exchange.unbind]
  exact if_neg h

/-- The player bound to a withdrawn recording: its listeners and joins are told, and it becomes IDLE (R117). -/
theorem Exchange.unbind_eq (hP : e.player n = P) (hrec : P.recording = some r) : e.unbind r n =
    ((e.notifyAll (P.listeners.map fun l => ⟨l.circ, l.tag, .unavailable⟩)).notifyAll
      (P.joins.map fun j => ⟨j.circ, j.tag, .unavailable⟩)).showPlayer n P.toIdle := by
  rw [Exchange.unbind, hP]
  dsimp only
  rw [if_pos hrec, Exchange.foldl_playNotify, Exchange.foldl_playNotify, Exchange.mark_setPlayer]

/-- The withdrawal of the recording a player is bound to, every waiter being for it (R117). -/
theorem Exchange.withdrawRecording_bound (hP : e.player n = P) (hrec : P.recording = some r)
    (hrest : ∀ m, m ≠ n → (e.player m).atRest e.players = true) (hothers : ∀ m, m ≠ n → (e.player m).recording ≠ some r)
    (hwait : ∀ x ∈ e.players.waitList, x.recording = r) : e.withdrawRecording r =
    (Exchange.showPlayer n P.toIdle { e with players := { e.players with
      view := e.players.view.set r none, waitList := []
      notices := e.players.notices ++ P.listeners.map (fun l => ⟨l.circ, l.tag, .unavailable⟩)
        ++ P.joins.map (fun j => ⟨j.circ, j.tag, .unavailable⟩)
        ++ e.players.waitList.map (fun x => ⟨x.circ, x.tag, .unavailable⟩)
      withdrawnAnswers := e.players.withdrawnAnswers ++ [r] } }) := by
  obtain ⟨f, hf⟩ : ∃ f : Exchange, f = { e with players := { e.players with view := e.players.view.set r none } } := ⟨_, rfl⟩
  have hunbound : ∀ m, m ≠ n → (f.player m).recording ≠ some r := fun m hm => by
    rw [hf]
    exact hothers m hm
  have hunbind : f.unbind r n = _ := Exchange.unbind_eq (P := P) (by rw [hf]; exact hP) hrec
  have hfold : allPlayers.foldl (Exchange.unbind r) f = f.unbind r n :=
    foldl_only (mem_allPlayers n) allPlayers_nodup (fun m hm => Exchange.unbind_of_ne (hunbound m hm)) fun m hm =>
      Exchange.unbind_of_ne (by
        rw [hunbind, Exchange.showPlayer_player, if_neg hm]
        exact hunbound m hm)
  have hall : e.players.waitList.filter (fun x => !(x.recording != r)) = e.players.waitList :=
    List.filter_eq_self.2 fun x hx => by simp [hwait x hx]
  have hempty : e.players.waitList.filter (fun x => x.recording != r) = [] :=
    List.filter_eq_nil_iff.2 fun x hx => by simp [hwait x hx]
  have hlist : (f.unbind r n).players.waitList = e.players.waitList := by
    rw [hunbind, hf]
    rfl
  have hdropped := Exchange.dropWaiters_eq (e := f.unbind r n) fun w => w.recording != r
  rw [hlist, hall, hempty, hunbind, hf] at hdropped
  rw [Exchange.withdrawRecording]
  dsimp only
  rw [← hf, hfold, hunbind, hf, hdropped]
  refine (Exchange.closePool_rest rfl fun j => ?_).trans rfl
  refine (congrArg (fun Q => Player.atRest _ Q) (vector_getElem_set_fin e.players.players n j P.toIdle)).trans ?_
  split
  · rfl
  · next hj => exact Player.atRest_setView none (hothers j hj) rfl (hrest j hj)

end

section
variable {s : State}

theorem exec_fanoutLimitChange {m : FanoutChange} {rest : List FanoutChange} (hrun : s.running = true)
    (h : s.bus.fanoutChanges = m :: rest) : exec .fanoutLimitChange s = .next
      (State.withExchange { s with bus := { s.bus with fanoutChanges := rest } } (s.exchange.setFanout m.limit)) := by
  refine (event_of_running hrun).trans ?_
  rw [State.takeFanout, h]
  rfl

theorem exec_madeAvailableNotice {r : RecNo} {v : ViewRecord} {rest : List PoolNotice} (hrun : s.running = true)
    (h : s.store.poolNotices = .madeAvailable r v :: rest) : exec .madeAvailableNotice s = .next
      (State.withExchange { s with store := { s.store with poolNotices := rest } } (s.exchange.makeAvailable r v)) := by
  refine (event_of_running hrun).trans ?_
  rw [State.takeMadeAvailable, State.dropPoolNotice, h]
  rfl

theorem exec_recordingWithdrawal {r : RecNo} {rest : List PoolNotice} (hrun : s.running = true)
    (h : s.store.poolNotices = .withdrawal r :: rest) : exec .recordingWithdrawal s = .next
      (State.withExchange { s with store := { s.store with poolNotices := rest } } (s.exchange.withdrawRecording r)) := by
  refine (event_of_running hrun).trans ?_
  rw [State.takeWithdrawal, State.dropPoolNotice, h]
  rfl

/-- The fan-out changes in flight are taken without more when the pool closes on nothing (log 42). -/
theorem State.drainFanout_eq (h : s.bus.fanoutChanges = [] ∨ ∀ k : Nat, Exchange.closePool { s.exchange with
      players := { s.players with fanout := k } } = { s.exchange with players := { s.players with fanout := k } }) :
    s.drainFanout = { s with
      bus := { s.bus with fanoutChanges := [] }
      players := { s.players with
        fanout := ((s.bus.fanoutChanges.getLast?).map FanoutChange.limit).getD s.players.fanout } } := by
  rcases h with h | h
  · rw [State.drainFanout, h]
    rfl
  have hfold : ∀ (l : List FanoutChange) (k : Nat), l.foldl (fun s c => s.onExchange (Exchange.setFanout c.limit))
      { s with bus := { s.bus with fanoutChanges := [] }, players := { s.players with fanout := k } }
      = { s with
        bus := { s.bus with fanoutChanges := [] }
        players := { s.players with fanout := ((l.getLast?).map FanoutChange.limit).getD k } } := by
    intro l
    induction l with
    | nil => exact fun _ => rfl
    | cons c l ih =>
      intro k
      have hstep : State.onExchange { s with bus := { s.bus with fanoutChanges := [] }, players := { s.players with fanout := k } }
          (Exchange.setFanout c.limit) = { s with
            bus := { s.bus with fanoutChanges := [] }, players := { s.players with fanout := c.limit } } := by
        exact congrArg (State.withExchange { s with bus := { s.bus with fanoutChanges := [] } }) (h c.limit)
      rw [List.foldl_cons, hstep, ih]
      cases l with
      | nil => rfl
      | cons d l =>
        rw [List.getLast?_cons_cons, List.getLast?_eq_some_getLast (List.cons_ne_nil d l)]
        rfl
  exact hfold s.bus.fanoutChanges s.players.fanout

theorem exec_scanDoneNotice {view : Vector (Option ViewRecord) 32} {rest : List PoolNotice} {limit : Nat} (hrun : s.running = true)
    (h : s.store.poolNotices = .scanDone view :: rest) (hdrain : s.drainFanout = { s with
      bus := { s.bus with fanoutChanges := [] }, players := { s.players with fanout := limit } }) :
    exec .scanDoneNotice s = .next (State.withExchange { s with
        bus := { s.bus with fanoutChanges := [] }, store := { s.store with poolNotices := rest } }
      (Exchange.scanDone view { s.exchange with players := { s.players with fanout := limit } })) := by
  refine (event_of_running hrun).trans ?_
  rw [State.takeScanDone, h]
  dsimp only [List.head?_cons]
  rw [hdrain, State.dropPoolNotice]
  dsimp only
  rw [h]
  rfl

end

/-- Settles O45. -/
theorem recordingViewAndFanout : Obligations.RecordingViewAndFanout := by
  intro s hrun
  refine ⟨fun m rest hchanges hwait hrest => ?_, fun r v rest hnotices hwait hrest hfree => ?_,
    fun r n older newer moved left hscan hwait hmoved hsome hleft hrest =>
      ⟨fun m rest P hchanges hP hrec hroom hbusy => ?_, fun v rest g handed hnotices hlength hP hbefore hroom hnone hrooms => ?_⟩,
    fun view rest r v g handed moved gone limit hnotices hscan hidle hP hview hlength hmoved hgone hnone hlimit hsome hroom => ?_,
    fun view rest hnotices hidle hnone hscan => ?_,
    fun r n P rest hnotices hP hrec hrest hothers hwait => ?_⟩
  · have hclosed : s.exchange.setFanout m.limit = { s.exchange with players := { s.players with fanout := m.limit } } :=
      Exchange.closePool_rest (by exact hwait) fun j => (Player.atRest_congr _ rfl).trans (hrest j List.not_mem_nil)
    rw [exec_fanoutLimitChange hrun hchanges, hclosed]
    rfl
  · have hclosed : s.exchange.makeAvailable r v
        = { s.exchange with players := { s.players with view := s.players.view.set r (some v) } } :=
      Exchange.closePool_rest (by exact hwait) fun j => Player.atRest_setView (some v) (hfree j) rfl (hrest j List.not_mem_nil)
    rw [exec_madeAvailableNotice hrun hnotices, hclosed]
    rfl
  · obtain ⟨htake, hsub, _, _⟩ := takeMatching_waiters (k := m.limit - P.fanCount) hwait hmoved hleft
      (hroom.imp (fun h => by omega) fun h => ⟨by omega, h.2⟩)
    have hclosed : s.exchange.setFanout m.limit = _ := Exchange.closePool_fills (n := n) (P := P) (r := r)
      (e := { s.exchange with players := { s.players with fanout := m.limit } }) (by exact hscan) (by exact hP) hrec
      (by exact htake) hsome hsub (fun j => (hbusy j).1) (fun j hj => (hbusy j).2 hj)
      fun j => (Player.atRest_congr _ rfl).trans (hrest j List.not_mem_nil)
    rw [exec_fanoutLimitChange hrun hchanges, hclosed]
    rfl
  · rw [exec_madeAvailableNotice hrun hnotices, Exchange.makeAvailable_binds (by exact hscan) (by exact hwait) hmoved hsome hleft
      (fun j => hrest j List.not_mem_nil) hlength (by exact hP) (by exact hbefore) (by exact hroom) (by exact hnone)
      (by exact hrooms)]
    rfl
  · have hdrain := State.drainFanout_eq (s := s) (.inr fun k => Exchange.closePool_scanning (by exact hscan) fun j =>
      Player.atRest_of_unbound (hidle j).1 (hidle j).2)
    rw [exec_scanDoneNotice hrun hnotices hdrain, ← hlimit, Exchange.scanDone_binds (by exact hidle) (by exact hP) hview hlength
      (by exact hmoved) (by exact hgone) hnone hsome (by exact hroom)]
    rfl
  · have hdrain := State.drainFanout_eq (s := s) (hscan.symm.imp_right fun hscan k => Exchange.closePool_scanning (by exact hscan)
      fun j => Player.atRest_of_unbound (hidle j).1 (hidle j).2)
    rw [exec_scanDoneNotice hrun hnotices hdrain, Exchange.scanDone_unserved (by exact hidle) (by exact hnone)]
    rfl
  · rw [exec_recordingWithdrawal hrun hnotices, Exchange.withdrawRecording_bound (by exact hP) hrec
      (fun m hm => hrest m (by simpa using hm)) (by exact hothers) (by exact hwait)]
    rfl

end Sys2Proof.Machine
end

