-- ==== Sys2Proof/Proofs/RecordedSettings.lean ====
section
/-!
PROOF. The configuration record applied at the end of the scan (R181): each unmarked field takes the recorded value, and a field
that changes is handed to its owner.
-/
namespace Sys2Proof.Machine

section
variable {s : State}

/-! ### What a setting handed over leaves alone -/

/-- The state with the settings, and what their owners hold of them, put aside. -/
def State.settingsAside (s : State) : State :=
  { s with
    bus := { s.bus with settings := Settings.initial, fanoutChanges := [] }
    orders := { s.orders with gapSetting := 0, waitLimit := 0 }
    reports := { s.reports with holdoffSetting := 0, holdoffRunning := false, holdoffUs := 0, attention := false }
    cong := { s.cong with
      up := Vector.replicate 3 0, down := Vector.replicate 3 0, table := Vector.replicate 4 ⟨none, none, 0⟩ } }

theorem State.eq_of_settingsAside {t : State} (h : t.settingsAside = s.settingsAside) : t = { s with
    bus := { s.bus with settings := t.bus.settings, fanoutChanges := t.bus.fanoutChanges }
    orders := { s.orders with gapSetting := t.orders.gapSetting, waitLimit := t.orders.waitLimit }
    reports := { s.reports with
      holdoffSetting := t.reports.holdoffSetting, holdoffRunning := t.reports.holdoffRunning
      holdoffUs := t.reports.holdoffUs, attention := t.reports.attention }
    cong := { s.cong with up := t.cong.up, down := t.cong.down, table := t.cong.table } } :=
  (congrArg (fun x : State => ({ x with
    bus := { x.bus with settings := t.bus.settings, fanoutChanges := t.bus.fanoutChanges }
    orders := { x.orders with gapSetting := t.orders.gapSetting, waitLimit := t.orders.waitLimit }
    reports := { x.reports with
      holdoffSetting := t.reports.holdoffSetting, holdoffRunning := t.reports.holdoffRunning
      holdoffUs := t.reports.holdoffUs, attention := t.reports.attention }
    cong := { x.cong with up := t.cong.up, down := t.cong.down, table := t.cong.table } } : State)) h).trans rfl

theorem State.settingsAside_giveHoldoff (n : Nat) (s : State) : (s.giveHoldoff n).settingsAside = s.settingsAside := by
  rw [State.giveHoldoff, ReportUnit.writeHoldoff_eq]
  split
  · split <;> rfl
  · rfl

/-- A field that changes is handed over, one that does not stands. -/
theorem State.settingsAside_ite {c : Prop} [Decidable c] {t u : State} (ht : t.settingsAside = s.settingsAside)
    (hu : u.settingsAside = s.settingsAside) : (if c then t else u).settingsAside = s.settingsAside := by
  split
  · exact ht
  · exact hu

theorem State.settingsAside_applyTimings (w x : Word) (s : State) :
    (s.applyTimings w x).settingsAside = s.settingsAside := by
  rw [State.applyTimings]
  have hgap : (if unmarked s.bus.marks.gap s.bus.settings.gap (timingGap w) = s.bus.settings.gap then s
      else s.giveGap (unmarked s.bus.marks.gap s.bus.settings.gap (timingGap w))).settingsAside = s.settingsAside :=
    State.settingsAside_ite rfl rfl
  have hfanout := State.settingsAside_ite
    (c := unmarked s.bus.marks.fanout s.bus.settings.fanout (timingFanout w) = s.bus.settings.fanout) hgap
    (u := State.giveFanout false (unmarked s.bus.marks.fanout s.bus.settings.fanout (timingFanout w)) _) (Eq.trans rfl hgap)
  have hlimit := State.settingsAside_ite
    (c := unmarked s.bus.marks.waitLimit s.bus.settings.waitLimit (timingWaitLimit x) = s.bus.settings.waitLimit) hfanout
    (u := State.giveWaitLimit (unmarked s.bus.marks.waitLimit s.bus.settings.waitLimit (timingWaitLimit x)) _)
    (Eq.trans rfl hfanout)
  exact State.settingsAside_ite hlimit ((State.settingsAside_giveHoldoff _ _).trans hlimit)

theorem State.settingsAside_applyThreshold (g : Fin 3) (w : Word) (s : State) :
    (s.applyThreshold g w).settingsAside = s.settingsAside := State.settingsAside_ite rfl rfl

theorem State.settingsAside_applyTable (g : Cls) (w x : Word) (s : State) :
    (s.applyTable g w x).settingsAside = s.settingsAside := by
  rw [State.applyTable]
  have hrecording : (if unmarked s.bus.marks.recording[g] s.bus.settings.recording[g] (tableRecording w)
      = s.bus.settings.recording[g] then s else s.giveRecording g
        (unmarked s.bus.marks.recording[g] s.bus.settings.recording[g] (tableRecording w))).settingsAside = s.settingsAside :=
    State.settingsAside_ite rfl rfl
  exact State.settingsAside_ite hrecording (Eq.trans rfl hrecording)

theorem State.settingsAside_applyRecord (ws : Nat → Word) (s : State) :
    (s.applyRecord ws).settingsAside = s.settingsAside := by
  rw [State.applyRecord]
  simp only [State.settingsAside_applyTable, State.settingsAside_applyThreshold, State.settingsAside_applyTimings]

/-! ### The settings the record leaves -/

theorem State.marks_of_settingsAside {t : State} (h : t.settingsAside = s.settingsAside) : t.bus.marks = s.bus.marks :=
  (congrArg (fun x : State => x.bus.marks) h).trans rfl

theorem settings_ite {c : Prop} [Decidable c] {t u : State} {S : Settings} (ht : c → t.bus.settings = S)
    (hu : u.bus.settings = S) : (if c then t else u).bus.settings = S := by
  split
  · next h => exact ht h
  · exact hu

theorem State.applyTimings_settings (w x : Word) (s : State) : (s.applyTimings w x).bus.settings = { s.bus.settings with
    gap := unmarked s.bus.marks.gap s.bus.settings.gap (timingGap w)
    fanout := unmarked s.bus.marks.fanout s.bus.settings.fanout (timingFanout w)
    waitLimit := unmarked s.bus.marks.waitLimit s.bus.settings.waitLimit (timingWaitLimit x)
    holdoff := unmarked s.bus.marks.holdoff s.bus.settings.holdoff (timingHoldoff x) } := by
  rw [State.applyTimings]
  generalize unmarked s.bus.marks.gap s.bus.settings.gap (timingGap w) = gap
  generalize unmarked s.bus.marks.fanout s.bus.settings.fanout (timingFanout w) = fanout
  generalize unmarked s.bus.marks.waitLimit s.bus.settings.waitLimit (timingWaitLimit x) = limit
  generalize unmarked s.bus.marks.holdoff s.bus.settings.holdoff (timingHoldoff x) = holdoff
  have hgap : (if gap = s.bus.settings.gap then s else s.giveGap gap).bus.settings = { s.bus.settings with gap := gap } :=
    settings_ite (fun h => by rw [h]) rfl
  generalize (if gap = s.bus.settings.gap then s else s.giveGap gap) = s1 at hgap
  have hfanout : (if fanout = s.bus.settings.fanout then s1 else s1.giveFanout false fanout).bus.settings
      = { s.bus.settings with gap := gap, fanout := fanout } :=
    settings_ite (fun h => by rw [hgap, h]) (congrArg (fun t : Settings => ({ t with fanout := fanout } : Settings)) hgap)
  generalize (if fanout = s.bus.settings.fanout then s1 else s1.giveFanout false fanout) = s2 at hfanout
  have hlimit : (if limit = s.bus.settings.waitLimit then s2 else s2.giveWaitLimit limit).bus.settings
      = { s.bus.settings with gap := gap, fanout := fanout, waitLimit := limit } :=
    settings_ite (fun h => by rw [hfanout, h]) (congrArg (fun t : Settings => ({ t with waitLimit := limit } : Settings)) hfanout)
  generalize (if limit = s.bus.settings.waitLimit then s2 else s2.giveWaitLimit limit) = s3 at hlimit
  exact settings_ite (fun h => by rw [hlimit, h])
    (congrArg (fun t : Settings => ({ t with holdoff := holdoff } : Settings)) hlimit)

theorem State.applyThreshold_settings (g : Fin 3) (w : Word) (s : State) :
    (s.applyThreshold g w).bus.settings = { s.bus.settings with
      up := s.bus.settings.up.set g (unmarked s.bus.marks.up[g] s.bus.settings.up[g] (thresholdUp w))
      down := s.bus.settings.down.set g (unmarked s.bus.marks.down[g] s.bus.settings.down[g] (thresholdDown w)) } := by
  rw [State.applyThreshold]
  refine settings_ite (fun ⟨hup, hdown⟩ => ?_) rfl
  have hsame : ∀ {α : Type} (x : Vector α 3), x.set g x[g] = x := fun x => by simp
  rw [hup, hdown, hsame, hsame]

theorem State.applyTable_settings (g : Cls) (w x : Word) (s : State) :
    (s.applyTable g w x).bus.settings = { s.bus.settings with
      recording := s.bus.settings.recording.set g
        (unmarked s.bus.marks.recording[g] s.bus.settings.recording[g] (tableRecording w))
      plan := s.bus.settings.plan.set g (unmarked s.bus.marks.plan[g] s.bus.settings.plan[g] (tablePlan x))
      repeats := s.bus.settings.repeats.set g (unmarked s.bus.marks.repeats[g] s.bus.settings.repeats[g] (tableRepeats x)) } := by
  have hsame : ∀ {α : Type} (y : Vector α 4), y.set g y[g] = y := fun y => by simp
  rw [State.applyTable]
  generalize unmarked s.bus.marks.recording[g] s.bus.settings.recording[g] (tableRecording w) = r
  generalize unmarked s.bus.marks.plan[g] s.bus.settings.plan[g] (tablePlan x) = p
  generalize unmarked s.bus.marks.repeats[g] s.bus.settings.repeats[g] (tableRepeats x) = n
  have hrecording : (if r = s.bus.settings.recording[g] then s else s.giveRecording g r).bus.settings
      = { s.bus.settings with recording := s.bus.settings.recording.set g r } :=
    settings_ite (fun h => by rw [h, hsame]) rfl
  generalize (if r = s.bus.settings.recording[g] then s else s.giveRecording g r) = s1 at hrecording
  refine settings_ite (fun ⟨hp, hn⟩ => ?_) ?_
  · rw [hrecording, hp, hn, hsame, hsame]
  · exact (congrArg (fun t : Settings => ({ t with plan := t.plan.set g p, repeats := t.repeats.set g n } : Settings))
      hrecording).trans rfl

theorem State.applyRecord_settings (ws : Nat → Word) (s : State) :
    (s.applyRecord ws).bus.settings.gap = unmarked s.bus.marks.gap s.bus.settings.gap (timingGap (ws 0))
    ∧ (s.applyRecord ws).bus.settings.fanout = unmarked s.bus.marks.fanout s.bus.settings.fanout (timingFanout (ws 0))
    ∧ (s.applyRecord ws).bus.settings.waitLimit
        = unmarked s.bus.marks.waitLimit s.bus.settings.waitLimit (timingWaitLimit (ws 1))
    ∧ (s.applyRecord ws).bus.settings.holdoff = unmarked s.bus.marks.holdoff s.bus.settings.holdoff (timingHoldoff (ws 1))
    ∧ (∀ g : Fin 3, (s.applyRecord ws).bus.settings.up[g]
          = unmarked s.bus.marks.up[g] s.bus.settings.up[g] (thresholdUp (ws (2 + g.val)))
        ∧ (s.applyRecord ws).bus.settings.down[g]
          = unmarked s.bus.marks.down[g] s.bus.settings.down[g] (thresholdDown (ws (2 + g.val))))
    ∧ ∀ g : Cls, (s.applyRecord ws).bus.settings.recording[g]
          = unmarked s.bus.marks.recording[g] s.bus.settings.recording[g] (tableRecording (ws (5 + 2 * g.val)))
        ∧ (s.applyRecord ws).bus.settings.plan[g]
          = unmarked s.bus.marks.plan[g] s.bus.settings.plan[g] (tablePlan (ws (6 + 2 * g.val)))
        ∧ (s.applyRecord ws).bus.settings.repeats[g]
          = unmarked s.bus.marks.repeats[g] s.bus.settings.repeats[g] (tableRepeats (ws (6 + 2 * g.val))) := by
  have hmarks : ∀ (g : Cls) (w x : Word) (s : State), (s.applyTable g w x).bus.marks = s.bus.marks := fun g w x s =>
    State.marks_of_settingsAside (State.settingsAside_applyTable g w x s)
  have hmarks' : ∀ (g : Fin 3) (w : Word) (s : State), (s.applyThreshold g w).bus.marks = s.bus.marks := fun g w s =>
    State.marks_of_settingsAside (State.settingsAside_applyThreshold g w s)
  have hmarks'' : ∀ (w x : Word) (s : State), (s.applyTimings w x).bus.marks = s.bus.marks := fun w x s =>
    State.marks_of_settingsAside (State.settingsAside_applyTimings w x s)
  rw [State.applyRecord]
  simp only [State.applyTable_settings, State.applyThreshold_settings, State.applyTimings_settings, hmarks, hmarks', hmarks'',
    vector_getElem_set_fin]
  refine ⟨trivial, trivial, trivial, trivial, fun g => ?_, fun g => ?_⟩
  · fin_cases g <;> exact ⟨rfl, rfl⟩
  · fin_cases g <;> exact ⟨rfl, rfl, rfl⟩

/-! ### The fan-out change and the report unit -/

theorem State.applyRecord_fanoutChanges (ws : Nat → Word) (s : State) : (s.applyRecord ws).bus.fanoutChanges
    = s.bus.fanoutChanges ++ if (s.applyRecord ws).bus.settings.fanout = s.bus.settings.fanout then []
        else [⟨(s.applyRecord ws).bus.settings.fanout, false⟩] := by
  have htable : ∀ (g : Cls) (w x : Word) (s : State), (s.applyTable g w x).bus.fanoutChanges = s.bus.fanoutChanges :=
    fun g w x s => by
      rw [State.applyTable]
      split <;> split <;> rfl
  have hthreshold : ∀ (g : Fin 3) (w : Word) (s : State), (s.applyThreshold g w).bus.fanoutChanges = s.bus.fanoutChanges :=
    fun g w s => by
      rw [State.applyThreshold]
      split <;> rfl
  obtain ⟨_, hfanout, _⟩ := s.applyRecord_settings ws
  rw [hfanout, State.applyRecord]
  simp only [htable, hthreshold]
  rw [State.applyTimings]
  generalize unmarked s.bus.marks.gap s.bus.settings.gap (timingGap (ws 0)) = gap
  generalize unmarked s.bus.marks.fanout s.bus.settings.fanout (timingFanout (ws 0)) = fanout
  have hgap : (if gap = s.bus.settings.gap then s else s.giveGap gap).bus.fanoutChanges = s.bus.fanoutChanges := by
    split <;> rfl
  generalize (if gap = s.bus.settings.gap then s else s.giveGap gap) = s1 at hgap
  have hlater : ∀ (c d : Prop) [Decidable c] [Decidable d] (u : State) (n k : Nat),
      (if c then (if d then u else u.giveWaitLimit n) else (if d then u else u.giveWaitLimit n).giveHoldoff k).bus.fanoutChanges
        = u.bus.fanoutChanges := fun c d _ _ u n k => by
    split <;> split <;> rfl
  rw [hlater]
  split
  · rw [hgap, List.append_nil]
  · exact congrArg (· ++ [FanoutChange.mk fanout false]) hgap

theorem State.applyRecord_reports (ws : Nat → Word) {s : State}
    (h : (s.applyRecord ws).bus.settings.holdoff = s.bus.settings.holdoff) : (s.applyRecord ws).reports = s.reports := by
  have htable : ∀ (g : Cls) (w x : Word) (s : State), (s.applyTable g w x).reports = s.reports := fun g w x s => by
    rw [State.applyTable]
    split <;> split <;> rfl
  have hthreshold : ∀ (g : Fin 3) (w : Word) (s : State), (s.applyThreshold g w).reports = s.reports := fun g w s => by
    rw [State.applyThreshold]
    split <;> rfl
  obtain ⟨_, _, _, hholdoff, _⟩ := s.applyRecord_settings ws
  rw [hholdoff] at h
  rw [State.applyRecord]
  simp only [htable, hthreshold]
  rw [State.applyTimings]
  rw [if_pos h]
  split <;> split <;> split <;> rfl

/-! ### The owners hold the settings -/

theorem OwnersOk.giveGap (hs : OwnersOk s) (n : Nat) : OwnersOk (s.giveGap n) := by
  obtain ⟨-, howners⟩ := hs
  exact And.intro rfl howners

theorem OwnersOk.giveFanout (hs : OwnersOk s) (b : Bool) (n : Nat) : OwnersOk (s.giveFanout b n) := by
  obtain ⟨h1, h2, h3, -, howners⟩ := hs
  refine ⟨h1, h2, h3, ?_, howners⟩
  show ((s.bus.fanoutChanges ++ [FanoutChange.mk n b]).getLast?.map FanoutChange.limit).getD s.players.fanout = n
  rw [List.getLast?_concat]
  rfl

theorem OwnersOk.giveWaitLimit (hs : OwnersOk s) (n : Nat) : OwnersOk (s.giveWaitLimit n) := by
  obtain ⟨h1, -, howners⟩ := hs
  exact ⟨h1, rfl, howners⟩

theorem OwnersOk.giveHoldoff (hs : OwnersOk s) (n : Nat) : OwnersOk (s.giveHoldoff n) := by
  obtain ⟨h1, h2, -, howners⟩ := hs
  exact ⟨h1, h2, s.reports.writeHoldoff_holdoffSetting n, howners⟩

theorem OwnersOk.giveThreshold (hs : OwnersOk s) (g : Fin 3) (up down : Nat) : OwnersOk (s.giveThreshold g up down) := by
  obtain ⟨h1, h2, h3, h4, hthresholds, htable⟩ := hs
  refine ⟨h1, h2, h3, h4, fun i => ?_, htable⟩
  show (s.cong.up.set g up)[i] = (s.bus.settings.up.set g up)[i]
    ∧ (s.cong.down.set g (if down < up then down else up - 1))[i]
      = if (s.bus.settings.down.set g down)[i] < (s.bus.settings.up.set g up)[i]
        then (s.bus.settings.down.set g down)[i] else (s.bus.settings.up.set g up)[i] - 1
  simp only [vector_getElem_set_fin]
  split
  · exact ⟨rfl, rfl⟩
  · exact hthresholds i

theorem OwnersOk.giveRecording (hs : OwnersOk s) (g : Cls) (r : Option RecNo) : OwnersOk (s.giveRecording g r) := by
  obtain ⟨h1, h2, h3, h4, hthresholds, htable⟩ := hs
  refine ⟨h1, h2, h3, h4, hthresholds, fun i => ?_⟩
  show (s.cong.table.set g { s.cong.table[g] with recording := r })[i]
    = ⟨(s.bus.settings.recording.set g r)[i], s.bus.settings.plan[i], s.bus.settings.repeats[i]⟩
  simp only [vector_getElem_set_fin]
  split
  · next hi =>
    subst hi
    rw [htable i]
  · exact htable i

theorem OwnersOk.givePlan (hs : OwnersOk s) (g : Cls) (p : Option PlanNo) (n : Fin 16) : OwnersOk (s.givePlan g p n) := by
  obtain ⟨h1, h2, h3, h4, hthresholds, htable⟩ := hs
  refine ⟨h1, h2, h3, h4, hthresholds, fun i => ?_⟩
  show (s.cong.table.set g { s.cong.table[g] with plan := p, repeats := n })[i]
    = ⟨s.bus.settings.recording[i], (s.bus.settings.plan.set g p)[i], (s.bus.settings.repeats.set g n)[i]⟩
  simp only [vector_getElem_set_fin]
  split
  · next hi =>
    subst hi
    rw [htable i]
  · exact htable i

theorem OwnersOk.ite {c : Prop} [Decidable c] {t : State} (hs : OwnersOk s) (ht : OwnersOk t) : OwnersOk (if c then s else t) := by
  split
  · exact hs
  · exact ht

theorem OwnersOk.applyRecord (hs : OwnersOk s) (ws : Nat → Word) : OwnersOk (s.applyRecord ws) := by
  have htable : ∀ (g : Cls) (w x : Word) {s : State}, OwnersOk s → OwnersOk (s.applyTable g w x) := fun g w x s hs => by
    rw [State.applyTable]
    have hr := hs.ite (c := unmarked s.bus.marks.recording[g] s.bus.settings.recording[g] (tableRecording w)
      = s.bus.settings.recording[g]) (hs.giveRecording g
        (unmarked s.bus.marks.recording[g] s.bus.settings.recording[g] (tableRecording w)))
    exact hr.ite (hr.givePlan g _ _)
  have hthreshold : ∀ (g : Fin 3) (w : Word) {s : State}, OwnersOk s → OwnersOk (s.applyThreshold g w) := fun g w s hs =>
    hs.ite (hs.giveThreshold g _ _)
  have htimings : OwnersOk (s.applyTimings (ws 0) (ws 1)) := by
    rw [State.applyTimings]
    have h1 := hs.ite (c := unmarked s.bus.marks.gap s.bus.settings.gap (timingGap (ws 0)) = s.bus.settings.gap)
      (hs.giveGap (unmarked s.bus.marks.gap s.bus.settings.gap (timingGap (ws 0))))
    have h2 := h1.ite (c := unmarked s.bus.marks.fanout s.bus.settings.fanout (timingFanout (ws 0)) = s.bus.settings.fanout)
      (h1.giveFanout false (unmarked s.bus.marks.fanout s.bus.settings.fanout (timingFanout (ws 0))))
    have h3 := h2.ite
      (c := unmarked s.bus.marks.waitLimit s.bus.settings.waitLimit (timingWaitLimit (ws 1)) = s.bus.settings.waitLimit)
      (h2.giveWaitLimit (unmarked s.bus.marks.waitLimit s.bus.settings.waitLimit (timingWaitLimit (ws 1))))
    exact h3.ite (h3.giveHoldoff _)
  rw [State.applyRecord]
  exact htable _ _ _ (htable _ _ _ (htable _ _ _ (htable _ _ _ (hthreshold _ _ (hthreshold _ _ (hthreshold _ _ htimings))))))

end

end Sys2Proof.Machine
end

