-- ==== Sys2Proof/Proofs/ScanJudgement.lean ====
section
/-!
PROOF. The end of the store scan (chapters 11.2, 11.3): the recordings found, the segments judged.
-/
namespace Sys2Proof.Machine

/-! ### The lowest segment that passes -/

theorem mem_audioSegments {g : SegNo} : g ∈ audioSegments ↔ g ≠ 0 := by
  rw [audioSegments_eq, List.mem_filter, bne_iff_ne]
  exact and_iff_right (List.mem_finRange g)

theorem audioSegments_sorted : audioSegments.Pairwise (· < ·) := by
  rw [audioSegments_eq]
  exact (List.pairwise_lt_finRange 256).filter _

theorem find?_eq_some_iff_lowest {l : List SegNo} (hl : l.Pairwise (· < ·)) {p : SegNo → Bool} {w : SegNo} :
    l.find? p = some w ↔ w ∈ l ∧ p w = true ∧ ∀ x ∈ l, x < w → p x = false := by
  induction l with
  | nil => simp
  | cons y l ih =>
    rw [List.pairwise_cons] at hl
    cases hy : p y with
    | true =>
      rw [List.find?_cons_of_pos hy, Option.some_inj]
      constructor
      · rintro rfl
        refine ⟨List.mem_cons_self, hy, fun x hx hlt => ?_⟩
        rcases List.mem_cons.1 hx with rfl | hx
        · exact absurd hlt (lt_irrefl _)
        · exact absurd (hl.1 x hx) (not_lt.2 hlt.le)
      · rintro ⟨hw, _, hlow⟩
        rcases List.mem_cons.1 hw with h | h
        · exact h.symm
        · exact absurd (hy.symm.trans (hlow y List.mem_cons_self (hl.1 w h))) Bool.noConfusion
    | false =>
      rw [List.find?_cons_of_neg (by rw [hy]; exact Bool.false_ne_true), ih hl.2]
      constructor
      · rintro ⟨hw, hp, hlow⟩
        refine ⟨List.mem_cons_of_mem y hw, hp, fun x hx hlt => ?_⟩
        rcases List.mem_cons.1 hx with rfl | hx
        · exact hy
        · exact hlow x hx hlt
      · rintro ⟨hw, hp, hlow⟩
        refine ⟨(List.mem_cons.1 hw).resolve_left ?_, hp, fun x hx => hlow x (List.mem_cons_of_mem y hx)⟩
        rintro rfl
        exact Bool.false_ne_true (hy.symm.trans hp)

/-! ### Complete recordings -/

section
variable {s : State} {m : List Host.Cell} {g f : SegNo} {r : RecNo} {n len j : Nat} {h : Header} {l : List SegNo}

theorem State.indexSegment_iff (hrec : h.recording = r.val) (hcount : h.count = n) :
    s.indexSegment r n j g ↔ findIndex s.store.bytes h j = some g := by
  have hgives : ∀ x : SegNo, ((readHeader s.store.bytes x).recording == h.recording && (readHeader s.store.bytes x).index == j
      && (readHeader s.store.bytes x).count == h.count) = true
      ↔ (s.storeRead x 0).toNat = r.val ∧ (s.storeRead x 1).toNat = j ∧ (s.storeRead x 2).toNat = n := fun x => by
    rw [hrec, hcount, Bool.and_eq_true, Bool.and_eq_true, beq_iff_eq, beq_iff_eq, beq_iff_eq, and_assoc]
    rfl
  rw [findIndex, find?_eq_some_iff_lowest audioSegments_sorted, mem_audioSegments]
  dsimp only
  rw [hgives, State.indexSegment]
  constructor
  · rintro ⟨⟨hg, hgive⟩, hlow⟩
    exact ⟨hg, hgive, fun x hx hlt => Bool.eq_false_iff.2 fun hp => hlow x hlt ⟨mem_audioSegments.1 hx, (hgives x).1 hp⟩⟩
  · rintro ⟨hg, hgive, hlow⟩
    exact ⟨⟨hg, hgive⟩, fun x hlt hx =>
      Bool.false_ne_true ((hlow x (mem_audioSegments.2 hx.1) hlt).symm.trans ((hgives x).2 hx.2))⟩

theorem State.firstSegment_iff : s.firstSegment r n len f ↔ f ≠ 0 ∧ (readHeader s.store.bytes f).isFirst = true
    ∧ (readHeader s.store.bytes f).recording = r.val ∧ (readHeader s.store.bytes f).count = n
    ∧ (readHeader s.store.bytes f).length = len := by
  have hzero : ∀ x : Byte, x = 0 ↔ x.toNat = 0 := fun x => by
    rw [← BitVec.toNat_inj]
    rfl
  rw [State.firstSegment, Header.isFirst]
  simp only [Bool.and_eq_true, beq_iff_eq, decide_eq_true_eq]
  constructor
  · rintro ⟨hf, hrec, hindex, hcount, hmark, rfl, hn, hpos, hmax, hsegs⟩
    exact ⟨hf, ⟨⟨⟨⟨⟨(hzero _).1 hindex, hmark⟩, hrec.trans_lt r.isLt⟩, by rw [← hcount] at hn; exact hn⟩, hpos, hmax⟩,
      hsegs.trans hcount.symm⟩, hrec, hcount, rfl⟩
  · rintro ⟨hf, ⟨⟨⟨⟨⟨hindex, hmark⟩, -⟩, hn⟩, hpos, hmax⟩, hsegs⟩, hrec, hcount, rfl⟩
    exact ⟨hf, hrec, (hzero _).2 hindex, hcount, hmark, rfl, by rw [← hcount]; exact hn, hpos, hmax, hsegs.trans hcount⟩

theorem completeFrom_eq_some_iff : completeFrom m f = some l ↔ (readHeader m f).isFirst = true
    ∧ (∀ j, 1 ≤ j → j < (readHeader m f).count → (findIndex m (readHeader m f) j).isSome = true)
    ∧ l = f :: (List.range ((readHeader m f).count - 1)).filterMap fun i => findIndex m (readHeader m f) (i + 1) := by
  have hall : ((List.range ((readHeader m f).count - 1)).filterMap fun i => findIndex m (readHeader m f) (i + 1)).length
      = (readHeader m f).count - 1
      ↔ ∀ j, 1 ≤ j → j < (readHeader m f).count → (findIndex m (readHeader m f) j).isSome = true := by
    have hlen := List.filterMap_length_eq_length (l := List.range ((readHeader m f).count - 1))
      (f := fun i => findIndex m (readHeader m f) (i + 1))
    rw [List.length_range] at hlen
    rw [hlen]
    constructor
    · intro hi j hj hlt
      have := hi (j - 1) (List.mem_range.2 (by omega))
      rwa [Nat.sub_add_cancel hj] at this
    · exact fun hj i hi => hj (i + 1) (by omega) (by have := List.mem_range.1 hi; omega)
  rw [completeFrom]
  dsimp only
  by_cases hfirst : (readHeader m f).isFirst = true
  · rw [if_pos hfirst]
    by_cases hlen : ((List.range ((readHeader m f).count - 1)).filterMap fun i =>
        findIndex m (readHeader m f) (i + 1)).length = (readHeader m f).count - 1
    · rw [if_pos hlen, Option.some_inj]
      exact ⟨fun heq => ⟨hfirst, hall.1 hlen, heq.symm⟩, fun h => h.2.2.symm⟩
    · rw [if_neg hlen]
      exact ⟨fun h => (by cases h), fun h => absurd (hall.2 h.2.1) hlen⟩
  · rw [if_neg hfirst]
    exact ⟨fun h => (by cases h), fun h => absurd h.1 hfirst⟩

/-- The segments of a complete recording, by index. -/
theorem completeFrom_getElem? (h : completeFrom m f = some l) : l[0]? = some f ∧ l.length = (readHeader m f).count
    ∧ ∀ j, 1 ≤ j → j < (readHeader m f).count → l[j]? = findIndex m (readHeader m f) j := by
  obtain ⟨hfirst, hall, hl⟩ := completeFrom_eq_some_iff.1 h
  have hpos : 1 ≤ (readHeader m f).count := by
    rw [Header.isFirst] at hfirst
    simp only [Bool.and_eq_true, decide_eq_true_eq] at hfirst
    exact hfirst.1.1.2
  obtain ⟨v, hv⟩ : ∃ v : Nat → SegNo, ∀ i ∈ List.range ((readHeader m f).count - 1),
      findIndex m (readHeader m f) (i + 1) = some (v i) :=
    ⟨fun i => (findIndex m (readHeader m f) (i + 1)).getD 0, fun i hi => by
      have hsome := hall (i + 1) (by omega) (by have := List.mem_range.1 hi; omega)
      rw [Option.isSome_iff_exists] at hsome
      obtain ⟨g, hg⟩ := hsome
      dsimp only
      rw [hg]
      rfl⟩
  rw [List.filterMap_congr hv, List.filterMap_eq_map'] at hl
  refine ⟨by rw [hl]; rfl, by rw [hl]; simp; omega, fun j hj hlt => ?_⟩
  have hmem : j - 1 ∈ List.range ((readHeader m f).count - 1) := List.mem_range.2 (by omega)
  have hget := hv (j - 1) hmem
  rw [Nat.sub_add_cancel hj] at hget
  rw [hget, hl]
  obtain ⟨i, rfl⟩ : ∃ i, j = i + 1 := ⟨j - 1, by omega⟩
  rw [List.getElem?_cons_succ, List.getElem?_map, List.getElem?_range (by omega)]
  rfl

theorem State.completeRecording_iff : s.completeRecording r n len f ↔ s.firstSegment r n len f
    ∧ ∃ l, completeFrom s.store.bytes f = some l := by
  refine and_congr_right fun hfirst => ?_
  obtain ⟨_, hisFirst, hrec, hcount, _⟩ := State.firstSegment_iff.1 hfirst
  constructor
  · intro hall
    refine ⟨_, completeFrom_eq_some_iff.2 ⟨hisFirst, fun j hj hlt => ?_, rfl⟩⟩
    obtain ⟨g, hg⟩ := hall j hj (hcount ▸ hlt)
    rw [(State.indexSegment_iff hrec hcount).1 hg]
    rfl
  · rintro ⟨l, hl⟩ j hj hlt
    obtain ⟨_, hall, _⟩ := completeFrom_eq_some_iff.1 hl
    obtain ⟨g, hg⟩ := Option.isSome_iff_exists.1 (hall j hj (by rw [hcount]; exact hlt))
    exact ⟨g, (State.indexSegment_iff hrec hcount).2 hg⟩

/-- The recording that is complete from segment `f`, as the scan keeps it. -/
def keptFrom (m : List Host.Cell) (f : SegNo) : Option Kept :=
  (completeFrom m f).map fun l => ⟨Fin.ofNat 32 (readHeader m f).recording, readHeader m f, l⟩

theorem State.completeRecording_iff_keptFrom : (∃ n len, s.completeRecording r n len f)
    ↔ f ≠ 0 ∧ (keptFrom s.store.bytes f).any (fun k => k.recording == r) = true := by
  constructor
  · rintro ⟨n, len, hcomplete⟩
    obtain ⟨hfirst, l, hl⟩ := State.completeRecording_iff.1 hcomplete
    obtain ⟨hf, _, hrec, _, _⟩ := State.firstSegment_iff.1 hfirst
    refine ⟨hf, ?_⟩
    rw [keptFrom, hl, Option.map_some, Option.any_some, hrec, beq_iff_eq]
    exact Fin.ofNat_val_eq_self r
  · rintro ⟨hf, hany⟩
    cases hl : completeFrom s.store.bytes f with
    | none =>
      rw [keptFrom, hl] at hany
      cases hany
    | some l =>
      rw [keptFrom, hl, Option.map_some, Option.any_some, beq_iff_eq] at hany
      obtain ⟨hisFirst, _, _⟩ := completeFrom_eq_some_iff.1 hl
      have hlt : (readHeader s.store.bytes f).recording < 32 := by
        rw [Header.isFirst] at hisFirst
        simp only [Bool.and_eq_true, decide_eq_true_eq] at hisFirst
        exact hisFirst.1.1.1.2
      refine ⟨_, _, State.completeRecording_iff.2 ⟨State.firstSegment_iff.2 ⟨hf, hisFirst, ?_, rfl, rfl⟩, l, hl⟩⟩
      rw [← hany]
      exact (Nat.mod_eq_of_lt hlt).symm

/-! ### The recordings kept -/

/-- The complete recording of number `r` that the scan keeps. -/
def keptOf (m : List Host.Cell) (r : RecNo) : Option Kept := (completeRecordings m).find? fun k => k.recording == r

theorem keptOf_eq (m : List Host.Cell) (r : RecNo) : keptOf m r =
    (audioSegments.find? fun g => (keptFrom m g).any fun k => k.recording == r).bind (keptFrom m) :=
  List.find?_filterMap

/-- The one kept is the complete one of its number with the lowest first segment (R180). -/
theorem State.keptRecording_iff_find : (∃ n len, s.keptRecording r n len f) ↔
    (audioSegments.find? fun g => (keptFrom s.store.bytes g).any fun k => k.recording == r) = some f := by
  rw [find?_eq_some_iff_lowest audioSegments_sorted, mem_audioSegments, ← and_assoc, ← State.completeRecording_iff_keptFrom]
  constructor
  · rintro ⟨n, len, hcomplete, hlow⟩
    refine ⟨⟨n, len, hcomplete⟩, fun x hx hlt => Bool.eq_false_iff.2 fun hany => ?_⟩
    obtain ⟨n', len', hx'⟩ := State.completeRecording_iff_keptFrom.2 ⟨mem_audioSegments.1 hx, hany⟩
    exact hlow x hlt n' len' hx'
  · rintro ⟨⟨n, len, hcomplete⟩, hlow⟩
    refine ⟨n, len, hcomplete, fun x hlt n' len' hx => ?_⟩
    obtain ⟨hne, hany⟩ := State.completeRecording_iff_keptFrom.1 ⟨n', len', hx⟩
    exact Bool.false_ne_true ((hlow x (mem_audioSegments.2 hne) hlt).symm.trans hany)

theorem State.keptOf_of_keptRecording (h : s.keptRecording r n len f) : ∃ l, completeFrom s.store.bytes f = some l
    ∧ keptOf s.store.bytes r = some ⟨r, readHeader s.store.bytes f, l⟩ := by
  obtain ⟨hfirst, l, hl⟩ := State.completeRecording_iff.1 h.1
  obtain ⟨_, _, hrec, _, _⟩ := State.firstSegment_iff.1 hfirst
  refine ⟨l, hl, ?_⟩
  rw [keptOf_eq, State.keptRecording_iff_find.1 ⟨n, len, h⟩, Option.bind_some, keptFrom, hl, Option.map_some, hrec,
    Fin.ofNat_val_eq_self]

theorem State.keptRecording_of_keptOf {k : Kept} (h : keptOf s.store.bytes r = some k) : ∃ n len f l,
    s.keptRecording r n len f ∧ completeFrom s.store.bytes f = some l ∧ k = ⟨r, readHeader s.store.bytes f, l⟩ := by
  rw [keptOf_eq] at h
  obtain ⟨f, hf, hk⟩ := Option.bind_eq_some_iff.1 h
  obtain ⟨n, len, hkept⟩ := State.keptRecording_iff_find.2 hf
  obtain ⟨l, hl, hkeptOf⟩ := State.keptOf_of_keptRecording hkept
  refine ⟨n, len, f, l, hkept, hl, ?_⟩
  rw [keptOf_eq, hf] at hkeptOf
  exact Option.some.inj (hk.symm.trans hkeptOf)

theorem State.exists_kept_of_complete (h : s.completeRecording r n len f) : ∃ k, keptOf s.store.bytes r = some k := by
  obtain ⟨hf, hany⟩ := State.completeRecording_iff_keptFrom.1 ⟨n, len, h⟩
  cases hfind : audioSegments.find? fun g => (keptFrom s.store.bytes g).any fun k => k.recording == r with
  | none => exact absurd hany (List.find?_eq_none.1 hfind f (mem_audioSegments.2 hf))
  | some x =>
    obtain ⟨n', len', hx⟩ := State.keptRecording_iff_find.2 hfind
    obtain ⟨l, _, hk⟩ := State.keptOf_of_keptRecording hx
    exact ⟨_, hk⟩

theorem keptRecordings_eq (m : List Host.Cell) : keptRecordings m = (List.finRange 32).filterMap (keptOf m) := rfl

/-- Each segment of a kept recording has its number in the header (R180). -/
theorem readHeader_recording_of_mem (hl : completeFrom m f = some l) (hg : g ∈ l) :
    (readHeader m g).recording = (readHeader m f).recording := by
  obtain ⟨_, _, heq⟩ := completeFrom_eq_some_iff.1 hl
  rw [heq] at hg
  rcases List.mem_cons.1 hg with rfl | hg
  · rfl
  · obtain ⟨i, _, hi⟩ := List.mem_filterMap.1 hg
    have hp := List.find?_some hi
    simp only [Bool.and_eq_true, beq_iff_eq] at hp
    exact hp.1.1

/-- The segments of a complete recording are different: each gives its own index. -/
theorem completeFrom_nodup (hl : completeFrom m f = some l) : l.Nodup := by
  obtain ⟨hfirst, _, heq⟩ := completeFrom_eq_some_iff.1 hl
  have hindex : ∀ i g, findIndex m (readHeader m f) i = some g → (readHeader m g).index = i := fun i g hi => by
    have hp := List.find?_some hi
    simp only [Bool.and_eq_true, beq_iff_eq] at hp
    exact hp.1.2
  have hzero : (readHeader m f).index = 0 := by
    rw [Header.isFirst] at hfirst
    simp only [Bool.and_eq_true, beq_iff_eq] at hfirst
    exact hfirst.1.1.1.1.1
  rw [heq, List.nodup_cons]
  refine ⟨fun hmem => ?_, ?_⟩
  · obtain ⟨i, _, hi⟩ := List.mem_filterMap.1 hmem
    exact absurd (hzero.symm.trans (hindex _ _ hi)) (Nat.succ_ne_zero i).symm
  · refine List.Nodup.filterMap (fun i j g hi hj => ?_) List.nodup_range
    have := (hindex _ _ hi).symm.trans (hindex _ _ hj)
    omega

end

/-! ### The directory and the segment map judged -/

section
variable {c : StoreController} {k : Kept} {l : List Kept} {r : RecNo} {g : SegNo}

/-- A kept recording in the directory and the segment map (R180). -/
def StoreController.keep (c : StoreController) (k : Kept) : StoreController :=
  { c.useSegs k.recording 0 k.segs with dir := c.dir.set k.recording k.record }

theorem StoreController.keep_segMap (c : StoreController) (k : Kept) :
    (c.keep k).segMap = (c.useSegs k.recording 0 k.segs).segMap := rfl

theorem StoreController.keep_eq (c : StoreController) (k : Kept) : c.keep k = { c with
    segMap := (c.keep k).segMap, dir := (c.keep k).dir } := by
  rw [StoreController.keep, StoreController.useSegs_eq]

theorem StoreController.foldl_keep_eq (l : List Kept) (c : StoreController) : l.foldl StoreController.keep c = { c with
    segMap := (l.foldl StoreController.keep c).segMap, dir := (l.foldl StoreController.keep c).dir } := by
  induction l generalizing c with
  | nil => rfl
  | cons k l ih =>
    rw [List.foldl_cons, ih, StoreController.keep_eq]

theorem StoreController.foldl_keep_dir_of_ne (h : ∀ k ∈ l, k.recording ≠ r) :
    (l.foldl StoreController.keep c).dir[r] = c.dir[r] := by
  induction l generalizing c with
  | nil => rfl
  | cons k l ih =>
    rw [List.foldl_cons, ih fun x hx => h x (List.mem_cons_of_mem k hx)]
    exact (vector_getElem_set_fin _ _ _ _).trans (if_neg (h k List.mem_cons_self).symm)

theorem StoreController.foldl_keep_dir_of_mem (hl : l.Pairwise fun x y => x.recording ≠ y.recording) (hk : k ∈ l) :
    (l.foldl StoreController.keep c).dir[k.recording] = k.record := by
  induction l generalizing c with
  | nil => cases hk
  | cons x l ih =>
    rw [List.pairwise_cons] at hl
    rw [List.foldl_cons]
    rcases List.mem_cons.1 hk with rfl | hk
    · rw [StoreController.foldl_keep_dir_of_ne fun y hy => (hl.1 y hy).symm]
      exact (vector_getElem_set_fin _ _ _ _).trans (if_pos rfl)
    · exact ih hl.2 hk

theorem StoreController.foldl_keep_segMap_of_not_mem (h : ∀ k ∈ l, g ∉ k.segs) :
    (l.foldl StoreController.keep c).segMap[g] = c.segMap[g] := by
  induction l generalizing c with
  | nil => rfl
  | cons k l ih =>
    rw [List.foldl_cons, ih fun x hx => h x (List.mem_cons_of_mem k hx), StoreController.keep_segMap]
    exact StoreController.useSegs_of_not_mem 0 c (h k List.mem_cons_self)

theorem StoreController.foldl_keep_segMap_of_mem {j : Nat} (hl : l.Pairwise fun x y => ∀ g ∈ x.segs, g ∉ y.segs) (hk : k ∈ l)
    (hnodup : k.segs.Nodup) (hj : k.segs[j]? = some g) : (l.foldl StoreController.keep c).segMap[g] = .used k.recording j := by
  induction l generalizing c with
  | nil => cases hk
  | cons x l ih =>
    rw [List.pairwise_cons] at hl
    rw [List.foldl_cons]
    rcases List.mem_cons.1 hk with rfl | hk
    · rw [StoreController.foldl_keep_segMap_of_not_mem fun y hy => hl.1 y hy g (List.mem_of_getElem? hj),
        StoreController.keep_segMap, StoreController.useSegs_of_mem 0 c hnodup hj, Nat.zero_add]
    · exact ih hl.2 hk

theorem StoreController.judge_eq (c : StoreController) : c.judge = (keptRecordings c.bytes).foldl StoreController.keep { c with
    dir := Vector.replicate 32 DirRecord.absent, segMap := Vector.ofFn (judgeSegment c.bytes) } := rfl

/-- Of the kept recordings each has the number it was found for. -/
theorem keptOf_recording {m : List Host.Cell} (h : keptOf m r = some k) : k.recording = r :=
  beq_iff_eq.1 (List.find?_some (p := fun k : Kept => k.recording == r) h)

theorem keptRecordings_pairwise (m : List Host.Cell) {p : Kept → Kept → Prop}
    (h : ∀ q r x y, q ≠ r → keptOf m q = some x → keptOf m r = some y → p x y) : (keptRecordings m).Pairwise p := by
  rw [keptRecordings_eq, List.pairwise_filterMap]
  exact (List.nodup_finRange 32).imp fun hne x hx y hy => h _ _ x y hne hx hy

theorem mem_keptRecordings {m : List Host.Cell} : k ∈ keptRecordings m ↔ keptOf m k.recording = some k := by
  rw [keptRecordings_eq, List.mem_filterMap]
  constructor
  · rintro ⟨r, _, hr⟩
    rw [keptOf_recording hr]
    exact hr
  · exact fun h => ⟨_, List.mem_finRange _, h⟩

end

section
variable {s : State} {g f : SegNo} {r : RecNo} {n len : Nat}

/-- A recording the scan keeps is AVAILABLE, its segments USED (R180). -/
theorem State.judge_of_kept (h : s.keptRecording r n len f) :
    s.store.judge.dir[r] = {
        state := .available, firstSeg := f, segCount := n, length := len
        permanent := (s.storeRead f 6).getLsbD 7, bargeIn := (s.storeRead f 6).getLsbD 6
        gap := min (s.storeRead f 7).toNat 50 }
      ∧ s.store.judge.segMap[f] = .used r 0
      ∧ ∀ (j : Nat) (g : SegNo), 1 ≤ j → j < n → s.indexSegment r n j g → s.store.judge.segMap[g] = .used r j := by
  obtain ⟨l, hl, hkept⟩ := State.keptOf_of_keptRecording h
  obtain ⟨hfirst, _⟩ := h.1
  obtain ⟨_, _, hrec, hcount, hlength⟩ := State.firstSegment_iff.1 hfirst
  obtain ⟨hzero, _, hget⟩ := completeFrom_getElem? hl
  have hmem : (⟨r, readHeader s.store.bytes f, l⟩ : Kept) ∈ keptRecordings s.store.bytes := mem_keptRecordings.2 hkept
  have hdisjoint : (keptRecordings s.store.bytes).Pairwise fun x y => ∀ g ∈ x.segs, g ∉ y.segs :=
    keptRecordings_pairwise _ fun q r x y hne hx hy g hgx hgy => by
      obtain ⟨_, _, f₁, l₁, hk₁, hl₁, rfl⟩ := State.keptRecording_of_keptOf hx
      obtain ⟨_, _, f₂, l₂, hk₂, hl₂, rfl⟩ := State.keptRecording_of_keptOf hy
      obtain ⟨_, _, hrec₁, _, _⟩ := State.firstSegment_iff.1 hk₁.1.1
      obtain ⟨_, _, hrec₂, _, _⟩ := State.firstSegment_iff.1 hk₂.1.1
      refine hne (Fin.ext ?_)
      rw [← hrec₁, ← hrec₂, ← readHeader_recording_of_mem hl₁ hgx, readHeader_recording_of_mem hl₂ hgy]
  rw [StoreController.judge_eq]
  refine ⟨?_, StoreController.foldl_keep_segMap_of_mem hdisjoint hmem (completeFrom_nodup hl) hzero, fun j g hj hlt hg => ?_⟩
  · refine (StoreController.foldl_keep_dir_of_mem (keptRecordings_pairwise _ fun q r x y hne hx hy => ?_) hmem).trans ?_
    · rw [keptOf_recording hx, keptOf_recording hy]
      exact hne
    · rw [Kept.record]
      dsimp only
      rw [hcount, hlength, List.headD_eq_head?_getD, List.head?_eq_getElem?, hzero]
      rfl
  · refine StoreController.foldl_keep_segMap_of_mem hdisjoint hmem (completeFrom_nodup hl) ?_
    rw [hget j hj (hcount ▸ hlt)]
    exact (State.indexSegment_iff hrec hcount).1 hg

theorem State.judge_dir_of_not_complete (h : ∀ n len f, ¬ s.completeRecording r n len f) :
    s.store.judge.dir[r] = DirRecord.absent := by
  rw [StoreController.judge_eq]
  refine (StoreController.foldl_keep_dir_of_ne fun k hk hr => ?_).trans (Vector.getElem_replicate _)
  rw [mem_keptRecordings, hr] at hk
  obtain ⟨n, len, f, _, hkept, _, _⟩ := State.keptRecording_of_keptOf hk
  exact h n len f hkept.1

/-- A segment no kept recording claims is judged by its bytes, segment 0 by its record (R180). -/
theorem State.judge_segMap_of_not_claimed (h : g = 0 ∨ ∀ r n len f, s.keptRecording r n len f → g ≠ f
    ∧ ∀ j, 1 ≤ j → j < n → ¬ s.indexSegment r n j g) : s.store.judge.segMap[g] = judgeSegment s.store.bytes g := by
  rw [StoreController.judge_eq]
  refine (StoreController.foldl_keep_segMap_of_not_mem fun k hk hmem => ?_).trans (Vector.getElem_ofFn g.isLt)
  obtain ⟨n, len, f, l, hkept, hl, hkeq⟩ := State.keptRecording_of_keptOf (mem_keptRecordings.1 hk)
  rw [hkeq] at hmem
  obtain ⟨hf, _, hrec, hcount, _⟩ := State.firstSegment_iff.1 hkept.1.1
  obtain ⟨i, hi⟩ := List.getElem?_of_mem hmem
  obtain ⟨hzero, hlen, hget⟩ := completeFrom_getElem? hl
  have hlt : i < l.length := (List.getElem?_eq_some_iff.1 hi).1
  have hseg : i = 0 ∧ g = f ∨ 1 ≤ i ∧ s.indexSegment k.recording n i g := by
    cases i with
    | zero => exact .inl ⟨rfl, Option.some.inj (hi.symm.trans hzero)⟩
    | succ i => exact .inr ⟨by omega, (State.indexSegment_iff hrec hcount).2 ((hget _ (by omega) (by omega)).symm.trans hi)⟩
  rcases h with h | h
  · rcases hseg with ⟨_, hgf⟩ | ⟨_, ⟨hne, _⟩, _⟩
    · exact hf (hgf.symm.trans h)
    · exact hne h
  · obtain ⟨hne, hindex⟩ := h _ _ _ _ hkept
    rcases hseg with ⟨_, hgf⟩ | ⟨hi1, hg⟩
    · exact hne hgf
    · exact hindex i hi1 (by omega) hg

end

end Sys2Proof.Machine
end

