-- ==== Sys2Proof/Proofs/ScanEnd.lean ====
section
/-!
PROOF. The scan's end reported and the settings of the configuration record in force (chapters 11.2, 11.3). O56.
-/
namespace Sys2Proof.Machine

section
variable {s u : State} {m : List Host.Cell} {g : SegNo}

/-! ### Segments and words as read -/

theorem storeByte_nil (g : SegNo) (off : Nat) : storeByte [] g off = 0xFF#8 := rfl

theorem judgeSegment_erased (hm : memWf Config.erasedByte m = true) (hg : g ≠ 0)
    (h : ∀ off, off < 8192 → storeByte m g off = Config.erasedByte) : judgeSegment m g = .erased := by
  have hheader : headerErased m g = true := List.all_eq_true.2 fun i hi => by
    have hlt : i < 16 := List.mem_range.1 hi
    rw [h i (by omega)]
    exact beq_self_eq_true _
  rw [judgeSegment, if_neg hg, if_pos (by rw [hheader, (segErased_iff hm g).2 h]; rfl)]

theorem judgeSegment_dirty (hm : memWf Config.erasedByte m = true) (hg : g ≠ 0)
    (h : ∃ off, off < 8192 ∧ storeByte m g off ≠ Config.erasedByte) : judgeSegment m g = .dirty := by
  rw [judgeSegment, if_neg hg, if_neg (by rw [segErased_eq_false hm h, Bool.and_false]; exact Bool.false_ne_true)]

theorem recordWord_toNat (m : List Host.Cell) (k : Nat) :
    (recordWord m k).toNat = (storeByte m 0 (2 + 2 * k)).toNat + 256 * (storeByte m 0 (3 + 2 * k)).toNat := by
  have hlow := (storeByte m 0 (2 + 2 * k)).isLt
  have hhigh := (storeByte m 0 (3 + 2 * k)).isLt
  rw [recordWord, BitVec.toNat_ofNat]
  exact Nat.mod_eq_of_lt (by omega)

theorem configValid_iff (m : List Host.Cell) : configValid m = true
    ↔ storeByte m 0 0 = 0x3C#8 ∧ storeByte m 0 1 = 0xC3#8 ∧ storeByte m 0 28 = 0#8 := by
  rw [configValid, Bool.and_eq_true, Bool.and_eq_true, beq_iff_eq, beq_iff_eq, beq_iff_eq, and_assoc]
  rfl

/-! ### The end of the scan -/

theorem StoreController.judge_frame (c : StoreController) : c.judge = { c with dir := c.judge.dir, segMap := c.judge.segMap } := by
  rw [StoreController.judge_eq, StoreController.foldl_keep_eq]

theorem StoreController.available_eq (c : StoreController) :
    c.available = ((List.finRange 32).filter fun r => c.dir[r].state == .available).length := by
  have hlist : c.dir.toList = (List.finRange 32).map fun r => c.dir[r] :=
    List.ext_getElem (by simp) fun i hi hi' => by simp
  rw [StoreController.available, hlist, List.filter_map, List.length_map]
  rfl

theorem DirtyMarks.get_scanned (d : DirtyMarks) (x : PostedWord) : (d.allDirectory.put .global true).get x
    = (d.get x || x == .global || decide (∃ r, x = .directory r)) := by
  rw [DirtyMarks.get_put]
  cases x with
  | directory r =>
    have hall : d.allDirectory.get (.directory r) = true := Vector.getElem_replicate _
    rw [if_neg PostedWord.noConfusion, hall, decide_eq_true ⟨r, rfl⟩, Bool.or_true]
  | global => simp
  | circuit p => simp [DirtyMarks.allDirectory, DirtyMarks.get]
  | producer => simp [DirtyMarks.allDirectory, DirtyMarks.get]
  | resetCause => simp [DirtyMarks.allDirectory, DirtyMarks.get]
  | storeStatus => simp [DirtyMarks.allDirectory, DirtyMarks.get]
  | player n => simp [DirtyMarks.allDirectory, DirtyMarks.get]

/-- The store controller at the end of the scan (R180, R181). -/
def StoreController.scanned (c : StoreController) : StoreController :=
  { c with
    engine := .idle, scanComplete := true, dir := c.judge.dir, segMap := c.judge.segMap
    poolNotices := c.poolNotices ++ [.scanDone c.judge.viewOf] }

/-- What the end of the scan marks and submits, `valid` telling whether the configuration record is (R181). -/
def Wire.scanned (c : StoreController) (valid : Bool) (x : Wire) : Wire :=
  { x with
    dirty := x.dirty.allDirectory.put .global true
    submitted := x.submitted ++ [⟨.storeController, ⟨.scanDone, 0, BitVec.ofNat 16
      (((List.finRange 32).filter fun r => c.judge.dir[r].state == .available).length + if valid then 0x100 else 0)⟩⟩] }

/-- The state the scan's end leaves, `u` having the settings of the record. -/
theorem State.endScan_eq
    (hu : u = if configValid s.store.bytes then s.applyRecord (recordWord s.store.bytes) else s) : s.endScan = { u with
      store := s.store.scanned, wire := s.wire.scanned s.store (configValid s.store.bytes) } := by
  have haside : u.settingsAside = s.settingsAside := by
    rw [hu]
    exact State.settingsAside_ite (State.settingsAside_applyRecord _ s) rfl
  have hstore : u.store = s.store := (congrArg State.store haside).trans rfl
  have hwire : u.wire = s.wire := (congrArg State.wire haside).trans rfl
  rw [State.endScan]
  dsimp only
  rw [← hu, hstore, hwire, StoreController.available_eq, StoreController.judge_frame]
  rfl

end

theorem exec_storeScanEnd {s : State} (hrun : s.running = true) (h : s.store.engine = .scanning) :
    exec .storeScanEnd s = .next s.endScan := by
  refine (event_of_running hrun).trans ?_
  rw [if_pos h]

theorem Settings.eq_of_fields {x y : Settings} (hgap : x.gap = y.gap) (hfanout : x.fanout = y.fanout)
    (hlimit : x.waitLimit = y.waitLimit) (hholdoff : x.holdoff = y.holdoff)
    (hthresholds : ∀ g : Fin 3, x.up[g] = y.up[g] ∧ x.down[g] = y.down[g])
    (htable : ∀ g : Cls, x.recording[g] = y.recording[g] ∧ x.plan[g] = y.plan[g] ∧ x.repeats[g] = y.repeats[g]) : x = y := by
  have hup : x.up = y.up := Vector.ext fun i hi => (hthresholds ⟨i, hi⟩).1
  have hdown : x.down = y.down := Vector.ext fun i hi => (hthresholds ⟨i, hi⟩).2
  have hrecording : x.recording = y.recording := Vector.ext fun i hi => (htable ⟨i, hi⟩).1
  have hplan : x.plan = y.plan := Vector.ext fun i hi => (htable ⟨i, hi⟩).2.1
  have hrepeats : x.repeats = y.repeats := Vector.ext fun i hi => (htable ⟨i, hi⟩).2.2
  cases x
  cases y
  simp_all

/-- The settings the record leaves, its words read low byte first (R181, log 7). -/
theorem State.applyRecord_settings_eq {s : State} {ws : Nat → Word} {W : Nat → Nat} {T : Settings} (hW : ∀ k, (ws k).toNat = W k)
    (hgap : T.gap = if s.bus.marks.gap then s.bus.settings.gap else min (W 0 % 32) 20)
    (hfanout : T.fanout = if s.bus.marks.fanout then s.bus.settings.fanout else min (max (W 0 / 256 % 128) 1) 64)
    (hlimit : T.waitLimit = if s.bus.marks.waitLimit then s.bus.settings.waitLimit else max (W 1 % 256) 1)
    (hholdoff : T.holdoff = if s.bus.marks.holdoff then s.bus.settings.holdoff else W 1 / 256)
    (hthresholds : ∀ g : Fin 3, T.up[g] = (if s.bus.marks.up[g] then s.bus.settings.up[g] else min (W (2 + g.val) / 256 % 128) 64)
      ∧ T.down[g] = if s.bus.marks.down[g] then s.bus.settings.down[g] else min (W (2 + g.val) % 128) 64)
    (htable : ∀ g : Cls,
      T.recording[g] = (if s.bus.marks.recording[g] then s.bus.settings.recording[g]
        else if W (5 + 2 * g.val) / 2 ^ 15 = 1 then some (Fin.ofNat 32 (W (5 + 2 * g.val) % 32)) else none)
      ∧ T.plan[g] = (if s.bus.marks.plan[g] then s.bus.settings.plan[g]
        else if W (6 + 2 * g.val) / 2 ^ 15 = 1 then some (Fin.ofNat 16 (W (6 + 2 * g.val) / 256 % 16)) else none)
      ∧ T.repeats[g] = if s.bus.marks.repeats[g] then s.bus.settings.repeats[g] else Fin.ofNat 16 (W (6 + 2 * g.val) % 16)) :
    (s.applyRecord ws).bus.settings = T := by
  obtain ⟨hg, hf, hl, hh, hup, ht⟩ := s.applyRecord_settings ws
  refine Settings.eq_of_fields ?_ ?_ ?_ ?_ (fun g => ?_) fun g => ?_
  · rw [hg, hgap, timingGap_eq, hW]
    rfl
  · rw [hf, hfanout, timingFanout_eq, hW]
    rfl
  · rw [hl, hlimit, timingWaitLimit_eq, hW]
    rfl
  · rw [hh, hholdoff, timingHoldoff_eq, hW]
    rfl
  · rw [(hup g).1, (hup g).2, (hthresholds g).1, (hthresholds g).2, thresholdUp_eq, thresholdDown_eq, hW]
    exact ⟨rfl, rfl⟩
  · rw [(ht g).1, (ht g).2.1, (ht g).2.2, (htable g).1, (htable g).2.1, (htable g).2.2, tableRecording_eq, tablePlan_eq,
      tableRepeats_eq, hW, hW]
    exact ⟨rfl, rfl, rfl⟩

theorem StoreController.viewOf_getElem (c : StoreController) (r : RecNo) : c.viewOf[r]
    = if c.dir[r].state = .available then some ⟨c.dir[r].length, c.dir[r].bargeIn, c.dir[r].gap⟩ else none :=
  Vector.getElem_map _ r.isLt

/-- Settles O56. -/
theorem scanOfAnErasedStore : Obligations.ScanOfAnErasedStore := by
  refine ⟨fun s hrun hengine hnil => ?_, fun s valid W old T m hrun hengine hwf hold hm hvalid hW hno hyes => ?_⟩
  · have hread : ∀ g off, s.storeRead g off = 0xFF#8 := fun g off => by
      rw [State.storeRead, hnil]
      exact storeByte_nil g off
    have hnone : ∀ r n len f, ¬ s.completeRecording r n len f := fun r n len f ⟨hfirst, _⟩ => by
      obtain ⟨_, _, _, _, hmark, _⟩ := hfirst
      rw [hread] at hmark
      exact absurd hmark (by decide)
    have hinvalid : configValid s.store.bytes = false := by
      rw [hnil]
      decide
    have hdir : ∀ r : RecNo, s.store.judge.dir[r] = DirRecord.absent := fun r => State.judge_dir_of_not_complete (hnone r)
    have hview : s.store.judge.viewOf = Vector.replicate 32 none := Vector.ext fun i hi => by
      refine (StoreController.viewOf_getElem s.store.judge ⟨i, hi⟩).trans ?_
      rw [hdir, if_neg (by decide)]
      exact (Vector.getElem_replicate _).symm
    have hcount : ((List.finRange 32).filter fun r => s.store.judge.dir[r].state == .available) = [] :=
      List.filter_eq_nil_iff.2 fun r _ => by
        rw [hdir]
        decide
    have hend := State.endScan_eq (s := s) (u := s) (by rw [hinvalid]; rfl)
    obtain ⟨t, ht⟩ : ∃ t, t = s.endScan := ⟨_, rfl⟩
    rw [← ht, hinvalid] at hend
    have hstore : t.store = s.store.scanned := by rw [hend]
    have hwire : t.wire = s.wire.scanned s.store false := by rw [hend]
    refine ⟨t, by rw [ht]; exact exec_storeScanEnd hrun hengine, ?_, ?_, fun r => ?_, fun g => ?_, ?_, ?_⟩
    · rw [hstore, hwire]
      exact hend
    · rw [hstore, StoreController.scanned, hview]
    · rw [hstore, StoreController.scanned, hdir]
      rfl
    · rw [hstore, StoreController.scanned, State.judge_segMap_of_not_claimed (.inr fun r n len f h => absurd h.1 (hnone r n len f))]
      by_cases hg : g = 0
      · rw [judgeSegment, if_pos hg, if_pos hg, hinvalid]
        rfl
      · rw [if_neg hg]
        exact judgeSegment_erased (by rw [hnil]; rfl) hg fun off _ => hread g off
    · rw [hwire, Wire.scanned, hcount]
      rfl
    · rw [hwire]
      exact DirtyMarks.get_scanned s.wire.dirty
  · obtain ⟨u, hu⟩ : ∃ u, u = if configValid s.store.bytes then s.applyRecord (recordWord s.store.bytes) else s := ⟨_, rfl⟩
    have hvalid' : configValid s.store.bytes = valid := Bool.eq_iff_iff.2 ((configValid_iff _).trans hvalid.symm)
    have haside : u.settingsAside = s.settingsAside := by
      rw [hu]
      exact State.settingsAside_ite (State.settingsAside_applyRecord _ s) rfl
    have hend := State.endScan_eq hu
    rw [hvalid'] at hend hu
    have hrecorded : valid = true → u = s.applyRecord (recordWord s.store.bytes) := fun hv => by rw [hu, if_pos hv]
    have hstands : valid = false → u = s := fun hv => by rw [hu, hv, if_neg Bool.false_ne_true]
    have hsettings : u.bus.settings = T := by
      cases hv : valid with
      | false => rw [hstands hv, hno hv, hold]
      | true =>
        subst hold hm
        obtain ⟨hgap, hfanout, hlimit, hholdoff, hthresholds, htable⟩ := hyes hv
        rw [hrecorded hv]
        exact State.applyRecord_settings_eq (fun k => (recordWord_toNat _ k).trans (hW k).symm) hgap hfanout hlimit hholdoff
          hthresholds htable
    have hchanges : u.bus.fanoutChanges = s.bus.fanoutChanges ++ if T.fanout = old.fanout then [] else [⟨T.fanout, false⟩] := by
      rw [← hsettings, hold]
      cases hv : valid with
      | false => rw [hstands hv, if_pos rfl, List.append_nil]
      | true =>
        rw [hrecorded hv]
        exact State.applyRecord_fanoutChanges _ s
    have hframe := State.eq_of_settingsAside haside
    rw [hsettings, hchanges] at hframe
    obtain ⟨t, ht⟩ : ∃ t, t = s.endScan := ⟨_, rfl⟩
    rw [← ht] at hend
    have hstore : t.store = s.store.scanned := by rw [hend]
    have hwire : t.wire = s.wire.scanned s.store valid := by rw [hend]
    have horders : t.orders = u.orders := by rw [hend]
    have hreports : t.reports = u.reports := by rw [hend]
    have hcong : t.cong = u.cong := by rw [hend]
    refine ⟨t, s.store.judge.viewOf, by rw [ht]; exact exec_storeScanEnd hrun hengine, ?_, fun howners => ?_,
      fun hsame => ?_, fun hv => ?_, ?_, fun r n len f h => ?_, fun r h => ?_, fun g hg h => ⟨fun hall => ?_, fun hsome => ?_⟩,
      fun r d hd => ?_, ?_, ?_⟩
    · rw [hstore, hwire, horders, hreports, hcong]
      refine hend.trans ?_
      exact congrArg (fun x : State => ({ x with store := s.store.scanned, wire := s.wire.scanned s.store valid } : State)) hframe
    · have hu' : OwnersOk u := by
        rw [hu]
        exact OwnersOk.ite (howners.applyRecord _) howners
      rw [hend]
      exact hu'
    · rw [hreports]
      cases hv : valid with
      | false => rw [hstands hv]
      | true =>
        have hholdoff : (s.applyRecord (recordWord s.store.bytes)).bus.settings.holdoff = s.bus.settings.holdoff := by
          rw [← hrecorded hv, hsettings, hsame, hold]
        rw [hrecorded hv]
        exact State.applyRecord_reports _ hholdoff
    · rw [horders, hcong, hstands hv]
      exact ⟨rfl, rfl⟩
    · rw [hstore, StoreController.scanned, State.judge_segMap_of_not_claimed (.inl rfl), judgeSegment, if_pos rfl, hvalid']
    · rw [hstore]
      exact State.judge_of_kept h
    · rw [hstore]
      exact State.judge_dir_of_not_complete h
    · rw [hstore]
      exact (State.judge_segMap_of_not_claimed (.inr h)).trans (judgeSegment_erased hwf hg hall)
    · rw [hstore]
      exact (State.judge_segMap_of_not_claimed (.inr h)).trans (judgeSegment_dirty hwf hg hsome)
    · rw [hd, hstore]
      exact StoreController.viewOf_getElem s.store.judge r
    · rw [hwire, hstore]
      rfl
    · rw [hwire]
      exact DirtyMarks.get_scanned s.wire.dirty

end Sys2Proof.Machine
end

