-- ==== Sys2Proof/Proofs/AnnouncementStarts.lean ====
section
/-!
PROOF. The start of an announcement entry (chapters 1.3 and 6.2): the player pool's side of it, and the order unit's.
-/
namespace Sys2Proof.Machine

section
variable {e : Exchange} {p : Circ} {n : PlayNo} {P : Player} {r : RecNo} {v : ViewRecord} {reps : Fin 16} {g : Tag}

/-! ### The pool's side -/

/-- The lowest-numbered player that passes is the one found. -/
theorem find?_allPlayers {f : PlayNo → Bool} (hn : f n = true) (hbelow : ∀ m, m < n → f m = false) :
    allPlayers.find? f = some n := by
  refine find?_of_rising (f := Fin.val) (allPlayers_sorted.imp fun h => h) (mem_allPlayers n) hn fun m hm => ?_
  by_contra hlt
  exact Bool.false_ne_true ((hbelow m (Fin.lt_def.2 (Nat.not_le.1 hlt))).symm.trans hm)

theorem Exchange.drainExpiry_none (h : e.orders.expiryReqs = []) : e.drainExpiry = e := by
  rw [Exchange.drainExpiry, h, List.foldl_nil, ← h]

/-- A player on the recording with room (R104). -/
theorem PlayerPool.takes_iff {q : PlayerPool} : (P.recording == some r && q.hasRoom P) = true
    ↔ P.recording = some r ∧ P.fanCount < q.fanout := by
  rw [Bool.and_eq_true, beq_iff_eq, PlayerPool.hasRoom, decide_eq_true_iff]

theorem Exchange.playerOn_eq_some (hrec : (e.player n).recording = some r) (hroom : (e.player n).fanCount < e.players.fanout)
    (hbelow : ∀ m, m < n → (e.player m).recording ≠ some r ∨ e.players.fanout ≤ (e.player m).fanCount) :
    e.playerOn r = some n :=
  find?_allPlayers (PlayerPool.takes_iff.2 ⟨hrec, hroom⟩) fun m hm => Bool.eq_false_iff.2 fun h => by
    obtain ⟨hrec, hroom⟩ := PlayerPool.takes_iff.1 h
    exact (hbelow m hm).elim (fun h => h hrec) fun h => Nat.not_le.2 hroom h

theorem Exchange.playerOn_eq_none (h : ∀ m, (e.player m).recording ≠ some r ∨ e.players.fanout ≤ (e.player m).fanCount) :
    e.playerOn r = none :=
  List.find?_eq_none.2 fun m _ hm => by
    obtain ⟨hrec, hroom⟩ := PlayerPool.takes_iff.1 hm
    exact (h m).elim (fun h => h hrec) fun h => Nat.not_le.2 hroom h

theorem Exchange.idlePlayer_eq_some (hn : (e.player n).state = .idle) (hbelow : ∀ m, m < n → (e.player m).state ≠ .idle) :
    e.idlePlayer = some n :=
  find?_allPlayers (beq_iff_eq.2 hn) fun m hm => beq_eq_false_iff_ne.2 (hbelow m hm)

theorem Exchange.idlePlayer_eq_none (h : ∀ m, (e.player m).state ≠ .idle) : e.idlePlayer = none :=
  List.find?_eq_none.2 fun m _ hm => h m (beq_iff_eq.1 hm)

theorem insertAnnListener_length {x : AnnListener} {l : List AnnListener} (h : ∀ y ∈ l, y.circ ≠ x.circ) :
    (insertAnnListener x l).length = l.length + 1 := by
  induction l with
  | nil => rfl
  | cons y l ih =>
    have hne : ¬ x.circ = y.circ := fun heq => h y List.mem_cons_self heq.symm
    rw [insertAnnListener, if_neg hne]
    split
    · rfl
    · rw [List.length_cons, List.length_cons, ih fun z hz => h z (List.mem_cons_of_mem y hz)]

theorem Exchange.setPlayer_of_shown (h : (e.player n).sameShown P = false) : e.setPlayer n P = e.showPlayer n P := by
  rw [Exchange.setPlayer, if_neg (by rw [h]; exact Bool.false_ne_true)]
  rfl

theorem Exchange.setPlayer_showPlayer (Q : Player) : (e.showPlayer n P).setPlayer n Q = e.showPlayer n Q := by
  rw [Exchange.setPlayer]
  split
  · exact Exchange.putPlayer_showPlayer Q
  · simp [Exchange.showPlayer, Exchange.mark, Wire.mark]

/-- A start request for a recording that is not available is answered so (R104). -/
theorem Exchange.startAnn_unavailable (hwait : e.players.waitList = []) (hrest : ∀ m, (e.player m).atRest e.players = true)
    (hscan : e.players.scanning = false) (hview : e.players.view[r] = none) :
    e.startAnn p r reps g = (.unavailable, e) := by
  rw [Exchange.startAnn, Exchange.placeAnn, if_neg (by rw [hscan]; exact Bool.false_ne_true), hview]
  exact congrArg (Prod.mk _) (Exchange.closePool_rest hwait hrest)

/-- While scanning, or with every player bound and none on the recording with room, the circuit waits (R104). -/
theorem Exchange.startAnn_waits (hwait : e.players.waitList = []) (hrest : ∀ m, (e.player m).atRest e.players = true)
    (h : e.players.scanning = true ∨ e.players.view[r] ≠ none ∧ ∀ m, (e.player m).state ≠ .idle
      ∧ ((e.player m).recording = some r → e.players.fanout ≤ (e.player m).fanCount)) :
    e.startAnn p r reps g = (.waitList, e.setWaitList [⟨p, r, reps, g⟩]) := by
  have hplace : e.placeAnn p r reps g = (.waitList, e.setWaitList [⟨p, r, reps, g⟩]) := by
    rw [Exchange.placeAnn, hwait]
    by_cases hscan : e.players.scanning = true
    · exact if_pos hscan
    · obtain ⟨hview, hbusy⟩ := h.resolve_left hscan
      obtain ⟨v, hv⟩ := Option.ne_none_iff_exists'.1 hview
      have hon : e.playerOn r = none := Exchange.playerOn_eq_none fun m =>
        or_iff_not_imp_left.2 fun hrec => (hbusy m).2 (not_not.1 hrec)
      have hidle : e.idlePlayer = none := Exchange.idlePlayer_eq_none fun m => (hbusy m).1
      rw [if_neg hscan, hv]
      dsimp only
      rw [hon]
      dsimp only
      rw [hidle]
      rfl
  have hclosed : (e.setWaitList [⟨p, r, reps, g⟩]).closePool = e.setWaitList [⟨p, r, reps, g⟩] := by
    rw [Exchange.closePool, Exchange.serveRooms_idle, Exchange.serveIdles_idle, Exchange.closePlayers_rest]
    · exact fun m => hrest m
    · exact h.imp_right fun h => .inl fun m => (h.2 m).1
    · refine h.imp_right fun h m r' hr' => ?_
      by_cases hr : r = r'
      · subst hr
        exact .inl ((h.2 m).2 hr')
      · refine .inr fun x hx => ?_
        obtain rfl := List.mem_singleton.1 hx
        exact hr
  rw [Exchange.startAnn, hplace]
  exact congrArg (Prod.mk _) hclosed

/-- The lowest-numbered player on the recording with room takes the circuit: among its listeners when it barges in, else at the
tail of the join list (R104). -/
theorem Exchange.startAnn_joins (hwait : e.players.waitList = []) (hrest : ∀ m, (e.player m).atRest e.players = true)
    (hscan : e.players.scanning = false) (hview : e.players.view[r] = some v) (hP : e.player n = P)
    (hrec : P.recording = some r) (hroom : P.fanCount < e.players.fanout)
    (hbelow : ∀ m, m < n → (e.player m).recording ≠ some r ∨ e.players.fanout ≤ (e.player m).fanCount) :
    (P.state = .playing ∧ v.bargeIn = true → (∀ l ∈ P.listeners, l.circ ≠ p) → e.startAnn p r reps g = (.listener n,
      e.showPlayer n { P with listeners := insertAnnListener ⟨p, g, reps, false⟩ P.listeners }))
    ∧ (¬ (P.state = .playing ∧ v.bargeIn = true) → e.startAnn p r reps g = (.joinList n,
      e.showPlayer n { P with joins := P.joins ++ [⟨p, g, reps⟩] })) := by
  have hon : e.playerOn r = some n := Exchange.playerOn_eq_some (by rw [hP]; exact hrec) (by rw [hP]; exact hroom) hbelow
  have hclosed : ∀ Q : Player, Q.atRest e.players = P.atRest e.players → (e.showPlayer n Q).closePool = e.showPlayer n Q :=
    fun Q hQ => Exchange.closePool_rest hwait fun m => by
      rw [Exchange.showPlayer_player, Player.atRest_congr _ (show (e.showPlayer n Q).players.view = e.players.view from rfl)]
      split
      · rw [hQ, ← hP]
        exact hrest n
      · exact hrest m
  have hstart : ∀ a, e.placeAnn p r reps g = a → e.startAnn p r reps g = (a.1, a.2.closePool) := fun a ha => by
    rw [Exchange.startAnn, ha]
  have hplace : e.placeAnn p r reps g = if P.state = .playing ∧ v.bargeIn = true then
        (.listener n, e.setPlayer n { P with listeners := insertAnnListener ⟨p, g, reps, false⟩ P.listeners })
      else (.joinList n, e.setPlayer n { P with joins := P.joins ++ [⟨p, g, reps⟩] }) := by
    rw [Exchange.placeAnn, if_neg (by rw [hscan]; exact Bool.false_ne_true), hview]
    dsimp only
    rw [hon]
    dsimp only
    rw [Exchange.addJoin, hP]
  refine ⟨fun hbarge hnew => ?_, fun hbarge => ?_⟩
  · rw [hstart _ (hplace.trans (if_pos hbarge)), Exchange.setPlayer_of_shown, hclosed]
    · rfl
    · rw [hP, Bool.eq_false_iff]
      intro hsame
      simp only [Player.sameShown, Bool.and_eq_true, beq_iff_eq] at hsame
      have hlength := insertAnnListener_length (x := ⟨p, g, reps, false⟩) hnew
      omega
  · rw [hstart _ (hplace.trans (if_neg hbarge)), Exchange.setPlayer_of_shown, hclosed]
    · rfl
    · rw [hP, Bool.eq_false_iff]
      intro hsame
      simp only [Player.sameShown, Bool.and_eq_true, beq_iff_eq, List.length_append, List.length_singleton] at hsame
      omega

/-- With no player on the recording that has room, the lowest-numbered IDLE player is bound, and its first refill requested
(R104, R105, R106). -/
theorem Exchange.startAnn_binds {h : Option Byte} {k : Tag} (hwait : e.players.waitList = [])
    (hrest : ∀ m, (e.player m).atRest e.players = true) (hscan : e.players.scanning = false)
    (hview : e.players.view[r] = some v) (hlength : 0 < v.length) (hP : e.player n = { Player.idleWith k with handed := h })
    (hfull : ∀ m, (e.player m).recording ≠ some r ∨ e.players.fanout ≤ (e.player m).fanCount)
    (hbelow : ∀ m, m < n → (e.player m).state ≠ .idle) : e.startAnn p r reps g = (.joinList n,
      Exchange.showPlayer n { Player.idleWith k with
          handed := h, state := .priming, recording := some r, joins := [⟨p, g, reps⟩], refillOut := true }
        { e with players := { e.players with
          refillReqs := e.players.refillReqs ++ [⟨n, r, 0, min 512 v.length, k⟩] } }) := by
  obtain ⟨S, hS⟩ : ∃ S : Player, S = { Player.idleWith k with
    handed := h, state := .priming, recording := some r, joins := [⟨p, g, reps⟩] } := ⟨_, rfl⟩
  have hplace : e.placeAnn p r reps g = (.joinList n, e.showPlayer n S) := by
    rw [Exchange.placeAnn, if_neg (by rw [hscan]; exact Bool.false_ne_true), hview]
    dsimp only
    rw [Exchange.playerOn_eq_none hfull]
    dsimp only
    rw [Exchange.idlePlayer_eq_some (by rw [hP]; rfl) hbelow]
    dsimp only
    rw [Exchange.addJoin, Exchange.bindPlayer_eq hP, Exchange.showPlayer_player, if_pos rfl, Exchange.setPlayer_showPlayer, hS]
    rfl
  have hplayer : (e.showPlayer n S).player n = S := (Exchange.showPlayer_player n S n).trans (if_pos rfl)
  have hclosed : (e.showPlayer n S).closePool = _ :=
    (Exchange.closePool_only (n := n) (by exact hwait) fun m hm => by
      rw [Exchange.showPlayer_player, if_neg hm,
        Player.atRest_congr _ (show (e.showPlayer n S).players.view = e.players.view from rfl)]
      exact hrest m).trans
    (Exchange.closePlayer_requests (A := S) (r := r) (v := v)
      (by
        rw [hplayer]
        exact PlayerPool.wrapCheck_of_not (r := r) (v := v) (by rw [hS]) (by exact hview)
          (.inl (by rw [hS]; exact PlayerState.noConfusion)))
      (by rw [hS]) (by exact hview) (by rw [hS]; exact PlayerState.noConfusion) (by rw [hS]; rfl)
      (by rw [hS]; exact Nat.zero_le _) (by rw [hS]; exact hlength))
  rw [Exchange.startAnn, hplace]
  refine congrArg (Prod.mk _) (hclosed.trans ?_)
  rw [hS]
  simp only [Exchange.showPlayer, Vector.set_set]
  rfl

end

end Sys2Proof.Machine
end

