-- ==== Sys2Proof/Proofs/EntryStarts.lean ====
section
/-!
PROOF. The start of an entry of any kind (chapters 1.3 and 7.4): an announcement, and a congestion entry with its resolution.
-/
namespace Sys2Proof.Machine

section
variable {e : Exchange} {s t : State} {p : Circ} {C D : Circuit} {c d : Cls} {x : Entry} {T : TreatmentSet}

/-! ### The order unit's side of an announcement start -/

/-- A circuit record and a player record are written independently. -/
theorem Exchange.bindCircuit_showPlayer (e : Exchange) (n : PlayNo) (P : Player) (st : CircuitState) (b : Binding) :
    (e.showPlayer n P).bindCircuit p st b = (e.bindCircuit p st b).showPlayer n P := by
  have hcircuit : (e.showPlayer n P).circuit p = e.circuit p := rfl
  rw [Exchange.bindCircuit, Exchange.bindCircuit, Exchange.setCircuit, Exchange.setCircuit, hcircuit]
  split
  · rfl
  · rfl

theorem Exchange.Starting.expiryReqs (h : e.Starting s p C D) : e.orders.expiryReqs = s.orders.expiryReqs := by
  rcases h.exchange with he | ⟨-, he⟩
  · rw [he]
    rfl
  · rw [he]

/-- What the player pool answers to the start request of an announcement is what the circuit is bound by (R14); an entry whose
recording is unavailable gives way to its fallback plan or is removed (R16, R21). -/
theorem Exchange.Starting.startAnnEntry_eq (h : e.Starting s p C D) (hreqs : s.orders.expiryReqs = []) (c : Cls) (x : Entry)
    {r : RecNo} {reps : Fin 16} {f : Exchange} :
    (∀ k, e.startAnn p r reps (C.tag + 1) = (.listener k, f) →
      e.startAnnEntry p c x r reps = (true, f.bindCircuit p .hear (.listener k)))
    ∧ (∀ k, e.startAnn p r reps (C.tag + 1) = (.joinList k, f) →
      e.startAnnEntry p c x r reps = (true, f.bindCircuit p .annWait (.joinList k)))
    ∧ (e.startAnn p r reps (C.tag + 1) = (.waitList, f) →
      e.startAnnEntry p c x r reps = (true, f.bindCircuit p .annWait .waitList))
    ∧ (e.startAnn p r reps (C.tag + 1) = (.unavailable, f) → (∀ q, x.fallback = some q →
        e.startAnnEntry p c x r reps = Exchange.startToneEntry p c (x.replacement q) false q
          (((f.setEntry p c (some (x.replacement q))).report p .annUnavailable (entryValue c x)).bumpTag p))
      ∧ (x.fallback = none → e.startAnnEntry p c x r reps = (false, f.removeEntry p c .annUnavailable (entryValue c x)))) := by
  rw [Exchange.startAnnEntry, Exchange.drainExpiry_none (h.expiryReqs.trans hreqs), h.circuit, h.tag]
  generalize e.startAnn p r reps (C.tag + 1) = answer
  refine ⟨?_, ?_, ?_, ?_⟩
  · rintro k rfl
    rfl
  · rintro k rfl
    rfl
  · rintro rfl
    rfl
  · rintro rfl
    dsimp only
    exact ⟨fun q hq => by rw [hq], fun hq => by rw [hq]⟩

/-- An announcement entry starts (R14, R104). -/
theorem Exchange.Starting.startAnnEntry (h : e.Starting s p C D) (c : Cls) (x : Entry) {r : RecNo} {reps : Fin 16}
    (hs : s.startsAnnouncement p C r reps t) :
    ∃ e', e.startAnnEntry p c x r reps = (true, e') ∧ s.withExchange e' = t := by
  obtain ⟨hreqs, hwait, hrest, hcases⟩ := hs
  have hplayers : e.players = s.players := h.pools.2.2.1
  have hplayer : ∀ m, e.player m = s.players.players[m] := fun m => by rw [Exchange.player, hplayers]
  have hrest' : ∀ m, (e.player m).atRest e.players = true := fun m => by
    rw [hplayer, hplayers]
    exact hrest m List.not_mem_nil
  have hwait' : e.players.waitList = [] := by rw [hplayers]; exact hwait
  rcases hcases with ⟨hfull, rfl⟩ | ⟨n, v, P, hscan, hview, hP, hrec, hroom, hbelow, hjoin⟩
    | ⟨n, v, P, hscan, hview, hlength, hP, hfull, hbelow, rfl⟩
  · refine ⟨_, (h.startAnnEntry_eq hreqs c x).2.2.1 (Exchange.startAnn_waits hwait' hrest' ?_), ?_⟩
    · rw [hplayers]
      exact hfull.imp_right fun hf => ⟨hf.1, fun m => by rw [hplayer]; exact hf.2 m⟩
    · rw [h.bindCircuit .waitList (by decide) (by rfl) (by rfl)]
      rcases h.exchange with rfl | ⟨-, rfl⟩ <;> rfl
  · obtain ⟨hlistener, hjoined⟩ := Exchange.startAnn_joins (p := p) (reps := reps) (g := C.tag + 1) hwait' hrest'
      (by rw [hplayers]; exact hscan) (by rw [hplayers]; exact hview) ((hplayer n).trans hP) hrec
      (by rw [hplayers]; exact hroom) fun m hm => by
        rw [hplayer, hplayers]
        exact hbelow m hm
    rcases hjoin with ⟨hstate, hbarge, hnew, rfl⟩ | ⟨hnot, rfl⟩
    · refine ⟨_, (h.startAnnEntry_eq hreqs c x).1 n (hlistener ⟨hstate, hbarge⟩ hnew), ?_⟩
      dsimp only
      rw [Exchange.bindCircuit_showPlayer, h.bindCircuit (.listener n) (by decide) (by rfl) (by rfl)]
      rcases h.exchange with rfl | ⟨-, rfl⟩ <;> rfl
    · refine ⟨_, (h.startAnnEntry_eq hreqs c x).2.1 n (hjoined fun hb => hnot.elim (fun h => h hb.1) fun h =>
        Bool.false_ne_true (h.symm.trans hb.2)), ?_⟩
      dsimp only
      rw [Exchange.bindCircuit_showPlayer, h.bindCircuit (.joinList n) (by decide) (by rfl) (by rfl)]
      rcases h.exchange with rfl | ⟨-, rfl⟩ <;> rfl
  · have hstart := Exchange.startAnn_binds (p := p) (reps := reps) (g := C.tag + 1) (r := r) (v := v) hwait' hrest'
      (by rw [hplayers]; exact hscan) (by rw [hplayers]; exact hview) hlength ((hplayer n).trans hP)
      (fun m => by rw [hplayer, hplayers]; exact hfull m) fun m hm => by rw [hplayer]; exact hbelow m hm
    refine ⟨_, (h.startAnnEntry_eq hreqs c x).2.1 n hstart, ?_⟩
    dsimp only
    rw [Exchange.bindCircuit_showPlayer, h.bindCircuit (.joinList n) (by decide) (by rfl) (by rfl)]
    rcases h.exchange with rfl | ⟨-, rfl⟩ <;> rfl

/-! ### The resolution of a congestion entry -/

theorem State.servedRecording_eq_some {q : Route} {r : RecNo} (h : s.servedRecording q = some r) :
    s.cong.table[s.gradeFor q].recording = some r
      ∧ s.players.scanning = false ∧ s.players.view[r] ≠ none ∧ s.cong.grade ≠ 3 := by
  obtain ⟨r', hr', hserved⟩ := Option.bind_eq_some_iff.1 h
  split at hserved
  · next hcond =>
    obtain rfl := Option.some.inj hserved
    exact ⟨hr', hcond⟩
  · cases hserved

/-- A congestion entry whose recording is available is resolved to it (R130). -/
theorem Exchange.resolution_served (hplayers : e.players = s.players) (hcong : e.cong = s.cong) {q : Route} {r : RecNo}
    (h : s.servedRecording q = some r) : e.resolution q
      = .announcement r s.cong.table[s.gradeFor q].repeats s.cong.table[s.gradeFor q].plan := by
  obtain ⟨hrec, hscan, hview, hgrade⟩ := State.servedRecording_eq_some h
  have hrow : e.cong.table[e.cong.gradeUsed q] = s.cong.table[s.gradeFor q] :=
    (congrArg (fun u : CongestionUnit => u.table[u.gradeUsed q]) hcong).trans rfl
  have havailable : e.players.available r = true ∧ e.cong.grade ≠ 3 := by
    rw [hplayers, hcong, PlayerPool.available, hscan]
    exact ⟨Option.isSome_iff_ne_none.2 hview, hgrade⟩
  rw [Exchange.resolution, hrow, hrec]
  exact if_pos havailable

/-- One that has no available recording is resolved to its plan, if that is valid (R130). -/
theorem Exchange.resolution_unserved (hplans : e.plans = s.plans) (hplayers : e.players = s.players) (hcong : e.cong = s.cong)
    {q : Route} (h : s.servedRecording q = none) :
    (∀ pl, s.cong.table[s.gradeFor q].plan = some pl → s.planUsable pl → e.resolution q = .tone pl)
    ∧ ((∀ pl, s.cong.table[s.gradeFor q].plan = some pl → ¬ s.planUsable pl) → e.resolution q = .unserved) := by
  have hrow : e.cong.table[e.cong.gradeUsed q] = s.cong.table[s.gradeFor q] :=
    (congrArg (fun u : CongestionUnit => u.table[u.gradeUsed q]) hcong).trans rfl
  have htone : e.resolution q = e.resolveTone s.cong.table[s.gradeFor q] := by
    rw [Exchange.resolution, hrow]
    cases hrec : s.cong.table[s.gradeFor q].recording with
    | none => rfl
    | some r =>
      refine if_neg fun ⟨havailable, hgrade⟩ => ?_
      rw [PlayerPool.available, hplayers, Bool.and_eq_true, Bool.not_eq_true', Option.isSome_iff_ne_none] at havailable
      rw [hcong] at hgrade
      rw [State.servedRecording, hrec, Option.bind_some, if_pos ⟨havailable.1, havailable.2, hgrade⟩] at h
      cases h
  have hvalid : ∀ pl, e.plans.validLive pl = true ↔ s.planUsable pl := fun pl => by
    rw [hplans]
    exact State.validLive_iff s pl
  rw [htone, Exchange.resolveTone]
  refine ⟨fun pl hpl husable => ?_, fun hnone => ?_⟩
  · rw [hpl]
    exact if_pos ((hvalid pl).2 husable)
  · cases hpl : s.cong.table[s.gradeFor q].plan with
    | none => rfl
    | some pl => exact if_neg fun h => hnone pl hpl ((hvalid pl).1 h)

theorem activeEntry_of_active (h : activeClass T = some c) : activeEntry T = T[c] := by
  rw [activeEntry, h]
  rfl

/-- Putting an entry in the place of the active one. -/
theorem activeEntry_set_active (y : Entry) (h : activeClass T = some c) :
    activeClass (T.set c (some y)) = some c ∧ activeEntry (T.set c (some y)) = some y := by
  have hactive := activeClass_set_above y h le_rfl
  exact ⟨hactive, (activeEntry_of_active hactive).trans (Vector.getElem_set_self c.isLt)⟩

theorem Exchange.pulseLoadLamp_eq (hcong : e.cong = s.cong) : e.pulseLoadLamp = { e with cong := s.pulsesLamp.cong } := by
  rw [Exchange.pulseLoadLamp, hcong, State.pulsesLamp]
  by_cases hgrade : s.cong.grade = 1
  · rw [if_pos hgrade, if_neg (not_not.2 hgrade)]
    rfl
  · rw [if_neg hgrade, if_pos hgrade, ← hcong]

/-- The record in which the resolved entry `y` stands in the place of the active one, of class `c` (R15). -/
def Circuit.resolved (c : Cls) (y : Entry) (C : Circuit) : Circuit :=
  { C with set := C.set.set c (some y), latched := y.origin.map Origin.grade }

theorem Exchange.Starting.set_eq (h : e.Starting s p C D) : D.set = C.set := by
  have hset := congrArg Circuit.set (h.bound .quiet .none)
  exact hset

theorem Exchange.showCircuit_showCircuit (p : Circ) (C D : Circuit) (e : Exchange) :
    (e.showCircuit p C).showCircuit p D = e.showCircuit p D := by
  simp only [Exchange.showCircuit, Vector.set_set, DirtyMarks.put_put]

/-- Another entry put in the place of the one that starts. -/
theorem Exchange.Starting.setEntry_eq (h : e.Starting s p C D) (hactive : activeClass C.set = some c) (hx : C.set[c] = some x)
    {y : Entry} (hne : y ≠ x) : e.setEntry p c (some y) = s.exchange.showCircuit p (D.resolved c y) := by
  have hset := h.set_eq
  have hwith : D.withSet (D.set.set c (some y)) = D.resolved c y := by
    rw [Circuit.withSet, Circuit.resolved, (activeEntry_set_active y (by rw [hset]; exact hactive)).2]
    rfl
  rw [Exchange.setEntry, h.circuit, hwith, Exchange.setCircuit_of_shown]
  · rcases h.exchange with rfl | ⟨-, rfl⟩
    · exact Exchange.showCircuit_showCircuit p D (D.resolved c y) s.exchange
    · exact Exchange.showCircuit_replaced p D (D.resolved c y) s.exchange
  · rw [h.circuit]
    refine Circuit.sameShown_of_set_ne fun heq => hne ?_
    have hget : D.set[c] = (D.set.set c (some y))[c] := congrArg (fun T : TreatmentSet => T[c]) heq
    rw [hset] at hget
    exact Option.some.inj ((hx.symm.trans hget).trans (Vector.getElem_set_self c.isLt)).symm

theorem Exchange.Starting.bound_resolved (h : e.Starting s p C D) (y : Entry) (st : CircuitState) (b : Binding) :
    (D.resolved c y).bound st b = (C.resolved c y).started st b := by
  have hbound := congrArg (Circuit.resolved c y) (h.bound st b)
  exact hbound

/-- A pulse of the load lamp does not touch the start (R133). -/
theorem Exchange.Starting.pulse (h : e.Starting s p C D) : e.pulseLoadLamp.Starting s.pulsesLamp p C D := by
  refine ⟨h.tag, h.bound, ?_⟩
  rw [Exchange.pulseLoadLamp_eq h.pools.2.2.2.1]
  rcases h.exchange with rfl | ⟨hgap, rfl⟩
  · exact .inl rfl
  · exact .inr ⟨hgap, rfl⟩

/-- The start of the entry another one has been resolved to (R15, R133). -/
theorem Exchange.Starting.resolve (h : e.Starting s p C D) (hactive : activeClass C.set = some c) (hx : C.set[c] = some x)
    {y : Entry} (hne : y ≠ x) :
    (e.pulseLoadLamp.setEntry p c (some y)).Starting s.pulsesLamp p (C.resolved c y) (D.resolved c y) :=
  ⟨h.tag, h.bound_resolved y, .inl (h.pulse.setEntry_eq hactive hx hne)⟩

/-- The start of an entry (R13 to R15): the exchange holds the record with its tag advanced. -/
theorem Exchange.Starting.startEntry (h : (e.bumpTag p).Starting s p C D) (hactive : activeClass C.set = some c)
    (hx : C.set[c] = some x) (hs : s.startsEntry p C c x t) :
    ∃ e', e.startEntry p c x = (true, e') ∧ s.withExchange e' = t := by
  rw [Exchange.startEntry]
  generalize e.bumpTag p = f at h ⊢
  rw [State.startsEntry] at hs
  obtain ⟨hplans, -, hplayers, hcong, -⟩ := h.pools
  cases htreat : x.treat with
  | toneShared q =>
    rw [htreat] at hs
    exact h.startToneEntry c x hs
  | tonePrivate q =>
    rw [htreat] at hs
    exact h.startToneEntry c x hs
  | announce r n =>
    rw [htreat] at hs
    exact h.startAnnEntry c x hs
  | congestion q =>
    rw [htreat] at hs
    have hgrade : f.cong.gradeUsed q = s.gradeFor q := (congrArg (fun u => u.gradeUsed q) hcong).trans rfl
    obtain ⟨g, row, rfl, rfl, ⟨r, hserved, hs⟩ | ⟨pl, hserved, hpl, hs⟩⟩ := hs
    · obtain ⟨y, hy⟩ : ∃ y : Entry, y = ⟨.announce r s.cong.table[s.gradeFor q].repeats, s.cong.table[s.gradeFor q].plan,
        s.cong.table[s.gradeFor q].plan, some ⟨q, s.gradeFor q⟩⟩ := ⟨_, rfl⟩
      have hresolved := h.resolve hactive hx (y := y) fun heq => by
        rw [← heq, hy] at htreat
        cases htreat
      obtain ⟨e', hstart, ht⟩ := hresolved.startAnnEntry c y (by rw [hy]; exact hs)
      refine ⟨e', ?_, ht⟩
      dsimp only
      rw [Exchange.startCongestion, Exchange.resolution_served hplayers hcong hserved, hgrade, ← hstart, hy]
    · obtain ⟨y, hy⟩ : ∃ y : Entry, y = ⟨.toneShared pl, none, none, some ⟨q, s.gradeFor q⟩⟩ := ⟨_, rfl⟩
      have hresolved := h.resolve hactive hx (y := y) fun heq => by
        rw [← heq, hy] at htreat
        cases htreat
      have husable : s.planUsable pl := by
        obtain ⟨b, hlive, hvalid, -⟩ := hs
        exact ⟨b, hlive, hvalid⟩
      obtain ⟨e', hstart, ht⟩ := hresolved.startToneEntry c y (by rw [hy]; exact hs)
      refine ⟨e', ?_, ht⟩
      dsimp only
      rw [Exchange.startCongestion, (Exchange.resolution_unserved hplans hplayers hcong hserved).1 pl hpl husable, hgrade,
        ← hstart, hy]

/-! ### A start that fails at once -/

theorem Exchange.setCircuit_report (e : Exchange) (p q : Circ) (D : Circuit) (k : ReportKind) (v : Nat) :
    (e.report q k v).setCircuit p D = (e.setCircuit p D).report q k v := by
  have hcircuit : (e.report q k v).circuit p = e.circuit p := rfl
  rw [Exchange.setCircuit, Exchange.setCircuit, hcircuit]
  split
  · rfl
  · rfl

/-- The record without its entry of class `c`, bound nowhere (R20). -/
def Circuit.removed (c : Cls) (C : Circuit) : Circuit := { C.withSet (C.set.set c none) with binding := .none }

theorem Circuit.removed_only (honly : ∀ d : Cls, d ≠ c → C.set[d] = none) :
    C.removed c = { C with set := Vector.replicate 4 none, latched := none, binding := .none } := by
  rw [Circuit.removed, set_none_of_only honly]
  rfl

/-- An entry removed shows in the status word (R20, R26). -/
theorem Exchange.removeEntry_eq (hp : e.circuit p = D) (hx : D.set[c] = some x) (k : ReportKind) (v : Nat) :
    e.removeEntry p c k v = (e.showCircuit p (D.removed c)).report p k v := by
  have hshown : e.setEntry p c none = e.showCircuit p (D.withSet (D.set.set c none)) := by
    rw [Exchange.setEntry, hp, Exchange.setCircuit_of_shown]
    rw [hp]
    refine Circuit.sameShown_of_set_ne fun heq => ?_
    have hget : D.set[c] = (D.set.set c none)[c] := congrArg (fun T : TreatmentSet => T[c]) heq
    rw [hx] at hget
    cases hget.trans (Vector.getElem_set_self c.isLt)
  rw [Exchange.removeEntry, hshown]
  dsimp only
  rw [Exchange.showCircuit_circuit, Exchange.setCircuit_showCircuit]
  rfl

/-- A start that fails, of the one entry of its circuit: the circuit is in QUIET, the report submitted (R16, R20, log 11). -/
theorem Exchange.Starting.fails (h : e.Starting s p C D) (hx : C.set[c] = some x) (honly : ∀ d : Cls, d ≠ c → C.set[d] = none)
    (k : ReportKind) (v : Nat) : ((e.removeEntry p c k v).circuit p).set = Vector.replicate 4 none
      ∧ s.withExchange ((e.removeEntry p c k v).enterQuiet p) = (s.showCircuit p { C.started .quiet .none with
        set := Vector.replicate 4 none, latched := none }).submit .orderUnit k p.val v := by
  have hset := h.set_eq
  have hremoved := Circuit.removed_only (C := D) (c := c) (by rw [hset]; exact honly)
  have hcircuit : (e.removeEntry p c k v).circuit p = D.removed c := by
    rw [Exchange.removeEntry_eq h.circuit (by rw [hset]; exact hx)]
    exact Exchange.showCircuit_circuit p (D.removed c) e
  have hquiet : (D.removed c).toQuiet = { C.started .quiet .none with set := Vector.replicate 4 none, latched := none } := by
    rw [hremoved, ← h.bound]
    rfl
  refine ⟨by rw [hcircuit, hremoved], ?_⟩
  rw [Exchange.enterQuiet, hcircuit, hquiet, Exchange.removeEntry_eq h.circuit (by rw [hset]; exact hx),
    Exchange.setCircuit_report, Exchange.setCircuit_showCircuit]
  rcases h.exchange with rfl | ⟨-, rfl⟩
  · rw [Exchange.showCircuit_showCircuit]
    rfl
  · refine (congrArg (fun e => s.withExchange (Exchange.report p k v e))
      (Exchange.showCircuit_replaced p D _ s.exchange)).trans rfl

theorem Exchange.Starting.startAnn_unavailable (h : e.Starting s p C D) {r : RecNo} {n : Fin 16} (g : Tag)
    (hscan : s.players.scanning = false) (hview : s.players.view[r] = none) (hwait : s.players.waitList = [])
    (hrest : s.playersRest []) : e.startAnn p r n g = (.unavailable, e) := by
  have hplayers : e.players = s.players := h.pools.2.2.1
  refine Exchange.startAnn_unavailable (by rw [hplayers]; exact hwait) (fun m => ?_) (by rw [hplayers]; exact hscan)
    (by rw [hplayers]; exact hview)
  rw [Exchange.player, hplayers]
  exact hrest m List.not_mem_nil

/-- The starts that fail: a tone whose plan is not valid, an announcement that is unavailable and has no fallback, a congestion
entry that cannot be served (R16). -/
theorem Exchange.Starting.startEntry_fails (h : (e.bumpTag p).Starting s p C D) {k : ReportKind}
    (hfail : (∃ q : PlanNo, (x.treat = .toneShared q ∨ x.treat = .tonePrivate q) ∧ ¬ s.planUsable q ∧ k = .planWithdrawn)
      ∨ (∃ (r : RecNo) (n : Fin 16), x.treat = .announce r n ∧ s.players.scanning = false ∧ s.players.view[r] = none
        ∧ s.orders.expiryReqs = [] ∧ s.players.waitList = [] ∧ s.playersRest [] ∧ x.fallback = none ∧ k = .annUnavailable)
      ∨ ∃ q : Route, x.treat = .congestion q ∧ s.servedRecording q = none
        ∧ (∀ pl, s.cong.table[s.gradeFor q].plan = some pl → ¬ s.planUsable pl) ∧ k = .congestionUnserved) :
    e.startEntry p c x = (false, (e.bumpTag p).removeEntry p c k (entryValue c x)) := by
  rw [Exchange.startEntry]
  generalize e.bumpTag p = f at h ⊢
  obtain ⟨hplans, -, hplayers, hcong, -⟩ := h.pools
  rcases hfail with ⟨q, htreat, hinvalid, rfl⟩ | ⟨r, n, htreat, hscan, hview, hreqs, hwait, hrest, hfallback, rfl⟩
    | ⟨q, htreat, hserved, hnone, rfl⟩
  · have hunusable : ¬ f.plans.validLive q = true := by
      rw [hplans]
      exact fun hv => hinvalid ((State.validLive_iff s q).1 hv)
    rcases htreat with htreat | htreat <;> rw [htreat] <;> dsimp only <;>
      rw [Exchange.startToneEntry, if_neg hunusable]
  · have hstart := h.startAnn_unavailable (n := n) (C.tag + 1) hscan hview hwait hrest
    rw [htreat]
    exact ((h.startAnnEntry_eq hreqs c x).2.2.2 hstart).2 hfallback
  · rw [htreat]
    dsimp only
    rw [Exchange.startCongestion, (Exchange.resolution_unserved hplans hplayers hcong hserved).2 hnone]

/-! ### The active entry starts -/

theorem activeClass_none_above (h : activeClass T = some c) (hd : c < d) : T[d] = none := by
  unfold activeClass at h
  revert h hd
  revert c d
  apply cls_cases <;> apply cls_cases <;> simp <;> intros <;> split_ifs at * <;> simp_all

theorem Exchange.startBelow_of_started {f : Exchange} (hactive : activeClass (e.circuit p).set = some c)
    (hx : (e.circuit p).set[c] = some x) (hstart : e.startEntry p c x = (true, f)) (n : Nat) (hn : n ≤ 4) (hc : c.val < n) :
    e.startBelow p n = f := by
  induction n with
  | zero => exact absurd hc (Nat.not_lt_zero _)
  | succ n ih =>
    have hofNat : (Fin.ofNat 4 n).val = n := Nat.mod_eq_of_lt hn
    rw [Exchange.startBelow]
    by_cases hcn : c.val = n
    · obtain rfl : c = Fin.ofNat 4 n := Fin.ext (hcn.trans hofNat.symm)
      rw [hx]
      dsimp only
      rw [hstart]
      rfl
    · have hnone : (e.circuit p).set[Fin.ofNat 4 n] = none :=
        activeClass_none_above hactive (Fin.lt_def.2 (by rw [hofNat]; omega))
      rw [hnone]
      exact ih (by omega) (by omega)

/-- The start of the active entry (R13 to R15). -/
theorem Exchange.startActive_of_started {f : Exchange} (hactive : activeClass (e.circuit p).set = some c)
    (hx : (e.circuit p).set[c] = some x) (hstart : e.startEntry p c x = (true, f)) : e.startActive p = f :=
  Exchange.startBelow_of_started hactive hx hstart 4 le_rfl c.isLt

end

end Sys2Proof.Machine
end

