-- ==== Sys2Proof/Proofs/OrdersAndGapEnd.lean ====
section
/-!
PROOF. Announcement and congestion orders on a QUIET circuit, and the end of a changeover gap (chapters 1.3, 1.5, 6.2 and 7.4). O28,
O29, O32.
-/
namespace Sys2Proof.Machine

section
variable {e : Exchange} {s t : State} {p : Circ} {w : Word} {i : Instr} {C D : Circuit} {c d : Cls} {x : Entry} {k : Treatment}

/-! ### Orders on a QUIET circuit -/

/-- An accepted order on a QUIET circuit whose entry starts. -/
theorem exec_order_quiet (hhead : s.headIs p.val w = true) (hC : s.orders.circuits[p] = C) (hok : C.consistent = true)
    (hquiet : C.state = .quiet) (hcls : c.val = w.toNat / 1024 % 4) (haccept : s.accepts p w i k)
    (hs : s.taken.startsEntry p (C.placed c k) c (C.newEntry k) t) : exec i s = .next t := by
  have hstarting := Exchange.starting_showCircuit (s := s.taken) (p := p) (C := C.placed c k) rfl rfl
  obtain ⟨e', hstart, ht⟩ := hstarting.startEntry (activeClass_single c _) (Vector.getElem_set_self c.isLt) hs
  rw [exec_accepts_quiet hhead hC hok hquiet hcls haccept,
    (Exchange.startActive_single p c _ _ (by rw [Exchange.showCircuit_circuit]; rfl)).1 e' hstart, ht]

theorem Circuit.started_placed (hok : C.consistent = true) (hquiet : C.state = .quiet) (st : CircuitState) (b : Binding) :
    (C.placed c k).started st b = { C with
      set := (Vector.replicate 4 none).set c (some (C.newEntry k)), tag := C.tag + 1, gapLeft := 0, waited := 0
      limit := .counting, state := st, binding := b } := by
  rw [Circuit.started, Circuit.placed, (Circuit.quiet_of_consistent hok hquiet).2.2]

theorem Circuit.started_resolved (y : Entry) (l : Option Cls) (st : CircuitState) (b : Binding) :
    Circuit.started { C.placed c k with set := (C.placed c k).set.set c (some y), latched := l } st b = { C with
      set := (Vector.replicate 4 none).set c (some y), latched := l, tag := C.tag + 1, gapLeft := 0, waited := 0
      limit := .counting, state := st, binding := b } := by
  simp only [Circuit.started, Circuit.placed, Vector.set_set]

/-- An accepted order on a QUIET circuit whose entry fails at once (R16, log 11). -/
theorem exec_order_quiet_fails {kind : ReportKind} (hhead : s.headIs p.val w = true) (hC : s.orders.circuits[p] = C)
    (hok : C.consistent = true) (hquiet : C.state = .quiet) (hcls : c.val = w.toNat / 1024 % 4)
    (haccept : s.accepts p w i k)
    (hfail : ∀ {f : Exchange} {E : Circuit}, (f.bumpTag p).Starting s.taken p (C.placed c k) E →
      f.startEntry p c (C.newEntry k) = (false, (f.bumpTag p).removeEntry p c kind (entryValue c (C.newEntry k)))) :
    exec i s = .next ((s.taken.showCircuit p { C with tag := C.tag + 1, gapLeft := 0, waited := 0, limit := .counting }).submit
      .orderUnit kind p.val (entryValue c (C.newEntry k))) := by
  have hstarting := Exchange.starting_showCircuit (s := s.taken) (p := p) (C := C.placed c k) rfl rfl
  obtain ⟨hset, hbinding, hlatched⟩ := Circuit.quiet_of_consistent hok hquiet
  obtain ⟨hempty, hdone⟩ := hstarting.fails (c := c) (x := C.newEntry k) (Vector.getElem_set_self c.isLt)
    (fun d hd => (vector_getElem_set_fin _ _ _ _).trans ((if_neg hd).trans (Vector.getElem_replicate d.isLt))) kind
    (entryValue c (C.newEntry k))
  have hrecord : { (C.placed c k).started .quiet .none with set := Vector.replicate 4 none, latched := none }
      = { C with tag := C.tag + 1, gapLeft := 0, waited := 0, limit := .counting } := by
    rw [Circuit.started_placed hok hquiet, ← hset, ← hbinding, ← hlatched, ← hquiet]
  rw [exec_accepts_quiet hhead hC hok hquiet hcls haccept,
    (Exchange.startActive_single p c _ _ (by rw [Exchange.showCircuit_circuit]; rfl)).2 _ (hfail hstarting) hempty, hdone, hrecord]

end

/-- Settles O28. -/
theorem announceOrderOnAQuietCircuit : Obligations.AnnounceOrderOnAQuietCircuit := by
  rintro p w s c r reps C D hhead hC hok hquiet hcode hcls hr hreps hreqs hwait hrest rfl
  have haccept : s.accepts p w (.announce p w) (.announce r reps) := by
    refine .inr (.inl ⟨r, hr, hcode, rfl, congrArg (Treatment.announce r) (Fin.ext ?_)⟩)
    rw [hreps]
    exact (Nat.mod_mod _ _).symm
  have hbound := fun st b => Circuit.started_placed (c := c) (k := .announce r reps) hok hquiet st b
  have hexec : ∀ t, s.taken.startsAnnouncement p (C.placed c (.announce r reps)) r reps t →
      exec (.announce p w) s = .next t := fun t hs => exec_order_quiet hhead hC hok hquiet hcls haccept hs
  refine ⟨fun hscan hview hfallback => ?_, fun hfull => ?_, fun n v P hscan hview hP hrec hroom hbelow =>
    ⟨fun hbarge hnew => ?_, fun hbarge => ?_⟩, fun n v P hscan hview hlength hP hfull hbelow => ?_⟩
  · exact exec_order_quiet_fails hhead hC hok hquiet hcls haccept fun hstarting =>
      hstarting.startEntry_fails (.inr (.inl ⟨r, reps, rfl, hscan, hview, hreqs, hwait, hrest, hfallback, rfl⟩))
  · refine hexec _ ⟨hreqs, hwait, hrest, .inl ⟨hfull, ?_⟩⟩
    rw [hbound]
    rfl
  · refine hexec _ ⟨hreqs, hwait, hrest, .inr (.inl ⟨n, v, P, hscan, hview, hP, hrec, hroom, hbelow,
      .inl ⟨hbarge.1, hbarge.2, hnew, ?_⟩⟩)⟩
    rw [hbound]
    rfl
  · refine hexec _ ⟨hreqs, hwait, hrest, .inr (.inl ⟨n, v, P, hscan, hview, hP, hrec, hroom, hbelow,
      .inr ⟨?_, ?_⟩⟩)⟩
    · exact (not_and_or.1 hbarge).imp_right Bool.eq_false_iff.2
    · rw [hbound]
      rfl
  · refine hexec _ ⟨hreqs, hwait, hrest, .inr (.inr ⟨n, v, P, hscan, hview, hlength, hP, hfull, hbelow, ?_⟩)⟩
    rw [hbound]
    rfl

/-- Settles O29. -/
theorem congestionOrderOnAQuietCircuit : Obligations.CongestionOrderOnAQuietCircuit := by
  rintro p w s c g q C D row served lamp hhead hC hok hquiet hcode hcls hq rfl rfl hserved rfl rfl
  have hserved' : served = s.taken.servedRecording q := hserved
  have haccept : s.accepts p w (.congestion p w) (.congestion q) := .inr (.inr ⟨q, hq, hcode, rfl, rfl⟩)
  have hbound := fun st b => Circuit.started_placed (c := c) (k := .congestion q) hok hquiet st b
  have hresolved := fun y l st b => Circuit.started_resolved (C := C) (c := c) (k := .congestion q) y l st b
  have hexec : ∀ t, s.taken.startsEntry p (C.placed c (.congestion q)) c (C.newEntry (.congestion q)) t →
      exec (.congestion p w) s = .next t := fun t hs => exec_order_quiet hhead hC hok hquiet hcls haccept hs
  refine ⟨fun hnone hinvalid => ?_, fun pl b k hnone hpl hlive hvalid hnojoin hk hbelow => ?_,
    fun r n P hr hreqs hwait hrest hP hrec hstate hroom hbelow => ?_⟩
  · exact exec_order_quiet_fails hhead hC hok hquiet hcls haccept fun hstarting =>
      hstarting.startEntry_fails (.inr (.inr ⟨q, rfl, hserved'.symm.trans hnone, hinvalid, rfl⟩))
  · refine hexec _ ⟨_, _, rfl, rfl, .inr ⟨pl, hserved'.symm.trans hnone, hpl, b, hlive, hvalid,
      .inl ⟨k, hk, hbelow, .inr hnojoin, ?_⟩⟩⟩
    rw [hresolved]
    rfl
  · obtain ⟨-, hscan, hview, -⟩ := State.servedRecording_eq_some (hserved'.symm.trans hr)
    obtain ⟨v, hv⟩ := Option.ne_none_iff_exists'.1 hview
    refine hexec _ ⟨_, _, rfl, rfl, .inl ⟨r, hserved'.symm.trans hr, hreqs, hwait, hrest, .inr (.inl ⟨n, v, P, hscan, hv, hP,
      hrec, hroom, fun m hm => .inl (hbelow m hm), .inr ⟨.inl ?_, ?_⟩⟩)⟩⟩
    · rw [hstate]
      exact PlayerState.noConfusion
    · rw [hresolved]
      rfl

/-! ### The end of a changeover gap -/

section
variable {e : Exchange} {s t : State} {p : Circ} {C D : Circuit} {c : Cls} {x : Entry}

theorem exec_gapEnd (hrun : s.running = true) (hC : s.orders.circuits[p] = C) (hstate : C.state = .gap)
    (hgap : C.gapLeft = 0) : exec (.gapEnd p) s = .next (s.withExchange (s.exchange.startActive p)) := by
  have hp : s.exchange.circuit p = C := hC
  refine (event_of_running (f := fun s => s.onExchange (Exchange.gapEnd p)) hrun).trans ?_
  rw [State.onExchange, Exchange.gapEnd, if_pos (by rw [hp]; exact ⟨hstate, hgap⟩)]

/-- The start of an entry whose circuit is in GAP; its status word is marked by what the start leads to. -/
theorem Exchange.starting_gap (hC : s.orders.circuits[p] = C) (hstate : C.state = .gap) :
    (s.exchange.bumpTag p).Starting s p C { C with tag := C.tag + 1 } := by
  have hp : s.exchange.circuit p = C := hC
  refine ⟨rfl, fun st b => rfl, .inr ⟨hstate, ?_⟩⟩
  rw [Exchange.bumpTag, hp]
  refine Exchange.setCircuit_of_same ?_
  rw [hp]
  simp [Circuit.sameShown]

theorem set_eq_single {T : TreatmentSet} (hx : T[c] = some x) (honly : ∀ d : Cls, d ≠ c → T[d] = none) :
    T = (Vector.replicate 4 none).set c (some x) := by
  rw [← set_none_of_only honly, Vector.set_set, ← hx]
  exact (Vector.set_getElem_self c.isLt).symm

theorem Circuit.latched_of_active (hok : C.consistent = true) (hactive : activeClass C.set = some c) (hx : C.set[c] = some x) :
    C.latched = x.origin.map Origin.grade := by
  rw [Circuit.latched_of_consistent hok, activeEntry_of_active hactive, hx]
  rfl

/-- The start of the fallback of an announcement that was found unavailable (R16, R21). -/
theorem Exchange.Starting.replaced (h : e.Starting s p C D) (hactive : activeClass C.set = some c) (hx : C.set[c] = some x)
    {y : Entry} (hne : y ≠ x) (k : ReportKind) (v : Nat) :
    (((e.setEntry p c (some y)).report p k v).bumpTag p).Starting (s.submit .orderUnit k p.val v) p
      { C.resolved c y with tag := C.tag + 1 } { D.resolved c y with tag := D.tag + 1 } := by
  have hput := h.setEntry_eq hactive hx hne
  refine ⟨congrArg (· + 1) h.tag, fun st b => ?_, .inl ?_⟩
  · have hbound := congrArg (fun E : Circuit => { E with tag := E.tag + 1 }) (h.bound_resolved (c := c) y st b)
    exact hbound
  · have hcircuit : ((e.setEntry p c (some y)).report p k v).circuit p = D.resolved c y := by
      rw [hput]
      exact Exchange.showCircuit_circuit p _ _
    rw [Exchange.bumpTag, hcircuit, Exchange.setCircuit_report, hput, Exchange.setCircuit_showCircuit]
    rfl

end

/-- Settles O32. -/
theorem gapEndStartsTheEntry : Obligations.GapEndStartsTheEntry := by
  intro p s C c x unavailable hrun hC hok hstate hgap hactive hx hunavailable
  have hstarting := Exchange.starting_gap hC hstate
  have hexec := exec_gapEnd hrun hC hstate hgap
  have hp : s.exchange.circuit p = C := hC
  refine ⟨fun t hs => ?_, fun r f t hr hfallback hs => ?_, fun kind argument honly hfail => ?_⟩
  · obtain ⟨e', hstart, ht⟩ := hstarting.startEntry hactive hx hs
    rw [hexec, Exchange.startActive_of_started (by rw [hp]; exact hactive) (by rw [hp]; exact hx) hstart, ht]
  · obtain ⟨⟨n, htreat⟩, hscan, hview, hreqs, hwait, hrest⟩ := (hunavailable r).1 hr
    have hstart := hstarting.startAnn_unavailable (n := n) (C.tag + 1) hscan hview hwait hrest
    have hargument : x.argument = r.val := by rw [Entry.argument, htreat]
    have hreplaced := hstarting.replaced hactive hx (y := x.replacement f) (fun heq => by
      rw [← heq] at htreat
      cases htreat) .annUnavailable (entryValue c x)
    have hrecord : { C.resolved c (x.replacement f) with tag := C.tag + 1 } = { C with
        tag := C.tag + 1, set := C.set.set c (some ⟨.toneShared f, none, none, x.origin⟩) } := by
      rw [Circuit.resolved, Circuit.latched_of_active hok hactive hx]
      rfl
    obtain ⟨e', hstart', ht⟩ := hreplaced.startToneEntry c (x.replacement f) (v := false) (q := f) (t := t) (by
      rw [hrecord, entryValue, hargument]
      exact hs)
    have hentry : s.exchange.startEntry p c x = (true, e') := by
      rw [Exchange.startEntry, htreat]
      exact (((hstarting.startAnnEntry_eq hreqs c x).2.2.2 hstart).1 f hfallback).trans hstart'
    rw [hexec, Exchange.startActive_of_started (by rw [hp]; exact hactive) (by rw [hp]; exact hx) hentry]
    exact congrArg Host.Outcome.next ht
  · obtain ⟨hargument, hentry⟩ : x.argument = argument
        ∧ s.exchange.startEntry p c x = (false, (s.exchange.bumpTag p).removeEntry p c kind (entryValue c x)) := by
      rcases hfail with ⟨q, htreat, hinvalid, rfl, rfl⟩ | ⟨r, hr, hfallback, rfl, rfl⟩ | ⟨q, htreat, hserved, hnone, rfl, rfl⟩
      · refine ⟨?_, hstarting.startEntry_fails (.inl ⟨q, htreat, hinvalid, rfl⟩)⟩
        rcases htreat with htreat | htreat <;> rw [Entry.argument, htreat]
      · obtain ⟨⟨n, htreat⟩, hscan, hview, hreqs, hwait, hrest⟩ := (hunavailable r).1 hr
        refine ⟨by rw [Entry.argument, htreat], hstarting.startEntry_fails (.inr (.inl ⟨r, n, htreat, hscan, hview, hreqs, hwait,
          hrest, hfallback, rfl⟩))⟩
      · exact ⟨by rw [Entry.argument, htreat], hstarting.startEntry_fails (.inr (.inr ⟨q, htreat, hserved, hnone, rfl⟩))⟩
    obtain ⟨hempty, hdone⟩ := hstarting.fails hx honly kind (entryValue c x)
    have hb : C.binding = .none := (Circuit.binding_eq_none_iff hok).2 (.inr hstate)
    rw [hexec, (Exchange.startActive_single p c x _ (by rw [hp]; exact set_eq_single hx honly)).2 _ hentry hempty, hdone,
      entryValue, hargument, Circuit.started, ← hb, ← hgap]

end Sys2Proof.Machine
end

