-- ==== Sys2Proof/Proofs/LeavingATreatment.lean ====
section
/-!
PROOF. Orders that take away the active entry of a bound circuit (chapters 1.2, 1.3, 3.5 and 6.5). O30.
-/
namespace Sys2Proof.Machine

section
variable {e x : Exchange} {s t : State} {p : Circ} {n : PlayNo} {P : Player} {C E : Circuit} {L : List AnnListener}
  {J : List JoinEntry} {r : RecNo} {v : ViewRecord} {reps : Option (Fin 16)} {w : Word} {i : Instr} {d : Cls} {T : TreatmentSet}

/-! ### Leaving the player pool -/

/-- A player with its lists as a removal leaves them: IDLE when both are empty, PRIMING from index 0 when nobody hears the cycle
it plays (R112). -/
def Player.left (L : List AnnListener) (J : List JoinEntry) (P : Player) : Player :=
  if L = [] ∧ J = [] then P.toIdle
  else if L = [] ∧ P.state = .playing then { P.emptied with listeners := L, joins := J, state := .priming }
  else { P with listeners := L, joins := J }

theorem Exchange.removeFrom_eq (hP : e.player n = P) (hL : L = P.listeners.filter fun l => l.circ != p)
    (hJ : J = P.joins.filter fun j => j.circ != p) : e.removeFrom n p = e.showPlayer n (P.left L J) := by
  rw [Exchange.removeFrom, hP, ← hL, ← hJ, Exchange.afterRemoval, Exchange.setPlayer_player, Player.left]
  split
  · rw [Exchange.mark_setPlayer, Exchange.showPlayer_setPlayer]
    rfl
  · split
    · rw [Exchange.mark_setPlayer, Exchange.showPlayer_setPlayer]
      rfl
    · exact Exchange.mark_setPlayer e n _

/-- A circuit in the lists of one player leaves that player (R112). -/
theorem Exchange.leaveAnn_of_held (hP : e.player n = P) (hheld : (∃ l ∈ P.listeners, l.circ = p) ∨ ∃ j ∈ P.joins, j.circ = p)
    (hothers : ∀ m, m ≠ n → (∀ l ∈ (e.player m).listeners, l.circ ≠ p) ∧ ∀ j ∈ (e.player m).joins, j.circ ≠ p) :
    e.leaveAnn p = ((P.listeners.find? fun l => l.circ == p).map AnnListener.repeats, (e.removeFrom n p).closePool) := by
  rw [Exchange.leaveAnn]
  by_cases hlistener : ∃ l ∈ P.listeners, l.circ = p
  · rw [Exchange.listenerAt_eq_some (n := n) (by rw [hP]; exact hlistener) fun m hm => (hothers m hm).1]
    dsimp only
    rw [hP]
  · have hnone : ∀ l ∈ P.listeners, l.circ ≠ p := fun l hl hc => hlistener ⟨l, hl, hc⟩
    have hfind : P.listeners.find? (fun l => l.circ == p) = none :=
      List.find?_eq_none.2 fun l hl hc => hnone l hl (beq_iff_eq.1 hc)
    rw [Exchange.listenerAt_eq_none fun m => ?_, Exchange.joinAt_eq_some (n := n) (by rw [hP]; exact hheld.resolve_left hlistener)
      fun m hm => (hothers m hm).2, hfind]
    · rfl
    · by_cases hm : m = n
      · rw [hm, hP]
        exact hnone
      · exact (hothers m hm).1

/-- A circuit that only waits leaves the wait list (R112). -/
theorem Exchange.leaveAnn_of_waiting
    (h : ∀ m, (∀ l ∈ (e.player m).listeners, l.circ ≠ p) ∧ ∀ j ∈ (e.player m).joins, j.circ ≠ p) :
    e.leaveAnn p = (none, (e.setWaitList (e.players.waitList.filter fun w => w.circ != p)).closePool) := by
  rw [Exchange.leaveAnn, Exchange.listenerAt_eq_none fun m => (h m).1, Exchange.joinAt_eq_none fun m => (h m).2]

/-- The close of a removal after which nobody is to be served and nothing fetched (R106, R112). -/
theorem Exchange.closePool_left_rest (hwait : e.players.waitList = []) (hrest : ∀ m, (e.player m).atRest e.players = true)
    (hP : e.player n = P) (h : L = [] ∧ J = [] ∨ L ≠ [] ∨ J ≠ [] ∧ P.state ≠ .playing) :
    (e.showPlayer n (P.left L J)).closePool = e.showPlayer n (P.left L J) := by
  refine Exchange.closePool_rest hwait fun m => ?_
  rw [Exchange.showPlayer_player, Player.atRest_congr _ (show (e.showPlayer n (P.left L J)).players.view = e.players.view from rfl)]
  by_cases hm : m = n
  · rw [if_pos hm, Player.left]
    split
    · rfl
    · next hsome =>
      have hkept := h.resolve_left hsome
      rw [if_neg fun hpriming => hkept.elim (fun hl => hl hpriming.1) fun hj => hj.2 hpriming.2, ← hP]
      exact hrest n
  · rw [if_neg hm]
    exact hrest m

/-- The close of a removal that leaves a player nobody hears: its first refill is requested (R106, R112). -/
theorem Exchange.closePool_left_priming (hwait : e.players.waitList = []) (hrest : ∀ m, (e.player m).atRest e.players = true)
    (hJ : J ≠ []) (hstate : P.state = .playing) (hrec : P.recording = some r)
    (hview : e.players.view[r] = some v) (hlength : 0 < v.length) :
    (e.showPlayer n (P.left [] J)).closePool = Exchange.showPlayer n { P with
        listeners := [], joins := J, state := .priming, fifo := [], pos := 0, fetch := 0, gen := P.gen + 1, wrapped := false
        refillOut := true }
      { e with players := { e.players with
        refillReqs := e.players.refillReqs ++ [⟨n, r, 0, min 512 v.length, P.gen + 1⟩] } } := by
  obtain ⟨S, hS⟩ : ∃ S : Player, S = P.left [] J := ⟨_, rfl⟩
  have hleft : S = { P.emptied with listeners := [], joins := J, state := .priming } := by
    rw [hS, Player.left, if_neg fun h => hJ h.2, if_pos ⟨rfl, hstate⟩]
  have hplayer : (e.showPlayer n S).player n = S := (Exchange.showPlayer_player n S n).trans (if_pos rfl)
  rw [← hS]
  refine (Exchange.closePool_only (n := n) (by exact hwait) fun m hm => ?_).trans
    ((Exchange.closePlayer_requests (A := S) (r := r) (v := v) ?_ (by rw [hleft]; exact hrec) (by exact hview)
      (by rw [hleft]; exact PlayerState.noConfusion) (by rw [hleft]; rfl) (by rw [hleft]; exact Nat.zero_le _)
      (by rw [hleft]; exact hlength)).trans ?_)
  · rw [Exchange.showPlayer_player, if_neg hm,
      Player.atRest_congr _ (show (e.showPlayer n S).players.view = e.players.view from rfl)]
    exact hrest m
  · rw [hplayer]
    exact PlayerPool.wrapCheck_of_not (r := r) (v := v) (by rw [hleft]; exact hrec) (by exact hview)
      (.inl (by rw [hleft]; exact PlayerState.noConfusion))
  · rw [hleft]
    simp only [Exchange.showPlayer, Vector.set_set]
    rfl

/-- Leaving the player pool, from `s` to `t`. -/
theorem State.leaveAnn_of_leavesPlayers (h : s.leavesPlayers p reps t) :
    ∃ x, s.exchange.drainExpiry.leaveAnn p = (reps, x) ∧ s.withExchange x = t := by
  obtain ⟨hreqs, hrest, hcases⟩ := h
  rw [Exchange.drainExpiry_none (by exact hreqs)]
  have hrest' : ∀ m, (s.exchange.player m).atRest s.exchange.players = true := fun m => hrest m List.not_mem_nil
  rcases hcases with ⟨n, P, Q, L, J, req, hwait, hP, hheld, hothers, rfl, hL, hJ, hQ, rfl⟩ | ⟨rfl, hwait, hnone, rfl⟩
  · refine ⟨_, Exchange.leaveAnn_of_held (by exact hP) hheld (by exact hothers), ?_⟩
    rw [Exchange.removeFrom_eq (by exact hP) hL hJ]
    rcases hQ with ⟨hL', hJ', rfl, rfl⟩ | ⟨r, v, hL', hJ', hstate, hrec, hview, hlength, rfl, rfl⟩ | ⟨hkept, rfl, rfl⟩
    · rw [Exchange.closePool_left_rest (by exact hwait) hrest' (by exact hP) (.inl ⟨hL', hJ'⟩), Player.left, if_pos ⟨hL', hJ'⟩,
        List.append_nil]
      rfl
    · rw [hL', Exchange.closePool_left_priming (by exact hwait) hrest' hJ' hstate hrec (by exact hview) hlength]
      rfl
    · rw [Exchange.closePool_left_rest (by exact hwait) hrest' (by exact hP) (.inr hkept), Player.left,
        if_neg fun h => hkept.elim (fun hl => hl h.1) fun hj => hj.1 h.2,
        if_neg fun h => hkept.elim (fun hl => hl h.1) fun hj => hj.2 h.2, List.append_nil]
      rfl
  · refine ⟨_, Exchange.leaveAnn_of_waiting (by exact hnone), ?_⟩
    have hempty : s.exchange.players.waitList.filter (fun x => x.circ != p) = [] :=
      List.filter_eq_nil_iff.2 fun x hx => by simp [hwait x hx]
    rw [hempty, Exchange.closePool_rest rfl (by exact hrest')]
    rfl

/-! ### The release of a binding -/

/-- The leave of a circuit in HEAR or ANN_WAIT goes to the player pool (R12). -/
theorem Exchange.leave_of_ann (hp : e.circuit p = C) (hok : C.consistent = true) (hstate : C.state = .hear ∨ C.state = .annWait) :
    e.leave p = e.drainExpiry.leaveAnn p := by
  unfold Circuit.consistent at hok
  simp only [Bool.and_eq_true] at hok
  obtain ⟨⟨hfits, -⟩, -⟩ := hok
  rw [Exchange.leave, hp]
  unfold bindingFits at hfits
  rcases hstate with hstate | hstate <;> rw [hstate] at hfits <;>
  · cases hb : C.binding <;> rw [hb] at hfits <;> first | rfl | exact absurd hfits Bool.false_ne_true

/-- The release of a binding, from `s` to `t` (R12). -/
theorem State.leave_of_releasesBinding (hC : s.orders.circuits[p] = C) (hok : C.consistent = true)
    (h : s.releasesBinding p C.state reps t) : ∃ x, s.exchange.leave p = (reps, x) ∧ s.withExchange x = t := by
  rcases h with ⟨hstate, rfl, hleaves⟩ | ⟨hstate, hleaves⟩
  · exact ⟨_, Exchange.leave_of_tone (by exact hC) hok hstate, (State.leaveTone_of_leavesChannels hleaves).1⟩
  · rw [Exchange.leave_of_ann (by exact hC) hok hstate]
    exact State.leaveAnn_of_leavesPlayers hleaves

theorem Circuit.bound_of_releasesBinding (hok : C.consistent = true) (h : s.releasesBinding p C.state reps t) :
    C.binding ≠ .none := fun hb => by
  have hstate := (Circuit.binding_eq_none_iff hok).1 hb
  rcases h with ⟨hst | hst, -⟩ | ⟨hst | hst, -⟩ <;> rw [hst] at hstate <;> rcases hstate with hst' | hst' <;> cases hst'

theorem Exchange.enterGap_showCircuit (p : Circ) (C : Circuit) (e : Exchange) : (e.showCircuit p C).enterGap p
    = e.showCircuit p { C with
      state := .gap, binding := .none, gapLeft := e.orders.gapSetting, waited := 0, limit := .counting } := by
  rw [Exchange.enterGap, Exchange.showCircuit_circuit, Exchange.setCircuit_showCircuit]
  rfl

/-- An order that takes away the active entry of a bound circuit: the binding released, from `s.taken` to `t`, the set `T` is
settled on `t` (R10 to R12). -/
theorem exec_of_releasesBinding (hhead : s.headIs p.val w = true) (hC : s.orders.circuits[p] = C) (hok : C.consistent = true)
    (hd : activeClass C.set = some d) (hsup : s.supersedes p w i C d reps T) (h : s.taken.releasesBinding p C.state reps t) :
    exec i s = .next (t.withExchange (if activeClass T = none then t.exchange.showCircuit p (C.unbound T).toQuiet
      else (t.exchange.showCircuit p (C.unbound T)).proceed p C.state)) := by
  obtain ⟨x, hleave, ht⟩ := State.leave_of_releasesBinding (by exact hC) hok h
  have hbound := Circuit.bound_of_releasesBinding hok h
  have hgap : C.state ≠ .gap := fun hst => hbound ((Circuit.binding_eq_none_iff hok).2 (.inr hst))
  have hexchange : x = t.exchange := by
    rw [← ht]
    rfl
  have hx : x.circuit p = C := by
    have hcircuits := Exchange.circuits_leave s.taken.exchange p
    rw [hleave] at hcircuits
    exact (congrArg (fun v : Vector Circuit 64 => v[p]) hcircuits).trans hC
  rw [exec_of_supersedes hhead hC hd hsup hleave hx, Exchange.afterLeave_of_bound hx hbound, if_neg hgap,
    Exchange.enterQuiet_showCircuit, ← hexchange]
  refine congrArg Host.Outcome.next ?_
  rw [← ht]
  rfl

theorem State.gapSetting_of_releasesBinding (hC : s.orders.circuits[p] = C) (hok : C.consistent = true)
    (h : s.releasesBinding p C.state reps t) : t.orders.gapSetting = s.orders.gapSetting := by
  obtain ⟨x, hleave, rfl⟩ := State.leave_of_releasesBinding hC hok h
  have hgap : (s.exchange.leave p).2.orders.gapSetting = s.orders.gapSetting := by
    have hheld : (s.exchange.leave p).2.held = s.exchange.held := by
      unfold Exchange.leave
      split <;> simp
    exact congrArg (fun h => h.1.1) hheld
  rw [hleave] at hgap
  exact hgap

end

/-- Settles O30. -/
theorem leavingATreatment : Obligations.LeavingATreatment := by
  rintro p w s t i d C E T reps hhead hC hok hd hsup hrelease rfl
  have hexec := exec_of_releasesBinding hhead hC hok hd hsup hrelease
  have hgap' := State.gapSetting_of_releasesBinding (by exact hC) hok hrelease
  refine ⟨fun hT => ?_, fun hT hstate hsetting => ?_, fun c x u hT hx hstate hs => ?_⟩
  · rw [hexec, if_pos hT]
    rfl
  · have hhears : C.state.hears = true := by rcases hstate with h | h <;> rw [h] <;> rfl
    have hsetting' : t.exchange.orders.gapSetting = s.orders.gapSetting := hgap'
    rw [hexec, if_neg hT, Exchange.proceed, Exchange.showCircuit_circuit, if_neg (by exact hT),
      if_pos ⟨hhears, by exact hsetting'.symm ▸ hsetting⟩, Exchange.enterGap_showCircuit, hsetting']
    rfl
  · have hstarting : Exchange.Starting ((t.exchange.showCircuit p (C.unbound T)).bumpTag p) t p { C with
        set := T, binding := .none, gapLeft := 0, waited := 0, limit := .counting
        latched := (activeEntry T).bind fun x => x.origin.map Origin.grade } { C.unbound T with tag := C.tag + 1 } := by
      have h := Exchange.starting_showCircuit (s := t) (p := p) (C := C.unbound T) rfl rfl
      exact ⟨h.tag, h.bound, h.exchange⟩
    obtain ⟨e', hstart, hu⟩ := hstarting.startEntry (by exact hT) (by exact hx) hs
    have hproceed : (t.exchange.showCircuit p (C.unbound T)).proceed p C.state = e' := by
      rw [Exchange.proceed, Exchange.showCircuit_circuit, if_neg (by rw [show (C.unbound T).set = T from rfl, hT]; exact Option.some_ne_none c),
        if_neg, Exchange.startActive_of_started (by rw [Exchange.showCircuit_circuit]; exact hT)
        (by rw [Exchange.showCircuit_circuit]; exact hx) hstart]
      rintro ⟨hhears, hsetting⟩
      have hsetting' : 1 ≤ s.orders.gapSetting := hgap' ▸ hsetting
      rcases hstate with h | h | h
      · rw [h] at hhears
        cases hhears
      · rw [h] at hhears
        cases hhears
      · omega
    rw [hexec, if_neg (by rw [hT]; exact Option.some_ne_none c), hproceed, hu]

end Sys2Proof.Machine
end

