-- ==== Sys2Proof/Proofs/NoticesThatEndAnEntry.lean ====
section
/-!
PROOF. Notices that end an entry (chapters 1.3, 1.5, 1.6 and 1.7). O35.
-/
namespace Sys2Proof.Machine

section
variable {e : Exchange} {s t : State} {p : Circ} {C : Circuit} {x y : Entry} {c d : Cls} {g : Tag} {i : Instr} {k : ReportKind}
  {v : Nat} {T : TreatmentSet} {next : Option PlanNo}

/-- The record with the set `T`, bound nowhere (R20 to R22). -/
def Circuit.ended (T : TreatmentSet) (C : Circuit) : Circuit := { C.withSet T with binding := .none }

theorem Exchange.showCircuit_setCircuit (p : Circ) (C D : Circuit) (e : Exchange) :
    (e.setCircuit p C).showCircuit p D = e.showCircuit p D := by
  rw [Exchange.setCircuit]
  split
  · exact Exchange.showCircuit_replaced p C D e
  · exact Exchange.showCircuit_showCircuit p C D e

/-- A binding given up shows in the status word (R26), whatever entry was put in place or removed with it. -/
theorem Exchange.setEntry_unbound (hp : e.circuit p = C) (hb : C.binding ≠ .none) (c : Cls) (z : Option Entry) :
    (e.setEntry p c z).setCircuit p { (e.setEntry p c z).circuit p with binding := .none }
      = e.showCircuit p (C.ended (C.set.set c z)) := by
  have hcircuit : (e.setEntry p c z).circuit p = C.withSet (C.set.set c z) := by
    rw [Exchange.setEntry, hp, Exchange.setCircuit_circuit]
  rw [hcircuit, Exchange.setCircuit_of_shown, Exchange.setEntry, Exchange.showCircuit_setCircuit]
  · rfl
  · rw [hcircuit]
    exact Circuit.sameShown_of_binding_ne hb

/-- What a notice that ends the active entry leads to: the set `T` in place, the report, and step 4 of R20. -/
def Exchange.endEntry (p : Circ) (C : Circuit) (T : TreatmentSet) (k : ReportKind) (v : Nat) (e : Exchange) : Exchange :=
  ((e.showCircuit p (C.ended T)).report p k v).proceed p C.state

theorem Exchange.complete_eq (hp : e.circuit p = C) (hb : C.binding ≠ .none) (k : ReportKind) (c : Cls) (x : Entry) :
    e.complete p k c x = e.endEntry p C (C.set.set c none) k (entryValue c x) := by
  rw [Exchange.complete, Exchange.removeEntry, hp]
  dsimp only
  rw [Exchange.setEntry_unbound hp hb]
  rfl

theorem Exchange.replaceBy_eq (hp : e.circuit p = C) (hb : C.binding ≠ .none) (q : PlanNo) (k : ReportKind) (c : Cls) (x : Entry) :
    e.replaceBy q p k c x = e.endEntry p C (C.set.set c (some (x.replacement q))) k (entryValue c x) := by
  rw [Exchange.replaceBy, hp]
  dsimp only
  rw [Exchange.setEntry_unbound hp hb]
  rfl

theorem Exchange.fallBack_eq (hp : e.circuit p = C) (hb : C.binding ≠ .none) (k : ReportKind) (c : Cls) (x : Entry) :
    e.fallBack p k c x = e.endEntry p C (C.set.set c (x.fallback.map fun q => x.replacement q)) k (entryValue c x) := by
  rw [Exchange.fallBack]
  cases x.fallback with
  | none => exact Exchange.complete_eq hp hb k c x
  | some q => exact Exchange.replaceBy_eq hp hb q k c x

theorem Exchange.followOn_eq (hp : e.circuit p = C) (hb : C.binding ≠ .none) (c : Cls) (x : Entry) :
    e.followOn p c x = e.endEntry p C (C.set.set c (x.followOn.map fun q => x.replacement q)) .annDone (entryValue c x) := by
  rw [Exchange.followOn]
  cases x.followOn with
  | none => exact Exchange.complete_eq hp hb .annDone c x
  | some q => exact Exchange.replaceBy_eq hp hb q .annDone c x

/-- A notice with the circuit's tag is applied to its active entry (R4). -/
theorem Exchange.onNotice_of_active (hp : e.circuit p = C) (htag : C.tag = g)
    (hstate : C.state = .channelWait ∨ C.state = .tone ∨ C.state = .annWait ∨ C.state = .hear)
    (hactive : activeClass C.set = some c) (hx : C.set[c] = some x) (f : Cls → Entry → Exchange → Exchange) :
    e.onNotice p g f = f c x e := by
  rw [Exchange.onNotice, hp, if_pos (C.takes_eq_true htag hstate), hactive]
  dsimp only
  rw [hx]

/-- The notices that end an entry, the one at the head of its pool's list taken, from `s` to `t`: its circuit's set becomes `T`. -/
theorem exec_endsEntry (hrun : s.running = true) (hC : s.orders.circuits[p] = C) (hok : C.consistent = true)
    (hactive : activeClass C.set = some c) (hx : C.set[c] = some x) (htag : C.tag = g)
    (hnotice : (∃ rest,
      (C.state = .tone ∨ C.state = .channelWait) ∧ next = none ∧ t = { s with chans := { s.chans with notices := rest } }
        ∧ (i = .doneNotice ∧ s.chans.notices = ⟨p, g, .done⟩ :: rest ∧ k = .treatmentDone
          ∨ i = .withdrawnNotice ∧ s.chans.notices = ⟨p, g, .withdrawn⟩ :: rest ∧ k = .planWithdrawn))
      ∨ (∃ rest,
      (C.state = .hear ∨ C.state = .annWait) ∧ t = { s with players := { s.players with notices := rest } }
        ∧ (i = .repeatsExhaustedNotice ∧ s.players.notices = ⟨p, g, .exhausted⟩ :: rest ∧ k = .annDone
            ∧ next = x.followOn
          ∨ i = .unavailableNotice ∧ s.players.notices = ⟨p, g, .unavailable⟩ :: rest ∧ k = .annUnavailable
            ∧ next = x.fallback
          ∨ i = .expiryAnswer ∧ s.players.notices = ⟨p, g, .expired⟩ :: rest ∧ k = .annWaitExpired
            ∧ next = x.fallback))) :
    exec i s = .next (t.withExchange (t.exchange.endEntry p C (C.set.set c (next.map fun q => x.replacement q)) k
        (entryValue c x)))
      ∧ t.orders = s.orders ∧ t.plans = s.plans ∧ t.chans.chans = s.chans.chans ∧ t.chans.queue = s.chans.queue := by
  obtain ⟨-, -, hanswer, hdone, hwithdrawn, hexhausted, hunavailable⟩ := exec_takesNotice hrun
  have hbound : C.state = .channelWait ∨ C.state = .tone ∨ C.state = .annWait ∨ C.state = .hear := by
    rcases hnotice with ⟨_, h | h, _⟩ | ⟨_, h | h, _⟩ <;> simp [h]
  have hb : C.binding ≠ .none := fun hb => by
    rcases (Circuit.binding_eq_none_iff hok).1 hb with h | h <;> rw [h] at hbound <;> simp at hbound
  rcases hnotice with ⟨rest, -, rfl, rfl, hcases⟩ | ⟨rest, -, rfl, hcases⟩
  · refine ⟨?_, rfl, rfl, rfl, rfl⟩
    have hp : Exchange.circuit { s.exchange with chans := { s.chans with notices := rest } } p = C := hC
    rcases hcases with ⟨rfl, hhead, rfl⟩ | ⟨rfl, hhead, rfl⟩
    · rw [hdone, State.onExchange, Exchange.takeChannelNotice_cons (by exact hhead) rfl]
      exact congrArg (fun e => Host.Outcome.next (s.withExchange e))
        ((Exchange.onNotice_of_active hp htag hbound hactive hx _).trans (Exchange.complete_eq hp hb _ c x))
    · rw [hwithdrawn, State.onExchange, Exchange.takeChannelNotice_cons (by exact hhead) rfl]
      exact congrArg (fun e => Host.Outcome.next (s.withExchange e))
        ((Exchange.onNotice_of_active hp htag hbound hactive hx _).trans (Exchange.complete_eq hp hb _ c x))
  · refine ⟨?_, rfl, rfl, rfl, rfl⟩
    have hp : Exchange.circuit { s.exchange with players := { s.players with notices := rest } } p = C := hC
    rcases hcases with ⟨rfl, hhead, rfl, rfl⟩ | ⟨rfl, hhead, rfl, rfl⟩ | ⟨rfl, hhead, rfl, rfl⟩
    · rw [hexhausted, State.onExchange, Exchange.takePlayerNotice_cons (by exact hhead) rfl]
      exact congrArg (fun e => Host.Outcome.next (s.withExchange e))
        ((Exchange.onNotice_of_active hp htag hbound hactive hx _).trans (Exchange.followOn_eq hp hb c x))
    · rw [hunavailable, State.onExchange, Exchange.takePlayerNotice_cons (by exact hhead) rfl]
      exact congrArg (fun e => Host.Outcome.next (s.withExchange e))
        ((Exchange.onNotice_of_active hp htag hbound hactive hx _).trans (Exchange.fallBack_eq hp hb _ c x))
    · rw [hanswer, State.onExchange, Exchange.takePlayerNotice_cons (by exact hhead) rfl]
      exact congrArg (fun e => Host.Outcome.next (s.withExchange e))
        ((Exchange.onNotice_of_active hp htag hbound hactive hx _).trans (Exchange.fallBack_eq hp hb _ c x))

/-! ### What follows -/

theorem Exchange.endEntry_quiet (hT : activeClass T = none) : e.endEntry p C T k v
    = (e.showCircuit p { C with
      set := T, state := .quiet, binding := .none, gapLeft := 0, waited := 0, latched := none, limit := .counting }).report p k v := by
  have hcircuit : ((e.showCircuit p (C.ended T)).report p k v).circuit p = C.ended T :=
    Exchange.showCircuit_circuit p (C.ended T) e
  have hlatched : (activeEntry T).bind (fun x => x.origin.map Origin.grade) = none := by rw [activeEntry, hT]; rfl
  rw [Exchange.endEntry, Exchange.proceed, hcircuit, if_pos (by exact hT), Exchange.enterQuiet, hcircuit,
    Exchange.setCircuit_report, Exchange.setCircuit_showCircuit, ← hlatched]
  rfl

theorem Exchange.endEntry_gap (hT : activeClass T ≠ none) (hstate : C.state = .tone ∨ C.state = .hear)
    (hgap : 1 ≤ e.orders.gapSetting) : e.endEntry p C T k v = (e.showCircuit p { C with
      set := T, state := .gap, binding := .none, gapLeft := e.orders.gapSetting, waited := 0, limit := .counting
      latched := (activeEntry T).bind fun y => y.origin.map Origin.grade }).report p k v := by
  have hcircuit : ((e.showCircuit p (C.ended T)).report p k v).circuit p = C.ended T :=
    Exchange.showCircuit_circuit p (C.ended T) e
  have hhears : C.state.hears = true := by rcases hstate with h | h <;> rw [h] <;> rfl
  rw [Exchange.endEntry, Exchange.proceed, hcircuit, if_neg (by exact hT), if_pos ⟨hhears, hgap⟩, Exchange.enterGap, hcircuit,
    Exchange.setCircuit_report, Exchange.setCircuit_showCircuit]
  rfl

theorem Exchange.endEntry_starts (hT : activeClass T ≠ none)
    (hstate : C.state = .channelWait ∨ C.state = .annWait ∨ e.orders.gapSetting = 0) :
    e.endEntry p C T k v = ((e.showCircuit p (C.ended T)).report p k v).startActive p := by
  have hcircuit : ((e.showCircuit p (C.ended T)).report p k v).circuit p = C.ended T :=
    Exchange.showCircuit_circuit p (C.ended T) e
  rw [Exchange.endEntry, Exchange.proceed, hcircuit, if_neg (by exact hT), if_neg]
  rintro ⟨hhears, hsetting⟩
  have hsetting' : 1 ≤ e.orders.gapSetting := hsetting
  rcases hstate with h | h | h
  · rw [h] at hhears
    cases hhears
  · rw [h] at hhears
    cases hhears
  · omega

/-- The entry left starts at once, on the state with the report submitted (R13). -/
theorem State.endEntry_startsTone {q : PlanNo} {priv : Bool} {u : State} (hT : activeClass T = some d) (hy : T[d] = some y)
    (hstate : C.state = .channelWait ∨ C.state = .annWait ∨ t.orders.gapSetting = 0)
    (htreat : y.treat = if priv then .tonePrivate q else .toneShared q)
    (hs : (t.submit .orderUnit k p.val v).startsTone p (C.ended T) priv q u) :
    t.withExchange (t.exchange.endEntry p C T k v) = u := by
  obtain ⟨e', hstart, hu⟩ := State.startEntry_tone (c := d) htreat hs
  have hset : (((t.submit .orderUnit k p.val v).exchange.showCircuit p (C.ended T)).circuit p).set = T := by
    rw [Exchange.showCircuit_circuit]
    rfl
  have hactive := Exchange.startActive_of_started (by rw [hset]; exact hT) (by rw [hset]; exact hy) hstart
  rw [Exchange.endEntry_starts (by rw [hT]; exact Option.some_ne_none d) hstate, ← hu]
  exact congrArg t.withExchange hactive

/-- The one entry left is a tone whose plan is not valid: it completes with PLAN_WITHDRAWN (R16). -/
theorem State.endEntry_fails {q : PlanNo} {priv : Bool} (hT : activeClass T = some d) (hy : T[d] = some y)
    (honly : ∀ c : Cls, c ≠ d → T[c] = none)
    (hstate : C.state = .channelWait ∨ C.state = .annWait ∨ t.orders.gapSetting = 0)
    (htreat : y.treat = if priv then .tonePrivate q else .toneShared q) (hinvalid : ¬ t.planUsable q) :
    t.withExchange (t.exchange.endEntry p C T k v) = State.submit
      (State.submit (t.showCircuit p { (C.ended T).started .quiet .none with set := Vector.replicate 4 none, latched := none })
        .orderUnit k p.val v) .orderUnit .planWithdrawn p.val (entryValue d y) := by
  have hstarting := Exchange.starting_showCircuit (s := t.submit .orderUnit k p.val v) (p := p) (C := C.ended T) rfl rfl
  obtain ⟨hempty, hdone⟩ := hstarting.fails (c := d) (x := y) (by exact hy) (by exact honly) .planWithdrawn (entryValue d y)
  have htone : y.treat = .toneShared q ∨ y.treat = .tonePrivate q := by
    rw [htreat]
    cases priv with
    | true => exact .inr rfl
    | false => exact .inl rfl
  have hfail := hstarting.startEntry_fails (x := y) (c := d) (.inl ⟨q, htone, by exact hinvalid, rfl⟩)
  have hset : (((t.submit .orderUnit k p.val v).exchange.showCircuit p (C.ended T)).circuit p).set
      = (Vector.replicate 4 none).set d (some y) := by
    rw [Exchange.showCircuit_circuit, ← set_eq_single hy honly]
    rfl
  have hactive := (Exchange.startActive_single p d y _ hset).2 _ hfail hempty
  rw [Exchange.endEntry_starts (by rw [hT]; exact Option.some_ne_none d) hstate]
  refine (congrArg t.withExchange hactive).trans (Eq.trans ?_ hdone)
  rfl

end

theorem none_of_activeClass_set {T : TreatmentSet} {d : Cls} (h : activeClass (T.set d none) = none) (c : Cls) (hc : c ≠ d) :
    T[c] = none :=
  (Vector.getElem_set_ne d.isLt c.isLt fun h => hc (Fin.ext h.symm)).symm.trans ((activeClass_eq_none_iff _).1 h c)

/-- Settles O35. -/
theorem noticesThatEndAnEntry : Obligations.NoticesThatEndAnEntry := by
  rintro p s t C x c g i kind next T hrun hC hok hactive hx htag hnotice hT
  obtain ⟨hexec, horders, hplans, hchans, hqueue⟩ := exec_endsEntry hrun hC hok hactive hx htag hnotice
  have hT' : C.set.set c (next.map fun q => x.replacement q) = T := hT.symm
  rw [hT'] at hexec
  have hstarted : ∀ (y : Entry) (d : Cls), activeClass T = some d → T[d] = some y → ∀ (D : Circuit), D = { C with
      set := T, tag := C.tag + 1, gapLeft := 0, waited := 0, limit := .counting, latched := y.origin.map Origin.grade } →
      ∀ st b, (C.ended T).started st b = { D with state := st, binding := b } := fun y d hd hy D hD st b => by
    have hlatched : (activeEntry T).bind (fun x => x.origin.map Origin.grade) = y.origin.map Origin.grade := by
      rw [activeEntry_of_active hd, hy]
      rfl
    rw [hD, ← hlatched]
    rfl
  have hargument : ∀ (y : Entry) (priv : Bool) (q : PlanNo), y.treat = (if priv then .tonePrivate q else .toneShared q) →
      y.argument = q.val := fun y priv q htreat => by
    rw [Entry.argument, htreat]
    cases priv <;> rfl
  have hgap' : t.orders.gapSetting = s.orders.gapSetting := congrArg OrderUnit.gapSetting horders
  have hgap : t.exchange.orders.gapSetting = s.orders.gapSetting := congrArg OrderUnit.gapSetting horders
  have hjoin : ∀ q j, t.joinable q j = s.joinable q j := fun q j => by
    rw [State.joinable, State.joinable, hchans, hplans]
  have hbank : ∀ b, t.plans.bank b = s.plans.bank b := fun b => by rw [hplans]
  refine ⟨fun hnone => ?_, fun hsome hstate hsetting => ?_, fun y d priv q D hstate hd hy htreat hD =>
    ⟨fun b k hlive hvalid hfree hk hbelow => ?_, fun husable hno hfull => ?_, fun hinvalid hnone => ?_⟩⟩
  · rw [hexec, Exchange.endEntry_quiet hnone]
    rfl
  · rw [hexec, Exchange.endEntry_gap hsome hstate (by rw [hgap]; exact hsetting), hgap]
    rfl
  · rw [hexec, State.endEntry_startsTone hd hy (by rw [hgap']; exact hstate) htreat ⟨b, by exact hplans ▸ hlive, by
      exact hplans ▸ hvalid, .inl ⟨k, by exact hchans ▸ hk, by exact hchans ▸ hbelow, hfree.imp_right fun h j => (hjoin q j).trans (h j), rfl⟩⟩]
    rw [hstarted y d hd hy D hD, ← hplans, ← hchans]
    rfl
  · obtain ⟨b, hlive, hvalid⟩ := husable
    rw [hexec, State.endEntry_startsTone hd hy (by rw [hgap']; exact hstate) htreat ⟨b, by exact hplans ▸ hlive,
      by exact hplans ▸ hvalid, .inr (.inr ⟨fun j => (hjoin q j).trans (hno j), by exact hchans ▸ hfull, rfl⟩)⟩]
    rw [hstarted y d hd hy D hD, ← hqueue]
    rfl
  · have honly := none_of_activeClass_set hnone
    have hvalue : entryValue d y = 0x100 * d.val + q.val := by rw [entryValue, hargument y priv q htreat]
    have hinvalid' : ¬ t.planUsable q := by
      rw [State.planUsable, hplans]
      exact hinvalid
    rw [hexec, State.endEntry_fails hd hy honly (by rw [hgap']; exact hstate) htreat hinvalid',
      hstarted y d hd hy D hD, set_none_of_only honly, hvalue]
    rfl

end Sys2Proof.Machine
end
